-- ==== Sys2Proof/Word.lean ====
section
/-! DEFINITION. The word types of SMKDEC (10_state.md R20: every register's width). -/

namespace Sys2Proof

/-- One byte: a memory cell, a command code, a small-tree symbol (20_memory.md R69). -/
abbrev Byte := BitVec 8

/-- 16 bits: a bigtree symbol, RESULT, STATUS, LOG (10_state.md R20). -/
abbrev Half := BitVec 16

/-- 32 bits: an address, a size, a position, an operand (10_state.md R20). -/
abbrev Word := BitVec 32

end Sys2Proof
end

