-- ==== Sys2Proof/Syntax.lean ====
section
/-! DEFINITION. The instructions of SMKDEC: one constructor for each row of spec/opcode_table.json, in the table's
order. The operands of a host command stand in ARG0..2, not in its code (30_encoding.md R91). -/

namespace Sys2Proof

/-- The rows of the opcode table. -/
inductive Instr where
  -- Host commands (30_encoding.md R92).
  | nop
  | softReset
  | logClear
  | bsOpen
  | bsReadBit
  | bsReadByte
  | stBuild
  | stLookup
  | btBuild
  | btBuildAll
  | btReset
  | btLookup
  | audDecode
  | vidDecode
  -- Block types: the fields of a TYPEWORD (30_encoding.md R103, R106).
  | mono (payload : Byte) (runidx : BitVec 6)
  | full (payload : Byte) (runidx : BitVec 6)
  | void (payload : Byte) (runidx : BitVec 6)
  | solid (payload : Byte) (runidx : BitVec 6)
  | double (payload : Byte) (runidx : BitVec 6)
  | half (payload : Byte) (runidx : BitVec 6)
  -- Tokens of a serialised small tree (30_encoding.md R94).
  | tree8Absent
  | tree8Present
  | node8Branch
  | node8Leaf (value : Byte)
  | treeTerm
  -- Tokens of a serialised bigtree (30_encoding.md R98).
  | tree16Absent
  | tree16Present
  | seed (low high : Byte)
  | node16Branch
  | node16Leaf
  -- Tokens of a DPCM record (30_encoding.md R112 to R115).
  | dpcmN (n : Word)
  | dpcmHeader (stereo depth16 : Bool)
  | dpcmInit8 (value : Byte)
  | dpcmInit16 (high low : Byte)
deriving DecidableEq, Repr

end Sys2Proof
end

