-- ==== Sys2Proof/WellFormed.lean ====
section
/-! DEFINITION. The places a pattern is read at (30_encoding.md R90) and which instruction may stand at which.
Every value of an instruction's fields is legal (R96, R103), so the place and the version are the only checks. -/

namespace Sys2Proof

/-- What the engine reads next: the formats of 30_encoding.md R90, one for each kind of token. `typeWord v4` is a
TYPEWORD with its TYPEEXT bits, read with `CFG.VERSION = '4'` when `v4` holds (R105). -/
inductive Format where
  | cmd
  | typeWord (v4 : Bool)
  | tree8
  | node8
  | term
  | tree16
  | seed
  | node16
  | dpcmN
  | dpcmHeader
  | init8
  | init16
deriving DecidableEq, Repr

/-- The instruction `i` may stand where format `f` is read (30_encoding.md R90 to R116). DOUBLE and HALF exist in
version '4' only (R106). -/
def WellFormed (f : Format) (i : Instr) : Bool :=
  match i with
  | .nop | .softReset | .logClear | .bsOpen | .bsReadBit | .bsReadByte | .stBuild | .stLookup | .btBuild
  | .btBuildAll | .btReset | .btLookup | .audDecode | .vidDecode => f == .cmd
  | .mono _ _ | .full _ _ | .void _ _ | .solid _ _ => f == .typeWord false || f == .typeWord true
  | .double _ _ | .half _ _ => f == .typeWord true
  | .tree8Absent | .tree8Present => f == .tree8
  | .node8Branch | .node8Leaf _ => f == .node8
  | .treeTerm => f == .term
  | .tree16Absent | .tree16Present => f == .tree16
  | .seed _ _ => f == .seed
  | .node16Branch | .node16Leaf => f == .node16
  | .dpcmN _ => f == .dpcmN
  | .dpcmHeader _ _ => f == .dpcmHeader
  | .dpcmInit8 _ => f == .init8
  | .dpcmInit16 _ _ => f == .init16

end Sys2Proof
end

