-- ==== Sys2Proof/Decode.lean ====
section
/-! DEFINITION. Decoding, total on any bits, and the encoder. A pattern is a list of bits in stream order
(00_scope.md R7: the first bit consumed first; a byte's bits least significant first). A command code is its
8 bits, bit 0 first; a TYPEWORD is its 16 bits, bit 0 first, with the TYPEEXT bits after it. -/

namespace Sys2Proof

/-- The `k` low bits of a number, least significant first (00_scope.md R7). -/
def natBits : Nat → Nat → List Bool
  | 0, _ => []
  | k + 1, n => (n % 2 == 1) :: natBits k (n / 2)

/-- The number whose bits, least significant first, are the list (20_memory.md R63). -/
def ofBits : List Bool → Nat
  | [] => 0
  | b :: bs => b.toNat + 2 * ofBits bs

/-- The bits of a value, least significant first. -/
def bitsOf {w : Nat} (v : BitVec w) : List Bool := natBits w v.toNat

/-! ### Fields of a TYPEWORD (30_encoding.md R103) -/

/-- Bits 1:0. -/
def typeField (w : Half) : BitVec 2 := w.extractLsb' 0 2

/-- Bits 7:2. -/
def runidxField (w : Half) : BitVec 6 := w.extractLsb' 2 6

/-- Bits 15:8. -/
def payloadField (w : Half) : Byte := w.extractLsb' 8 8

/-- The TYPEWORD with the given fields. -/
def mkTypeWord (payload : Byte) (runidx : BitVec 6) (type : BitVec 2) : Half := payload ++ runidx ++ type

/-! ### Decoding -/

/-- Why bits are no instruction. -/
inductive DecodeError where
  /-- A command code that 30_encoding.md R92 does not list (R93). -/
  | reservedCommand (code : Byte)
  /-- A terminator of 1 (R97). -/
  | badTerminator
  /-- The first bit of a DPCM record's bitstream is 0 (R113). -/
  | noData
  /-- More bits than the instruction has: never met by the engine, which reads one bit at a time. -/
  | overlong
deriving DecidableEq, Repr

/-- What bits at a place are. -/
inductive Decoded where
  /-- No instruction yet: more bits belong to it. -/
  | more
  | instr (i : Instr)
  | reject (e : DecodeError)
deriving DecidableEq, Repr

/-- The command table (30_encoding.md R92); every other code is reserved (R93). -/
def decodeCommand (code : Byte) : Decoded :=
  match code.toNat with
  | 0x00 => .instr .nop
  | 0x01 => .instr .softReset
  | 0x02 => .instr .logClear
  | 0x10 => .instr .bsOpen
  | 0x11 => .instr .bsReadBit
  | 0x12 => .instr .bsReadByte
  | 0x20 => .instr .stBuild
  | 0x21 => .instr .stLookup
  | 0x30 => .instr .btBuild
  | 0x31 => .instr .btBuildAll
  | 0x32 => .instr .btReset
  | 0x33 => .instr .btLookup
  | 0x40 => .instr .audDecode
  | 0x50 => .instr .vidDecode
  | _ => .reject (.reservedCommand code)

/-- A TYPEWORD and the TYPEEXT bits read so far (30_encoding.md R103, R105, R106). Outside type 1 of version '4'
no TYPEEXT bit exists. -/
def decodeType (v4 : Bool) (w : Half) (ext : List Bool) : Decoded :=
  let p := payloadField w
  let r := runidxField w
  if v4 = true ∧ typeField w = 1 then
    match ext with
    | [] => .more
    | [true] => .instr (.double p r)
    | [false] => .more
    | [false, true] => .instr (.half p r)
    | [false, false] => .instr (.full p r)
    | _ => .reject .overlong
  else if ext = [] then
    if typeField w = 0 then .instr (.mono p r)
    else if typeField w = 1 then .instr (.full p r)
    else if typeField w = 2 then .instr (.void p r)
    else .instr (.solid p r)
  else .reject .overlong

/-- A field of exactly `w` bits. -/
def whole (w : Nat) (bits : List Bool) (k : Nat → Decoded) : Decoded :=
  if bits.length < w then .more
  else if bits.length = w then k (ofBits bits)
  else .reject .overlong

/-- The decoder: what the bits read at a place of format `f` are. -/
def decode (f : Format) (bits : List Bool) : Decoded :=
  match f with
  | .cmd => whole 8 bits fun n => decodeCommand (BitVec.ofNat 8 n)
  | .typeWord v4 =>
    if bits.length < 16 then .more
    else decodeType v4 (BitVec.ofNat 16 (ofBits (bits.take 16))) (bits.drop 16)
  | .tree8 =>
    match bits with
    | [] => .more
    | [false] => .instr .tree8Absent
    | [true] => .instr .tree8Present
    | _ => .reject .overlong
  | .node8 =>
    match bits with
    | [] => .more
    | false :: value => whole 8 value fun n => .instr (.node8Leaf (BitVec.ofNat 8 n))
    | [true] => .instr .node8Branch
    | _ => .reject .overlong
  | .term =>
    match bits with
    | [] => .more
    | [false] => .instr .treeTerm
    | [true] => .reject .badTerminator
    | _ => .reject .overlong
  | .tree16 =>
    match bits with
    | [] => .more
    | [false] => .instr .tree16Absent
    | [true] => .instr .tree16Present
    | _ => .reject .overlong
  | .seed =>
    whole 16 bits fun n => .instr (.seed (BitVec.ofNat 8 n) (BitVec.ofNat 8 (n / 256)))
  | .node16 =>
    match bits with
    | [] => .more
    | [false] => .instr .node16Leaf
    | [true] => .instr .node16Branch
    | _ => .reject .overlong
  | .dpcmN => whole 32 bits fun n => .instr (.dpcmN (BitVec.ofNat 32 n))
  | .dpcmHeader =>
    match bits with
    | [] => .more
    | false :: _ => .reject .noData
    | [true] => .more
    | [true, _] => .more
    | [true, s, d] => .instr (.dpcmHeader s d)
    | _ => .reject .overlong
  | .init8 => whole 8 bits fun n => .instr (.dpcmInit8 (BitVec.ofNat 8 n))
  | .init16 =>
    whole 16 bits fun n => .instr (.dpcmInit16 (BitVec.ofNat 8 n) (BitVec.ofNat 8 (n / 256)))

/-- The first instruction of a list of bits: bits are added to `acc` until they decode. -/
def decodePrefix (f : Format) (acc : List Bool) : List Bool → Option Instr
  | [] =>
    match decode f acc with
    | .instr i => some i
    | _ => none
  | b :: rest =>
    match decode f acc with
    | .instr i => some i
    | .reject _ => none
    | .more => decodePrefix f (acc ++ [b]) rest

/-! ### Encoding -/

/-- The code of a host command (30_encoding.md R92); `none` for a token of a stream. -/
def commandCode (i : Instr) : Option Byte :=
  match i with
  | .nop => some 0x00
  | .softReset => some 0x01
  | .logClear => some 0x02
  | .bsOpen => some 0x10
  | .bsReadBit => some 0x11
  | .bsReadByte => some 0x12
  | .stBuild => some 0x20
  | .stLookup => some 0x21
  | .btBuild => some 0x30
  | .btBuildAll => some 0x31
  | .btReset => some 0x32
  | .btLookup => some 0x33
  | .audDecode => some 0x40
  | .vidDecode => some 0x50
  | .mono _ _ | .full _ _ | .void _ _ | .solid _ _ | .double _ _ | .half _ _
  | .tree8Absent | .tree8Present | .node8Branch | .node8Leaf _ | .treeTerm
  | .tree16Absent | .tree16Present | .seed _ _ | .node16Branch | .node16Leaf
  | .dpcmN _ | .dpcmHeader _ _ | .dpcmInit8 _ | .dpcmInit16 _ _ => none

/-- The bits of a well-formed instruction at a place of format `f` (30_encoding.md R92 to R116; the table's patterns).
The format matters for FULL alone, which version '4' follows with the TYPEEXT bits 0, 0 (R105). -/
def encode (f : Format) (i : Instr) : List Bool :=
  match i with
  | .nop | .softReset | .logClear | .bsOpen | .bsReadBit | .bsReadByte | .stBuild | .stLookup | .btBuild
  | .btBuildAll | .btReset | .btLookup | .audDecode | .vidDecode =>
    match commandCode i with
    | some code => bitsOf code
    | none => []
  | .mono p r => bitsOf (mkTypeWord p r 0)
  | .full p r => bitsOf (mkTypeWord p r 1) ++ (if f = .typeWord true then [false, false] else [])
  | .void p r => bitsOf (mkTypeWord p r 2)
  | .solid p r => bitsOf (mkTypeWord p r 3)
  | .double p r => bitsOf (mkTypeWord p r 1) ++ [true]
  | .half p r => bitsOf (mkTypeWord p r 1) ++ [false, true]
  | .tree8Absent => [false]
  | .tree8Present => [true]
  | .node8Branch => [true]
  | .node8Leaf v => false :: bitsOf v
  | .treeTerm => [false]
  | .tree16Absent => [false]
  | .tree16Present => [true]
  | .seed l h => bitsOf l ++ bitsOf h
  | .node16Branch => [true]
  | .node16Leaf => [false]
  | .dpcmN n => bitsOf n
  | .dpcmHeader s d => [true, s, d]
  | .dpcmInit8 v => bitsOf v
  | .dpcmInit16 h l => bitsOf h ++ bitsOf l

/-! ### The host's words -/

/-- The place a word of the opcode table is read at (log 9). Rows of different formats share the same word (0 in 8 bits
is NOP and also an absent tree): a word of 8 bits is read as a command, one of 16 bits as a TYPEWORD of version '2', one
of 24 bits as a TYPEWORD of version '4' whose TYPEEXT bits are bits 16 and 17, one of 32 bits as a DPCM length. -/
def tableFormat (nbits : Nat) : Option Format :=
  if nbits = 8 then some .cmd
  else if nbits = 16 then some (.typeWord false)
  else if nbits = 24 then some (.typeWord true)
  else if nbits = 32 then some .dpcmN
  else none

/-- The instruction the decoder reads from the low `nbits` bits of `w`. -/
def decodeTableWord (nbits w : Nat) : Option Instr :=
  match tableFormat nbits with
  | some f => decodePrefix f [] (natBits nbits w)
  | none => none

end Sys2Proof
end

