-- ==== Sys2Proof/Config.lean ====
section
/-! DEFINITION. What an implementation fixes (00_scope.md R5, the parameters marked OPEN) and the free values.
A machine's parameters stand in `State.params` and no step changes them, so a statement about every state
holds for every choice of them (log 3). -/

namespace Sys2Proof.Config

/-- `HALF_VARIANT` (44_video_blocks.md R241). -/
inductive HalfVariant where
  | fourLookup
  | twoLookup
deriving DecidableEq, Repr

/-- `MISMATCH_POLICY` (43_audio_dpcm.md R204). -/
inductive MismatchPolicy where
  | terminate
  | continueDeclared
deriving DecidableEq, Repr

/-- `FB_RESET` (10_state.md R38). -/
inductive FbReset where
  | unspecified
  | zero
deriving DecidableEq, Repr

/-- The OPEN parameters of 00_scope.md R5. `none` is "unbounded". `IN_SIZE` is a 32-bit number because R5
bounds it by 2^32 - 1. -/
structure Params where
  inSize : Word
  fbMax : Option Nat
  aoutMax : Option Nat
  smallNodesMax : Option Nat
  bigNodesMax : Option Nat
  halfVariant : HalfVariant
  mismatchPolicy : MismatchPolicy
  fbReset : FbReset
deriving DecidableEq, Repr

/-- The defaults of 00_scope.md R5. `IN_SIZE` has no default there: 0xFFFFFFFF, the largest value R5 allows,
is a DESIGN CHOICE (unsafe, log 3). -/
def defaults : Params where
  inSize := 0xFFFFFFFF
  fbMax := none
  aoutMax := none
  smallNodesMax := none
  bigNodesMax := none
  halfVariant := .fourLookup
  mismatchPolicy := .terminate
  fbReset := .unspecified

/-- Whether a count is within a capacity (`none`: unbounded, R5). -/
def within (cap : Option Nat) (n : Nat) : Bool :=
  match cap with
  | none => true
  | some m => decide (n ≤ m)

/-- The FREE VALUE of an `FB` byte nothing has written since the content became unspecified for the
`draw`-th time (10_state.md R24, R38: "one arbitrary byte value per pixel, drawn at reset and not known to
any claim"). DESIGN CHOICE, safe (log 4). -/
opaque fbByte (draw addr : Nat) : Byte

end Sys2Proof.Config
end

