-- ==== Sys2Proof/Machine/State.lean ====
section
/-! DEFINITION. The state of SMKDEC (10_state.md R20), the reasons the model stops, and the state after reset. -/

namespace Sys2Proof.Machine

open Sys2Proof Sys2Proof.Config

/-! ### Registers, trees -/

/-- The bitstream registers `BS.*` (10_state.md R21). -/
structure BitStream where
  base : Word
  size : Word
  bytePos : Word
  bitPos : BitVec 3
deriving DecidableEq, Repr

/-- A node of a small tree (10_state.md R26). -/
inductive Node where
  | leaf (value : Byte)
  | branch (left right : Node)
deriving DecidableEq, Repr

/-- A small tree (10_state.md R26). -/
inductive SmallTree where
  | absent
  | present (root : Node)
deriving DecidableEq, Repr

/-- A node of a bigtree's lookup tree (10_state.md R27). -/
inductive BNode where
  | lit (value : Half)
  | esc (slot : Fin 3)
  | branch (left right : BNode)
deriving DecidableEq, Repr

/-- The MRU cache of a bigtree (10_state.md R28). -/
structure Cache where
  c0 : Half
  c1 : Half
  c2 : Half
deriving DecidableEq, Repr

/-- A bigtree (10_state.md R27). -/
inductive BigTree where
  | absent
  | present (low high : SmallTree) (lookup : BNode) (cache : Cache)
deriving DecidableEq, Repr

/-! ### The local variables of a running command (10_state.md R36 (e))

A tree being built is held as the node the engine will read next and the branches open above it, innermost first: `none`
where the left subtree is being read, `some l` where `l` is finished and the right one is being read. This is the
recursion of 41_small_tree.md R151 and 42_big_tree.md R171 as data. -/

/-- A `TREE8` being read (41_small_tree.md R150). -/
inductive SmallWork where
  /-- The control bit is next. -/
  | control
  /-- A node is next; `count` nodes exist (R156). -/
  | node (path : List (Option Node)) (count : Nat)
  /-- The terminator is next. -/
  | term (root : Node)
deriving DecidableEq, Repr

/-- A `TREE16` being read (42_big_tree.md R170). -/
inductive BigWork where
  /-- The control bit is next. -/
  | control
  /-- The low tree is being read. -/
  | low (w : SmallWork)
  /-- The high tree is being read. -/
  | high (low : SmallTree) (w : SmallWork)
  /-- A seed is next; `got` are the seeds read, in order. -/
  | seeds (low high : SmallTree) (got : List Half)
  /-- A node is next; `count` nodes exist (R171). -/
  | node (low high : SmallTree) (cache : Cache) (path : List (Option BNode)) (count : Nat)
  /-- The terminator is next. -/
  | term (low high : SmallTree) (cache : Cache) (root : BNode)
deriving DecidableEq, Repr

/-- A DPCM record being decoded (43_audio_dpcm.md R202 to R208). -/
inductive AudioWork where
  /-- The length is next (step 1). -/
  | length
  /-- The header bits are next (step 2). -/
  | header (n : Word)
  /-- The tree of slot `slot` is being read (step 5). -/
  | trees (n : Word) (slot : Fin 4) (w : SmallWork)
  /-- An initial sample is next (step 6); `got` are those read, in stream order. -/
  | init (n : Word) (got : List Half)
  /-- The delta loop (step 7): `out` bytes written, the last samples of channel 0 and 1. -/
  | deltas (n : Word) (out : Nat) (prev0 prev1 : Half)
deriving DecidableEq, Repr

/-- What the engine is in the middle of: `idle` between commands. -/
inductive Work where
  | idle
  /-- ST_BUILD (41_small_tree.md R153). -/
  | small (slot : Fin 4) (w : SmallWork)
  /-- BT_BUILD (42_big_tree.md R176). -/
  | big (id : Fin 4) (w : BigWork)
  /-- BT_BUILD_ALL, at tree `id` (42_big_tree.md R177). -/
  | bigAll (id : Fin 4) (w : BigWork)
  /-- AUD_DECODE of a DPCM record (43_audio_dpcm.md R202). -/
  | audio (track : Fin 7) (w : AudioWork)
  /-- VID_DECODE, before a group (44_video_blocks.md R232). -/
  | video
deriving DecidableEq, Repr

/-! ### Host accesses (46_system.md R284) -/

/-- The registers a host write may name. -/
inductive HostReg where
  | arg0 | arg1 | arg2
  | version | width | height
  | trk (t : Fin 7)
  -- read-only registers: a write is ignored
  | result | status | log
  | bsBase | bsSize | bsBytePos | bsBitPos
  | aoutLen (t : Fin 7)
  | scanRow | scanCol
deriving DecidableEq, Repr

/-- One access of the host that changes something. -/
inductive HostOp where
  /-- A write to `CMD`: it runs a command (46_system.md R280). -/
  | writeCmd (code : Byte)
  /-- A write to another register (46_system.md R284 (a)). -/
  | writeReg (r : HostReg) (v : Word)
  /-- A write of one byte of `IN` (46_system.md R284 (c)). -/
  | writeIn (addr : Nat) (v : Byte)
  /-- Power-on reset, from outside (70_reset_and_hazards.md R330). -/
  | powerOn
deriving DecidableEq, Repr

/-! ### Causes, and the model's own stops -/

/-- The causes of a fault of the engine (60_exceptions.md R291). Raising one is a next state, never a stop. -/
inductive Cause where
  | exhausted
  | badTerminator
  | absentTree
  | audioNoData
  | audioConfigMismatch
  | audioLength
  | badConfig
  | badCommand
  | treeCapacity
  | window
deriving DecidableEq, Repr

/-- Faults: the model stops. -/
inductive Fault where
  /-- Raised by a host write to `IN` at `addr`, which is not below `IN_SIZE`: no such byte exists
  (46_system.md R284 (c), 20_memory.md R60). Safe: nothing is said of what follows (log 11). -/
  | inAddress (addr : Nat)
deriving DecidableEq, Repr

/-- Refusals: no meaning. -/
inductive Refusal where
  /-- Raised by an arm of `exec` whose instruction has no meaning yet. Safe. -/
  | notModelled (mnemonic : String)
  /-- Raised by a token of a stream executed where the running command does not read such a token: the spec gives a
  token a meaning inside its structure only (30_encoding.md R90). Safe (log 8). -/
  | outOfContext
deriving DecidableEq, Repr

/-! ### The state -/

/-- The state: the fields of 10_state.md R20 in its order, then the model's own. -/
structure State where
  bs : BitStream
  cmd : Byte
  arg0 : Word
  arg1 : Word
  arg2 : Word
  result : Half
  status : Half
  log : Half
  version : Byte
  width : Word
  height : Word
  trk : Vector Word 7
  atree : Vector SmallTree 4
  vt : Vector BigTree 4
  /-- The bytes of `FB` written since its content last became unspecified (R30; log 4). -/
  fb : List Host.Cell
  /-- The bytes of `AOUT[t]`; an unlisted byte has no value (R31; log 6). -/
  aout : Vector (List Host.Cell) 7
  aoutLen : Vector Word 7
  scanRow : Word
  scanCol : Word
  /-- The model's own: the input memory `IN`, owned by the host (R36 (a); log 1, log 2). -/
  inMem : List Host.Cell
  /-- The model's own: the host's pending accesses, first to last (log 1). -/
  host : List HostOp
  /-- The model's own: the locals of a running command (R36 (e); log 7). -/
  work : Work
  /-- The model's own: how often the content of `FB` became unspecified (log 4). -/
  fbDraw : Nat
  /-- The model's own: the bytes of `FB` not written since are zero (`FB_RESET = zero`; log 5). -/
  fbZeroed : Bool
  /-- The model's own: the parameters of 00_scope.md R5, fixed for a machine (log 3). -/
  params : Params
deriving DecidableEq, Repr

/-- The state after power-on reset, column "After power-on reset" of 10_state.md R38, for a machine with the given
parameters, an input memory with the given content and the given host accesses to come. `draw` counts the contents
`FB` has had. -/
def State.powerOn (params : Params) (inMem : List Host.Cell) (host : List HostOp) (draw : Nat) : State where
  bs := { base := 0, size := 0, bytePos := 0, bitPos := 0 }
  cmd := 0
  arg0 := 0
  arg1 := 0
  arg2 := 0
  result := 0
  status := 0
  log := 0
  version := 0
  width := 0
  height := 0
  trk := Vector.replicate 7 0
  atree := Vector.replicate 4 .absent
  vt := Vector.replicate 4 .absent
  fb := []
  aout := Vector.replicate 7 []
  aoutLen := Vector.replicate 7 0
  scanRow := 0
  scanCol := 0
  inMem := inMem
  host := host
  work := .idle
  fbDraw := draw
  fbZeroed := decide (params.fbReset = .zero)
  params := params

/-- The machine right after reset: the default parameters, nothing written to `IN`, no host access pending. -/
def State.reset : State := State.powerOn Config.defaults [] [] 0

end Sys2Proof.Machine
end

