-- ==== Sys2Proof/Machine/Flags.lean ====
section
/-! DEFINITION. The status bits. SMKDEC has no condition flags (10_state.md R35); its status registers are STATUS and
LOG (10_state.md R23), computed here. -/

namespace Sys2Proof.Machine

open Sys2Proof

/-- The cause codes (60_exceptions.md R291). -/
def Cause.code (c : Cause) : Byte :=
  match c with
  | .exhausted => 1
  | .badTerminator => 2
  | .absentTree => 3
  | .audioNoData => 4
  | .audioConfigMismatch => 5
  | .audioLength => 6
  | .badConfig => 7
  | .badCommand => 8
  | .treeCapacity => 9
  | .window => 10

/-- STATUS with the given fields (10_state.md R23: cmd in bits 15:8, cause in bits 7:0). -/
def statusWord (cmd cause : Byte) : Half := cmd ++ cause

/-- `STATUS.cmd` (10_state.md R23). -/
def State.statusCmd (s : State) : Byte := s.status.extractLsb' 8 8

/-- `STATUS.cause` (10_state.md R23). -/
def State.statusCause (s : State) : Byte := s.status.extractLsb' 0 8

/-- LOG with the bit of a cause set (60_exceptions.md R294 step 3). -/
def logWith (log : Half) (c : Cause) : Half := log ||| (1#16 <<< c.code.toNat)

end Sys2Proof.Machine
end

