-- ==== Sys2Proof/Machine/Operands.lean ====
section
/-! DEFINITION. The operand forms of the commands (30_encoding.md R91, R93) and the fields of the configuration
registers the commands read (10_state.md R25, 44_video_blocks.md R230). -/

namespace Sys2Proof.Machine

open Sys2Proof Sys2Proof.Config

/-- A small-tree slot or a bigtree id, 0..3, compared as a full 32-bit number (30_encoding.md R93). -/
def slotOperand (v : Word) : Option (Fin 4) :=
  if h : v.toNat < 4 then some ⟨v.toNat, h⟩ else none

/-- A track index, 0..6 (30_encoding.md R93). -/
def trackOperand (v : Word) : Option (Fin 7) :=
  if h : v.toNat < 7 then some ⟨v.toNat, h⟩ else none

/-- The window `[base, base+size)` lies in `IN`; the sum is taken without wrap-around (20_memory.md R61). -/
def windowLegal (s : State) (base size : Word) : Bool :=
  decide (base.toNat + size.toNat ≤ s.params.inSize.toNat)

/-! ### Fields of a track descriptor (10_state.md R25) -/

/-- Bit 31. -/
def trkCompressed (d : Word) : Bool := d.getLsbD 31

/-- Bit 30. -/
def trkExists (d : Word) : Bool := d.getLsbD 30

/-- Bit 29. -/
def trkDepth16 (d : Word) : Bool := d.getLsbD 29

/-- Bit 28. -/
def trkStereo (d : Word) : Bool := d.getLsbD 28

/-- Bits 27:26. -/
def trkVariant (d : Word) : BitVec 2 := d.extractLsb' 26 2

/-- `channels` (43_audio_dpcm.md R200). -/
def trkChannels (d : Word) : Nat := if trkStereo d then 2 else 1

/-- `bytes` (43_audio_dpcm.md R200). -/
def trkBytes (d : Word) : Nat := if trkDepth16 d then 2 else 1

/-- `frame = channels * bytes` (43_audio_dpcm.md R200). -/
def trkFrame (d : Word) : Nat := trkChannels d * trkBytes d

/-! ### Video configuration -/

/-- `CFG.VERSION = '4'` (30_encoding.md R105). -/
def State.isV4 (s : State) : Bool := s.version == 0x34

/-- The configuration VID_DECODE accepts (44_video_blocks.md R230). -/
def videoConfigLegal (s : State) : Bool :=
  (s.version == 0x32 || s.version == 0x34)
    && (s.width != 0 && s.width.toNat % 4 == 0)
    && (s.height != 0 && s.height.toNat % 4 == 0)
    && within s.params.fbMax (s.width.toNat * s.height.toNat)

/-- The number of blocks of a frame, `(CFG.WIDTH/4) * (CFG.HEIGHT/4)` (44_video_blocks.md R232). -/
def frameBlocks (s : State) : Nat := (s.width.toNat / 4) * (s.height.toNat / 4)

end Sys2Proof.Machine
end

