-- ==== Sys2Proof/Machine/Ops.lean ====
section
/-! DEFINITION. The named operations over memory and registers: memories, reading the bitstream, walking trees, the
MRU cache, starting a command, raising a fault. -/

namespace Sys2Proof.Machine

open Sys2Proof Sys2Proof.Config

/-! ### Memories (20_memory.md R60)

A memory is a list of cells in canonical form: addresses strictly rising, no cell equal to what an unlisted address
reads as (`blank`). -/

/-- What an unlisted byte of `IN` reads as: 0x00. DESIGN CHOICE, unsafe (log 2). -/
def inBlank : Option Byte := some 0

/-- What an unlisted byte of `FB` or `AOUT` reads as: no value (10_state.md R31, R38; log 4, log 6). -/
def outBlank : Option Byte := none

/-- The listed byte at an address. -/
def Memory.get? : List Host.Cell → Nat → Option Byte
  | [], _ => none
  | (a, v) :: m, addr => if a = addr then some v else Memory.get? m addr

/-- List `v` at an address. -/
def Memory.put : List Host.Cell → Nat → Byte → List Host.Cell
  | [], addr, v => [(addr, v)]
  | (a, w) :: m, addr, v =>
    if addr < a then (addr, v) :: (a, w) :: m
    else if addr = a then (addr, v) :: m
    else (a, w) :: Memory.put m addr v

/-- Unlist an address. -/
def Memory.erase : List Host.Cell → Nat → List Host.Cell
  | [], _ => []
  | (a, w) :: m, addr => if a = addr then m else (a, w) :: Memory.erase m addr

/-- The read of one byte (00_scope.md R8, `MemRead` with n = 1). -/
def Memory.read (blank : Option Byte) (m : List Host.Cell) (addr : Nat) : Option Byte :=
  match Memory.get? m addr with
  | some v => some v
  | none => blank

/-- The write of one byte (00_scope.md R8, `MemWrite` with n = 1). -/
def Memory.write (blank : Option Byte) (m : List Host.Cell) (addr : Nat) (v : Byte) : List Host.Cell :=
  if some v = blank then Memory.erase m addr else Memory.put m addr v

/-- The addresses are strictly rising. -/
abbrev Memory.Sorted (m : List Host.Cell) : Prop := m.Pairwise fun x y => x.1 < y.1

/-- The canonical form. -/
abbrev Memory.wf (blank : Option Byte) (m : List Host.Cell) : Prop :=
  Memory.Sorted m ∧ ∀ c ∈ m, some c.2 ≠ blank

/-- The byte of `IN` at an address. -/
def inRead (m : List Host.Cell) (addr : Nat) : Byte := (Memory.read inBlank m addr).getD 0

/-! ### State updates -/

/-- `ATREE[slot] <- t`. -/
def State.setAtree (s : State) (slot : Fin 4) (t : SmallTree) : State := { s with atree := s.atree.set slot t }

/-- `VT[id] <- t`. -/
def State.setVt (s : State) (id : Fin 4) (t : BigTree) : State := { s with vt := s.vt.set id t }

/-- The bytes of `AOUT[t]`. -/
def State.setAout (s : State) (t : Fin 7) (m : List Host.Cell) : State := { s with aout := s.aout.set t m }

/-- `AOUT_LEN[t] <- n`. -/
def State.setAoutLen (s : State) (t : Fin 7) (n : Word) : State := { s with aoutLen := s.aoutLen.set t n }

/-- All four small-tree slots Absent. -/
def State.clearAtree (s : State) : State := { s with atree := Vector.replicate 4 .absent }

/-- All four bigtrees Absent. -/
def State.clearVt (s : State) : State := { s with vt := Vector.replicate 4 .absent }

/-- The engine's locals. -/
def State.setWork (s : State) (w : Work) : State := { s with work := w }

/-- The bitstream registers. -/
def State.setBs (s : State) (b : BitStream) : State := { s with bs := b }

/-- Open a bitstream over a window (40_bitstream.md R132, the four assignments). -/
def State.openWindow (s : State) (base size : Word) : State :=
  { s with bs := { base := base, size := size, bytePos := 0, bitPos := 0 } }

/-! ### Reading the bitstream (40_bitstream.md)

A reader works on the bitstream registers and the content of `IN`; when it raises a cause, the registers stand where the
last successful read left them (60_exceptions.md R297). -/

/-- An operation on the bitstream registers that may raise a cause. -/
abbrev Reader (α : Type) := EStateM Cause BitStream α

/-- The position after one bit (40_bitstream.md R130). -/
def BitStream.advance (b : BitStream) : BitStream :=
  if b.bitPos = 7 then { b with bitPos := 0, bytePos := b.bytePos + 1 }
  else { b with bitPos := b.bitPos + 1 }

/-- The bit at the position (20_memory.md R62). -/
def BitStream.bitAt (m : List Host.Cell) (b : BitStream) : Bool :=
  (inRead m (b.base.toNat + b.bytePos.toNat)).getLsbD b.bitPos.toNat

/-- `read_bit()` (40_bitstream.md R130). -/
def readBit (m : List Host.Cell) : Reader Bool := fun b =>
  if b.size ≤ b.bytePos then .error .exhausted b
  else .ok (b.bitAt m) b.advance

/-- `k` reads of a bit, in stream order. -/
def readBits (m : List Host.Cell) : Nat → Reader (List Bool)
  | 0 => pure []
  | k + 1 => do
    let b ← readBit m
    let rest ← readBits m k
    pure (b :: rest)

/-- `read_byte()` (40_bitstream.md R131): the j-th bit read is bit j. -/
def readByte (m : List Host.Cell) : Reader Byte := do
  let bits ← readBits m 8
  pure (BitVec.ofNat 8 (ofBits bits))

/-! ### Walking trees -/

/-- The walk of a small tree: bit 1 selects the right child, 0 the left (41_small_tree.md R152). -/
def walkNode (m : List Host.Cell) : Node → Reader Byte
  | .leaf v => pure v
  | .branch l r => do
    let b ← readBit m
    if b then walkNode m r else walkNode m l

/-- `st_lookup(t)` (41_small_tree.md R152). -/
def stLookup (m : List Host.Cell) (t : SmallTree) : Reader Byte :=
  match t with
  | .absent => throw .absentTree
  | .present n => walkNode m n

/-- A slot of the cache (10_state.md R28). -/
def Cache.slot (c : Cache) (i : Fin 3) : Half :=
  match i with
  | 0 => c.c0
  | 1 => c.c1
  | 2 => c.c2

/-- The cache after a reset (42_big_tree.md R173). -/
def Cache.zero : Cache := { c0 := 0, c1 := 0, c2 := 0 }

/-- The walk of a lookup tree and the value of its leaf; an escape leaf takes the slot's present content
(42_big_tree.md R174). -/
def walkBNode (m : List Host.Cell) (c : Cache) : BNode → Reader Half
  | .lit v => pure v
  | .esc i => pure (c.slot i)
  | .branch l r => do
    let b ← readBit m
    if b then walkBNode m c r else walkBNode m c l

/-- `mru_update` (42_big_tree.md R175): the three assignments, and nothing when the value is in slot 0. -/
def mruUpdate (c : Cache) (value : Half) : Cache :=
  if value = c.c0 then c else { c0 := value, c1 := c.c0, c2 := c.c1 }

/-- `bt_reset` of a bigtree (42_big_tree.md R173): an Absent one has no cache. -/
def btResetTree (t : BigTree) : BigTree :=
  match t with
  | .absent => .absent
  | .present low high lookup _ => .present low high lookup Cache.zero

/-! ### The engine's operations

An operation of the engine works on the state and may raise a cause; the state stands as it was at that point
(60_exceptions.md R297). -/

/-- An operation on the state that may raise a cause. -/
abbrev Engine (α : Type) := EStateM Cause State α

/-- What a step answers. -/
abbrev Answer := Host.Outcome State Fault Refusal

/-- A reader as an operation of the engine. -/
def reading {α : Type} (r : List Host.Cell → Reader α) : Engine α := fun s =>
  match r s.inMem s.bs with
  | .ok a b => .ok a (s.setBs b)
  | .error c b => .error c (s.setBs b)

/-- `bt_lookup(id)` (42_big_tree.md R174, R175): an exhausted walk leaves the cache alone. -/
def btLookup (id : Fin 4) : Engine Half := do
  let s ← get
  match s.vt[id] with
  | .absent => throw .absentTree
  | .present low high lookup cache =>
    let value ← reading fun m => walkBNode m cache lookup
    modify fun t => t.setVt id (.present low high lookup (mruUpdate cache value))
    pure value

/-- `raise` step 1 (60_exceptions.md R294), the clean-up of the running command: BT_BUILD_ALL leaves every bigtree
Absent (42_big_tree.md R177), a DPCM record leaves the bytes of its track without value (43_audio_dpcm.md R211; its
length is 0 already). -/
def cleanUp (s : State) : State :=
  match s.work with
  | .bigAll _ _ => s.clearVt
  | .audio t _ => s.setAout t []
  | .idle | .small _ _ | .big _ _ | .video => s

/-- TAKING A FAULT, `raise F` (60_exceptions.md R294): the clean-up, STATUS.cause, the bit of LOG, the end of the
command. Nothing is saved and nothing is vectored; there is no return (R295). -/
def raiseFault (c : Cause) (s : State) : State :=
  let t := cleanUp s
  { t with status := statusWord t.statusCmd c.code, log := logWith t.log c, work := .idle }

/-- An operation as a step: a raised cause becomes a next state (60_exceptions.md R294). -/
def perform (e : Engine Unit) (s : State) : Answer :=
  match e s with
  | .ok _ t => .next t
  | .error c t => .next (raiseFault c t)

/-- The start of a command (46_system.md R280): CMD and STATUS; the locals are new (10_state.md R36 (e)). -/
def startCommand (code : Byte) (s : State) : State :=
  { s with cmd := code, status := statusWord code 0, work := .idle }

/-- A command that meets no token of a stream: its start, its rule, its end (46_system.md R280). -/
def command (code : Byte) (e : Engine Unit) (s : State) : Answer := perform e (startCommand code s)

/-! ### What the host reads (46_system.md R284 (b)) -/

/-- The byte of `FB` the host reads at an address, `none` outside the buffer: the byte written there, else 0x00 or the
free value of the present draw (10_state.md R38; log 4, log 5). -/
def hostReadFb (s : State) (addr : Nat) : Option Byte :=
  if addr < s.width.toNat * s.height.toNat then
    match Memory.read outBlank s.fb addr with
    | some v => some v
    | none => if s.fbZeroed then some 0 else some (Config.fbByte s.fbDraw addr)
  else none

/-- The byte of `AOUT[t]` the host reads at an address, `none` at or past `AOUT_LEN[t]` (10_state.md R31). -/
def hostReadAout (s : State) (t : Fin 7) (addr : Nat) : Option Byte :=
  if addr < s.aoutLen[t].toNat then Memory.read outBlank s.aout[t] addr else none

/-- `CMD` reads as the last code written (10_state.md R37). -/
def hostReadCmd (s : State) : Byte := s.cmd

/-- The register the host reads, zero-extended (10_state.md R37). -/
def hostReadReg (s : State) (r : HostReg) : Word :=
  match r with
  | .arg0 => s.arg0
  | .arg1 => s.arg1
  | .arg2 => s.arg2
  | .version => s.version.setWidth 32
  | .width => s.width
  | .height => s.height
  | .trk t => s.trk[t]
  | .result => s.result.setWidth 32
  | .status => s.status.setWidth 32
  | .log => s.log.setWidth 32
  | .bsBase => s.bs.base
  | .bsSize => s.bs.size
  | .bsBytePos => s.bs.bytePos
  | .bsBitPos => s.bs.bitPos.setWidth 32
  | .aoutLen t => s.aoutLen[t]
  | .scanRow => s.scanRow
  | .scanCol => s.scanCol

end Sys2Proof.Machine
end

