-- ==== Sys2Proof/Machine/Blocks.lean ====
section
/-! DEFINITION. The block types of the video stream: MONO, FULL, VOID, SOLID, DOUBLE, HALF (44_video_blocks.md R232 to
R242). The meaning of a TYPEWORD is its group: the blocks of its run, drawn at the scan cursor. -/

namespace Sys2Proof.Machine

open Sys2Proof Sys2Proof.Config

/-- The bigtree ids (10_state.md R27). -/
def mmapId : Fin 4 := 0

/-- MCLR. -/
def mclrId : Fin 4 := 1

/-- FULL. -/
def fullId : Fin 4 := 2

/-- TYPE. -/
def typeId : Fin 4 := 3

/-- `RUN` (30_encoding.md R104). -/
def runTable : List Nat := (List.range 59).map (· + 1) ++ [128, 256, 512, 1024, 2048]

/-- `RUN[runidx]`. -/
def runLength (runidx : BitVec 6) : Nat := runTable.getD runidx.toNat 0

/-! ### Pixels -/

/-- The address in `FB` of pixel (r, c) of the block at the cursor (20_memory.md R66; 44_video_blocks.md, before R236). -/
def pixelAddr (s : State) (r c : Nat) : Nat := (s.scanRow.toNat + r) * s.width.toNat + s.scanCol.toNat + c

/-- `px(r, c) <- v` (44_video_blocks.md, before R236). -/
def putPixel (s : State) (px : Nat × Nat × Byte) : State :=
  { s with fb := Memory.write outBlank s.fb (pixelAddr s px.1 px.2.1) px.2.2 }

/-- Pixels of the block, in the order written. -/
def paint (pxs : List (Nat × Nat × Byte)) (s : State) : State := pxs.foldl putPixel s

/-- The 16 pixels of a block in the order of the rules' loops: row by row, left to right. -/
def blockPixels (f : Nat → Nat → Byte) : List (Nat × Nat × Byte) :=
  (List.range 16).map fun k => (k / 4, k % 4, f (k / 4) (k % 4))

/-- `advance()` (44_video_blocks.md R242). -/
def advanceScan (s : State) : State :=
  if s.width ≤ s.scanCol + 4 then { s with scanCol := 0, scanRow := s.scanRow + 4 }
  else { s with scanCol := s.scanCol + 4 }

/-! ### Drawing one block -/

/-- `color_a` (30_encoding.md R107): bits 15:8. -/
def highByte (w : Half) : Byte := w.extractLsb' 8 8

/-- `color_b` (30_encoding.md R107), the left pixel of a pair (R109): bits 7:0. -/
def lowByte (w : Half) : Byte := w.extractLsb' 0 8

/-- A MONO block (44_video_blocks.md R236). -/
def drawMono : Engine Unit := do
  let clr ← btLookup mclrId
  let map ← btLookup mmapId
  modify (paint (blockPixels fun r c => if map.getLsbD (4 * r + c) then highByte clr else lowByte clr))

/-- One row of a FULL block (44_video_blocks.md R237): the right pair first, then the left one. -/
def drawFullRow (r : Nat) : Engine Unit := do
  let w ← btLookup fullId
  modify (paint [(r, 2, lowByte w), (r, 3, highByte w)])
  let w ← btLookup fullId
  modify (paint [(r, 0, lowByte w), (r, 1, highByte w)])

/-- A FULL block (44_video_blocks.md R237). -/
def drawFull : Engine Unit := do
  drawFullRow 0
  drawFullRow 1
  drawFullRow 2
  drawFullRow 3

/-- A VOID block: nothing is read or written (44_video_blocks.md R238). -/
def drawVoid : Engine Unit := pure ()

/-- A SOLID block (44_video_blocks.md R239). -/
def drawSolid (payload : Byte) : Engine Unit := modify (paint (blockPixels fun _ _ => payload))

/-- A band of two rows of a DOUBLE block (44_video_blocks.md R240): left half low, right half high. -/
def drawDoubleBand (k : Nat) : Engine Unit := do
  let w ← btLookup fullId
  modify (paint
    [(2 * k, 0, lowByte w), (2 * k, 1, lowByte w), (2 * k, 2, highByte w), (2 * k, 3, highByte w),
      (2 * k + 1, 0, lowByte w), (2 * k + 1, 1, lowByte w), (2 * k + 1, 2, highByte w), (2 * k + 1, 3, highByte w)])

/-- A DOUBLE block (44_video_blocks.md R240). -/
def drawDouble : Engine Unit := do
  drawDoubleBand 0
  drawDoubleBand 1

/-- A band of two rows of a HALF block in the variant `four_lookup` (44_video_blocks.md R241): a FULL row, right pair
first, repeated on the row below. -/
def drawHalfBand (k : Nat) : Engine Unit := do
  let w ← btLookup fullId
  modify (paint [(2 * k, 2, lowByte w), (2 * k, 3, highByte w), (2 * k + 1, 2, lowByte w), (2 * k + 1, 3, highByte w)])
  let w ← btLookup fullId
  modify (paint [(2 * k, 0, lowByte w), (2 * k, 1, highByte w), (2 * k + 1, 0, lowByte w), (2 * k + 1, 1, highByte w)])

/-- A HALF block (44_video_blocks.md R241): in the variant `two_lookup` it is drawn as DOUBLE. -/
def drawHalf : Engine Unit := do
  let s ← get
  match s.params.halfVariant with
  | .fourLookup => do
    drawHalfBand 0
    drawHalfBand 1
  | .twoLookup => drawDouble

/-! ### Groups -/

/-- The run (44_video_blocks.md R232, R235): at most `n` blocks, cut where the frame ends. -/
def drawRun (draw : Engine Unit) : Nat → Engine Unit
  | 0 => pure ()
  | n + 1 => do
    let s ← get
    if s.scanRow < s.height then
      draw
      modify advanceScan
      drawRun draw n
    else pure ()

/-- The frame is over when the cursor has covered all rows (44_video_blocks.md R232, R243). -/
def endGroup (s : State) : State := if s.scanRow < s.height then s else s.setWork .idle

/-- A run of `n` blocks and the end of its group (44_video_blocks.md R232). -/
def blockRun (draw : Engine Unit) (n : Nat) (s : State) : Answer :=
  perform (do
    drawRun draw n
    modify endGroup) s

/-- A TYPEWORD met by VID_DECODE: its run of blocks (44_video_blocks.md R232). -/
def blockGroup (draw : Engine Unit) (runidx : BitVec 6) (s : State) : Answer :=
  match s.work with
  | .video => blockRun draw (runLength runidx) s
  | .idle | .small _ _ | .big _ _ | .bigAll _ _ | .audio _ _ => .refused .outOfContext

/-- MONO (44_video_blocks.md R236); the payload is ignored (30_encoding.md R103). -/
def execMono (_payload : Byte) (runidx : BitVec 6) (s : State) : Answer := blockGroup drawMono runidx s

/-- FULL (44_video_blocks.md R237); the payload is ignored. -/
def execFull (_payload : Byte) (runidx : BitVec 6) (s : State) : Answer := blockGroup drawFull runidx s

/-- VOID (44_video_blocks.md R238); the payload is ignored. -/
def execVoid (_payload : Byte) (runidx : BitVec 6) (s : State) : Answer := blockGroup drawVoid runidx s

/-- SOLID (44_video_blocks.md R239). -/
def execSolid (payload : Byte) (runidx : BitVec 6) (s : State) : Answer := blockGroup (drawSolid payload) runidx s

/-- DOUBLE (44_video_blocks.md R240); the payload is ignored. -/
def execDouble (_payload : Byte) (runidx : BitVec 6) (s : State) : Answer := blockGroup drawDouble runidx s

/-- HALF (44_video_blocks.md R241); the payload is ignored. -/
def execHalf (_payload : Byte) (runidx : BitVec 6) (s : State) : Answer := blockGroup drawHalf runidx s

end Sys2Proof.Machine
end

