-- ==== Sys2Proof/Machine/Dpcm.lean ====
section
/-! DEFINITION. The tokens of a DPCM record: DPCM.N, DPCM.HEADER, DPCM.INIT8, DPCM.INIT16, and the delta loop
(30_encoding.md R112 to R116; 43_audio_dpcm.md R202 to R210). -/

namespace Sys2Proof.Machine

open Sys2Proof Sys2Proof.Config

/-- Step 1 after `N` has been read (43_audio_dpcm.md R202): the bitstream opens behind it, the four slots are cleared. -/
def dpcmLength (t : Fin 7) (n : Word) : Engine Unit := do
  let s ← get
  if s.arg1.toNat < 4 then throw .exhausted
  else set (((s.openWindow (s.arg0 + 4) (s.arg1 - 4)).clearAtree).setWork (.audio t (.header n)))

/-- DPCM.N (43_audio_dpcm.md R202). -/
def execDpcmN (n : Word) (s : State) : Answer :=
  match s.work with
  | .audio t .length => perform (dpcmLength t n) s
  | .idle | .small _ _ | .big _ _ | .bigAll _ _ | .audio _ _ | .video => .refused .outOfContext

/-- The length is not a positive whole number of sample frames that fits (43_audio_dpcm.md R205). -/
def badLength (s : State) (t : Fin 7) (n : Word) : Bool :=
  decide (n.toNat < trkFrame s.trk[t]) || n.toNat % trkFrame s.trk[t] != 0 || !within s.params.aoutMax n.toNat

/-- Steps 3 and 4 (43_audio_dpcm.md R204, R205): the header bits against the descriptor, then the length. -/
def dpcmHeaderCheck (t : Fin 7) (n : Word) (stereo depth16 : Bool) : Engine Unit := do
  let s ← get
  let mismatch := stereo != trkStereo s.trk[t] || depth16 != trkDepth16 s.trk[t]
  if mismatch && s.params.mismatchPolicy == .terminate then throw .audioConfigMismatch
  else
    let logged := if mismatch then logWith s.log .audioConfigMismatch else s.log
    set { s with log := logged }
    if badLength s t n then throw .audioLength
    else modify fun s => s.setWork (.audio t (.trees n 0 .control))

/-- DPCM.HEADER (43_audio_dpcm.md R203 to R205). -/
def execDpcmHeader (stereo depth16 : Bool) (s : State) : Answer :=
  match s.work with
  | .audio t (.header n) => perform (dpcmHeaderCheck t n stereo depth16) s
  | .idle | .small _ _ | .big _ _ | .bigAll _ _ | .audio _ _ | .video => .refused .outOfContext

/-- `emit(v)` at output address `out` (43_audio_dpcm.md R210; 20_memory.md R67): one byte, or two, the low one first. -/
def emitSample (t : Fin 7) (out : Nat) (v : Half) (s : State) : State :=
  let m := Memory.write outBlank s.aout[t] out (v.extractLsb' 0 8)
  if trkDepth16 s.trk[t] then s.setAout t (Memory.write outBlank m (out + 1) (v.extractLsb' 8 8))
  else s.setAout t m

/-- The loop of step 7 goes on until `out` reaches `N`; then the length is valid and the command is over
(43_audio_dpcm.md R208). -/
def audioNext (t : Fin 7) (n : Word) (out : Nat) (prev0 prev1 : Half) (s : State) : State :=
  if out < n.toNat then s.setWork (.audio t (.deltas n out prev0 prev1))
  else (s.setAoutLen t n).setWork .idle

/-- Step 6 with one more initial sample (43_audio_dpcm.md R207): a stereo record holds channel 1's first, and the samples
are written channel 0 first. -/
def dpcmInitial (t : Fin 7) (n : Word) (got : List Half) (v : Half) (s : State) : State :=
  match trkStereo s.trk[t], got with
  | true, [] => s.setWork (.audio t (.init n [v]))
  | true, ch1 :: _ =>
    let bytes := trkBytes s.trk[t]
    audioNext t n (bytes + bytes) v ch1 (emitSample t bytes ch1 (emitSample t 0 v s))
  | false, _ => audioNext t n (trkBytes s.trk[t]) v 0 (emitSample t 0 v s)

/-- DPCM.INIT8: an initial sample of 8 bits (43_audio_dpcm.md R207). -/
def execDpcmInit8 (value : Byte) (s : State) : Answer :=
  match s.work with
  | .audio t (.init n got) =>
    if trkDepth16 s.trk[t] then .refused .outOfContext
    else .next (dpcmInitial t n got (value.setWidth 16) s)
  | .idle | .small _ _ | .big _ _ | .bigAll _ _ | .audio _ _ | .video => .refused .outOfContext

/-- DPCM.INIT16: an initial sample of 16 bits, its high byte first in the stream (43_audio_dpcm.md R207). -/
def execDpcmInit16 (high low : Byte) (s : State) : Answer :=
  match s.work with
  | .audio t (.init n got) =>
    if trkDepth16 s.trk[t] then .next (dpcmInitial t n got (high ++ low) s)
    else .refused .outOfContext
  | .idle | .small _ _ | .big _ _ | .bigAll _ _ | .audio _ _ | .video => .refused .outOfContext

/-- The new sample, modulo the sample width (43_audio_dpcm.md R209). An 8-bit sample stands in the low byte. -/
def addSample (depth16 : Bool) (prev delta : Half) : Half :=
  if depth16 then prev + delta else (prev.setWidth 8 + delta.setWidth 8).setWidth 16

/-- The delta of a channel (30_encoding.md R116): the low symbol, and for 16-bit samples the high symbol above it. -/
def readDelta (t : Fin 7) (lowSlot highSlot : Fin 4) : Engine Half := do
  let s ← get
  let lo ← reading fun m => stLookup m s.atree[lowSlot]
  if trkDepth16 s.trk[t] then
    let hi ← reading fun m => stLookup m s.atree[highSlot]
    pure (hi ++ lo)
  else pure (lo.setWidth 16)

/-- The body of step 7's inner loop for one channel (43_audio_dpcm.md R208): the new sample, written at `out`. -/
def deltaSample (t : Fin 7) (lowSlot highSlot : Fin 4) (prev : Half) (out : Nat) : Engine Half := do
  let delta ← readDelta t lowSlot highSlot
  let s ← get
  let v := addSample (trkDepth16 s.trk[t]) prev delta
  set (emitSample t out v s)
  pure v

/-- One sample frame of step 7 (43_audio_dpcm.md R208). -/
def deltaFrame (t : Fin 7) (n : Word) (out : Nat) (prev0 prev1 : Half) : Engine Unit := do
  let s ← get
  let bytes := trkBytes s.trk[t]
  let v0 ← deltaSample t 0 1 prev0 out
  if trkStereo s.trk[t] then
    let v1 ← deltaSample t 2 3 prev1 (out + bytes)
    modify (audioNext t n (out + bytes + bytes) v0 v1)
  else modify (audioNext t n (out + bytes) v0 prev1)

end Sys2Proof.Machine
end

