-- ==== Sys2Proof/Machine/Trees.lean ====
section
/-! DEFINITION. The tokens of a serialised tree: TREE8.*, NODE8.*, TREE.TERM, TREE16.*, SEED, NODE16.* (30_encoding.md
R94 to R100; 41_small_tree.md R150, R151; 42_big_tree.md R170 to R172). -/

namespace Sys2Proof.Machine

open Sys2Proof Sys2Proof.Config

/-! ### Small trees -/

/-- A node of a tree is finished: it is the left subtree of the innermost open branch, or the right one, which finishes
that branch; with no branch open it is the root (41_small_tree.md R151). -/
def plugNode (n : Node) : List (Option Node) → Node ⊕ List (Option Node)
  | [] => .inl n
  | none :: path => .inr (some n :: path)
  | some l :: path => plugNode (.branch l n) path

/-- What reading a token of a `TREE8` leads to: more tokens, or the tree. -/
inductive SmallProgress where
  | more (w : SmallWork)
  | done (t : SmallTree)

/-- The small tree the running command is reading. -/
def smallWork? (w : Work) : Option SmallWork :=
  match w with
  | .small _ w => some w
  | .big _ (.low w) => some w
  | .big _ (.high _ w) => some w
  | .bigAll _ (.low w) => some w
  | .bigAll _ (.high _ w) => some w
  | .audio _ (.trees _ _ w) => some w
  | .idle | .video | .big _ _ | .bigAll _ _ | .audio _ _ => none

/-- The slot of the next tree of a DPCM record (30_encoding.md R114; 43_audio_dpcm.md R206): channel 0 low, channel 0
high, channel 1 low, channel 1 high, those not in use left out. -/
def nextTreeSlot (d : Word) (slot : Fin 4) : Option (Fin 4) :=
  match slot with
  | 0 => if trkDepth16 d then some 1 else if trkStereo d then some 2 else none
  | 1 => if trkStereo d then some 2 else none
  | 2 => if trkDepth16 d then some 3 else none
  | 3 => none

/-- A bigtree's part after a step of one of its inner small trees (42_big_tree.md R170). -/
def bigAfterSmall (w : BigWork) (p : SmallProgress) : BigWork :=
  match w, p with
  | .low _, .more v => .low v
  | .low _, .done t => .high t .control
  | .high low _, .more v => .high low v
  | .high low _, .done t => .seeds low t []
  | w, _ => w

/-- The running command after a step of the small tree it is reading: a finished tree goes to its slot
(41_small_tree.md R153, 43_audio_dpcm.md R206) or into its bigtree (42_big_tree.md R170). -/
def putSmall (p : SmallProgress) (s : State) : State :=
  match s.work with
  | .small slot _ =>
    match p with
    | .more w => s.setWork (.small slot w)
    | .done t => (s.setAtree slot t).setWork .idle
  | .big id w => s.setWork (.big id (bigAfterSmall w p))
  | .bigAll id w => s.setWork (.bigAll id (bigAfterSmall w p))
  | .audio t (.trees n slot _) =>
    match p with
    | .more w => s.setWork (.audio t (.trees n slot w))
    | .done tree =>
      match nextTreeSlot s.trk[t] slot with
      | some next => (s.setAtree slot tree).setWork (.audio t (.trees n next .control))
      | none => (s.setAtree slot tree).setWork (.audio t (.init n []))
  | .idle | .video | .audio _ _ => s

/-- A token of a `TREE8`: `f` says what it does to the tree being read, `none` where no such token is read there. -/
def smallToken (f : Params → SmallWork → Option (Except Cause SmallProgress)) (s : State) : Answer :=
  match smallWork? s.work with
  | none => .refused .outOfContext
  | some w =>
    match f s.params w with
    | none => .refused .outOfContext
    | some (.error c) => .next (raiseFault c s)
    | some (.ok p) => .next (putSmall p s)

/-- TREE8.ABSENT: control bit 0 (41_small_tree.md R150, 30_encoding.md R95). -/
def execTree8Absent (s : State) : Answer :=
  smallToken (fun _ w =>
    match w with
    | .control => some (.ok (.done .absent))
    | .node _ _ | .term _ => none) s

/-- TREE8.PRESENT: control bit 1, the root node is next (41_small_tree.md R150). -/
def execTree8Present (s : State) : Answer :=
  smallToken (fun _ w =>
    match w with
    | .control => some (.ok (.more (.node [] 0)))
    | .node _ _ | .term _ => none) s

/-- There is room for one more node in a small tree (41_small_tree.md R156). -/
def smallRoom (p : Params) (count : Nat) : Bool := within p.smallNodesMax (count + 1)

/-- NODE8.BRANCH: a branch, its left subtree next (41_small_tree.md R151). -/
def execNode8Branch (s : State) : Answer :=
  smallToken (fun p w =>
    match w with
    | .node path count =>
      if smallRoom p count then some (.ok (.more (.node (none :: path) (count + 1))))
      else some (.error .treeCapacity)
    | .control | .term _ => none) s

/-- NODE8.LEAF: a leaf, which may finish branches above it (41_small_tree.md R151). -/
def execNode8Leaf (value : Byte) (s : State) : Answer :=
  smallToken (fun p w =>
    match w with
    | .node path count =>
      if smallRoom p count then
        match plugNode (.leaf value) path with
        | .inl root => some (.ok (.more (.term root)))
        | .inr path => some (.ok (.more (.node path (count + 1))))
      else some (.error .treeCapacity)
    | .control | .term _ => none) s

/-! ### Bigtrees -/

/-- As `plugNode`, for a lookup tree (42_big_tree.md R171). -/
def plugBNode (n : BNode) : List (Option BNode) → BNode ⊕ List (Option BNode)
  | [] => .inl n
  | none :: path => .inr (some n :: path)
  | some l :: path => plugBNode (.branch l n) path

/-- What reading a token of a `TREE16` leads to. -/
inductive BigProgress where
  | more (w : BigWork)
  | done (t : BigTree)

/-- The bigtree the running command is reading. -/
def bigWork? (w : Work) : Option BigWork :=
  match w with
  | .big _ w => some w
  | .bigAll _ w => some w
  | .idle | .small _ _ | .audio _ _ | .video => none

/-- The running command after a step of the bigtree it is reading: a finished tree goes to its slot (42_big_tree.md
R176), and BT_BUILD_ALL goes on with the next of the four (42_big_tree.md R177). -/
def putBig (p : BigProgress) (s : State) : State :=
  match s.work with
  | .big id _ =>
    match p with
    | .more w => s.setWork (.big id w)
    | .done t => (s.setVt id t).setWork .idle
  | .bigAll id _ =>
    match p with
    | .more w => s.setWork (.bigAll id w)
    | .done t =>
      if h : id.val + 1 < 4 then (s.setVt id t).setWork (.bigAll ⟨id.val + 1, h⟩ .control)
      else (s.setVt id t).setWork .idle
  | .idle | .small _ _ | .audio _ _ | .video => s

/-- A token of a `TREE16`: `f` is what it does to the tree being read, `none` where no such token is read there. -/
def bigToken (f : BigWork → Option (Engine BigProgress)) (s : State) : Answer :=
  match bigWork? s.work with
  | none => .refused .outOfContext
  | some w =>
    match f w with
    | none => .refused .outOfContext
    | some e => perform (e >>= fun p => modify (putBig p)) s

/-- TREE16.ABSENT: control bit 0 (42_big_tree.md R170). -/
def execTree16Absent (s : State) : Answer :=
  bigToken (fun w =>
    match w with
    | .control => some (pure (.done .absent))
    | .low _ | .high _ _ | .seeds _ _ _ | .node _ _ _ _ _ | .term _ _ _ _ => none) s

/-- TREE16.PRESENT: control bit 1, the low tree is next (42_big_tree.md R170). -/
def execTree16Present (s : State) : Answer :=
  bigToken (fun w =>
    match w with
    | .control => some (pure (.more (.low .control)))
    | .low _ | .high _ _ | .seeds _ _ _ | .node _ _ _ _ _ | .term _ _ _ _ => none) s

/-- The bigtree's part after its seeds so far: three of them are the cache, in the order read (42_big_tree.md R172). -/
def afterSeeds (low high : SmallTree) (got : List Half) : BigWork :=
  match got with
  | [a, b, c] => .node low high { c0 := a, c1 := b, c2 := c } [] 0
  | got => .seeds low high got

/-- SEED: a raw 16-bit value, low byte first (30_encoding.md R98; 42_big_tree.md R172). -/
def execSeed (low high : Byte) (s : State) : Answer :=
  bigToken (fun w =>
    match w with
    | .seeds lowTree highTree got => some (pure (.more (afterSeeds lowTree highTree (got ++ [high ++ low]))))
    | .control | .low _ | .high _ _ | .node _ _ _ _ _ | .term _ _ _ _ => none) s

/-- There is room for one more node in a lookup tree (42_big_tree.md R171). -/
def bigRoom (p : Params) (count : Nat) : Bool := within p.bigNodesMax (count + 1)

/-- Raise TREE_CAPACITY when a lookup tree is full (42_big_tree.md R171; 60_exceptions.md R300). -/
def needBigRoom (count : Nat) : Engine Unit := do
  let s ← get
  if bigRoom s.params count then pure () else throw .treeCapacity

/-- NODE16.BRANCH: a branch, its left subtree next (42_big_tree.md R171). -/
def execNode16Branch (s : State) : Answer :=
  bigToken (fun w =>
    match w with
    | .node low high cache path count =>
      some do
        needBigRoom count
        pure (.more (.node low high cache (none :: path) (count + 1)))
    | .control | .low _ | .high _ _ | .seeds _ _ _ | .term _ _ _ _ => none) s

/-- The leaf of a value: the lowest slot whose seed it equals, else the literal (42_big_tree.md R171). -/
def leafOf (seeds : Cache) (v : Half) : BNode :=
  if v = seeds.c0 then .esc 0
  else if v = seeds.c1 then .esc 1
  else if v = seeds.c2 then .esc 2
  else .lit v

/-- NODE16.LEAF: a code word of the low tree, then one of the high tree (42_big_tree.md R171). -/
def execNode16Leaf (s : State) : Answer :=
  bigToken (fun w =>
    match w with
    | .node low high cache path count =>
      some do
        needBigRoom count
        let lo ← reading fun m => stLookup m low
        let hi ← reading fun m => stLookup m high
        match plugBNode (leafOf cache (hi ++ lo)) path with
        | .inl root => pure (.more (.term low high cache root))
        | .inr path => pure (.more (.node low high cache path (count + 1)))
    | .control | .low _ | .high _ _ | .seeds _ _ _ | .term _ _ _ _ => none) s

/-- TREE.TERM: the end of a `TREE8` (41_small_tree.md R150) or of a `TREE16` (42_big_tree.md R170). -/
def execTreeTerm (s : State) : Answer :=
  match smallWork? s.work with
  | some _ =>
    smallToken (fun _ w =>
      match w with
      | .term root => some (.ok (.done (.present root)))
      | .control | .node _ _ => none) s
  | none =>
    bigToken (fun w =>
      match w with
      | .term low high cache root => some (pure (.done (.present low high root cache)))
      | .control | .low _ | .high _ _ | .seeds _ _ _ | .node _ _ _ _ _ => none) s

end Sys2Proof.Machine
end

