-- ==== Sys2Proof/Machine/Engine.lean ====
section
/-! DEFINITION. How a running command goes from token to token: what it reads next, fetching it, running it, and the run
to the command's end (46_system.md R280; 70_reset_and_hazards.md R341). -/

namespace Sys2Proof.Machine

open Sys2Proof Sys2Proof.Config

/-- What a `TREE8` reads next (30_encoding.md R94). -/
def smallFormat (w : SmallWork) : Format :=
  match w with
  | .control => .tree8
  | .node _ _ => .node8
  | .term _ => .term

/-- What a `TREE16` reads next (30_encoding.md R98). -/
def bigFormat (w : BigWork) : Format :=
  match w with
  | .control => .tree16
  | .low w => smallFormat w
  | .high _ w => smallFormat w
  | .seeds _ _ _ => .seed
  | .node _ _ _ _ _ => .node16
  | .term _ _ _ _ => .term

/-- What the running command reads next; `none` when no command runs or the next step reads no token (the delta loop,
30_encoding.md R116). -/
def wantedFormat (s : State) : Option Format :=
  match s.work with
  | .idle => none
  | .small _ w => some (smallFormat w)
  | .big _ w => some (bigFormat w)
  | .bigAll _ w => some (bigFormat w)
  | .audio _ .length => some .dpcmN
  | .audio _ (.header _) => some .dpcmHeader
  | .audio _ (.trees _ _ w) => some (smallFormat w)
  | .audio t (.init _ _) => some (if trkDepth16 s.trk[t] then .init16 else .init8)
  | .audio _ (.deltas _ _ _ _) => none
  | .video => some (.typeWord s.isV4)

/-- There is room for the node the running command is about to read (41_small_tree.md R156, 42_big_tree.md R171); true
where it reads none. -/
def nodeRoom (s : State) : Bool :=
  match smallWork? s.work, bigWork? s.work with
  | some (.node _ count), _ => smallRoom s.params count
  | _, some (.node _ _ _ _ count) => bigRoom s.params count
  | _, _ => true

/-- TREE_CAPACITY is raised right after the tag bit of the node that is one too many (60_exceptions.md R300). -/
def tagCheck (acc : List Bool) : Engine Unit := do
  let s ← get
  if acc.isEmpty && !nodeRoom s then throw .treeCapacity else pure ()

/-- The cause raised where the bits read are no instruction (30_encoding.md R93, R97, R113). -/
def rejectCause (e : DecodeError) : Cause :=
  match e with
  | .reservedCommand _ => .badCommand
  | .badTerminator => .badTerminator
  | .noData => .audioNoData
  | .overlong => .badCommand

/-- Read bits until they decode, one at a time and no more than needed: `acc` are those read so far. No token takes more
than `fuel` bits. -/
def fetchBits (f : Format) : Nat → List Bool → Engine Instr
  | 0, _ => throw .exhausted
  | fuel + 1, acc =>
    match decode f acc with
    | .instr i => pure i
    | .reject e => throw (rejectCause e)
    | .more => do
      let b ← reading readBit
      tagCheck acc
      fetchBits f fuel (acc ++ [b])

/-- The bits of the four bytes of `IN` at an address, in memory order: read as a number they are little-endian
(20_memory.md R64 (b)). -/
def lengthBits (m : List Host.Cell) (addr : Nat) : List Bool :=
  bitsOf (inRead m addr) ++ bitsOf (inRead m (addr + 1)) ++ bitsOf (inRead m (addr + 2)) ++ bitsOf (inRead m (addr + 3))

/-- Fetch the next token. A TYPEWORD is the value a TYPE-tree lookup returns, with TYPEEXT bits from the stream
(44_video_blocks.md R233, R234); a DPCM length is four bytes of `IN` at ARG0 (43_audio_dpcm.md R202); every other token
is read from the stream. -/
def fetchToken (f : Format) : Engine Instr :=
  match f with
  | .typeWord v4 => do
    let code ← btLookup typeId
    fetchBits (.typeWord v4) 3 (bitsOf code)
  | .dpcmN => do
    let s ← get
    if s.arg1.toNat < 4 then throw .exhausted
    else fetchBits .dpcmN 1 (lengthBits s.inMem s.arg0.toNat)
  | .cmd | .tree8 | .node8 | .term | .tree16 | .seed | .node16 | .dpcmHeader | .init8 | .init16 => fetchBits f 33 []

/-- The meaning of a token met by a running command. A command code is no token of a stream. -/
def tokenMeaning (i : Instr) (s : State) : Answer :=
  match i with
  | .mono p r => execMono p r s
  | .full p r => execFull p r s
  | .void p r => execVoid p r s
  | .solid p r => execSolid p r s
  | .double p r => execDouble p r s
  | .half p r => execHalf p r s
  | .tree8Absent => execTree8Absent s
  | .tree8Present => execTree8Present s
  | .node8Branch => execNode8Branch s
  | .node8Leaf v => execNode8Leaf v s
  | .treeTerm => execTreeTerm s
  | .tree16Absent => execTree16Absent s
  | .tree16Present => execTree16Present s
  | .seed l h => execSeed l h s
  | .node16Branch => execNode16Branch s
  | .node16Leaf => execNode16Leaf s
  | .dpcmN n => execDpcmN n s
  | .dpcmHeader st d => execDpcmHeader st d s
  | .dpcmInit8 v => execDpcmInit8 v s
  | .dpcmInit16 h l => execDpcmInit16 h l s
  | .nop | .softReset | .logClear | .bsOpen | .bsReadBit | .bsReadByte | .stBuild | .stLookup | .btBuild
  | .btBuildAll | .btReset | .btLookup | .audDecode | .vidDecode => .refused .outOfContext

/-- A fetched token under a meaning of tokens; a cause raised by the fetch ends the command. -/
def runFetched (meaning : Instr → State → Answer) (r : EStateM.Result Cause State Instr) : Answer :=
  match r with
  | .ok i t => meaning i t
  | .error c t => .next (raiseFault c t)

/-- One step of a running command: the next token, or one sample frame of the delta loop (43_audio_dpcm.md R208). -/
def engineStep (meaning : Instr → State → Answer) (s : State) : Answer :=
  match wantedFormat s with
  | some f => runFetched meaning (fetchToken f s)
  | none =>
    match s.work with
    | .audio t (.deltas n out prev0 prev1) => perform (deltaFrame t n out prev0 prev1) s
    | .idle | .small _ _ | .big _ _ | .bigAll _ _ | .audio _ _ | .video => .next s

/-- Steps until the command is over. -/
def runSteps : Nat → State → Answer
  | 0, s => .next s
  | fuel + 1, s =>
    match s.work with
    | .idle => .next s
    | .small _ _ | .big _ _ | .bigAll _ _ | .audio _ _ | .video =>
      match engineStep tokenMeaning s with
      | .next t => runSteps fuel t
      | .fault r => .fault r
      | .refused r => .refused r

/-- More steps than any command takes (70_reset_and_hazards.md R341): a bit of a window each, a block each, a byte of a
record each. -/
def stepBound (s : State) : Nat :=
  8 * (s.bs.size.toNat + s.arg1.toNat) + frameBlocks s + 2 ^ 32 + 16

/-- The run of a command to its end (46_system.md R280). -/
def runCommand (s : State) : Answer := runSteps (stepBound s) s

/-- A command that meets tokens of a stream: its start and checks, then its tokens to its end (46_system.md R280). -/
def streamCommand (code : Byte) (e : Engine Unit) (s : State) : Answer :=
  match e (startCommand code s) with
  | .ok _ t => runCommand t
  | .error c t => .next (raiseFault c t)

end Sys2Proof.Machine
end

