-- ==== Sys2Proof/Machine/Audio.lean ====
section
/-! DEFINITION. AUD_DECODE (43_audio_dpcm.md). -/

namespace Sys2Proof.Machine

open Sys2Proof Sys2Proof.Config

/-- `n` bytes of `IN` from an address, as the cells 0, 1, … of an output memory (43_audio_dpcm.md R201). -/
def copyCells (m : List Host.Cell) (addr n : Nat) : List Host.Cell :=
  (List.range n).map fun i => (i, inRead m (addr + i))

/-- Raw mode (43_audio_dpcm.md R201). -/
def rawCopy (t : Fin 7) : Engine Unit := do
  let s ← get
  if within s.params.aoutMax s.arg1.toNat then
    set ((s.setAout t (copyCells s.inMem s.arg0.toNat s.arg1.toNat)).setAoutLen t s.arg1)
  else throw .audioLength

/-- The start of AUD_DECODE (43_audio_dpcm.md R200): the checks in their order, then raw mode or the DPCM record. From
`AOUT_LEN[t] <- 0` on, the bytes of the track have no value (R211; log 6). -/
def audDecodeStart : Engine Unit := do
  let s ← get
  match trackOperand s.arg2 with
  | none => throw .badCommand
  | some t =>
    if windowLegal s s.arg0 s.arg1 then
      if trkExists s.trk[t] && trkVariant s.trk[t] == 0 then
        set ((s.setAoutLen t 0).setAout t [])
        if trkCompressed s.trk[t] then modify fun s => s.setWork (.audio t .length)
        else rawCopy t
      else throw .badConfig
    else throw .window

/-- AUD_DECODE (43_audio_dpcm.md R200). -/
def execAudDecode (s : State) : Answer := streamCommand 0x40 audDecodeStart s

end Sys2Proof.Machine
end

