-- ==== Sys2Proof/Machine/Bitstream.lean ====
section
/-! DEFINITION. The bitstream commands BS_OPEN, BS_READ_BIT, BS_READ_BYTE (40_bitstream.md). -/

namespace Sys2Proof.Machine

open Sys2Proof Sys2Proof.Config

/-- The rule of BS_OPEN (40_bitstream.md R132). -/
def bsOpenRule : Engine Unit := do
  let s ← get
  if windowLegal s s.arg0 s.arg1 then set (s.openWindow s.arg0 s.arg1) else throw .window

/-- BS_OPEN (40_bitstream.md R132). -/
def execBsOpen (s : State) : Answer := command 0x10 bsOpenRule s

/-- `RESULT <- v` (10_state.md R22). -/
def putResult (v : Half) : Engine Unit := modify fun s => { s with result := v }

/-- The rule of BS_READ_BIT (40_bitstream.md R133). -/
def bsReadBitRule : Engine Unit := do
  let b ← reading readBit
  putResult (if b then 1 else 0)

/-- BS_READ_BIT (40_bitstream.md R133). -/
def execBsReadBit (s : State) : Answer := command 0x11 bsReadBitRule s

/-- The rule of BS_READ_BYTE (40_bitstream.md R134). -/
def bsReadByteRule : Engine Unit := do
  let v ← reading readByte
  putResult (v.setWidth 16)

/-- BS_READ_BYTE (40_bitstream.md R134). -/
def execBsReadByte (s : State) : Answer := command 0x12 bsReadByteRule s

end Sys2Proof.Machine
end

