-- ==== Sys2Proof/Machine/BigTree.lean ====
section
/-! DEFINITION. The bigtree commands BT_BUILD, BT_BUILD_ALL, BT_RESET, BT_LOOKUP (42_big_tree.md). -/

namespace Sys2Proof.Machine

open Sys2Proof Sys2Proof.Config

/-- The start of BT_BUILD (42_big_tree.md R176): the slot is Absent before the build. -/
def btBuildStart : Engine Unit := do
  let s ← get
  match slotOperand s.arg0 with
  | none => throw .badCommand
  | some id => set ((s.setVt id .absent).setWork (.big id .control))

/-- BT_BUILD (42_big_tree.md R176). -/
def execBtBuild (s : State) : Answer := streamCommand 0x30 btBuildStart s

/-- The start of BT_BUILD_ALL (42_big_tree.md R177): an empty chunk completes with four Absent trees (R182). -/
def btBuildAllStart : Engine Unit := do
  let s ← get
  if windowLegal s s.arg0 s.arg1 then
    let t := (s.openWindow s.arg0 s.arg1).clearVt
    if s.arg1 = 0 then set t else set (t.setWork (.bigAll 0 .control))
  else throw .window

/-- BT_BUILD_ALL (42_big_tree.md R177). -/
def execBtBuildAll (s : State) : Answer := streamCommand 0x31 btBuildAllStart s

/-- The rule of BT_RESET (42_big_tree.md R178). -/
def btResetRule : Engine Unit := do
  let s ← get
  match slotOperand s.arg0 with
  | none => throw .badCommand
  | some id => set (s.setVt id (btResetTree s.vt[id]))

/-- BT_RESET (42_big_tree.md R178). -/
def execBtReset (s : State) : Answer := command 0x32 btResetRule s

/-- The rule of BT_LOOKUP (42_big_tree.md R179). -/
def btLookupRule : Engine Unit := do
  let s ← get
  match slotOperand s.arg0 with
  | none => throw .badCommand
  | some id =>
    let v ← btLookup id
    putResult v

/-- BT_LOOKUP (42_big_tree.md R179). -/
def execBtLookup (s : State) : Answer := command 0x33 btLookupRule s

end Sys2Proof.Machine
end

