-- ==== Sys2Proof/Machine/SmallTree.lean ====
section
/-! DEFINITION. The small-tree commands ST_BUILD, ST_LOOKUP (41_small_tree.md). -/

namespace Sys2Proof.Machine

open Sys2Proof Sys2Proof.Config

/-- The start of ST_BUILD (41_small_tree.md R153): the slot is Absent before the build. -/
def stBuildStart : Engine Unit := do
  let s ← get
  match slotOperand s.arg0 with
  | none => throw .badCommand
  | some slot => set ((s.setAtree slot .absent).setWork (.small slot .control))

/-- ST_BUILD (41_small_tree.md R153). -/
def execStBuild (s : State) : Answer := streamCommand 0x20 stBuildStart s

/-- The rule of ST_LOOKUP (41_small_tree.md R154). -/
def stLookupRule : Engine Unit := do
  let s ← get
  match slotOperand s.arg0 with
  | none => throw .badCommand
  | some slot =>
    let v ← reading fun m => stLookup m s.atree[slot]
    putResult (v.setWidth 16)

/-- ST_LOOKUP (41_small_tree.md R154). -/
def execStLookup (s : State) : Answer := command 0x21 stLookupRule s

end Sys2Proof.Machine
end

