-- ==== Sys2Proof/Machine/System.lean ====
section
/-! DEFINITION. The system commands NOP, SOFT_RESET, LOG_CLEAR, a reserved command code, and the host's accesses other
than a write to CMD (46_system.md). -/

namespace Sys2Proof.Machine

open Sys2Proof Sys2Proof.Config

/-- NOP (46_system.md R281). -/
def execNop (s : State) : Answer := command 0x00 (pure ()) s

/-- The state SOFT_RESET leaves (46_system.md R282; 10_state.md R38). ARG0..2, CFG.*, TRK and FB stay; the bytes of AOUT
lose their values (log 6). -/
def softResetState (s : State) : State :=
  { s with
    bs := { base := 0, size := 0, bytePos := 0, bitPos := 0 }
    result := 0
    log := 0
    atree := Vector.replicate 4 .absent
    vt := Vector.replicate 4 .absent
    aout := Vector.replicate 7 []
    aoutLen := Vector.replicate 7 0
    scanRow := 0
    scanCol := 0 }

/-- SOFT_RESET (46_system.md R282). -/
def execSoftReset (s : State) : Answer := command 0x01 (modify softResetState) s

/-- LOG_CLEAR (46_system.md R283). -/
def execLogClear (s : State) : Answer := command 0x02 (modify fun s => { s with log := 0 }) s

/-- A write of a reserved code to CMD (30_encoding.md R93; 46_system.md R280). -/
def reservedCommand (code : Byte) (s : State) : Answer := command code (throw .badCommand) s

/-- A write to CFG.WIDTH or CFG.HEIGHT makes every byte of FB unspecified, a fresh draw (10_state.md R24, R30; log 5). -/
def State.freshFb (s : State) : State := { s with fb := [], fbDraw := s.fbDraw + 1, fbZeroed := false }

/-- A host write to a register other than CMD (46_system.md R284 (a)): truncated to the register's width; a write to a
read-only register is ignored. -/
def hostWriteReg (r : HostReg) (v : Word) (s : State) : State :=
  match r with
  | .arg0 => { s with arg0 := v }
  | .arg1 => { s with arg1 := v }
  | .arg2 => { s with arg2 := v }
  | .version => { s with version := v.setWidth 8 }
  | .width => { s.freshFb with width := v }
  | .height => { s.freshFb with height := v }
  | .trk t => { s with trk := s.trk.set t v }
  | .result | .status | .log | .bsBase | .bsSize | .bsBytePos | .bsBitPos | .aoutLen _ | .scanRow | .scanCol => s

/-- A host write to `IN` (46_system.md R284 (c)); at or above `IN_SIZE` there is no byte (log 11). -/
def hostWriteIn (addr : Nat) (v : Byte) (s : State) : Answer :=
  if addr < s.params.inSize.toNat then .next { s with inMem := Memory.write inBlank s.inMem addr v }
  else .fault (.inAddress addr)

/-- Power-on reset (70_reset_and_hazards.md R330): the parameters, `IN` and the host's pending accesses are no state of
the engine and stay; the content of FB is drawn afresh (log 12). -/
def hostPowerOn (s : State) : State := State.powerOn s.params s.inMem s.host (s.fbDraw + 1)

end Sys2Proof.Machine
end

