-- ==== Sys2Proof/Machine/Video.lean ====
section
/-! DEFINITION. VID_DECODE (44_video_blocks.md). -/

namespace Sys2Proof.Machine

open Sys2Proof Sys2Proof.Config

/-- `start_frame()` (44_video_blocks.md R231). -/
def startFrame (s : State) : State :=
  { s.openWindow s.arg0 s.arg1 with
    vt := s.vt.map btResetTree
    scanRow := 0
    scanCol := 0
    work := .video }

/-- The start of VID_DECODE (44_video_blocks.md R230): the checks in their order, then the frame. -/
def vidDecodeStart : Engine Unit := do
  let s ← get
  if windowLegal s s.arg0 s.arg1 then
    if videoConfigLegal s then set (startFrame s) else throw .badConfig
  else throw .window

/-- VID_DECODE (44_video_blocks.md R230). -/
def execVidDecode (s : State) : Answer := streamCommand 0x50 vidDecodeStart s

end Sys2Proof.Machine
end

