-- ==== Sys2Proof/Machine/Dispatch.lean ====
section
/-! DEFINITION. One arm per instruction. -/

namespace Sys2Proof.Machine

open Sys2Proof

/-- The meaning of an instruction. -/
def exec (i : Instr) (s : State) : Host.Outcome State Fault Refusal :=
  match i with
  | .nop => Sys2Proof.Machine.execNop s
  | .softReset => Sys2Proof.Machine.execSoftReset s
  | .logClear => Sys2Proof.Machine.execLogClear s
  | .bsOpen => Sys2Proof.Machine.execBsOpen s
  | .bsReadBit => Sys2Proof.Machine.execBsReadBit s
  | .bsReadByte => Sys2Proof.Machine.execBsReadByte s
  | .stBuild => Sys2Proof.Machine.execStBuild s
  | .stLookup => Sys2Proof.Machine.execStLookup s
  | .btBuild => Sys2Proof.Machine.execBtBuild s
  | .btBuildAll => Sys2Proof.Machine.execBtBuildAll s
  | .btReset => Sys2Proof.Machine.execBtReset s
  | .btLookup => Sys2Proof.Machine.execBtLookup s
  | .audDecode => Sys2Proof.Machine.execAudDecode s
  | .vidDecode => Sys2Proof.Machine.execVidDecode s
  | .mono payload runidx => Sys2Proof.Machine.execMono payload runidx s
  | .full payload runidx => Sys2Proof.Machine.execFull payload runidx s
  | .void payload runidx => Sys2Proof.Machine.execVoid payload runidx s
  | .solid payload runidx => Sys2Proof.Machine.execSolid payload runidx s
  | .double payload runidx => Sys2Proof.Machine.execDouble payload runidx s
  | .half payload runidx => Sys2Proof.Machine.execHalf payload runidx s
  | .tree8Absent => Sys2Proof.Machine.execTree8Absent s
  | .tree8Present => Sys2Proof.Machine.execTree8Present s
  | .node8Branch => Sys2Proof.Machine.execNode8Branch s
  | .node8Leaf value => Sys2Proof.Machine.execNode8Leaf value s
  | .treeTerm => Sys2Proof.Machine.execTreeTerm s
  | .tree16Absent => Sys2Proof.Machine.execTree16Absent s
  | .tree16Present => Sys2Proof.Machine.execTree16Present s
  | .seed low high => Sys2Proof.Machine.execSeed low high s
  | .node16Branch => Sys2Proof.Machine.execNode16Branch s
  | .node16Leaf => Sys2Proof.Machine.execNode16Leaf s
  | .dpcmN n => Sys2Proof.Machine.execDpcmN n s
  | .dpcmHeader stereo depth16 => Sys2Proof.Machine.execDpcmHeader stereo depth16 s
  | .dpcmInit8 value => Sys2Proof.Machine.execDpcmInit8 value s
  | .dpcmInit16 high low => Sys2Proof.Machine.execDpcmInit16 high low s

end Sys2Proof.Machine
end

