-- ==== Sys2Proof/Machine/Step.lean ====
section
/-! DEFINITION. The step, and where a word of the opcode table is fetched from. -/

namespace Sys2Proof.Machine

open Sys2Proof Sys2Proof.Config

/-- A host access (46_system.md R280, R284). A write to CMD decodes the code and runs the command. -/
def hostStep (op : HostOp) (s : State) : Host.Outcome State Fault Refusal :=
  match op with
  | .writeCmd code =>
    match decode .cmd (bitsOf code) with
    | .instr i => exec i s
    | .more | .reject _ => reservedCommand code s
  | .writeReg r v => .next (hostWriteReg r v s)
  | .writeIn addr v => hostWriteIn addr v s
  | .powerOn => .next (hostPowerOn s)

/-- One step. Between commands the engine takes the host's next access; with none pending it is idle and nothing changes
(60_exceptions.md R302). A command runs to its end within its step (46_system.md R280), so the second case is met only in a
state placed in the middle of a command: there a step is the next token (log 7). -/
def step (s : State) : Host.Outcome State Fault Refusal :=
  match s.work with
  | .idle =>
    match s.host with
    | [] => .next s
    | op :: rest => hostStep op { s with host := rest }
  | .small _ _ | .big _ _ | .bigAll _ _ | .audio _ _ | .video => engineStep exec s

/-- The state in the middle of a VID_DECODE of one 4×4 block, whose TYPE tree is one leaf, the TYPEWORD `w` (log 10). The
TYPEEXT bits are byte 0 of `IN`. -/
def State.withTypeWord (s : State) (version : Byte) (w : Half) (ext : Byte) : State :=
  { s with
    work := .video
    version := version
    width := 4
    height := 4
    scanRow := 0
    scanCol := 0
    inMem := Memory.write inBlank s.inMem 0 ext
    bs := { base := 0, size := 1, bytePos := 0, bitPos := 0 }
    vt := s.vt.set typeId (.present .absent .absent (.lit w) Cache.zero) }

/-- The state in the middle of an AUD_DECODE of track 0, whose record holds the length `n` (log 10). -/
def State.withDpcmLength (s : State) (n : Word) : State :=
  { s with
    work := .audio 0 .length
    arg0 := 0
    arg1 := 4
    inMem := Memory.write inBlank (Memory.write inBlank (Memory.write inBlank (Memory.write inBlank s.inMem
      0 (n.extractLsb' 0 8)) 1 (n.extractLsb' 8 8)) 2 (n.extractLsb' 16 8)) 3 (n.extractLsb' 24 8) }

/-- The state whose next step fetches and runs the instruction of the word `w` of `nbits` bits (log 9, log 10): a command
code is the host's next access, a TYPEWORD stands in the TYPE tree, a DPCM length in `IN`. -/
def State.withFetchWord (s : State) (nbits w : Nat) : State :=
  match tableFormat nbits with
  | some .cmd => { s with work := .idle, host := .writeCmd (BitVec.ofNat 8 w) :: s.host }
  | some (.typeWord false) => s.withTypeWord 0x32 (BitVec.ofNat 16 w) 0
  | some (.typeWord true) => s.withTypeWord 0x34 (BitVec.ofNat 16 w) (BitVec.ofNat 8 (w / 65536))
  | some .dpcmN => s.withDpcmLength (BitVec.ofNat 32 w)
  | _ => s

end Sys2Proof.Machine
end

