-- ==== Sys2Proof/Machine/Script.lean ====
section
/-! DEFINITION. The command scripts of 30_encoding.md R120 as lists of host accesses, for claims and tests: a command with
its operands, bytes loaded into `IN`, and the pseudo-commands with their expansions. -/

namespace Sys2Proof.Machine

open Sys2Proof

/-- `MNEMONIC`: a command without operands. -/
def script0 (code : Byte) : List HostOp := [.writeCmd code]

/-- `MNEMONIC a`: `ARG0 <- a`, then the code. -/
def script1 (code : Byte) (a : Word) : List HostOp := [.writeReg .arg0 a, .writeCmd code]

/-- `MNEMONIC a, b`. -/
def script2 (code : Byte) (a b : Word) : List HostOp := [.writeReg .arg0 a, .writeReg .arg1 b, .writeCmd code]

/-- `MNEMONIC a, b, c`. -/
def script3 (code : Byte) (a b c : Word) : List HostOp :=
  [.writeReg .arg0 a, .writeReg .arg1 b, .writeReg .arg2 c, .writeCmd code]

/-- `LOAD addr, bytes`. -/
def scriptLoad (addr : Nat) : List Byte → List HostOp
  | [] => []
  | v :: rest => .writeIn addr v :: scriptLoad (addr + 1) rest

/-- `BT_RESET_ALL`. -/
def scriptResetAll : List HostOp := script1 0x32 0 ++ script1 0x32 1 ++ script1 0x32 2 ++ script1 0x32 3

/-- `OPEN_TREES base, size`. -/
def scriptOpenTrees (base size : Word) : List HostOp := script2 0x31 base size

/-- `ST_READ16`: the low byte, then the high byte. -/
def scriptRead16 : List HostOp := script0 0x12 ++ script0 0x12

/-- The value of `ST_READ16` from the two results. -/
def scriptRead16Value (low high : Half) : Half := (high <<< 8) ||| low

/-- `RENDER`: each enabled, present track in ascending index, then the video (46_system.md R285). The palette range is
outside the block (00_scope.md R4 (b)). -/
def scriptRender (audio : Vector (Option (Word × Word)) 7) (video : Option (Word × Word)) : List HostOp :=
  ((List.finRange 7).flatMap fun t =>
    match audio[t] with
    | some (base, size) => script3 0x40 base size (BitVec.ofNat 32 t.val)
    | none => []) ++
  match video with
  | some (base, size) => script2 0x50 base size
  | none => []

end Sys2Proof.Machine
end

