-- ==== Sys2Proof/Safety.lean ====
section
/-! DEFINITION. The terms claims use: the invariant of a run, the bits a window still holds, serialised trees and code
words, the recursive form of the tree builds, and the fault tables of 60_exceptions.md. -/

namespace Sys2Proof.Machine

open Sys2Proof Sys2Proof.Config

/-! ### Commands -/

/-- The host commands: the rows of 30_encoding.md R92. -/
def isCommand (i : Instr) : Bool := (commandCode i).isSome

/-- Which command can raise which cause (60_exceptions.md R293). -/
def mayRaise (i : Instr) (c : Cause) : Bool :=
  match i with
  | .bsOpen => c == .window
  | .bsReadBit | .bsReadByte => c == .exhausted
  | .stBuild => c == .exhausted || c == .badTerminator || c == .badCommand || c == .treeCapacity
  | .stLookup | .btLookup => c == .exhausted || c == .absentTree || c == .badCommand
  | .btBuild => c == .exhausted || c == .badTerminator || c == .absentTree || c == .badCommand || c == .treeCapacity
  | .btBuildAll => c == .exhausted || c == .badTerminator || c == .absentTree || c == .treeCapacity || c == .window
  | .btReset => c == .badCommand
  | .audDecode => true
  | .vidDecode => c == .exhausted || c == .absentTree || c == .badConfig || c == .window
  | _ => false

/-- The end of a command that faults without any other effect (60_exceptions.md R294, R296, first row). -/
def State.faulted (s : State) (code : Byte) (c : Cause) : State :=
  { s with cmd := code, status := statusWord code c.code, log := logWith s.log c, work := .idle }

/-- RESULT after each of `k` runs of `i`, one after the other; `none` when one of them stops. -/
def results (i : Instr) : Nat → State → Option (List Half)
  | 0, _ => some []
  | k + 1, s =>
    match exec i s with
    | .next t => (results i k t).map fun rest => t.result :: rest
    | .fault _ => none
    | .refused _ => none

/-- The source's error classes (60_exceptions.md R292). -/
inductive FaultClass where
  /-- Class (a), FormatError: fatal to the open. -/
  | formatError
  /-- Class (b): ends the decode of the frame's affected sub-stream only. -/
  | inconsistency
  /-- Class (d): misuse of the command interface. -/
  | misuse
deriving DecidableEq, Repr

/-- The class of a fault follows from the cause and the command (60_exceptions.md R292). The rule names FormatError for
VID_DECODE's BAD_CONFIG where the version is illegal; that the same cause has the same class where the width, the height or
the frame's size is illegal is DEDUCED, the model's choice (log 15). The rule names no class for an exhausted or absent tree
in a single read or lookup command, nor for AUD_DECODE's BAD_CONFIG: they have none here (log 15). -/
def faultClass (i : Instr) (c : Cause) : Option FaultClass :=
  if c = .badCommand ∨ c = .window then some .misuse
  else
    match i with
    | .stBuild | .btBuild | .btBuildAll => some .formatError
    | .audDecode => if c = .badConfig then none else some .inconsistency
    | .vidDecode => if c = .badConfig then some .formatError else some .inconsistency
    | _ => none

/-! ### The bits of a window -/

/-- The number of the next bit of the window (40_bitstream.md R136). -/
def BitStream.offset (b : BitStream) : Nat := 8 * b.bytePos.toNat + b.bitPos.toNat

/-- How many bits the window still holds (40_bitstream.md R136). -/
def BitStream.left (b : BitStream) : Nat := 8 * b.size.toNat - b.offset

/-- The k-th bit of the window (20_memory.md R62). -/
def windowBit (m : List Host.Cell) (b : BitStream) (k : Nat) : Bool :=
  (inRead m (b.base.toNat + k / 8)).getLsbD (k % 8)

/-- The bits the window still holds, in stream order. -/
def remaining (m : List Host.Cell) (b : BitStream) : List Bool :=
  (List.range b.left).map fun k => windowBit m b (b.offset + k)

/-- The registers after `k` more bits. -/
def BitStream.skip (b : BitStream) (k : Nat) : BitStream :=
  { b with bytePos := BitVec.ofNat 32 ((b.offset + k) / 8), bitPos := BitVec.ofNat 3 ((b.offset + k) % 8) }

/-- The next bits of the stream are these. -/
abbrev State.Ahead (s : State) (bits : List Bool) : Prop := bits <+: remaining s.inMem s.bs

/-! ### The invariant -/

/-- The invariant of the bitstream registers (10_state.md R21) and of the window (20_memory.md R61). -/
abbrev BitsWf (s : State) : Prop :=
  s.bs.bytePos ≤ s.bs.size ∧ (s.bs.bytePos = s.bs.size → s.bs.bitPos = 0) ∧
    s.bs.base.toNat + s.bs.size.toNat ≤ s.params.inSize.toNat

/-- Every memory has its canonical form, and lists only addresses that exist: those of `IN` (20_memory.md R60) and those of
`FB` (10_state.md R30). `AoutWf` says which addresses `AOUT` lists. -/
abbrev MemoryWf (s : State) : Prop :=
  Memory.wf inBlank s.inMem ∧ (∀ c ∈ s.inMem, c.1 < s.params.inSize.toNat) ∧
    Memory.wf outBlank s.fb ∧ (∀ c ∈ s.fb, c.1 < s.width.toNat * s.height.toNat) ∧
    ∀ t : Fin 7, Memory.wf outBlank s.aout[t]

/-- `LOG` bits 0 and 11..15 read 0 (10_state.md R23). -/
abbrev LogWf (s : State) : Prop := s.log &&& 0xF801#16 = 0

/-- `STATUS.cmd` is the code last written to CMD, and `STATUS.cause` is one of the codes 0 to 10 (46_system.md R280;
60_exceptions.md R291). -/
abbrev StatusWf (s : State) : Prop := s.statusCmd = s.cmd ∧ s.statusCause.toNat ≤ 10

/-- The bytes of `AOUT[t]` with a value are exactly those below `AOUT_LEN[t]`, which is at most `AOUT_MAX` (10_state.md R31;
log 6). -/
abbrev AoutWf (s : State) : Prop :=
  ∀ t : Fin 7, (s.aout[t]).map (·.1) = List.range s.aoutLen[t].toNat ∧
    within s.params.aoutMax s.aoutLen[t].toNat = true

/-- What holds between commands of a run. -/
structure Inv (s : State) : Prop where
  idle : s.work = .idle
  bits : BitsWf s
  memory : MemoryWf s
  output : AoutWf s
  logBits : LogWf s
  status : StatusWf s

/-! ### Runs -/

/-- From `s`, in the middle of a command, step after step leads to `t`, where the command is over (46_system.md R280). -/
inductive EngineRun : State → State → Prop where
  | ended {s : State} : s.work = .idle → EngineRun s s
  | more {s t u : State} : s.work ≠ .idle → step s = .next t → EngineRun t u → EngineRun s u

/-! ### Serialised trees and code words -/

/-- The bits of a node (30_encoding.md R94). -/
def Node.bits : Node → List Bool
  | .leaf v => false :: bitsOf v
  | .branch l r => true :: (l.bits ++ r.bits)

/-- The bits of a small tree (30_encoding.md R94). -/
def SmallTree.bits (t : SmallTree) : List Bool :=
  match t with
  | .absent => [false]
  | .present n => true :: (n.bits ++ [false])

/-- The number of nodes, branches and leaves (41_small_tree.md R156). -/
def Node.count : Node → Nat
  | .leaf _ => 1
  | .branch l r => 1 + l.count + r.count

/-- The tree fits the capacity (41_small_tree.md R156). -/
def SmallTree.fits (cap : Option Nat) (t : SmallTree) : Bool :=
  match t with
  | .absent => true
  | .present n => within cap n.count

/-- `bits` is the code word of a leaf with value `v` (30_encoding.md R102). -/
inductive CodeWord : Node → List Bool → Byte → Prop where
  | leaf (v : Byte) : CodeWord (.leaf v) [] v
  | left {l r : Node} {bits : List Bool} {v : Byte} : CodeWord l bits v → CodeWord (.branch l r) (false :: bits) v
  | right {l r : Node} {bits : List Bool} {v : Byte} : CodeWord r bits v → CodeWord (.branch l r) (true :: bits) v

/-- `bits` is the code word of a leaf `n` of a lookup tree (30_encoding.md R102). -/
inductive BigCodeWord : BNode → List Bool → BNode → Prop where
  | lit (v : Half) : BigCodeWord (.lit v) [] (.lit v)
  | esc (i : Fin 3) : BigCodeWord (.esc i) [] (.esc i)
  | left {l r n : BNode} {bits : List Bool} : BigCodeWord l bits n → BigCodeWord (.branch l r) (false :: bits) n
  | right {l r n : BNode} {bits : List Bool} : BigCodeWord r bits n → BigCodeWord (.branch l r) (true :: bits) n

/-- The value of a leaf of a lookup tree (42_big_tree.md R174). -/
def leafValue (c : Cache) (n : BNode) : Half :=
  match n with
  | .lit v => v
  | .esc i => c.slot i
  | .branch _ _ => 0

/-- `bits` is a serialisation of the lookup tree `n`, its leaves coded by the trees `low` and `high` and tagged against
the seeds (30_encoding.md R98, R100). -/
inductive BigBits (low high : Node) (seeds : Cache) : BNode → List Bool → Prop where
  | leaf {lo hi : Byte} {codeLo codeHi : List Bool} : CodeWord low codeLo lo → CodeWord high codeHi hi →
      BigBits low high seeds (leafOf seeds (hi ++ lo)) (false :: (codeLo ++ codeHi))
  | branch {l r : BNode} {bl br : List Bool} : BigBits low high seeds l bl → BigBits low high seeds r br →
      BigBits low high seeds (.branch l r) (true :: (bl ++ br))

/-- The number of nodes of a lookup tree (42_big_tree.md R171). -/
def BNode.count : BNode → Nat
  | .lit _ => 1
  | .esc _ => 1
  | .branch l r => 1 + l.count + r.count

/-- The bits of a seed, low byte first (30_encoding.md R98). -/
def seedBits (v : Half) : List Bool := bitsOf (lowByte v) ++ bitsOf (highByte v)

/-- `bits` is a serialisation of a bigtree (30_encoding.md R98) that fits the capacities. -/
inductive TreeBits (p : Params) : BigTree → List Bool → Prop where
  | absent : TreeBits p .absent [false]
  | present {low high : Node} {seeds : Cache} {root : BNode} {bits : List Bool} :
      BigBits low high seeds root bits → within p.smallNodesMax low.count = true →
      within p.smallNodesMax high.count = true → within p.bigNodesMax root.count = true →
      TreeBits p (.present (.present low) (.present high) root seeds)
        (true :: ((SmallTree.present low).bits ++ (SmallTree.present high).bits ++
          seedBits seeds.c0 ++ seedBits seeds.c1 ++ seedBits seeds.c2 ++ bits ++ [false]))

/-! ### The tree builds as recursions

The pseudocode of 41_small_tree.md R150, R151 and 42_big_tree.md R170, R171, with the number of bits left as fuel
(41_small_tree.md R151). The engine reads the same trees token by token. -/

/-- `st_build_rec()` (41_small_tree.md R151) with the nodes counted (R156; 60_exceptions.md R300). -/
def stBuildRec (cap : Option Nat) (m : List Host.Cell) : Nat → Nat → Reader (Node × Nat)
  | 0, _ => throw .exhausted
  | fuel + 1, count => do
    let tag ← readBit m
    if within cap (count + 1) then
      if tag then
        let l ← stBuildRec cap m fuel (count + 1)
        let r ← stBuildRec cap m fuel l.2
        pure (.branch l.1 r.1, r.2)
      else
        let v ← readByte m
        pure (.leaf v, count + 1)
    else throw .treeCapacity

/-- `st_build()` (41_small_tree.md R150). -/
def stBuildSpec (cap : Option Nat) (m : List Host.Cell) : Reader SmallTree := do
  let control ← readBit m
  if control then
    let b ← get
    let n ← stBuildRec cap m (b.left + 1) 0
    let last ← readBit m
    if last then throw .badTerminator else pure (.present n.1)
  else pure .absent

/-- `bt_build_rec(low, high, cache)` (42_big_tree.md R171). -/
def btBuildRec (cap : Option Nat) (m : List Host.Cell) (low high : SmallTree) (seeds : Cache) :
    Nat → Nat → Reader (BNode × Nat)
  | 0, _ => throw .exhausted
  | fuel + 1, count => do
    let tag ← readBit m
    if within cap (count + 1) then
      if tag then
        let l ← btBuildRec cap m low high seeds fuel (count + 1)
        let r ← btBuildRec cap m low high seeds fuel l.2
        pure (.branch l.1 r.1, r.2)
      else
        let lo ← stLookup m low
        let hi ← stLookup m high
        pure (leafOf seeds (hi ++ lo), count + 1)
    else throw .treeCapacity

/-- One seed (42_big_tree.md R172). -/
def readSeed (m : List Host.Cell) : Reader Half := do
  let lo ← readByte m
  let hi ← readByte m
  pure (hi ++ lo)

/-- `bt_build()` (42_big_tree.md R170). -/
def btBuildSpec (p : Params) (m : List Host.Cell) : Reader BigTree := do
  let control ← readBit m
  if control then
    let low ← stBuildSpec p.smallNodesMax m
    let high ← stBuildSpec p.smallNodesMax m
    let c0 ← readSeed m
    let c1 ← readSeed m
    let c2 ← readSeed m
    let seeds : Cache := { c0 := c0, c1 := c1, c2 := c2 }
    let b ← get
    let root ← btBuildRec p.bigNodesMax m low high seeds (b.left + 1) 0
    let last ← readBit m
    if last then throw .badTerminator else pure (.present low high root.1 seeds)
  else pure .absent

/-! ### Audio -/

/-- `bits` codes the delta `d` of a channel with the trees `low` and `high` (30_encoding.md R116). -/
inductive DeltaCode : (wide : Bool) → (low high : SmallTree) → (bits : List Bool) → (d : Half) → Prop where
  | narrow {l : Node} {high : SmallTree} {bits : List Bool} {lo : Byte} : CodeWord l bits lo →
      DeltaCode false (.present l) high bits (lo.setWidth 16)
  | wide {l h : Node} {bl bh : List Bool} {lo hi : Byte} : CodeWord l bl lo → CodeWord h bh hi →
      DeltaCode true (.present l) (.present h) (bl ++ bh) (hi ++ lo)

/-- The bytes of a sample, the low one first (20_memory.md R67). -/
def sampleBytes (wide : Bool) (v : Half) : List Byte := if wide then [lowByte v, highByte v] else [lowByte v]

/-- The bits of an initial sample, the high byte first (30_encoding.md R115). -/
def initBits (wide : Bool) (v : Half) : List Bool :=
  if wide then bitsOf (highByte v) ++ bitsOf (lowByte v) else bitsOf (lowByte v)

/-- The trees of a record: channel 0 low and high, channel 1 low and high (30_encoding.md R114). A tree not in use is
Absent. -/
structure RecordTrees where
  low0 : SmallTree
  high0 : SmallTree
  low1 : SmallTree
  high1 : SmallTree

/-- Trees not in use are Absent. -/
def RecordTrees.unusedAbsent (stereo wide : Bool) (t : RecordTrees) : Prop :=
  (wide = false → t.high0 = .absent ∧ t.high1 = .absent) ∧ (stereo = false → t.low1 = .absent ∧ t.high1 = .absent)

/-- The trees of a record fit the capacity. -/
def RecordTrees.fits (cap : Option Nat) (t : RecordTrees) : Prop :=
  t.low0.fits cap = true ∧ t.high0.fits cap = true ∧ t.low1.fits cap = true ∧ t.high1.fits cap = true

/-- The bits of the trees of a record, those in use in their order (30_encoding.md R114). -/
def RecordTrees.bits (stereo wide : Bool) (t : RecordTrees) : List Bool :=
  t.low0.bits ++ (if wide then t.high0.bits else []) ++
    (if stereo then t.low1.bits ++ (if wide then t.high1.bits else []) else [])

/-- `bits` codes the sample frames of deltas `frames`, a pair each: channel 0 and, in a stereo record, channel 1
(30_encoding.md R116). -/
inductive FrameCodes (stereo wide : Bool) (t : RecordTrees) : List (Half × Half) → List Bool → Prop where
  | nil : FrameCodes stereo wide t [] []
  | mono {d0 d1 : Half} {bits rest : List Bool} {frames : List (Half × Half)} : stereo = false →
      DeltaCode wide t.low0 t.high0 bits d0 → FrameCodes stereo wide t frames rest →
      FrameCodes stereo wide t ((d0, d1) :: frames) (bits ++ rest)
  | stereo {d0 d1 : Half} {bits0 bits1 rest : List Bool} {frames : List (Half × Half)} : stereo = true →
      DeltaCode wide t.low0 t.high0 bits0 d0 → DeltaCode wide t.low1 t.high1 bits1 d1 →
      FrameCodes stereo wide t frames rest →
      FrameCodes stereo wide t ((d0, d1) :: frames) (bits0 ++ bits1 ++ rest)

/-- The slots the deltas of one sample frame are looked up in, in their order (43_audio_dpcm.md R208). -/
def deltaSlots (stereo wide : Bool) : List (Fin 4) :=
  0 :: ((if wide then [1] else []) ++ (if stereo then 2 :: (if wide then [3] else []) else []))

/-- `bits` are code words of the small trees in these slots, one of each. -/
inductive SlotCodes (s : State) : List (Fin 4) → List Bool → Prop where
  | nil : SlotCodes s [] []
  | cons {slot : Fin 4} {slots : List (Fin 4)} {root : Node} {v : Byte} {bits rest : List Bool} :
      s.atree[slot] = .present root → CodeWord root bits v → SlotCodes s slots rest →
      SlotCodes s (slot :: slots) (bits ++ rest)

/-- The bytes of one sample frame (20_memory.md R67). -/
def frameBytes (stereo wide : Bool) (v0 v1 : Half) : List Byte :=
  sampleBytes wide v0 ++ (if stereo then sampleBytes wide v1 else [])

/-- The output of a record: the initial samples, then each frame of deltas added to the samples before it
(43_audio_dpcm.md R207 to R210). -/
def recordBytes (stereo wide : Bool) (v0 v1 : Half) : List (Half × Half) → List Byte
  | [] => frameBytes stereo wide v0 v1
  | (d0, d1) :: frames =>
    frameBytes stereo wide v0 v1 ++ recordBytes stereo wide (addSample wide v0 d0) (addSample wide v1 d1) frames

/-! ### Video -/

/-- `k` lookups of a bigtree, one after the other (42_big_tree.md R174). -/
def btLookups (id : Fin 4) : Nat → Engine (List Half)
  | 0 => pure []
  | k + 1 => do
    let v ← btLookup id
    let rest ← btLookups id k
    pure (v :: rest)

/-- The state a frame's scan starts from: the command's code in CMD and STATUS, the window of ARG0 and ARG1 open at its first
bit, every cache 0, 0, 0, the cursor at 0, 0 (44_video_blocks.md R231; 46_system.md R280). -/
def frameStarted (s : State) : State :=
  { s with
    cmd := 0x50
    status := 0x5000
    bs := { base := s.arg0, size := s.arg1, bytePos := 0, bitPos := 0 }
    vt := s.vt.map btResetTree
    scanRow := 0
    scanCol := 0
    work := .video }

/-- How many blocks the runs of these TYPE words have together (44_video_blocks.md R246 (d)). -/
def runBlocks (ws : List Half) : Nat := (ws.map fun w => runLength (runidxField w)).sum

/-- The number of the block at the cursor, in scan order (44_video_blocks.md R232). -/
def blockNumber (s : State) : Nat := s.scanRow.toNat / 4 * (s.width.toNat / 4) + s.scanCol.toNat / 4

/-- The number of the block that holds a pixel. -/
def blockOf (s : State) (addr : Nat) : Nat :=
  addr / s.width.toNat / 4 * (s.width.toNat / 4) + addr % s.width.toNat / 4

/-- What one block of a TYPEWORD draws (30_encoding.md R106). -/
def blockDraw (i : Instr) : Engine Unit :=
  match i with
  | .mono _ _ => drawMono
  | .full _ _ => drawFull
  | .void _ _ => drawVoid
  | .solid p _ => drawSolid p
  | .double _ _ => drawDouble
  | .half _ _ => drawHalf
  | _ => pure ()

/-- The configuration and the cursor of a frame being decoded (44_video_blocks.md R230, R242). -/
abbrev FrameWf (s : State) : Prop :=
  videoConfigLegal s = true ∧ s.scanRow.toNat % 4 = 0 ∧ s.scanCol.toNat % 4 = 0 ∧
    s.scanRow.toNat ≤ s.height.toNat ∧ s.scanCol.toNat < s.width.toNat

/-- Every leaf of a lookup tree is a literal that `P` holds of. -/
def BNode.allLits (P : Half → Bool) : BNode → Bool
  | .lit v => P v
  | .esc _ => false
  | .branch l r => l.allLits P && r.allLits P

/-- The byte of `FB` at an address, `none` where nothing has been written since the content became unspecified. -/
def fbAt (s : State) (addr : Nat) : Option Byte := Memory.read outBlank s.fb addr

/-- `addr` is a pixel of the block at the cursor of `s`. -/
def inBlock (s : State) (addr : Nat) : Prop := ∃ r c : Nat, r < 4 ∧ c < 4 ∧ addr = pixelAddr s r c

end Sys2Proof.Machine
end

