-- ==== Sys2Proof/Certificates/Slice0/Obligations.lean ====
section
/-! DEFINITION. The statements for the provers. Where a statement gives a next state as an update of `s`, every field it
does not name is unchanged: that is its frame. `work := .idle` is the model's own field (log 7). -/

open Sys2Proof Sys2Proof.Config Sys2Proof.Machine

/-! ### System commands, host accesses, reset -/

/-- 46_system.md R281, R283: NOP changes CMD and STATUS alone; LOG_CLEAR clears LOG besides. -/
def Obligations.NopAndLogClear : Prop :=
  ∀ s : State,
    exec .nop s = .next { s with cmd := 0x00, status := 0x0000, work := .idle } ∧
    exec .logClear s = .next { s with cmd := 0x02, status := 0x0200, log := 0, work := .idle }

/-- 46_system.md R282: what SOFT_RESET clears and what it keeps. A byte of AOUT has no value for the host afterwards. -/
def Obligations.SoftResetResult : Prop :=
  ∀ s : State, ∃ t : State, exec .softReset s = .next t ∧
    (t.bs = { base := 0, size := 0, bytePos := 0, bitPos := 0 } ∧ t.result = 0 ∧ t.log = 0 ∧
      (∀ i : Fin 4, t.atree[i] = .absent) ∧ (∀ i : Fin 4, t.vt[i] = .absent) ∧
      (∀ k : Fin 7, t.aoutLen[k] = 0) ∧ (∀ (k : Fin 7) (addr : Nat), hostReadAout t k addr = none) ∧
      t.scanRow = 0 ∧ t.scanCol = 0 ∧ t.cmd = 0x01 ∧ t.status = 0x0100 ∧ t.work = .idle) ∧
    t.arg0 = s.arg0 ∧ t.arg1 = s.arg1 ∧ t.arg2 = s.arg2 ∧ t.version = s.version ∧ t.width = s.width ∧
    t.height = s.height ∧ t.trk = s.trk ∧ t.fb = s.fb ∧ t.fbDraw = s.fbDraw ∧ t.fbZeroed = s.fbZeroed ∧
    t.inMem = s.inMem ∧ t.host = s.host ∧ t.params = s.params

/-- 30_encoding.md R93: a reserved code and an operand out of range fault BAD_COMMAND and change nothing but CMD,
STATUS and LOG. -/
def Obligations.ReservedCodesAndOperands : Prop :=
  (∀ (s : State) (code : Byte) (rest : List HostOp), s.work = .idle → s.host = .writeCmd code :: rest →
    (∀ i : Instr, commandCode i ≠ some code) →
    step s = .next { s with
      host := rest, cmd := code, status := statusWord code 8, log := s.log ||| 0x0100, work := .idle }) ∧
  (∀ s : State, 3 < s.arg0.toNat →
    exec .stBuild s = .next (s.faulted 0x20 .badCommand) ∧ exec .stLookup s = .next (s.faulted 0x21 .badCommand) ∧
    exec .btBuild s = .next (s.faulted 0x30 .badCommand) ∧ exec .btReset s = .next (s.faulted 0x32 .badCommand) ∧
    exec .btLookup s = .next (s.faulted 0x33 .badCommand)) ∧
  (∀ s : State, 6 < s.arg2.toNat → exec .audDecode s = .next (s.faulted 0x40 .badCommand))

/-- 46_system.md R284 (a): a host write to a register other than CMD. A write to CFG.WIDTH or CFG.HEIGHT makes every byte
of FB unspecified (10_state.md R24, R30): the host then reads the free value of a new draw (log 4, log 5). -/
def Obligations.HostRegisterWrite : Prop :=
  ∀ (s : State) (r : HostReg) (v : Word) (rest : List HostOp), s.work = .idle → s.host = .writeReg r v :: rest →
    match r with
    | .arg0 => step s = .next { s with host := rest, arg0 := v }
    | .arg1 => step s = .next { s with host := rest, arg1 := v }
    | .arg2 => step s = .next { s with host := rest, arg2 := v }
    | .version => step s = .next { s with host := rest, version := v.setWidth 8 }
    | .trk t => step s = .next { s with host := rest, trk := s.trk.set t v }
    | .width => ∃ t : State, step s = .next t ∧
        t = { s with host := rest, width := v, fb := t.fb, fbDraw := t.fbDraw, fbZeroed := t.fbZeroed } ∧
        ∀ addr, hostReadFb t addr =
          if addr < v.toNat * s.height.toNat then some (Config.fbByte (s.fbDraw + 1) addr) else none
    | .height => ∃ t : State, step s = .next t ∧
        t = { s with host := rest, height := v, fb := t.fb, fbDraw := t.fbDraw, fbZeroed := t.fbZeroed } ∧
        ∀ addr, hostReadFb t addr =
          if addr < s.width.toNat * v.toNat then some (Config.fbByte (s.fbDraw + 1) addr) else none
    | .result | .status | .log | .bsBase | .bsSize | .bsBytePos | .bsBitPos | .aoutLen _ | .scanRow | .scanCol =>
        step s = .next { s with host := rest }

/-- 46_system.md R284 (c): a host write to `IN` below `IN_SIZE` changes that byte alone; above it the model stops (log
11). -/
def Obligations.HostInputWrite : Prop :=
  ∀ (s : State) (addr : Nat) (v : Byte) (rest : List HostOp), s.work = .idle → s.host = .writeIn addr v :: rest →
    Memory.wf inBlank s.inMem →
    (addr < s.params.inSize.toNat → ∃ m, step s = .next { s with host := rest, inMem := m } ∧
      Memory.wf inBlank m ∧ ∀ a, inRead m a = if a = addr then v else inRead s.inMem a) ∧
    (s.params.inSize.toNat ≤ addr → step s = .fault (.inAddress addr))

/-- 10_state.md R38, 70_reset_and_hazards.md R330: the state after power-on reset. No byte of FB or AOUT can be read. What the
host owns stays (log 12). -/
def Obligations.PowerOnReset : Prop :=
  ∀ (s : State) (rest : List HostOp), s.work = .idle → s.host = .powerOn :: rest →
    ∃ t : State, step s = .next t ∧
      (t.bs = { base := 0, size := 0, bytePos := 0, bitPos := 0 } ∧ t.cmd = 0 ∧ t.arg0 = 0 ∧ t.arg1 = 0 ∧ t.arg2 = 0 ∧
        t.result = 0 ∧ t.status = 0 ∧ t.log = 0 ∧ t.version = 0 ∧ t.width = 0 ∧ t.height = 0 ∧
        (∀ k : Fin 7, t.trk[k] = 0) ∧ (∀ i : Fin 4, t.atree[i] = .absent) ∧ (∀ i : Fin 4, t.vt[i] = .absent) ∧
        (∀ k : Fin 7, t.aoutLen[k] = 0) ∧ t.scanRow = 0 ∧ t.scanCol = 0) ∧
      (∀ addr, hostReadFb t addr = none) ∧ (∀ (k : Fin 7) (addr : Nat), hostReadAout t k addr = none) ∧
      t.inMem = s.inMem ∧ t.host = rest ∧ t.params = s.params ∧ t.work = .idle

/-- 70_reset_and_hazards.md R331, 60_exceptions.md R302: with no host access pending nothing happens between commands; straight
after reset, with any parameters, every reading, looking up or decoding command faults as the rule says. -/
def Obligations.SafeAfterReset : Prop :=
  (∀ s : State, s.work = .idle → s.host = [] → step s = .next s) ∧
  ∀ (params : Params) (inMem : List Host.Cell) (draw : Nat), let s := State.powerOn params inMem [] draw
    exec .bsReadBit s = .next (s.faulted 0x11 .exhausted) ∧ exec .bsReadByte s = .next (s.faulted 0x12 .exhausted) ∧
    exec .stLookup s = .next (s.faulted 0x21 .absentTree) ∧ exec .btLookup s = .next (s.faulted 0x33 .absentTree) ∧
    exec .vidDecode s = .next (s.faulted 0x50 .badConfig) ∧ exec .audDecode s = .next (s.faulted 0x40 .badConfig)

/-! ### Steps -/

/-- 46_system.md R280: a write to CMD runs the command whose code it is. -/
def Obligations.StepRunsCommand : Prop :=
  ∀ (s : State) (code : Byte) (rest : List HostOp) (i : Instr), s.work = .idle → s.host = .writeCmd code :: rest →
    commandCode i = some code → step s = exec i { s with host := rest }

/-- 40_bitstream.md R130, 30_encoding.md R90: in the middle of a command, when the bits ahead are the encoding of an
instruction that may stand where the command reads, a step moves past them and runs it. -/
def Obligations.StepRunsToken : Prop :=
  ∀ (s : State) (f : Format) (i : Instr), wantedFormat s = some f → (∀ v4, f ≠ .typeWord v4) → f ≠ .dpcmN →
    WellFormed f i = true → s.Ahead (encode f i) → nodeRoom s = true →
    step s = exec i { s with bs := s.bs.skip (encode f i).length }

/-- 44_video_blocks.md R233, R234: the TYPEWORD of a group is the value a lookup in the TYPE tree returns, with the
TYPEEXT bits that follow in the stream; the lookup updates the TYPE cache. 43_audio_dpcm.md R202: the length of a DPCM record is
the four bytes of `IN` at ARG0, little-endian; a record shorter than 4 bytes is EXHAUSTED, the registers BS as they were. The track
then lists no byte: that the bytes R211 calls unspecified have no value is the model's choice (log 6).
44_video_blocks.md R244: a TYPE lookup in an Absent tree changes nothing; one that runs out of bits leaves every cache as it
was; where a TYPEEXT bit is missing the TYPE cache is updated already. In each case the cursor and FB stay. -/
def Obligations.StepRunsFetchedWord : Prop :=
  (∀ (s : State) (low high : SmallTree) (root leaf : BNode) (cache : Cache) (bits ext : List Bool) (i : Instr),
    s.work = .video → s.vt[typeId] = .present low high root cache → BigCodeWord root bits leaf →
    WellFormed (.typeWord s.isV4) i = true →
    encode (.typeWord s.isV4) i = bitsOf (leafValue cache leaf) ++ ext → s.Ahead (bits ++ ext) →
    step s = exec i { s with
      bs := s.bs.skip (bits.length + ext.length)
      vt := s.vt.set typeId (.present low high root (mruUpdate cache (leafValue cache leaf))) }) ∧
  (∀ s : State, s.work = .video →
    (s.vt[typeId] = .absent → step s = .next { s with
      status := statusWord s.statusCmd 3, log := s.log ||| 0x0008, work := .idle }) ∧
    ∀ (low high : SmallTree) (root : BNode) (cache : Cache), s.vt[typeId] = .present low high root cache →
      ((∀ bits leaf, BigCodeWord root bits leaf → ¬ s.Ahead bits) →
        step s = .next { s with
          bs := s.bs.skip s.bs.left, status := statusWord s.statusCmd 1, log := s.log ||| 0x0002, work := .idle }) ∧
      (∀ (bits : List Bool) (leaf : BNode), BigCodeWord root bits leaf → s.isV4 = true →
        typeField (leafValue cache leaf) = 1 →
        (remaining s.inMem s.bs = bits ∨ remaining s.inMem s.bs = bits ++ [false]) →
        step s = .next { s with
          bs := s.bs.skip s.bs.left
          vt := s.vt.set typeId (.present low high root (mruUpdate cache (leafValue cache leaf)))
          status := statusWord s.statusCmd 1, log := s.log ||| 0x0002, work := .idle })) ∧
  ∀ (s : State) (t : Fin 7), s.work = .audio t .length →
    (4 ≤ s.arg1.toNat → step s = exec (.dpcmN (inRead s.inMem (s.arg0.toNat + 3) ++ inRead s.inMem (s.arg0.toNat + 2) ++
      inRead s.inMem (s.arg0.toNat + 1) ++ inRead s.inMem s.arg0.toNat)) s) ∧
    (s.arg1.toNat < 4 → step s = .next { s with
      aout := s.aout.set t [], status := statusWord s.statusCmd 1, log := s.log ||| 0x0002, work := .idle })

/-- 30_encoding.md R97, R113; 60_exceptions.md R297, R300: bits that are no token raise their fault, after the bit that
decides; a window that ends within a token raises EXHAUSTED with every bit consumed; a node that is one too many raises
TREE_CAPACITY after its tag bit. -/
def Obligations.TokenFaults : Prop :=
  ∀ (s : State) (f : Format), wantedFormat s = some f → (∀ v4, f ≠ .typeWord v4) → f ≠ .dpcmN →
    (f = .term → s.Ahead [true] → step s = .next (raiseFault .badTerminator { s with bs := s.bs.skip 1 })) ∧
    (f = .dpcmHeader → s.Ahead [false] → step s = .next (raiseFault .audioNoData { s with bs := s.bs.skip 1 })) ∧
    (nodeRoom s = false → 0 < s.bs.left →
      step s = .next (raiseFault .treeCapacity { s with bs := s.bs.skip 1 })) ∧
    ((nodeRoom s = true ∨ s.bs.left = 0) → (∀ k ≤ s.bs.left, decode f ((remaining s.inMem s.bs).take k) = .more) →
      step s = .next (raiseFault .exhausted { s with bs := s.bs.skip s.bs.left }))

/-- 60_exceptions.md R294: raising a fault, with the numbers of R291 for each cause. The clean-up of BT_BUILD_ALL is four Absent trees; a DPCM record's output has
no value (log 6); everything else stands, RESULT among it. -/
def Obligations.RaiseFault : Prop :=
  ∀ (c : Cause) (s : State), ∃ t : State, raiseFault c s = t ∧
    t = { s with vt := t.vt, aout := t.aout, status := t.status, log := t.log, work := .idle } ∧
    t.statusCause = c.code ∧ t.statusCmd = s.statusCmd ∧
    (∀ k < 16, t.log.getLsbD k = (s.log.getLsbD k || k == c.code.toNat)) ∧
    (match c with
      | .exhausted => t.statusCause = 1 ∧ t.log = s.log ||| 0x0002
      | .badTerminator => t.statusCause = 2 ∧ t.log = s.log ||| 0x0004
      | .absentTree => t.statusCause = 3 ∧ t.log = s.log ||| 0x0008
      | .audioNoData => t.statusCause = 4 ∧ t.log = s.log ||| 0x0010
      | .audioConfigMismatch => t.statusCause = 5 ∧ t.log = s.log ||| 0x0020
      | .audioLength => t.statusCause = 6 ∧ t.log = s.log ||| 0x0040
      | .badConfig => t.statusCause = 7 ∧ t.log = s.log ||| 0x0080
      | .badCommand => t.statusCause = 8 ∧ t.log = s.log ||| 0x0100
      | .treeCapacity => t.statusCause = 9 ∧ t.log = s.log ||| 0x0200
      | .window => t.statusCause = 10 ∧ t.log = s.log ||| 0x0400) ∧
    (match s.work with
      | .bigAll _ _ => (∀ id : Fin 4, t.vt[id] = .absent) ∧ t.aout = s.aout
      | .audio k _ => t.vt = s.vt ∧ t.aout = s.aout.set k []
      | .idle | .small _ _ | .big _ _ | .video => t.vt = s.vt ∧ t.aout = s.aout)

/-! ### Bitstream -/

/-- 40_bitstream.md R132: BS_OPEN. -/
def Obligations.BsOpenResult : Prop :=
  ∀ s : State,
    (s.arg0.toNat + s.arg1.toNat ≤ s.params.inSize.toNat →
      exec .bsOpen s = .next { s with
        bs := { base := s.arg0, size := s.arg1, bytePos := 0, bitPos := 0 }
        cmd := 0x10, status := 0x1000, work := .idle }) ∧
    (s.params.inSize.toNat < s.arg0.toNat + s.arg1.toNat →
      exec .bsOpen s = .next { s with cmd := 0x10, status := 0x100A, log := s.log ||| 0x0400, work := .idle })

/-- 40_bitstream.md R130, R133: BS_READ_BIT. -/
def Obligations.BsReadBitResult : Prop :=
  ∀ s : State,
    (s.bs.bytePos < s.bs.size →
      exec .bsReadBit s = .next { s with
        bs := if s.bs.bitPos = 7 then { s.bs with bitPos := 0, bytePos := s.bs.bytePos + 1 }
          else { s.bs with bitPos := s.bs.bitPos + 1 }
        result := if (inRead s.inMem (s.bs.base.toNat + s.bs.bytePos.toNat)).getLsbD s.bs.bitPos.toNat then 1 else 0
        cmd := 0x11, status := 0x1100, work := .idle }) ∧
    (s.bs.size ≤ s.bs.bytePos →
      exec .bsReadBit s = .next { s with cmd := 0x11, status := 0x1101, log := s.log ||| 0x0002, work := .idle })

/-- 20_memory.md R63, 40_bitstream.md R131, R134: BS_READ_BYTE. With a byte left the result is the byte straddling the
position, and the bit position stays; with less, the bits that remain are consumed. -/
def Obligations.BsReadByteResult : Prop :=
  ∀ s : State, BitsWf s →
    (8 ≤ s.bs.left →
      exec .bsReadByte s = .next { s with
        bs := { s.bs with bytePos := s.bs.bytePos + 1 }
        result := ((inRead s.inMem (s.bs.base.toNat + s.bs.bytePos.toNat) >>> s.bs.bitPos.toNat) |||
          (inRead s.inMem (s.bs.base.toNat + s.bs.bytePos.toNat + 1) <<< (8 - s.bs.bitPos.toNat))).setWidth 16
        cmd := 0x12, status := 0x1200, work := .idle }) ∧
    (s.bs.left < 8 →
      exec .bsReadByte s = .next { s with
        bs := { s.bs with bytePos := s.bs.size, bitPos := 0 }
        cmd := 0x12, status := 0x1201, log := s.log ||| 0x0002, work := .idle })

/-- 40_bitstream.md R136: each successful read raises the bit offset by exactly 1, at most `8*BS.size` reads succeed, and
after that every read raises EXHAUSTED. -/
def Obligations.ReadsAreBounded : Prop :=
  ∀ (m : List Host.Cell) (b : BitStream),
    (∀ (v : Bool) (c : BitStream), readBit m b = .ok v c → c.offset = b.offset + 1 ∧ c.base = b.base ∧ c.size = b.size) ∧
    (∀ (k : Nat) (bits : List Bool) (c : BitStream), readBits m k b = .ok bits c →
      b.offset + k = c.offset ∧ (0 < k → c.offset ≤ 8 * b.size.toNat)) ∧
    (8 * b.size.toNat ≤ b.offset → readBit m b = .error .exhausted b)

/-! ### Small trees -/

/-- 41_small_tree.md R150, R151, R153, R156: ST_BUILD is the recursion of the rules, with the same bits consumed and the
same fault; the slot is Absent when the build faults. -/
def Obligations.StBuildIsRecursion : Prop :=
  ∀ (s : State) (slot : Fin 4), slotOperand s.arg0 = some slot →
    exec .stBuild s =
      match stBuildSpec s.params.smallNodesMax s.inMem s.bs with
      | .ok t b => .next { s with bs := b, atree := s.atree.set slot t, cmd := 0x20, status := 0x2000, work := .idle }
      | .error c b => .next ({ s with bs := b, atree := s.atree.set slot .absent }.faulted 0x20 c)

/-- 41_small_tree.md R152, R154: ST_LOOKUP of a code word, of an Absent tree, and of a window that ends within the walk. -/
def Obligations.StLookupResult : Prop :=
  ∀ (s : State) (slot : Fin 4), slotOperand s.arg0 = some slot →
    (∀ (n : Node) (bits : List Bool) (v : Byte), s.atree[slot] = .present n → CodeWord n bits v → s.Ahead bits →
      exec .stLookup s = .next { s with
        bs := s.bs.skip bits.length, result := v.setWidth 16, cmd := 0x21, status := 0x2100, work := .idle }) ∧
    (s.atree[slot] = .absent → exec .stLookup s = .next (s.faulted 0x21 .absentTree)) ∧
    (∀ n : Node, s.atree[slot] = .present n → (∀ bits v, CodeWord n bits v → ¬ s.Ahead bits) →
      exec .stLookup s = .next ({ s with bs := s.bs.skip s.bs.left }.faulted 0x21 .exhausted))

/-- 30_encoding.md R94, R96; 41_small_tree.md R157: the round trip of a small tree. ST_BUILD reads back the serialisation of any
tree that fits the capacity, and successive ST_LOOKUP of code words return their values. -/
def Obligations.SmallRoundTrip : Prop :=
  ∀ (s : State) (slot : Fin 4) (n : Node) (codes : List (List Bool × Byte)), slotOperand s.arg0 = some slot →
    (SmallTree.present n).fits s.params.smallNodesMax = true → (∀ c ∈ codes, CodeWord n c.1 c.2) →
    s.Ahead ((SmallTree.present n).bits ++ codes.flatMap (·.1)) →
    ∃ t, exec .stBuild s = .next t ∧
      t = { s with
        bs := s.bs.skip (SmallTree.present n).bits.length
        atree := s.atree.set slot (.present n), cmd := 0x20, status := 0x2000, work := .idle } ∧
      results .stLookup codes.length t = some (codes.map fun c => c.2.setWidth 16)

/-! ### Bigtrees -/

/-- 42_big_tree.md R170, R171, R172, R176: BT_BUILD is the recursion of the rules, with the same bits consumed and the same
fault; the slot is Absent when the build faults. -/
def Obligations.BtBuildIsRecursion : Prop :=
  ∀ (s : State) (id : Fin 4), slotOperand s.arg0 = some id →
    exec .btBuild s =
      match btBuildSpec s.params s.inMem s.bs with
      | .ok t b => .next { s with bs := b, vt := s.vt.set id t, cmd := 0x30, status := 0x3000, work := .idle }
      | .error c b => .next ({ s with bs := b, vt := s.vt.set id .absent }.faulted 0x30 c)

/-- 42_big_tree.md R177, R182; 30_encoding.md R101: BT_BUILD_ALL opens its window and reads four bigtrees in the order MMAP,
MCLR, FULL, TYPE; an empty chunk completes with four Absent bigtrees; outside `IN` it faults WINDOW. -/
def Obligations.BtBuildAllResult : Prop :=
  ∀ s : State,
    (∀ (t0 t1 t2 t3 : BigTree) (b0 b1 b2 b3 : List Bool), windowLegal s s.arg0 s.arg1 = true →
      TreeBits s.params t0 b0 → TreeBits s.params t1 b1 → TreeBits s.params t2 b2 → TreeBits s.params t3 b3 →
      (s.openWindow s.arg0 s.arg1).Ahead (b0 ++ b1 ++ b2 ++ b3) →
      exec .btBuildAll s = .next { s with
        bs := (s.openWindow s.arg0 s.arg1).bs.skip (b0 ++ b1 ++ b2 ++ b3).length
        vt := #v[t0, t1, t2, t3], cmd := 0x31, status := 0x3100, work := .idle }) ∧
    (windowLegal s s.arg0 s.arg1 = true → s.arg1 = 0 →
      exec .btBuildAll s = .next { s with
        bs := { base := s.arg0, size := 0, bytePos := 0, bitPos := 0 }
        vt := Vector.replicate 4 .absent, cmd := 0x31, status := 0x3100, work := .idle }) ∧
    (windowLegal s s.arg0 s.arg1 = false → exec .btBuildAll s = .next (s.faulted 0x31 .window))

/-- 41_small_tree.md R155, 42_big_tree.md R180: a failed build leaves no tree, and touches no other. -/
def Obligations.FailedBuildsLeaveNoTree : Prop :=
  (∀ (s t : State) (slot : Fin 4), slotOperand s.arg0 = some slot → exec .stBuild s = .next t → t.statusCause ≠ 0 →
    t = { s with
      bs := t.bs, atree := s.atree.set slot .absent
      cmd := 0x20, status := t.status, log := t.log, work := .idle }) ∧
  (∀ (s t : State) (id : Fin 4), slotOperand s.arg0 = some id → exec .btBuild s = .next t → t.statusCause ≠ 0 →
    t = { s with
      bs := t.bs, vt := s.vt.set id .absent
      cmd := 0x30, status := t.status, log := t.log, work := .idle }) ∧
  (∀ s t : State, windowLegal s s.arg0 s.arg1 = true → exec .btBuildAll s = .next t → t.statusCause ≠ 0 →
    t = { s with
      bs := t.bs, vt := Vector.replicate 4 .absent
      cmd := 0x31, status := t.status, log := t.log, work := .idle })

/-- 42_big_tree.md R173, R178: BT_RESET sets the cache of the bigtree to 0, 0, 0; an Absent one has none. -/
def Obligations.BtResetResult : Prop :=
  ∀ (s : State) (id : Fin 4), slotOperand s.arg0 = some id →
    (∀ (low high : SmallTree) (root : BNode) (cache : Cache), s.vt[id] = .present low high root cache →
      exec .btReset s = .next { s with
        vt := s.vt.set id (.present low high root { c0 := 0, c1 := 0, c2 := 0 })
        cmd := 0x32, status := 0x3200, work := .idle }) ∧
    (s.vt[id] = .absent → exec .btReset s = .next { s with cmd := 0x32, status := 0x3200, work := .idle })

/-- 42_big_tree.md R174, R175, R179: BT_LOOKUP. The value of an escape is the slot's content before the update; the update
is the three assignments, and nothing when the value is in slot 0. A fault leaves the cache and RESULT alone. -/
def Obligations.BtLookupResult : Prop :=
  ∀ (s : State) (id : Fin 4), slotOperand s.arg0 = some id →
    (∀ (low high : SmallTree) (root leaf : BNode) (cache : Cache) (bits : List Bool),
      s.vt[id] = .present low high root cache → BigCodeWord root bits leaf → s.Ahead bits →
      exec .btLookup s = .next { s with
        bs := s.bs.skip bits.length
        result := leafValue cache leaf
        vt := s.vt.set id (.present low high root
          (if leafValue cache leaf = cache.c0 then cache
            else { c0 := leafValue cache leaf, c1 := cache.c0, c2 := cache.c1 }))
        cmd := 0x33, status := 0x3300, work := .idle }) ∧
    (s.vt[id] = .absent → exec .btLookup s = .next (s.faulted 0x33 .absentTree)) ∧
    (∀ (low high : SmallTree) (root : BNode) (cache : Cache), s.vt[id] = .present low high root cache →
      (∀ bits leaf, BigCodeWord root bits leaf → ¬ s.Ahead bits) →
      exec .btLookup s = .next ({ s with bs := s.bs.skip s.bs.left }.faulted 0x33 .exhausted))

/-- 42_big_tree.md R183: after a reset, the same lookups give the same results whatever the cache was: a corollary of
BtResetResult. -/
def Obligations.ResetIdempotence : Prop :=
  ∀ (s t : State) (id : Fin 4) (low high : SmallTree) (root : BNode) (c d : Cache) (k : Nat),
    slotOperand s.arg0 = some id → s.vt[id] = .present low high root c →
    t = { s with vt := s.vt.set id (.present low high root d) } →
    ∃ u v : State, exec .btReset s = .next u ∧ exec .btReset t = .next v ∧
      results .btLookup k u = results .btLookup k v

/-- 30_encoding.md R98, R100; 42_big_tree.md R184: BT_BUILD reads back a serialisation of any bigtree that fits the capacities;
after it, the code words of literal leaves decode to their values, whatever lookups came before. -/
def Obligations.BigRoundTrip : Prop :=
  ∀ (s : State) (id : Fin 4) (low high : SmallTree) (root : BNode) (seeds : Cache) (bits : List Bool)
    (codes : List (List Bool × Half)), slotOperand s.arg0 = some id →
    TreeBits s.params (.present low high root seeds) bits → (∀ c ∈ codes, BigCodeWord root c.1 (.lit c.2)) →
    s.Ahead (bits ++ codes.flatMap (·.1)) →
    ∃ t, exec .btBuild s = .next t ∧
      t = { s with
        bs := s.bs.skip bits.length, vt := s.vt.set id (.present low high root seeds)
        cmd := 0x30, status := 0x3000, work := .idle } ∧
      results .btLookup codes.length t = some (codes.map (·.2))

/-! ### Tokens -/

/-- 41_small_tree.md R150, R151, R156: the tokens of a small tree being built by ST_BUILD. -/
def Obligations.SmallTreeTokens : Prop :=
  ∀ (s : State) (slot : Fin 4),
    (s.work = .small slot .control →
      exec .tree8Absent s = .next { s with atree := s.atree.set slot .absent, work := .idle } ∧
      exec .tree8Present s = .next { s with work := .small slot (.node [] 0) }) ∧
    (∀ (path : List (Option Node)) (count : Nat), s.work = .small slot (.node path count) →
      (within s.params.smallNodesMax (count + 1) = true →
        exec .node8Branch s = .next { s with work := .small slot (.node (none :: path) (count + 1)) } ∧
        ∀ v : Byte, exec (.node8Leaf v) s = .next { s with
          work := match plugNode (.leaf v) path with
            | .inl root => .small slot (.term root)
            | .inr above => .small slot (.node above (count + 1)) }) ∧
      (within s.params.smallNodesMax (count + 1) = false →
        exec .node8Branch s = .next (raiseFault .treeCapacity s) ∧
        ∀ v : Byte, exec (.node8Leaf v) s = .next (raiseFault .treeCapacity s))) ∧
    (∀ root : Node, s.work = .small slot (.term root) →
      exec .treeTerm s = .next { s with atree := s.atree.set slot (.present root), work := .idle })

/-- 42_big_tree.md R170, R172; 41_small_tree.md R150, R151, R156: the tokens of a bigtree being built by BT_BUILD, but for the
nodes of its lookup tree. Its two inner small trees, each of any kind, go into it and not into a slot: the low tree is followed
by the high tree, the high tree by three seeds. -/
def Obligations.BigTreeTokens : Prop :=
  ∀ (s : State) (id : Fin 4),
    (s.work = .big id .control →
      exec .tree16Absent s = .next { s with vt := s.vt.set id .absent, work := .idle } ∧
      exec .tree16Present s = .next { s with work := .big id (.low .control) }) ∧
    (∀ (inner : SmallWork → BigWork) (after : SmallTree → BigWork),
      (inner = .low ∧ after = fun low => .high low .control) ∨
        (∃ low, inner = .high low ∧ after = fun high => .seeds low high []) →
      (s.work = .big id (inner .control) →
        exec .tree8Absent s = .next { s with work := .big id (after .absent) } ∧
        exec .tree8Present s = .next { s with work := .big id (inner (.node [] 0)) }) ∧
      (∀ (path : List (Option Node)) (count : Nat), s.work = .big id (inner (.node path count)) →
        (within s.params.smallNodesMax (count + 1) = true →
          exec .node8Branch s = .next { s with work := .big id (inner (.node (none :: path) (count + 1))) } ∧
          ∀ v : Byte, exec (.node8Leaf v) s = .next { s with
            work := match plugNode (.leaf v) path with
              | .inl root => .big id (inner (.term root))
              | .inr above => .big id (inner (.node above (count + 1))) }) ∧
        (within s.params.smallNodesMax (count + 1) = false →
          exec .node8Branch s = .next (raiseFault .treeCapacity s) ∧
          ∀ v : Byte, exec (.node8Leaf v) s = .next (raiseFault .treeCapacity s))) ∧
      (∀ root : Node, s.work = .big id (inner (.term root)) →
        exec .treeTerm s = .next { s with work := .big id (after (.present root)) })) ∧
    (∀ (low high : SmallTree) (lo hi : Byte), s.work = .big id (.seeds low high []) →
      exec (.seed lo hi) s = .next { s with work := .big id (.seeds low high [hi ++ lo]) }) ∧
    (∀ (low high : SmallTree) (c0 : Half) (lo hi : Byte), s.work = .big id (.seeds low high [c0]) →
      exec (.seed lo hi) s = .next { s with work := .big id (.seeds low high [c0, hi ++ lo]) }) ∧
    (∀ (low high : SmallTree) (c0 c1 : Half) (lo hi : Byte), s.work = .big id (.seeds low high [c0, c1]) →
      exec (.seed lo hi) s = .next { s with
        work := .big id (.node low high { c0 := c0, c1 := c1, c2 := hi ++ lo } [] 0) }) ∧
    (∀ (low high : SmallTree) (cache : Cache) (root : BNode), s.work = .big id (.term low high cache root) →
      exec .treeTerm s = .next { s with vt := s.vt.set id (.present low high root cache), work := .idle })

/-- 42_big_tree.md R171, 30_encoding.md R100: the nodes of a lookup tree. A leaf's value is the low tree's symbol, then the
high tree's; it is an escape to the lowest slot whose seed it equals, else a literal. -/
def Obligations.BigTreeNodes : Prop :=
  ∀ (s : State) (id : Fin 4) (low high : SmallTree) (seeds : Cache) (path : List (Option BNode)) (count : Nat),
    s.work = .big id (.node low high seeds path count) →
    (within s.params.bigNodesMax (count + 1) = true →
      exec .node16Branch s = .next { s with work := .big id (.node low high seeds (none :: path) (count + 1)) } ∧
      (∀ (l h : Node) (bl bh : List Bool) (lo hi : Byte) (leaf : BNode), low = .present l → high = .present h →
        CodeWord l bl lo → CodeWord h bh hi → s.Ahead (bl ++ bh) →
        leaf = (if hi ++ lo = seeds.c0 then .esc 0 else if hi ++ lo = seeds.c1 then .esc 1
          else if hi ++ lo = seeds.c2 then .esc 2 else .lit (hi ++ lo)) →
        exec .node16Leaf s = .next { s with
          bs := s.bs.skip (bl ++ bh).length
          work := match plugBNode leaf path with
            | .inl root => .big id (.term low high seeds root)
            | .inr above => .big id (.node low high seeds above (count + 1)) }) ∧
      (low = .absent → exec .node16Leaf s = .next (raiseFault .absentTree s))) ∧
    (within s.params.bigNodesMax (count + 1) = false →
      exec .node16Branch s = .next (raiseFault .treeCapacity s) ∧
      exec .node16Leaf s = .next (raiseFault .treeCapacity s))

/-- A serialised structure's token has a meaning inside its structure only (30_encoding.md R90): between commands every
token is refused. The model's choice (log 8). -/
def Obligations.TokensNeedACommand : Prop :=
  ∀ (i : Instr) (s : State), isCommand i = false → s.work = .idle → exec i s = .refused .outOfContext

/-- 43_audio_dpcm.md R202 to R206: DPCM.N opens the record's bitstream and clears the four slots; DPCM.HEADER compares with
the track's descriptor, then checks the length, then the trees are read. -/
def Obligations.DpcmHeaderTokens : Prop :=
  ∀ (s : State) (t : Fin 7) (n : Word),
    (s.work = .audio t .length → 4 ≤ s.arg1.toNat →
      exec (.dpcmN n) s = .next { s with
        bs := { base := s.arg0 + 4, size := s.arg1 - 4, bytePos := 0, bitPos := 0 }
        atree := Vector.replicate 4 .absent, work := .audio t (.header n) }) ∧
    (∀ stereo depth16 : Bool, s.work = .audio t (.header n) →
      (stereo = trkStereo s.trk[t] ∧ depth16 = trkDepth16 s.trk[t] → badLength s t n = false →
        exec (.dpcmHeader stereo depth16) s = .next { s with work := .audio t (.trees n 0 .control) }) ∧
      (stereo = trkStereo s.trk[t] ∧ depth16 = trkDepth16 s.trk[t] → badLength s t n = true →
        exec (.dpcmHeader stereo depth16) s = .next (raiseFault .audioLength s)) ∧
      (¬ (stereo = trkStereo s.trk[t] ∧ depth16 = trkDepth16 s.trk[t]) → s.params.mismatchPolicy = .terminate →
        exec (.dpcmHeader stereo depth16) s = .next (raiseFault .audioConfigMismatch s)) ∧
      (¬ (stereo = trkStereo s.trk[t] ∧ depth16 = trkDepth16 s.trk[t]) → s.params.mismatchPolicy = .continueDeclared →
        badLength s t n = false →
        exec (.dpcmHeader stereo depth16) s = .next { s with
          log := s.log ||| 0x0020, work := .audio t (.trees n 0 .control) }) ∧
      (¬ (stereo = trkStereo s.trk[t] ∧ depth16 = trkDepth16 s.trk[t]) → s.params.mismatchPolicy = .continueDeclared →
        badLength s t n = true →
        exec (.dpcmHeader stereo depth16) s = .next (raiseFault .audioLength { s with log := s.log ||| 0x0020 }))) ∧
    (badLength s t n = true ↔ n.toNat < trkFrame s.trk[t] ∨ n.toNat % trkFrame s.trk[t] ≠ 0 ∨
      ∃ m, s.params.aoutMax = some m ∧ m < n.toNat)

/-- 43_audio_dpcm.md R206, 30_encoding.md R114: the slots of a record's trees, in their order: channel 0 low, channel 0
high, channel 1 low, channel 1 high, those not in use left out; a tree may be Absent; the initial samples follow the last. R207, R210: in a stereo
record channel 1's initial sample comes first; they are written channel 0 first, 16-bit samples low byte first, and count
toward the length. -/
def Obligations.DpcmTreeAndInitTokens : Prop :=
  ∀ (s : State) (t : Fin 7) (n : Word),
    (∀ (slot : Fin 4) (w : SmallWork) (i : Instr) (tree : SmallTree),
      (w = .control ∧ i = .tree8Absent ∧ tree = .absent) ∨
        (∃ root, w = .term root ∧ i = .treeTerm ∧ tree = .present root) →
      s.work = .audio t (.trees n slot w) →
      exec i s = .next { s with
        atree := s.atree.set slot tree
        work := match slot, trkStereo s.trk[t], trkDepth16 s.trk[t] with
          | 0, _, true => .audio t (.trees n 1 .control)
          | 0, true, false => .audio t (.trees n 2 .control)
          | 1, true, _ => .audio t (.trees n 2 .control)
          | 2, _, true => .audio t (.trees n 3 .control)
          | _, _, _ => .audio t (.init n []) }) ∧
    (∀ (i : Instr) (v : Half),
      ((∃ value : Byte, i = .dpcmInit8 value ∧ v = value.setWidth 16 ∧ trkDepth16 s.trk[t] = false) ∨
        (∃ hi lo : Byte, i = .dpcmInit16 hi lo ∧ v = hi ++ lo ∧ trkDepth16 s.trk[t] = true)) →
      (s.work = .audio t (.init n []) → trkStereo s.trk[t] = true →
        exec i s = .next { s with work := .audio t (.init n [v]) }) ∧
      (∀ (got : List Half) (ch1 : Half), s.work = .audio t (.init n got) →
        ((trkStereo s.trk[t] = true ∧ got = [ch1]) ∨ (trkStereo s.trk[t] = false ∧ got = [] ∧ ch1 = 0)) →
        ∃ m, exec i s = .next { s with
            aout := s.aout.set t m
            aoutLen := if trkFrame s.trk[t] < n.toNat then s.aoutLen else s.aoutLen.set t n
            work := if trkFrame s.trk[t] < n.toNat then .audio t (.deltas n (trkFrame s.trk[t]) v ch1) else .idle } ∧
          ∀ a, Memory.read outBlank m a =
            if a < trkFrame s.trk[t] then (frameBytes (trkStereo s.trk[t]) (trkDepth16 s.trk[t]) v ch1)[a]?
            else Memory.read outBlank s.aout[t] a))

/-! ### Audio -/

/-- 43_audio_dpcm.md R209: the addition wraps at the sample width, and reading the delta as signed gives the same sample. -/
def Obligations.SampleArithmetic : Prop :=
  ∀ prev delta : Half,
    (addSample true prev delta).toNat = (prev.toNat + delta.toNat) % 2 ^ 16 ∧
    (addSample false prev delta).toNat = (prev.toNat % 2 ^ 8 + delta.toNat % 2 ^ 8) % 2 ^ 8 ∧
    addSample true prev delta = BitVec.ofInt 16 (prev.toNat + delta.toInt) ∧
    (addSample false prev delta).setWidth 8 =
      BitVec.ofInt 8 ((prev.setWidth 8).toNat + (delta.setWidth 8).toInt)

/-- 43_audio_dpcm.md R208, R210: one sample frame of the delta loop. R208, R211, 60_exceptions.md R297: after code words of the
trees before it, a lookup in an Absent tree raises ABSENT_TREE with exactly these consumed, and one that runs out of bits
raises EXHAUSTED with every bit consumed; the bytes of the track have no value then, its length and the small trees stay. -/
def Obligations.DeltaFrameResult : Prop :=
  (∀ (s : State) (t : Fin 7) (n : Word) (out : Nat) (p0 p1 d0 d1 : Half) (bits0 bits1 : List Bool),
    s.work = .audio t (.deltas n out p0 p1) →
    DeltaCode (trkDepth16 s.trk[t]) s.atree[0] s.atree[1] bits0 d0 →
    (trkStereo s.trk[t] = true → DeltaCode (trkDepth16 s.trk[t]) s.atree[2] s.atree[3] bits1 d1) →
    (trkStereo s.trk[t] = false → bits1 = []) → s.Ahead (bits0 ++ bits1) →
    ∃ m, step s = .next { s with
        bs := s.bs.skip (bits0 ++ bits1).length
        aout := s.aout.set t m
        aoutLen := if out + trkFrame s.trk[t] < n.toNat then s.aoutLen else s.aoutLen.set t n
        work := if out + trkFrame s.trk[t] < n.toNat then
            .audio t (.deltas n (out + trkFrame s.trk[t]) (addSample (trkDepth16 s.trk[t]) p0 d0)
              (if trkStereo s.trk[t] then addSample (trkDepth16 s.trk[t]) p1 d1 else p1))
          else .idle } ∧
      ∀ a, Memory.read outBlank m a =
        if out ≤ a ∧ a < out + trkFrame s.trk[t] then
          (frameBytes (trkStereo s.trk[t]) (trkDepth16 s.trk[t]) (addSample (trkDepth16 s.trk[t]) p0 d0)
            (addSample (trkDepth16 s.trk[t]) p1 d1))[a - out]?
        else Memory.read outBlank s.aout[t] a) ∧
  ∀ (s : State) (t : Fin 7) (n : Word) (out : Nat) (p0 p1 : Half) (before later : List (Fin 4)) (slot : Fin 4)
    (bits : List Bool), s.work = .audio t (.deltas n out p0 p1) →
    deltaSlots (trkStereo s.trk[t]) (trkDepth16 s.trk[t]) = before ++ slot :: later → SlotCodes s before bits →
    s.Ahead bits →
    (s.atree[slot] = .absent → step s = .next { s with
      bs := s.bs.skip bits.length, aout := s.aout.set t []
      status := statusWord s.statusCmd 3, log := s.log ||| 0x0008, work := .idle }) ∧
    (∀ root : Node, s.atree[slot] = .present root →
      (∀ code v, CodeWord root code v → ¬ s.Ahead (bits ++ code)) →
      step s = .next { s with
        bs := s.bs.skip s.bs.left, aout := s.aout.set t []
        status := statusWord s.statusCmd 1, log := s.log ||| 0x0002, work := .idle })

/-- 43_audio_dpcm.md R200, R201; 60_exceptions.md R300: the checks of AUD_DECODE in their order, and the raw record that
does not fit. -/
def Obligations.AudDecodeChecks : Prop :=
  ∀ (s : State) (t : Fin 7), trackOperand s.arg2 = some t →
    (s.params.inSize.toNat < s.arg0.toNat + s.arg1.toNat → exec .audDecode s = .next (s.faulted 0x40 .window)) ∧
    (s.arg0.toNat + s.arg1.toNat ≤ s.params.inSize.toNat →
      (s.trk[t].getLsbD 30 = false ∨ s.trk[t].extractLsb' 26 2 ≠ 0 →
        exec .audDecode s = .next (s.faulted 0x40 .badConfig)) ∧
      (s.trk[t].getLsbD 30 = true → s.trk[t].extractLsb' 26 2 = 0 → s.trk[t].getLsbD 31 = false →
        within s.params.aoutMax s.arg1.toNat = false →
        ∃ m, exec .audDecode s =
          .next ({ s with aoutLen := s.aoutLen.set t 0, aout := s.aout.set t m }.faulted 0x40 .audioLength)) ∧
      (s.trk[t].getLsbD 30 = true → s.trk[t].extractLsb' 26 2 = 0 → s.trk[t].getLsbD 31 = true → s.arg1.toNat < 4 →
        ∃ m, exec .audDecode s =
          .next ({ s with aoutLen := s.aoutLen.set t 0, aout := s.aout.set t m }.faulted 0x40 .exhausted)))

/-- 43_audio_dpcm.md R201: raw mode copies the bytes, touches neither the bitstream nor the trees, and ignores the
channels and the depth. -/
def Obligations.AudRawCopies : Prop :=
  ∀ (s : State) (t : Fin 7), trackOperand s.arg2 = some t → windowLegal s s.arg0 s.arg1 = true →
    s.trk[t].getLsbD 30 = true → s.trk[t].extractLsb' 26 2 = 0 → s.trk[t].getLsbD 31 = false →
    within s.params.aoutMax s.arg1.toNat = true →
    ∃ u m, exec .audDecode s = .next u ∧
      u = { s with
        aout := s.aout.set t m, aoutLen := s.aoutLen.set t s.arg1
        cmd := 0x40, status := 0x4000, work := .idle } ∧
      ∀ a, hostReadAout u t a =
        if a < s.arg1.toNat then some (inRead s.inMem (s.arg0.toNat + a)) else none

/-- 30_encoding.md R112 to R116, 43_audio_dpcm.md R202 to R210: AUD_DECODE of a DPCM record whose header agrees with the
track's descriptor writes the samples the record codes. -/
def Obligations.DpcmRecordDecodes : Prop :=
  ∀ (s : State) (t : Fin 7) (n : Word) (trees : RecordTrees) (v0 v1 : Half) (frames : List (Half × Half))
    (codes : List Bool), let stereo := trkStereo s.trk[t]; let wide := trkDepth16 s.trk[t]
    trackOperand s.arg2 = some t → windowLegal s s.arg0 s.arg1 = true → 4 ≤ s.arg1.toNat →
    trkExists s.trk[t] = true → trkVariant s.trk[t] = 0 → trkCompressed s.trk[t] = true →
    lengthBits s.inMem s.arg0.toNat = bitsOf n → within s.params.aoutMax n.toNat = true →
    trees.unusedAbsent stereo wide → trees.fits s.params.smallNodesMax →
    FrameCodes stereo wide trees frames codes →
    n.toNat = (recordBytes stereo wide v0 v1 frames).length →
    (s.openWindow (s.arg0 + 4) (s.arg1 - 4)).Ahead ([true, stereo, wide] ++ trees.bits stereo wide ++
      (if stereo then initBits wide v1 else []) ++ initBits wide v0 ++ codes) →
    ∃ u m, exec .audDecode s = .next u ∧
      u = { s with
        bs := (s.openWindow (s.arg0 + 4) (s.arg1 - 4)).bs.skip ([true, stereo, wide] ++ trees.bits stereo wide ++
          (if stereo then initBits wide v1 else []) ++ initBits wide v0 ++ codes).length
        atree := #v[trees.low0, trees.high0, trees.low1, trees.high1]
        aout := s.aout.set t m, aoutLen := s.aoutLen.set t n
        cmd := 0x40, status := 0x4000, work := .idle } ∧
      ∀ a, hostReadAout u t a = (recordBytes stereo wide v0 v1 frames)[a]?

/-- 43_audio_dpcm.md R212: a mono 8-bit record with an all-zero delta tree reproduces the initial sample `N` times. -/
def Obligations.AllZeroDeltas : Prop :=
  ∀ (s : State) (t : Fin 7) (n : Word) (v : Byte), trackOperand s.arg2 = some t → windowLegal s s.arg0 s.arg1 = true →
    4 ≤ s.arg1.toNat → trkExists s.trk[t] = true → trkVariant s.trk[t] = 0 → trkCompressed s.trk[t] = true →
    trkStereo s.trk[t] = false → trkDepth16 s.trk[t] = false → lengthBits s.inMem s.arg0.toNat = bitsOf n →
    0 < n.toNat → within s.params.aoutMax n.toNat = true → within s.params.smallNodesMax 1 = true →
    (s.openWindow (s.arg0 + 4) (s.arg1 - 4)).Ahead
      ([true, false, false] ++ (SmallTree.present (.leaf 0)).bits ++ bitsOf v) →
    ∃ u, exec .audDecode s = .next u ∧ u.status = 0x4000 ∧ u.aoutLen[t] = n ∧
      ∀ a, hostReadAout u t a = if a < n.toNat then some v else none

/-- 43_audio_dpcm.md R211, 60_exceptions.md R299: AUD_DECODE of a track touches CMD, STATUS, LOG, BS, ATREE and that
track's output alone; a fault after the first three checks leaves the length 0, and raw mode leaves BS and ATREE. -/
def Obligations.AudDecodeIsolation : Prop :=
  ∀ (s u : State) (t : Fin 7), trackOperand s.arg2 = some t → exec .audDecode s = .next u →
    (∃ (m : List Host.Cell) (n : Word), u = { s with
      cmd := 0x40, status := u.status, log := u.log, bs := u.bs, atree := u.atree
      aout := s.aout.set t m, aoutLen := s.aoutLen.set t n, work := .idle }) ∧
    (u.statusCause ≠ 0 → windowLegal s s.arg0 s.arg1 = true → trkExists s.trk[t] = true → trkVariant s.trk[t] = 0 →
      u.aoutLen[t] = 0 ∧ ∀ a, hostReadAout u t a = none) ∧
    (trkCompressed s.trk[t] = false → u.bs = s.bs ∧ u.atree = s.atree)

/-! ### Video -/

/-- 30_encoding.md R104: the run-length table. -/
def Obligations.RunTable : Prop :=
  ∀ r : BitVec 6, runLength r = if r.toNat ≤ 58 then r.toNat + 1 else 128 * 2 ^ (r.toNat - 59)

/-- 44_video_blocks.md R242, R232: while rows are left, the cursor visits the next block of the row-major scan and stays on
a block of the frame or at its end. -/
def Obligations.CursorVisitsNextBlock : Prop :=
  ∀ s : State, FrameWf s → s.scanRow < s.height →
    FrameWf (advanceScan s) ∧ blockNumber (advanceScan s) = blockNumber s + 1 ∧
    ((advanceScan s).scanRow < s.height ↔ blockNumber s + 1 < frameBlocks s) ∧
    ((advanceScan s).scanRow = s.height → (advanceScan s).scanCol = 0)

/-- 44_video_blocks.md R230, 60_exceptions.md R300: the checks of VID_DECODE in their order; the product is taken without
wrap-around. -/
def Obligations.VidDecodeChecks : Prop :=
  ∀ s : State,
    (s.params.inSize.toNat < s.arg0.toNat + s.arg1.toNat → exec .vidDecode s = .next (s.faulted 0x50 .window)) ∧
    (s.arg0.toNat + s.arg1.toNat ≤ s.params.inSize.toNat →
      (s.version ≠ 0x32 ∧ s.version ≠ 0x34) ∨ s.width = 0 ∨ s.width.toNat % 4 ≠ 0 ∨ s.height = 0 ∨
        s.height.toNat % 4 ≠ 0 ∨ (∃ m, s.params.fbMax = some m ∧ m < s.width.toNat * s.height.toNat) →
      exec .vidDecode s = .next (s.faulted 0x50 .badConfig))

/-- 44_video_blocks.md R231, R233, 60_exceptions.md R303: a frame starts with its window open, every cache 0, 0, 0 and the
cursor at 0, 0; with an Absent TYPE tree it faults ABSENT_TREE there, FB untouched. -/
def Obligations.VidDecodeWithoutTypeTree : Prop :=
  ∀ s : State, windowLegal s s.arg0 s.arg1 = true → videoConfigLegal s = true → s.vt[typeId] = .absent →
    ∃ t : State, exec .vidDecode s = .next t ∧
      t = { s with
        bs := { base := s.arg0, size := s.arg1, bytePos := 0, bitPos := 0 }
        vt := t.vt, scanRow := 0, scanCol := 0
        cmd := 0x50, status := 0x5003, log := s.log ||| 0x0008, work := .idle } ∧
      ∀ id : Fin 4, t.vt[id] = match s.vt[id] with
        | .absent => .absent
        | .present low high root _ => .present low high root { c0 := 0, c1 := 0, c2 := 0 }

/-- 44_video_blocks.md R232, R235: a TYPEWORD is the run of its blocks. A run of one more block is the block at the cursor,
the cursor's advance, and the rest of the run; a fault in the block ends the command with the cursor at that block; where no
row is left nothing is drawn. -/
def Obligations.RunGoesBlockByBlock : Prop :=
  (∀ (s : State) (p : Byte) (r : BitVec 6), s.work = .video →
    ∀ i ∈ [Instr.mono p r, .full p r, .void p r, .solid p r, .double p r, .half p r],
      exec i s = blockRun (blockDraw i) (runLength r) s) ∧
  ∀ (i : Instr) (s : State) (n : Nat),
    (s.scanRow < s.height →
      (∀ u, blockDraw i s = .ok () u → u.scanRow = s.scanRow ∧ u.scanCol = s.scanCol ∧
        blockRun (blockDraw i) (n + 1) s = blockRun (blockDraw i) n (advanceScan u)) ∧
      (∀ c u, blockDraw i s = .error c u → u.scanRow = s.scanRow ∧ u.scanCol = s.scanCol ∧
        blockRun (blockDraw i) (n + 1) s = .next (raiseFault c u))) ∧
    (¬ s.scanRow < s.height → blockRun (blockDraw i) n s = .next { s with work := .idle }) ∧
    blockRun (blockDraw i) 0 s = .next (endGroup s)

/-- 44_video_blocks.md R236, 30_encoding.md R107, R108: a MONO block reads the colours, then the bitmap, and paints the 16
pixels. R236, R244: a fault in either lookup writes no pixel; one in the bitmap's leaves the colours' cache updated. -/
def Obligations.MonoBlock : Prop :=
  ∀ (s : State) (p : Byte) (run : BitVec 6), s.work = .video → FrameWf s → s.scanRow < s.height →
    (s.vt[mclrId] = .absent → exec (.mono p run) s = .next (raiseFault .absentTree s)) ∧
    (∀ (low high : SmallTree) (root : BNode) (cache : Cache), s.vt[mclrId] = .present low high root cache →
      (∀ bits leaf, BigCodeWord root bits leaf → ¬ s.Ahead bits) →
      exec (.mono p run) s = .next (raiseFault .exhausted { s with bs := s.bs.skip s.bs.left })) ∧
    ∀ (low1 high1 : SmallTree) (root1 leaf1 : BNode) (c1 : Cache) (bits1 : List Bool),
      s.vt[mclrId] = .present low1 high1 root1 c1 → BigCodeWord root1 bits1 leaf1 → s.Ahead bits1 →
      let clr := leafValue c1 leaf1
      let vt1 := s.vt.set mclrId (.present low1 high1 root1 (mruUpdate c1 clr))
      (s.vt[mmapId] = .absent → exec (.mono p run) s =
        .next (raiseFault .absentTree { s with bs := s.bs.skip bits1.length, vt := vt1 })) ∧
      (∀ (low high : SmallTree) (root : BNode) (cache : Cache), s.vt[mmapId] = .present low high root cache →
        (∀ bits leaf, BigCodeWord root bits leaf → ¬ s.Ahead (bits1 ++ bits)) →
        exec (.mono p run) s = .next (raiseFault .exhausted { s with bs := s.bs.skip s.bs.left, vt := vt1 })) ∧
      ∀ (low0 high0 : SmallTree) (root0 leaf0 : BNode) (c0 : Cache) (bits0 : List Bool),
        s.vt[mmapId] = .present low0 high0 root0 c0 → BigCodeWord root0 bits0 leaf0 → s.Ahead (bits1 ++ bits0) →
        let map := leafValue c0 leaf0
        ∃ m, exec (.mono p 0) s = .next (endGroup (advanceScan { s with
            fb := m
            bs := s.bs.skip (bits1 ++ bits0).length
            vt := vt1.set mmapId (.present low0 high0 root0 (mruUpdate c0 map)) })) ∧
          (∀ r c : Nat, r < 4 → c < 4 → Memory.read outBlank m (pixelAddr s r c) =
            some (if map.getLsbD (4 * r + c) then clr.extractLsb' 8 8 else clr.extractLsb' 0 8)) ∧
          ∀ a, ¬ inBlock s a → Memory.read outBlank m a = fbAt s a

/-- 44_video_blocks.md R237, 30_encoding.md R109: a FULL block is eight lookups, two a row, the right pair first; the low
byte of a pair is its left pixel. R244, 60_exceptions.md R297: a fault at a lookup leaves the pixels of the lookups before it
written and the rest of the frame as it was. -/
def Obligations.FullBlock : Prop :=
  ∀ (s u : State) (p : Byte) (k : Nat) (ws : List Half), s.work = .video → FrameWf s → s.scanRow < s.height →
    btLookups fullId k s = .ok ws u →
    (k = 8 → ∃ m, exec (.full p 0) s = .next (endGroup (advanceScan { u with fb := m })) ∧
      (∀ r col : Nat, r < 4 → col < 4 → Memory.read outBlank m (pixelAddr s r col) =
        (ws[2 * r + (if col < 2 then 1 else 0)]?).map (·.extractLsb' (8 * (col % 2)) 8)) ∧
      ∀ a, ¬ inBlock s a → Memory.read outBlank m a = fbAt s a) ∧
    (∀ (run : BitVec 6) (c : Cause) (v : State), k < 8 → btLookup fullId u = .error c v →
      ∃ m, exec (.full p run) s = .next (raiseFault c { v with fb := m }) ∧
        (∀ r col : Nat, r < 4 → col < 4 → Memory.read outBlank m (pixelAddr s r col) =
          if 2 * r + (if col < 2 then 1 else 0) < k then
            (ws[2 * r + (if col < 2 then 1 else 0)]?).map (·.extractLsb' (8 * (col % 2)) 8)
          else fbAt s (pixelAddr s r col)) ∧
        ∀ a, ¬ inBlock s a → Memory.read outBlank m a = fbAt s a)

/-- 44_video_blocks.md R240: a DOUBLE block is two lookups, each filling a band of two rows: left half low, right half high.
R241: a HALF block, in the variant `four_lookup`, decodes rows 0 and 2 as FULL rows and repeats each on the row below; in the
variant `two_lookup` it is drawn exactly as DOUBLE. R240, R241, R244: a fault at a lookup leaves the pixels of the lookups
before it written and the rest of the frame as it was. -/
def Obligations.DoubleAndHalfBlocks : Prop :=
  ∀ (s : State) (p : Byte), s.work = .video → FrameWf s → s.scanRow < s.height →
    (∀ (u : State) (ws : List Half), btLookups fullId 2 s = .ok ws u →
      ∃ m, exec (.double p 0) s = .next (endGroup (advanceScan { u with fb := m })) ∧
        (∀ r c : Nat, r < 4 → c < 4 → Memory.read outBlank m (pixelAddr s r c) =
          (ws[r / 2]?).map fun w => if c < 2 then w.extractLsb' 0 8 else w.extractLsb' 8 8) ∧
        ∀ a, ¬ inBlock s a → Memory.read outBlank m a = fbAt s a) ∧
    (s.params.halfVariant = .fourLookup → ∀ (u : State) (ws : List Half), btLookups fullId 4 s = .ok ws u →
      ∃ m, exec (.half p 0) s = .next (endGroup (advanceScan { u with fb := m })) ∧
        (∀ r c : Nat, r < 4 → c < 4 → Memory.read outBlank m (pixelAddr s r c) =
          (ws[2 * (r / 2) + (if c < 2 then 1 else 0)]?).map fun w => w.extractLsb' (8 * (c % 2)) 8) ∧
        ∀ a, ¬ inBlock s a → Memory.read outBlank m a = fbAt s a) ∧
    (s.params.halfVariant = .twoLookup → ∀ r : BitVec 6, exec (.half p r) s = exec (.double p r) s) ∧
    ∀ (u v : State) (run : BitVec 6) (k : Nat) (ws : List Half) (cause : Cause),
      btLookups fullId k s = .ok ws u → btLookup fullId u = .error cause v →
      (k < 2 → ∃ m, exec (.double p run) s = .next (raiseFault cause { v with fb := m }) ∧
        (∀ r c : Nat, r < 4 → c < 4 → Memory.read outBlank m (pixelAddr s r c) =
          if r / 2 < k then (ws[r / 2]?).map fun w => if c < 2 then w.extractLsb' 0 8 else w.extractLsb' 8 8
          else fbAt s (pixelAddr s r c)) ∧
        ∀ a, ¬ inBlock s a → Memory.read outBlank m a = fbAt s a) ∧
      (s.params.halfVariant = .fourLookup → k < 4 →
        ∃ m, exec (.half p run) s = .next (raiseFault cause { v with fb := m }) ∧
          (∀ r c : Nat, r < 4 → c < 4 → Memory.read outBlank m (pixelAddr s r c) =
            if 2 * (r / 2) + (if c < 2 then 1 else 0) < k then
              (ws[2 * (r / 2) + (if c < 2 then 1 else 0)]?).map fun w => w.extractLsb' (8 * (c % 2)) 8
            else fbAt s (pixelAddr s r c)) ∧
          ∀ a, ¬ inBlock s a → Memory.read outBlank m a = fbAt s a)

/-- 44_video_blocks.md R235, R238, R239: a run of VOID or SOLID blocks moves the cursor over as many blocks as the run has,
at most to the end of the frame, and reads no bit. VOID changes no byte of FB; SOLID fills exactly the pixels of its blocks
with the payload. -/
def Obligations.VoidAndSolidRuns : Prop :=
  ∀ (s : State) (p : Byte) (r : BitVec 6), s.work = .video → FrameWf s → s.scanRow < s.height →
    (∃ t, exec (.void p r) s = .next t ∧
      t = { s with scanRow := t.scanRow, scanCol := t.scanCol, work := t.work } ∧ FrameWf t ∧
      blockNumber t = min (blockNumber s + runLength r) (frameBlocks s) ∧
      (t.work = if blockNumber s + runLength r < frameBlocks s then .video else .idle)) ∧
    ∃ t, exec (.solid p r) s = .next t ∧
      t = { s with fb := t.fb, scanRow := t.scanRow, scanCol := t.scanCol, work := t.work } ∧ FrameWf t ∧
      blockNumber t = min (blockNumber s + runLength r) (frameBlocks s) ∧
      (t.work = if blockNumber s + runLength r < frameBlocks s then .video else .idle) ∧
      ∀ a, fbAt t a =
        if a < s.width.toNat * s.height.toNat ∧ blockNumber s ≤ blockOf s a ∧ blockOf s a < blockNumber s + runLength r
        then some p else fbAt s a

/-- 44_video_blocks.md R238, R246 (a): a frame whose TYPE words are all VOID leaves FB byte for byte as it was. First: from a
TYPE tree of VOID words only, whatever the window holds. Then: from any TYPE tree, where the words its lookups give, the last of
them ending the frame, are VOID words (R232, R235), or where a lookup faults after VOID words. -/
def Obligations.VoidFrame : Prop :=
  (∀ (s : State) (low high : SmallTree) (root : BNode) (cache : Cache), windowLegal s s.arg0 s.arg1 = true →
    videoConfigLegal s = true → s.vt[typeId] = .present low high root cache →
    root.allLits (fun w => w.extractLsb' 0 2 == 2#2) = true →
    ∃ t, exec .vidDecode s = .next t ∧ t.fb = s.fb ∧ t.fbDraw = s.fbDraw ∧ t.fbZeroed = s.fbZeroed ∧
      (t.statusCause = 0 ∨ t.statusCause = 1)) ∧
  ∀ (s u : State) (k : Nat) (ws : List Half), windowLegal s s.arg0 s.arg1 = true → videoConfigLegal s = true →
    btLookups typeId k (frameStarted s) = .ok ws u → (∀ w ∈ ws, typeField w = 2) →
    (runBlocks ws.dropLast < frameBlocks s → frameBlocks s ≤ runBlocks ws →
      exec .vidDecode s = .next { s with
        cmd := 0x50, status := 0x5000, bs := u.bs, vt := u.vt, scanRow := s.height, scanCol := 0, work := .idle }) ∧
    (∀ (c : Cause) (v : State), runBlocks ws < frameBlocks s → btLookup typeId u = .error c v →
      ∃ t, exec .vidDecode s = .next t ∧
        t = { s with
          cmd := 0x50, status := statusWord 0x50 c.code, log := logWith s.log c, bs := v.bs, vt := v.vt
          scanRow := t.scanRow, scanCol := t.scanCol, work := .idle } ∧
        FrameWf t ∧ blockNumber t = runBlocks ws)

/-- 44_video_blocks.md R239, R246 (b): a completed frame whose TYPE words are all SOLID of one colour leaves every byte of FB
at that colour. First: from a TYPE tree of such words only; with one leaf the frame completes from any legal window, of size 0
too (R233). Then: from any TYPE tree, where the words its lookups give, the last of them ending the frame, are such words (R232,
R235), or where a lookup faults after such words: then their blocks are filled and the rest of FB is as it was (R244). -/
def Obligations.SolidFrame : Prop :=
  (∀ (s : State) (low high : SmallTree) (root : BNode) (cache : Cache) (colour : Byte),
    windowLegal s s.arg0 s.arg1 = true → videoConfigLegal s = true → s.vt[typeId] = .present low high root cache →
    root.allLits (fun w => w.extractLsb' 0 2 == 3#2 && w.extractLsb' 8 8 == colour) = true →
    ∃ t, exec .vidDecode s = .next t ∧
      (t.status = 0x5000 → ∀ a, a < s.width.toNat * s.height.toNat → fbAt t a = some colour) ∧
      ((∃ w, root = .lit w) → t.status = 0x5000)) ∧
  ∀ (s u : State) (k : Nat) (ws : List Half) (colour : Byte), windowLegal s s.arg0 s.arg1 = true →
    videoConfigLegal s = true → btLookups typeId k (frameStarted s) = .ok ws u →
    (∀ w ∈ ws, typeField w = 3 ∧ payloadField w = colour) →
    (runBlocks ws.dropLast < frameBlocks s → frameBlocks s ≤ runBlocks ws →
      ∃ t, exec .vidDecode s = .next t ∧
        t = { s with
          cmd := 0x50, status := 0x5000, bs := u.bs, fb := t.fb, vt := u.vt
          scanRow := s.height, scanCol := 0, work := .idle } ∧
        ∀ a, fbAt t a = if a < s.width.toNat * s.height.toNat then some colour else fbAt s a) ∧
    (∀ (c : Cause) (v : State), runBlocks ws < frameBlocks s → btLookup typeId u = .error c v →
      ∃ t, exec .vidDecode s = .next t ∧
        t = { s with
          cmd := 0x50, status := statusWord 0x50 c.code, log := logWith s.log c, bs := v.bs, fb := t.fb, vt := v.vt
          scanRow := t.scanRow, scanCol := t.scanCol, work := .idle } ∧
        FrameWf t ∧ blockNumber t = runBlocks ws ∧
        ∀ a, fbAt t a =
          if a < s.width.toNat * s.height.toNat ∧ blockOf s a < runBlocks ws then some colour else fbAt s a)

/-- 60_exceptions.md R299, 10_state.md R29: VID_DECODE touches CMD, STATUS, LOG, BS, FB, the cursor and the caches alone; no
tree changes but in its cache. 10_state.md R32, 44_video_blocks.md R243, R244: after a completed frame the cursor is at the end
of the frame, after a fault of the stream it is at a block of the frame. -/
def Obligations.VidDecodeIsolation : Prop :=
  ∀ s t : State, exec .vidDecode s = .next t →
    t = { s with
      cmd := 0x50, status := t.status, log := t.log, bs := t.bs, fb := t.fb, vt := t.vt
      scanRow := t.scanRow, scanCol := t.scanCol, work := .idle } ∧
    (∀ id : Fin 4, match s.vt[id] with
      | .absent => t.vt[id] = .absent
      | .present low high root _ => ∃ c, t.vt[id] = .present low high root c) ∧
    (t.statusCause = 0 → t.scanRow = s.height ∧ t.scanCol = 0) ∧
    (windowLegal s s.arg0 s.arg1 = true → videoConfigLegal s = true → t.statusCause ≠ 0 →
      FrameWf t ∧ t.scanRow < s.height)

/-! ### Rules of the whole machine -/

/-- 00_scope.md R9, 46_system.md R280, 70_reset_and_hazards.md R341: every command ends, from every state: STATUS holds its code
and a cause that 60_exceptions.md R291 lists, the engine is idle again, and the next host access is still to come. A command
that reads tokens ends exactly where stepping from its start, token by token and block run by block run, ends: so what the
statements about steps and tokens in the middle of a command say holds of the command (44_video_blocks.md R232; 43_audio_dpcm.md
R202; 42_big_tree.md R176, R177; 41_small_tree.md R153). -/
def Obligations.EveryCommandEnds : Prop :=
  (∀ (i : Instr) (code : Byte) (s : State), commandCode i = some code →
    ∃ t, exec i s = .next t ∧ t.work = .idle ∧ t.cmd = code ∧ t.statusCmd = code ∧ t.statusCause.toNat ≤ 10 ∧
      t.host = s.host) ∧
  (∀ s : State, windowLegal s s.arg0 s.arg1 = true → videoConfigLegal s = true →
    ∃ t, exec .vidDecode s = .next t ∧ EngineRun (frameStarted s) t) ∧
  (∀ (s : State) (k : Fin 7), trackOperand s.arg2 = some k → windowLegal s s.arg0 s.arg1 = true →
    trkExists s.trk[k] = true → trkVariant s.trk[k] = 0 → trkCompressed s.trk[k] = true →
    ∃ t, exec .audDecode s = .next t ∧ EngineRun { s with
      aout := s.aout.set k [], aoutLen := s.aoutLen.set k 0
      cmd := 0x40, status := 0x4000, work := .audio k .length } t) ∧
  (∀ s : State, windowLegal s s.arg0 s.arg1 = true → s.arg1 ≠ 0 →
    ∃ t, exec .btBuildAll s = .next t ∧ EngineRun { s with
      bs := { base := s.arg0, size := s.arg1, bytePos := 0, bitPos := 0 }, vt := Vector.replicate 4 .absent
      cmd := 0x31, status := 0x3100, work := .bigAll 0 .control } t) ∧
  ∀ (s : State) (slot : Fin 4), slotOperand s.arg0 = some slot →
    (∃ t, exec .btBuild s = .next t ∧ EngineRun { s with
      vt := s.vt.set slot .absent, cmd := 0x30, status := 0x3000, work := .big slot .control } t) ∧
    ∃ t, exec .stBuild s = .next t ∧ EngineRun { s with
      atree := s.atree.set slot .absent, cmd := 0x20, status := 0x2000, work := .small slot .control } t

/-- 60_exceptions.md R293: a command ends with cause 0 or with a cause its row of the table allows. -/
def Obligations.CausesByCommand : Prop :=
  ∀ (i : Instr) (s t : State), isCommand i = true → exec i s = .next t →
    t.statusCause = 0 ∨ ∃ c : Cause, mayRaise i c = true ∧ t.statusCause = c.code

/-- 10_state.md R23, 60_exceptions.md R298: but for SOFT_RESET and LOG_CLEAR no command clears a bit of LOG; a fault sets the
bit of its cause; the only bit a command sets without that fault is bit 5, by AUD_DECODE under `continue_declared`. -/
def Obligations.LogIsSticky : Prop :=
  ∀ (i : Instr) (s t : State), isCommand i = true → i ≠ .softReset → i ≠ .logClear → exec i s = .next t →
    ∀ k < 16, t.log.getLsbD k = true ↔ s.log.getLsbD k = true ∨ (t.statusCause ≠ 0 ∧ t.statusCause.toNat = k) ∨
      (k = 5 ∧ t.log.getLsbD 5 = true ∧ i = .audDecode ∧ s.params.mismatchPolicy = .continueDeclared)

/-- 10_state.md R37, R22: which commands write which state; only a completed read or lookup, or SOFT_RESET, changes RESULT. -/
def Obligations.WhoWritesWhat : Prop :=
  ∀ (i : Instr) (s t : State), isCommand i = true → exec i s = .next t →
    (t.arg0 = s.arg0 ∧ t.arg1 = s.arg1 ∧ t.arg2 = s.arg2 ∧ t.version = s.version ∧ t.width = s.width ∧
      t.height = s.height ∧ t.trk = s.trk ∧ t.inMem = s.inMem ∧ t.params = s.params ∧ t.fbDraw = s.fbDraw ∧
      t.fbZeroed = s.fbZeroed) ∧
    (t.result ≠ s.result → t.statusCause = 0 ∧ i ∈ [Instr.bsReadBit, .bsReadByte, .stLookup, .btLookup, .softReset]) ∧
    (t.bs ≠ s.bs → i ∈ [Instr.bsOpen, .bsReadBit, .bsReadByte, .stBuild, .stLookup, .btBuild, .btBuildAll, .btLookup,
      .audDecode, .vidDecode, .softReset]) ∧
    (t.atree ≠ s.atree → i ∈ [Instr.stBuild, .audDecode, .softReset]) ∧
    (t.vt ≠ s.vt → i ∈ [Instr.btBuild, .btBuildAll, .btReset, .btLookup, .vidDecode, .softReset]) ∧
    (t.fb ≠ s.fb → i = .vidDecode) ∧
    (t.aout ≠ s.aout ∨ t.aoutLen ≠ s.aoutLen → i = .audDecode ∨ i = .softReset) ∧
    (t.scanRow ≠ s.scanRow ∨ t.scanCol ≠ s.scanCol → i = .vidDecode ∨ i = .softReset)

/-- The invariant between commands holds right after reset: 10_state.md R21, R23, R30, R31; 20_memory.md R60, R61. -/
def Obligations.ResetMeetsInvariant : Prop := Inv State.reset

/-- 10_state.md R21, R23, R30, R31; 20_memory.md R60, R61: every step of the machine, from every state that meets the
invariant, keeps it. That the listed bytes of AOUT are those below its length is the model's choice for "gives them no value"
(log 6). -/
def Obligations.StepKeepsInvariant : Prop :=
  ∀ s t : State, Inv s → step s = .next t → Inv t

/-! ### Decoding -/

/-- 30_encoding.md R92 to R116: decoding the encoding of a well-formed instruction, whatever bits follow, gives it back. -/
def Obligations.DecodeEncode : Prop :=
  ∀ (f : Format) (i : Instr) (rest : List Bool), WellFormed f i = true →
    decode f (encode f i) = .instr i ∧ decodePrefix f [] (encode f i ++ rest) = some i

/-- 30_encoding.md R93, R97, R103, R118: bits decode only to an instruction that may stand there, and are its encoding: no
reserved pattern decodes, and no two patterns at one place decode to the same instruction. -/
def Obligations.EncodeDecode : Prop :=
  ∀ (f : Format) (i : Instr) (bits : List Bool), decode f bits = .instr i →
    WellFormed f i = true ∧ encode f i = bits

/-- 30_encoding.md R92, R94, R98, R103, R105, R112, R113, R115: a few words written out from the encodings. At which place
`decodeTableWord` reads a word of 8, 16, 24 or 32 bits (a command, a TYPEWORD of version '2', a TYPEWORD of version '4' with
its TYPEEXT bits in bits 16 and 17, a DPCM length) is the model's choice, no rule's (DESIGN CHOICE, log 9). -/
def Obligations.DecodeWords : Prop :=
  decodeTableWord 8 0x12 = some .bsReadByte ∧ decodeTableWord 8 0x33 = some .btLookup ∧ decodeTableWord 8 0x03 = none ∧
  decodeTableWord 16 0x77EF = some (.solid 0x77 59) ∧ decodeTableWord 16 0x0001 = some (.full 0 0) ∧
  decodeTableWord 24 0x010001 = some (.double 0 0) ∧ decodeTableWord 24 0x020001 = some (.half 0 0) ∧
  decodeTableWord 32 0x00000102 = some (.dpcmN 0x102) ∧
  decode .node8 [false, false, true, true, true, true, true, true, true] = .instr (.node8Leaf 0xFE) ∧
  decode .seed [true, false, false, false, false, false, false, false,
    false, false, false, false, false, false, false, true] = .instr (.seed 0x01 0x80) ∧
  decode .dpcmHeader [true, true, false] = .instr (.dpcmHeader true false) ∧
  decode .init16 [false, false, false, false, false, false, false, true,
    true, false, false, false, false, false, false, false] = .instr (.dpcmInit16 0x80 0x01)
end

