-- ==== Sys2Proof/Laws/Bits.lean ====
section
/-! SUPPORT. Bits of numbers: the helpers of Decode.lean. -/

-- The package is compiled as one text: elaborating in order keeps the number of threads small.
set_option Elab.async false

namespace Sys2Proof

@[simp] theorem natBits_length (k n : Nat) : (natBits k n).length = k := by
  induction k generalizing n with
  | zero => rfl
  | succ k ih => simp [natBits, ih]

theorem ofBits_lt (bits : List Bool) : ofBits bits < 2 ^ bits.length := by
  induction bits with
  | nil => simp [ofBits]
  | cons b bits ih =>
    have := Bool.toNat_le b
    simp only [ofBits, List.length_cons, Nat.pow_succ]
    omega

/-- The number of the bits of a number. -/
theorem ofBits_natBits (k n : Nat) : ofBits (natBits k n) = n % 2 ^ k := by
  induction k generalizing n with
  | zero => simp [natBits, ofBits, Nat.mod_one]
  | succ k ih =>
    have h : (n % 2 == 1).toNat = n % 2 := by
      rcases Nat.mod_two_eq_zero_or_one n with h | h <;> simp [h]
    rw [natBits, ofBits, ih, h, Nat.pow_succ', Nat.mod_mul]

/-- The bits of the number of bits. -/
theorem natBits_ofBits (bits : List Bool) : natBits bits.length (ofBits bits) = bits := by
  induction bits with
  | nil => rfl
  | cons b bits ih =>
    have h0 : (b.toNat + 2 * ofBits bits) / 2 = ofBits bits := by
      have := Bool.toNat_le b
      omega
    have h1 : ((b.toNat + 2 * ofBits bits) % 2 == 1) = b := by
      cases b <;> simp [Nat.add_mul_mod_self_left]
    simp only [List.length_cons, natBits, ofBits, h0, h1, ih]

theorem ofBits_append (xs ys : List Bool) : ofBits (xs ++ ys) = ofBits xs + 2 ^ xs.length * ofBits ys := by
  induction xs with
  | nil => simp [ofBits]
  | cons b xs ih =>
    simp only [List.cons_append, ofBits, ih, List.length_cons, Nat.pow_succ]
    ring

theorem natBits_append (j k n : Nat) : natBits (j + k) n = natBits j n ++ natBits k (n / 2 ^ j) := by
  induction j generalizing n with
  | zero => simp [natBits]
  | succ j ih =>
    rw [Nat.add_right_comm, natBits, natBits, ih, Nat.div_div_eq_div_mul, ← Nat.pow_succ', List.cons_append]

@[simp] theorem bitsOf_length {w : Nat} (v : BitVec w) : (bitsOf v).length = w := by simp [bitsOf]

/-- A value is the number of its bits. -/
@[simp] theorem ofBits_bitsOf {w : Nat} (v : BitVec w) : ofBits (bitsOf v) = v.toNat := by
  rw [bitsOf, ofBits_natBits, Nat.mod_eq_of_lt v.isLt]

@[simp] theorem ofNat_ofBits_bitsOf {w : Nat} (v : BitVec w) : BitVec.ofNat w (ofBits (bitsOf v)) = v := by simp

/-- A bit of the bits of a number. -/
theorem natBits_getElem (k n i : Nat) (h : i < (natBits k n).length) : (natBits k n)[i] = n.testBit i := by
  induction k generalizing n i with
  | zero => simp at h
  | succ k ih =>
    cases i with
    | zero =>
      rw [Nat.testBit_zero]
      rcases Nat.mod_two_eq_zero_or_one n with h | h <;> simp [natBits, h]
    | succ i =>
      simp only [natBits, List.getElem_cons_succ]
      rw [ih, Nat.testBit_succ]

end Sys2Proof
end

