-- ==== Sys2Proof/Laws/Reader.lean ====
section
/-! SUPPORT. The bitstream registers: what one read, `k` reads, a byte and a walk of a tree do. -/

-- The package is compiled as one text: elaborating in order keeps the number of threads small.
set_option Elab.async false

namespace Sys2Proof.Machine

open Sys2Proof

/-! ### Sequencing of operations that may raise a cause -/

section
variable {σ α β : Type}

@[simp] theorem ops_pure (a : α) (s : σ) : (pure a : EStateM Cause σ α) s = .ok a s := rfl

@[simp] theorem ops_throw (c : Cause) (s : σ) : (throw c : EStateM Cause σ α) s = .error c s := rfl

@[simp] theorem ops_get (s : σ) : (get : EStateM Cause σ σ) s = .ok s s := rfl

@[simp] theorem ops_set (s t : σ) : (set t : EStateM Cause σ PUnit) s = .ok ⟨⟩ t := rfl

@[simp] theorem ops_modify (f : σ → σ) (s : σ) : (modify f : EStateM Cause σ PUnit) s = .ok ⟨⟩ (f s) := rfl

@[simp] theorem ops_bind (e : EStateM Cause σ α) (f : α → EStateM Cause σ β) (s : σ) :
    (e >>= f) s = match e s with
      | .ok a t => f a t
      | .error c t => .error c t := by
  show EStateM.bind e f s = _
  unfold EStateM.bind
  cases e s <;> rfl

end

/-! ### The position -/

theorem BitStream.left_pos_iff (b : BitStream) : 0 < b.left ↔ ¬ b.size ≤ b.bytePos := by
  have h3 := b.bitPos.isLt
  have := b.size.isLt
  simp only [BitStream.left, BitStream.offset, BitVec.le_def]
  omega

@[simp] theorem BitStream.advance_size (b : BitStream) : b.advance.size = b.size := by
  unfold BitStream.advance; split <;> rfl

@[simp] theorem BitStream.advance_base (b : BitStream) : b.advance.base = b.base := by
  unfold BitStream.advance; split <;> rfl

@[simp] theorem BitStream.skip_size (b : BitStream) (k : Nat) : (b.skip k).size = b.size := rfl

@[simp] theorem BitStream.skip_base (b : BitStream) (k : Nat) : (b.skip k).base = b.base := rfl

/-- Inside the window a move by `k` bits moves the offset by `k`. -/
theorem BitStream.offset_skip {b : BitStream} {k : Nat} (h : k ≤ b.left) : (b.skip k).offset = b.offset + k := by
  have h3 := b.bitPos.isLt
  have h4 := b.bytePos.isLt
  have h5 := b.size.isLt
  have hle : (b.offset + k) / 8 < 2 ^ 32 := by
    simp only [BitStream.left, BitStream.offset] at h ⊢
    omega
  have h8 : (b.offset + k) % 8 < 2 ^ 3 := Nat.mod_lt _ (by decide)
  have e1 : (b.skip k).offset = 8 * ((b.offset + k) / 8 % 2 ^ 32) + (b.offset + k) % 8 % 2 ^ 3 := by
    simp [BitStream.offset, BitStream.skip]
  rw [e1, Nat.mod_eq_of_lt hle, Nat.mod_eq_of_lt h8]
  omega

theorem BitStream.left_skip {b : BitStream} {k : Nat} (h : k ≤ b.left) : (b.skip k).left = b.left - k := by
  rw [BitStream.left, BitStream.offset_skip h, BitStream.skip_size, BitStream.left]
  omega

theorem BitStream.skip_of_offset {b : BitStream} {o : Nat} (h : o = b.offset) :
    ({ b with bytePos := BitVec.ofNat 32 (o / 8), bitPos := BitVec.ofNat 3 (o % 8) } : BitStream) = b := by
  obtain ⟨base, size, p, q⟩ := b
  have h3 := q.isLt
  have h4 := p.isLt
  simp only [BitStream.offset] at h
  have e1 : BitVec.ofNat 32 (o / 8) = p := by
    apply BitVec.eq_of_toNat_eq
    simp only [BitVec.toNat_ofNat]
    omega
  have e2 : BitVec.ofNat 3 (o % 8) = q := by
    apply BitVec.eq_of_toNat_eq
    simp only [BitVec.toNat_ofNat]
    omega
  simp [e1, e2]

@[simp] theorem BitStream.skip_zero (b : BitStream) : b.skip 0 = b := by
  unfold BitStream.skip
  exact BitStream.skip_of_offset (by simp)

theorem BitStream.skip_skip {b : BitStream} {j k : Nat} (h : j ≤ b.left) : (b.skip j).skip k = b.skip (j + k) := by
  have e := BitStream.offset_skip h
  show ({ b.skip j with
    bytePos := BitVec.ofNat 32 (((b.skip j).offset + k) / 8)
    bitPos := BitVec.ofNat 3 (((b.skip j).offset + k) % 8) } : BitStream) = _
  rw [e]
  simp only [BitStream.skip, Nat.add_assoc]

theorem BitStream.advance_eq_skip {b : BitStream} (h : 0 < b.left) : b.advance = b.skip 1 := by
  obtain ⟨base, size, p, q⟩ := b
  have h3 := q.isLt
  have h4 := p.isLt
  have h5 := size.isLt
  simp only [BitStream.left, BitStream.offset] at h
  by_cases h7 : q = 7
  · subst h7
    have t7 : (7 : BitVec 3).toNat = 7 := rfl
    have t1 : (1 : Word).toNat = 1 := rfl
    have t0 : (0 : BitVec 3).toNat = 0 := rfl
    have e1 : p + 1 = BitVec.ofNat 32 ((8 * p.toNat + (7 : BitVec 3).toNat + 1) / 8) := by
      apply BitVec.eq_of_toNat_eq
      simp only [BitVec.toNat_add, BitVec.toNat_ofNat, t7, t1]
      omega
    have e2 : (0 : BitVec 3) = BitVec.ofNat 3 ((8 * p.toNat + (7 : BitVec 3).toNat + 1) % 8) := by
      apply BitVec.eq_of_toNat_eq
      simp only [BitVec.toNat_ofNat, t7, t0]
      omega
    simp only [BitStream.advance, BitStream.skip, BitStream.offset, if_true]
    rw [← e1, ← e2]
  · have h7' : q.toNat ≠ 7 := fun h => h7 (BitVec.eq_of_toNat_eq (by simpa using h))
    have t1 : (1 : BitVec 3).toNat = 1 := rfl
    have e1 : p = BitVec.ofNat 32 ((8 * p.toNat + q.toNat + 1) / 8) := by
      apply BitVec.eq_of_toNat_eq
      simp only [BitVec.toNat_ofNat]
      omega
    have e2 : q + 1 = BitVec.ofNat 3 ((8 * p.toNat + q.toNat + 1) % 8) := by
      apply BitVec.eq_of_toNat_eq
      simp only [BitVec.toNat_add, BitVec.toNat_ofNat, t1]
      omega
    simp only [BitStream.advance, BitStream.skip, BitStream.offset, h7, if_false]
    rw [← e1, ← e2]

/-! ### The bits ahead -/

@[simp] theorem remaining_length (m : List Host.Cell) (b : BitStream) : (remaining m b).length = b.left := by
  simp [remaining]

theorem bitAt_eq (m : List Host.Cell) (b : BitStream) : b.bitAt m = windowBit m b b.offset := by
  have h3 := b.bitPos.isLt
  have e1 : b.offset / 8 = b.bytePos.toNat := by simp only [BitStream.offset]; omega
  have e2 : b.offset % 8 = b.bitPos.toNat := by simp only [BitStream.offset]; omega
  simp [BitStream.bitAt, windowBit, e1, e2]

@[simp] theorem windowBit_skip (m : List Host.Cell) (b : BitStream) (j k : Nat) :
    windowBit m (b.skip j) k = windowBit m b k := rfl

theorem remaining_skip {m : List Host.Cell} {b : BitStream} {k : Nat} (h : k ≤ b.left) :
    remaining m (b.skip k) = (remaining m b).drop k := by
  apply List.ext_getElem
  · simp [BitStream.left_skip h]
  · intro i h1 h2
    simp [remaining, BitStream.offset_skip h, Nat.add_assoc]

theorem remaining_cons {m : List Host.Cell} {b : BitStream} (h : 0 < b.left) :
    remaining m b = b.bitAt m :: remaining m (b.skip 1) := by
  rw [remaining_skip h]
  have h' : 0 < (remaining m b).length := by simpa using h
  have e := List.drop_eq_getElem_cons h'
  rw [List.drop_zero] at e
  rw [e]
  simp [remaining, bitAt_eq]

theorem remaining_nil {m : List Host.Cell} {b : BitStream} : remaining m b = [] ↔ b.left = 0 := by
  rw [← List.length_eq_zero_iff, remaining_length]

/-! ### One bit -/

/-- Everything `read_bit()` can do (40_bitstream.md R130). -/
theorem readBit_eq (m : List Host.Cell) (b : BitStream) :
    readBit m b = match remaining m b with
      | [] => .error .exhausted b
      | v :: _ => .ok v (b.skip 1) := by
  by_cases h : 0 < b.left
  · rw [remaining_cons h]
    have := (BitStream.left_pos_iff b).1 h
    simp [readBit, this, BitStream.advance_eq_skip h]
  · have h0 : b.left = 0 := by omega
    rw [remaining_nil.2 h0]
    have : b.size ≤ b.bytePos := by
      by_contra hc
      exact h ((BitStream.left_pos_iff b).2 hc)
    simp [readBit, this]

theorem readBit_cons {m : List Host.Cell} {b : BitStream} {v : Bool} {rest : List Bool}
    (h : remaining m b = v :: rest) : readBit m b = .ok v (b.skip 1) := by rw [readBit_eq, h]

theorem readBit_nil {m : List Host.Cell} {b : BitStream} (h : b.left = 0) : readBit m b = .error .exhausted b := by
  rw [readBit_eq, remaining_nil.2 h]

/-! ### Several bits -/

/-- Everything `k` reads can do: they give the next `k` bits, or use up the window (40_bitstream.md R131). -/
theorem readBits_eq (m : List Host.Cell) (k : Nat) (b : BitStream) :
    readBits m k b = if k ≤ b.left then .ok ((remaining m b).take k) (b.skip k)
      else .error .exhausted (b.skip b.left) := by
  induction k generalizing b with
  | zero => simp [readBits]
  | succ k ih =>
    by_cases h : 0 < b.left
    · rw [readBits, ops_bind, readBit_cons (remaining_cons h)]
      have h1 : (b.skip 1).left = b.left - 1 := BitStream.left_skip h
      simp only [ops_bind, ih, h1]
      by_cases hk : k + 1 ≤ b.left
      · have : k ≤ b.left - 1 := by omega
        simp only [this, hk, if_true]
        rw [BitStream.skip_skip h, remaining_cons h]
        simp [Nat.add_comm]
      · have : ¬ k ≤ b.left - 1 := by omega
        simp only [this, hk, if_false]
        rw [BitStream.skip_skip h]
        congr 2
        omega
    · have h0 : b.left = 0 := by omega
      simp [readBits, readBit_nil h0, h0]

/-- Everything `read_byte()` can do (40_bitstream.md R131). -/
theorem readByte_eq (m : List Host.Cell) (b : BitStream) :
    readByte m b = if 8 ≤ b.left then .ok (BitVec.ofNat 8 (ofBits ((remaining m b).take 8))) (b.skip 8)
      else .error .exhausted (b.skip b.left) := by
  simp only [readByte, ops_bind, readBits_eq]
  split_ifs <;> rfl

/-- A byte in the stream, least significant bit first (20_memory.md R63). -/
theorem readByte_bits {m : List Host.Cell} {b : BitStream} {v : Byte} {rest : List Bool}
    (h : remaining m b = bitsOf v ++ rest) : readByte m b = .ok v (b.skip 8) := by
  have hl : b.left = 8 + rest.length := by
    have := congrArg List.length h
    simpa using this
  have ht : (remaining m b).take 8 = bitsOf v := by rw [h, List.take_left' (by simp)]
  rw [readByte_eq, if_pos (by omega), ht]
  simp

/-! ### Walks -/

theorem remaining_after {m : List Host.Cell} {b : BitStream} {bits rest : List Bool}
    (h : remaining m b = bits ++ rest) : bits.length ≤ b.left ∧ remaining m (b.skip bits.length) = rest := by
  have hl : bits.length ≤ b.left := by
    have := congrArg List.length h
    simp at this
    omega
  exact ⟨hl, by rw [remaining_skip hl, h, List.drop_left]⟩

theorem remaining_after_cons {m : List Host.Cell} {b : BitStream} {v : Bool} {rest : List Bool}
    (h : remaining m b = v :: rest) : 1 ≤ b.left ∧ remaining m (b.skip 1) = rest :=
  remaining_after (bits := [v]) h

/-- A walk of a small tree reads a code word (41_small_tree.md R152). -/
theorem walkNode_code {m : List Host.Cell} {n : Node} {bits : List Bool} {v : Byte} (hc : CodeWord n bits v) :
    ∀ {b : BitStream} {rest : List Bool}, remaining m b = bits ++ rest →
      walkNode m n b = .ok v (b.skip bits.length) := by
  induction hc with
  | leaf v => intro b rest _; simp [walkNode]
  | left _ ih =>
    intro b rest h
    obtain ⟨h1, h2⟩ := remaining_after (bits := [false]) h
    simp only [List.length_singleton] at h1 h2
    simp only [walkNode, ops_bind, readBit_cons h, Bool.false_eq_true, if_false]
    rw [ih h2, BitStream.skip_skip h1, List.length_cons, Nat.add_comm]
  | right _ ih =>
    intro b rest h
    obtain ⟨h1, h2⟩ := remaining_after (bits := [true]) h
    simp only [List.length_singleton] at h1 h2
    simp only [walkNode, ops_bind, readBit_cons h, if_true]
    rw [ih h2, BitStream.skip_skip h1, List.length_cons, Nat.add_comm]

/-- A walk of a lookup tree reads a code word (42_big_tree.md R174). -/
theorem walkBNode_code {m : List Host.Cell} {c : Cache} {n leaf : BNode} {bits : List Bool}
    (hc : BigCodeWord n bits leaf) :
    ∀ {b : BitStream} {rest : List Bool}, remaining m b = bits ++ rest →
      walkBNode m c n b = .ok (leafValue c leaf) (b.skip bits.length) := by
  induction hc with
  | lit v => intro b rest _; simp [walkBNode, leafValue]
  | esc i => intro b rest _; simp [walkBNode, leafValue]
  | left _ ih =>
    intro b rest h
    obtain ⟨h1, h2⟩ := remaining_after (bits := [false]) h
    simp only [List.length_singleton] at h1 h2
    simp only [walkBNode, ops_bind, readBit_cons h, Bool.false_eq_true, if_false]
    rw [ih h2, BitStream.skip_skip h1, List.length_cons, Nat.add_comm]
  | right _ ih =>
    intro b rest h
    obtain ⟨h1, h2⟩ := remaining_after (bits := [true]) h
    simp only [List.length_singleton] at h1 h2
    simp only [walkBNode, ops_bind, readBit_cons h, if_true]
    rw [ih h2, BitStream.skip_skip h1, List.length_cons, Nat.add_comm]

/-- Everything a walk of a small tree can do: it reads a code word, or uses up the window (41_small_tree.md R152). -/
theorem walkNode_cases (m : List Host.Cell) (n : Node) (b : BitStream) :
    (∃ bits v rest, CodeWord n bits v ∧ remaining m b = bits ++ rest ∧
      walkNode m n b = .ok v (b.skip bits.length)) ∨
    ((∀ bits v, CodeWord n bits v → ¬ bits <+: remaining m b) ∧
      walkNode m n b = .error .exhausted (b.skip b.left)) := by
  induction n generalizing b with
  | leaf v => exact .inl ⟨[], v, _, .leaf v, rfl, by simp [walkNode]⟩
  | branch l r ihl ihr =>
    rcases hr : remaining m b with _ | ⟨v, rest⟩
    · refine .inr ⟨?_, ?_⟩
      · intro bits v hc hp
        cases hc <;> simp at hp
      · have h0 := remaining_nil.1 hr
        simp [walkNode, readBit_nil h0, h0]
    · have hrest := remaining_after (bits := [v]) (rest := rest) hr
      simp only [List.length_singleton] at hrest
      obtain ⟨h1, h2⟩ := hrest
      have hleft : (b.skip 1).skip (b.skip 1).left = b.skip b.left := by
        rw [BitStream.skip_skip h1, BitStream.left_skip h1]
        congr 1
        omega
      cases v
      · rcases ihl (b.skip 1) with ⟨bits, w, rest', hc, he, hw⟩ | ⟨hc, hw⟩
        · refine .inl ⟨false :: bits, w, rest', .left hc, ?_, ?_⟩
          · rw [← h2, he, List.cons_append]
          · simp only [walkNode, ops_bind, readBit_cons hr, Bool.false_eq_true, if_false]
            rw [hw, BitStream.skip_skip h1, List.length_cons, Nat.add_comm]
        · refine .inr ⟨?_, ?_⟩
          · intro bits w hcw hp
            cases hcw with
            | left hcw => exact hc _ _ hcw (by rw [h2]; exact (List.cons_prefix_cons.1 hp).2)
            | right hcw => simp at hp
          · simp only [walkNode, ops_bind, readBit_cons hr, Bool.false_eq_true, if_false]
            rw [hw, hleft]
      · rcases ihr (b.skip 1) with ⟨bits, w, rest', hc, he, hw⟩ | ⟨hc, hw⟩
        · refine .inl ⟨true :: bits, w, rest', .right hc, ?_, ?_⟩
          · rw [← h2, he, List.cons_append]
          · simp only [walkNode, ops_bind, readBit_cons hr, if_true]
            rw [hw, BitStream.skip_skip h1, List.length_cons, Nat.add_comm]
        · refine .inr ⟨?_, ?_⟩
          · intro bits w hcw hp
            cases hcw with
            | right hcw => exact hc _ _ hcw (by rw [h2]; exact (List.cons_prefix_cons.1 hp).2)
            | left hcw => simp at hp
          · simp only [walkNode, ops_bind, readBit_cons hr, if_true]
            rw [hw, hleft]

/-- Everything a walk of a lookup tree can do (42_big_tree.md R174). -/
theorem walkBNode_cases (m : List Host.Cell) (c : Cache) (n : BNode) (b : BitStream) :
    (∃ bits leaf rest, BigCodeWord n bits leaf ∧ remaining m b = bits ++ rest ∧
      walkBNode m c n b = .ok (leafValue c leaf) (b.skip bits.length)) ∨
    ((∀ bits leaf, BigCodeWord n bits leaf → ¬ bits <+: remaining m b) ∧
      walkBNode m c n b = .error .exhausted (b.skip b.left)) := by
  induction n generalizing b with
  | lit v => exact .inl ⟨[], .lit v, _, .lit v, rfl, by simp [walkBNode, leafValue]⟩
  | esc i => exact .inl ⟨[], .esc i, _, .esc i, rfl, by simp [walkBNode, leafValue]⟩
  | branch l r ihl ihr =>
    rcases hr : remaining m b with _ | ⟨v, rest⟩
    · refine .inr ⟨?_, ?_⟩
      · intro bits v hc hp
        cases hc <;> simp at hp
      · have h0 := remaining_nil.1 hr
        simp [walkBNode, readBit_nil h0, h0]
    · have hrest := remaining_after (bits := [v]) (rest := rest) hr
      simp only [List.length_singleton] at hrest
      obtain ⟨h1, h2⟩ := hrest
      have hleft : (b.skip 1).skip (b.skip 1).left = b.skip b.left := by
        rw [BitStream.skip_skip h1, BitStream.left_skip h1]
        congr 1
        omega
      cases v
      · rcases ihl (b.skip 1) with ⟨bits, w, rest', hc, he, hw⟩ | ⟨hc, hw⟩
        · refine .inl ⟨false :: bits, w, rest', .left hc, ?_, ?_⟩
          · rw [← h2, he, List.cons_append]
          · simp only [walkBNode, ops_bind, readBit_cons hr, Bool.false_eq_true, if_false]
            rw [hw, BitStream.skip_skip h1, List.length_cons, Nat.add_comm]
        · refine .inr ⟨?_, ?_⟩
          · intro bits w hcw hp
            cases hcw with
            | left hcw => exact hc _ _ hcw (by rw [h2]; exact (List.cons_prefix_cons.1 hp).2)
            | right hcw => simp at hp
          · simp only [walkBNode, ops_bind, readBit_cons hr, Bool.false_eq_true, if_false]
            rw [hw, hleft]
      · rcases ihr (b.skip 1) with ⟨bits, w, rest', hc, he, hw⟩ | ⟨hc, hw⟩
        · refine .inl ⟨true :: bits, w, rest', .right hc, ?_, ?_⟩
          · rw [← h2, he, List.cons_append]
          · simp only [walkBNode, ops_bind, readBit_cons hr, if_true]
            rw [hw, BitStream.skip_skip h1, List.length_cons, Nat.add_comm]
        · refine .inr ⟨?_, ?_⟩
          · intro bits w hcw hp
            cases hcw with
            | right hcw => exact hc _ _ hcw (by rw [h2]; exact (List.cons_prefix_cons.1 hp).2)
            | left hcw => simp at hp
          · simp only [walkBNode, ops_bind, readBit_cons hr, if_true]
            rw [hw, hleft]

/-! ### A reader moves forward within the window -/

/-- A reader leaves the registers at a position at most the window's end: it moves by some number of the bits left. -/
def Forward {α : Type} (r : Reader α) : Prop :=
  ∀ b, ∃ k ≤ b.left, match r b with
    | .ok _ c => c = b.skip k
    | .error _ c => c = b.skip k

theorem forward_pure {α : Type} (a : α) : Forward (pure a) := fun b => ⟨0, by simp, by simp⟩

theorem forward_throw {α : Type} (c : Cause) : Forward (throw c : Reader α) := fun b => ⟨0, by simp, by simp⟩

theorem forward_get : Forward (get : Reader BitStream) := fun b => ⟨0, by simp, by simp⟩

theorem forward_bind {α β : Type} {r : Reader α} {f : α → Reader β} (h : Forward r) (hf : ∀ a, Forward (f a)) :
    Forward (r >>= f) := by
  intro b
  obtain ⟨j, hj, h⟩ := h b
  rcases hr : r b with ⟨a, c⟩ | ⟨e, c⟩
  · rw [hr] at h
    subst h
    obtain ⟨k, hk, h⟩ := hf a (b.skip j)
    rw [BitStream.left_skip hj] at hk
    refine ⟨j + k, by omega, ?_⟩
    rw [ops_bind, hr]
    simpa only [BitStream.skip_skip hj] using h
  · rw [hr] at h
    subst h
    exact ⟨j, hj, by rw [ops_bind, hr]⟩

theorem forward_readBit (m : List Host.Cell) : Forward (readBit m) := by
  intro b
  rcases h : remaining m b with _ | ⟨v, rest⟩
  · exact ⟨0, by simp, by simp [readBit_nil (remaining_nil.1 h)]⟩
  · exact ⟨1, (remaining_after (bits := [v]) h).1, by simp [readBit_cons h]⟩

theorem forward_readBits (m : List Host.Cell) (k : Nat) : Forward (readBits m k) := by
  induction k with
  | zero => exact forward_pure _
  | succ k ih => exact forward_bind (forward_readBit m) fun _ => forward_bind ih fun _ => forward_pure _

theorem forward_readByte (m : List Host.Cell) : Forward (readByte m) :=
  forward_bind (forward_readBits m 8) fun _ => forward_pure _

theorem forward_walkNode (m : List Host.Cell) (n : Node) : Forward (walkNode m n) := by
  intro b
  rcases walkNode_cases m n b with ⟨bits, v, rest, _, hr, hw⟩ | ⟨_, hw⟩
  · exact ⟨bits.length, (remaining_after hr).1, by rw [hw]⟩
  · exact ⟨b.left, Nat.le_refl _, by rw [hw]⟩

theorem forward_walkBNode (m : List Host.Cell) (c : Cache) (n : BNode) : Forward (walkBNode m c n) := by
  intro b
  rcases walkBNode_cases m c n b with ⟨bits, v, rest, _, hr, hw⟩ | ⟨_, hw⟩
  · exact ⟨bits.length, (remaining_after hr).1, by rw [hw]⟩
  · exact ⟨b.left, Nat.le_refl _, by rw [hw]⟩

theorem forward_stLookup (m : List Host.Cell) (t : SmallTree) : Forward (stLookup m t) := by
  cases t with
  | absent => exact forward_throw _
  | present n => exact forward_walkNode m n

end Sys2Proof.Machine
end

