-- ==== Sys2Proof/Laws/State.lean ====
section
/-! SUPPORT. One lemma per field per update of the state. -/

-- The package is compiled as one text: elaborating in order keeps the number of threads small.
set_option Elab.async false

namespace Sys2Proof.Machine

open Sys2Proof

section
variable (s : State)

/-! ### `State.setAtree` -/

@[simp] theorem State.setAtree_bs (slot : Fin 4) (t : SmallTree) : (s.setAtree slot t).bs = s.bs := rfl
@[simp] theorem State.setAtree_cmd (slot : Fin 4) (t : SmallTree) : (s.setAtree slot t).cmd = s.cmd := rfl
@[simp] theorem State.setAtree_arg0 (slot : Fin 4) (t : SmallTree) : (s.setAtree slot t).arg0 = s.arg0 := rfl
@[simp] theorem State.setAtree_arg1 (slot : Fin 4) (t : SmallTree) : (s.setAtree slot t).arg1 = s.arg1 := rfl
@[simp] theorem State.setAtree_arg2 (slot : Fin 4) (t : SmallTree) : (s.setAtree slot t).arg2 = s.arg2 := rfl
@[simp] theorem State.setAtree_result (slot : Fin 4) (t : SmallTree) : (s.setAtree slot t).result = s.result := rfl
@[simp] theorem State.setAtree_status (slot : Fin 4) (t : SmallTree) : (s.setAtree slot t).status = s.status := rfl
@[simp] theorem State.setAtree_log (slot : Fin 4) (t : SmallTree) : (s.setAtree slot t).log = s.log := rfl
@[simp] theorem State.setAtree_version (slot : Fin 4) (t : SmallTree) : (s.setAtree slot t).version = s.version := rfl
@[simp] theorem State.setAtree_width (slot : Fin 4) (t : SmallTree) : (s.setAtree slot t).width = s.width := rfl
@[simp] theorem State.setAtree_height (slot : Fin 4) (t : SmallTree) : (s.setAtree slot t).height = s.height := rfl
@[simp] theorem State.setAtree_trk (slot : Fin 4) (t : SmallTree) : (s.setAtree slot t).trk = s.trk := rfl
@[simp] theorem State.setAtree_atree (slot : Fin 4) (t : SmallTree) : (s.setAtree slot t).atree = s.atree.set slot t := rfl
@[simp] theorem State.setAtree_vt (slot : Fin 4) (t : SmallTree) : (s.setAtree slot t).vt = s.vt := rfl
@[simp] theorem State.setAtree_fb (slot : Fin 4) (t : SmallTree) : (s.setAtree slot t).fb = s.fb := rfl
@[simp] theorem State.setAtree_aout (slot : Fin 4) (t : SmallTree) : (s.setAtree slot t).aout = s.aout := rfl
@[simp] theorem State.setAtree_aoutLen (slot : Fin 4) (t : SmallTree) : (s.setAtree slot t).aoutLen = s.aoutLen := rfl
@[simp] theorem State.setAtree_scanRow (slot : Fin 4) (t : SmallTree) : (s.setAtree slot t).scanRow = s.scanRow := rfl
@[simp] theorem State.setAtree_scanCol (slot : Fin 4) (t : SmallTree) : (s.setAtree slot t).scanCol = s.scanCol := rfl
@[simp] theorem State.setAtree_inMem (slot : Fin 4) (t : SmallTree) : (s.setAtree slot t).inMem = s.inMem := rfl
@[simp] theorem State.setAtree_host (slot : Fin 4) (t : SmallTree) : (s.setAtree slot t).host = s.host := rfl
@[simp] theorem State.setAtree_work (slot : Fin 4) (t : SmallTree) : (s.setAtree slot t).work = s.work := rfl
@[simp] theorem State.setAtree_fbDraw (slot : Fin 4) (t : SmallTree) : (s.setAtree slot t).fbDraw = s.fbDraw := rfl
@[simp] theorem State.setAtree_fbZeroed (slot : Fin 4) (t : SmallTree) : (s.setAtree slot t).fbZeroed = s.fbZeroed := rfl
@[simp] theorem State.setAtree_params (slot : Fin 4) (t : SmallTree) : (s.setAtree slot t).params = s.params := rfl

/-! ### `State.setVt` -/

@[simp] theorem State.setVt_bs (id : Fin 4) (t : BigTree) : (s.setVt id t).bs = s.bs := rfl
@[simp] theorem State.setVt_cmd (id : Fin 4) (t : BigTree) : (s.setVt id t).cmd = s.cmd := rfl
@[simp] theorem State.setVt_arg0 (id : Fin 4) (t : BigTree) : (s.setVt id t).arg0 = s.arg0 := rfl
@[simp] theorem State.setVt_arg1 (id : Fin 4) (t : BigTree) : (s.setVt id t).arg1 = s.arg1 := rfl
@[simp] theorem State.setVt_arg2 (id : Fin 4) (t : BigTree) : (s.setVt id t).arg2 = s.arg2 := rfl
@[simp] theorem State.setVt_result (id : Fin 4) (t : BigTree) : (s.setVt id t).result = s.result := rfl
@[simp] theorem State.setVt_status (id : Fin 4) (t : BigTree) : (s.setVt id t).status = s.status := rfl
@[simp] theorem State.setVt_log (id : Fin 4) (t : BigTree) : (s.setVt id t).log = s.log := rfl
@[simp] theorem State.setVt_version (id : Fin 4) (t : BigTree) : (s.setVt id t).version = s.version := rfl
@[simp] theorem State.setVt_width (id : Fin 4) (t : BigTree) : (s.setVt id t).width = s.width := rfl
@[simp] theorem State.setVt_height (id : Fin 4) (t : BigTree) : (s.setVt id t).height = s.height := rfl
@[simp] theorem State.setVt_trk (id : Fin 4) (t : BigTree) : (s.setVt id t).trk = s.trk := rfl
@[simp] theorem State.setVt_atree (id : Fin 4) (t : BigTree) : (s.setVt id t).atree = s.atree := rfl
@[simp] theorem State.setVt_vt (id : Fin 4) (t : BigTree) : (s.setVt id t).vt = s.vt.set id t := rfl
@[simp] theorem State.setVt_fb (id : Fin 4) (t : BigTree) : (s.setVt id t).fb = s.fb := rfl
@[simp] theorem State.setVt_aout (id : Fin 4) (t : BigTree) : (s.setVt id t).aout = s.aout := rfl
@[simp] theorem State.setVt_aoutLen (id : Fin 4) (t : BigTree) : (s.setVt id t).aoutLen = s.aoutLen := rfl
@[simp] theorem State.setVt_scanRow (id : Fin 4) (t : BigTree) : (s.setVt id t).scanRow = s.scanRow := rfl
@[simp] theorem State.setVt_scanCol (id : Fin 4) (t : BigTree) : (s.setVt id t).scanCol = s.scanCol := rfl
@[simp] theorem State.setVt_inMem (id : Fin 4) (t : BigTree) : (s.setVt id t).inMem = s.inMem := rfl
@[simp] theorem State.setVt_host (id : Fin 4) (t : BigTree) : (s.setVt id t).host = s.host := rfl
@[simp] theorem State.setVt_work (id : Fin 4) (t : BigTree) : (s.setVt id t).work = s.work := rfl
@[simp] theorem State.setVt_fbDraw (id : Fin 4) (t : BigTree) : (s.setVt id t).fbDraw = s.fbDraw := rfl
@[simp] theorem State.setVt_fbZeroed (id : Fin 4) (t : BigTree) : (s.setVt id t).fbZeroed = s.fbZeroed := rfl
@[simp] theorem State.setVt_params (id : Fin 4) (t : BigTree) : (s.setVt id t).params = s.params := rfl

/-! ### `State.setAout` -/

@[simp] theorem State.setAout_bs (t : Fin 7) (m : List Host.Cell) : (s.setAout t m).bs = s.bs := rfl
@[simp] theorem State.setAout_cmd (t : Fin 7) (m : List Host.Cell) : (s.setAout t m).cmd = s.cmd := rfl
@[simp] theorem State.setAout_arg0 (t : Fin 7) (m : List Host.Cell) : (s.setAout t m).arg0 = s.arg0 := rfl
@[simp] theorem State.setAout_arg1 (t : Fin 7) (m : List Host.Cell) : (s.setAout t m).arg1 = s.arg1 := rfl
@[simp] theorem State.setAout_arg2 (t : Fin 7) (m : List Host.Cell) : (s.setAout t m).arg2 = s.arg2 := rfl
@[simp] theorem State.setAout_result (t : Fin 7) (m : List Host.Cell) : (s.setAout t m).result = s.result := rfl
@[simp] theorem State.setAout_status (t : Fin 7) (m : List Host.Cell) : (s.setAout t m).status = s.status := rfl
@[simp] theorem State.setAout_log (t : Fin 7) (m : List Host.Cell) : (s.setAout t m).log = s.log := rfl
@[simp] theorem State.setAout_version (t : Fin 7) (m : List Host.Cell) : (s.setAout t m).version = s.version := rfl
@[simp] theorem State.setAout_width (t : Fin 7) (m : List Host.Cell) : (s.setAout t m).width = s.width := rfl
@[simp] theorem State.setAout_height (t : Fin 7) (m : List Host.Cell) : (s.setAout t m).height = s.height := rfl
@[simp] theorem State.setAout_trk (t : Fin 7) (m : List Host.Cell) : (s.setAout t m).trk = s.trk := rfl
@[simp] theorem State.setAout_atree (t : Fin 7) (m : List Host.Cell) : (s.setAout t m).atree = s.atree := rfl
@[simp] theorem State.setAout_vt (t : Fin 7) (m : List Host.Cell) : (s.setAout t m).vt = s.vt := rfl
@[simp] theorem State.setAout_fb (t : Fin 7) (m : List Host.Cell) : (s.setAout t m).fb = s.fb := rfl
@[simp] theorem State.setAout_aout (t : Fin 7) (m : List Host.Cell) : (s.setAout t m).aout = s.aout.set t m := rfl
@[simp] theorem State.setAout_aoutLen (t : Fin 7) (m : List Host.Cell) : (s.setAout t m).aoutLen = s.aoutLen := rfl
@[simp] theorem State.setAout_scanRow (t : Fin 7) (m : List Host.Cell) : (s.setAout t m).scanRow = s.scanRow := rfl
@[simp] theorem State.setAout_scanCol (t : Fin 7) (m : List Host.Cell) : (s.setAout t m).scanCol = s.scanCol := rfl
@[simp] theorem State.setAout_inMem (t : Fin 7) (m : List Host.Cell) : (s.setAout t m).inMem = s.inMem := rfl
@[simp] theorem State.setAout_host (t : Fin 7) (m : List Host.Cell) : (s.setAout t m).host = s.host := rfl
@[simp] theorem State.setAout_work (t : Fin 7) (m : List Host.Cell) : (s.setAout t m).work = s.work := rfl
@[simp] theorem State.setAout_fbDraw (t : Fin 7) (m : List Host.Cell) : (s.setAout t m).fbDraw = s.fbDraw := rfl
@[simp] theorem State.setAout_fbZeroed (t : Fin 7) (m : List Host.Cell) : (s.setAout t m).fbZeroed = s.fbZeroed := rfl
@[simp] theorem State.setAout_params (t : Fin 7) (m : List Host.Cell) : (s.setAout t m).params = s.params := rfl

/-! ### `State.setAoutLen` -/

@[simp] theorem State.setAoutLen_bs (t : Fin 7) (n : Word) : (s.setAoutLen t n).bs = s.bs := rfl
@[simp] theorem State.setAoutLen_cmd (t : Fin 7) (n : Word) : (s.setAoutLen t n).cmd = s.cmd := rfl
@[simp] theorem State.setAoutLen_arg0 (t : Fin 7) (n : Word) : (s.setAoutLen t n).arg0 = s.arg0 := rfl
@[simp] theorem State.setAoutLen_arg1 (t : Fin 7) (n : Word) : (s.setAoutLen t n).arg1 = s.arg1 := rfl
@[simp] theorem State.setAoutLen_arg2 (t : Fin 7) (n : Word) : (s.setAoutLen t n).arg2 = s.arg2 := rfl
@[simp] theorem State.setAoutLen_result (t : Fin 7) (n : Word) : (s.setAoutLen t n).result = s.result := rfl
@[simp] theorem State.setAoutLen_status (t : Fin 7) (n : Word) : (s.setAoutLen t n).status = s.status := rfl
@[simp] theorem State.setAoutLen_log (t : Fin 7) (n : Word) : (s.setAoutLen t n).log = s.log := rfl
@[simp] theorem State.setAoutLen_version (t : Fin 7) (n : Word) : (s.setAoutLen t n).version = s.version := rfl
@[simp] theorem State.setAoutLen_width (t : Fin 7) (n : Word) : (s.setAoutLen t n).width = s.width := rfl
@[simp] theorem State.setAoutLen_height (t : Fin 7) (n : Word) : (s.setAoutLen t n).height = s.height := rfl
@[simp] theorem State.setAoutLen_trk (t : Fin 7) (n : Word) : (s.setAoutLen t n).trk = s.trk := rfl
@[simp] theorem State.setAoutLen_atree (t : Fin 7) (n : Word) : (s.setAoutLen t n).atree = s.atree := rfl
@[simp] theorem State.setAoutLen_vt (t : Fin 7) (n : Word) : (s.setAoutLen t n).vt = s.vt := rfl
@[simp] theorem State.setAoutLen_fb (t : Fin 7) (n : Word) : (s.setAoutLen t n).fb = s.fb := rfl
@[simp] theorem State.setAoutLen_aout (t : Fin 7) (n : Word) : (s.setAoutLen t n).aout = s.aout := rfl
@[simp] theorem State.setAoutLen_aoutLen (t : Fin 7) (n : Word) : (s.setAoutLen t n).aoutLen = s.aoutLen.set t n := rfl
@[simp] theorem State.setAoutLen_scanRow (t : Fin 7) (n : Word) : (s.setAoutLen t n).scanRow = s.scanRow := rfl
@[simp] theorem State.setAoutLen_scanCol (t : Fin 7) (n : Word) : (s.setAoutLen t n).scanCol = s.scanCol := rfl
@[simp] theorem State.setAoutLen_inMem (t : Fin 7) (n : Word) : (s.setAoutLen t n).inMem = s.inMem := rfl
@[simp] theorem State.setAoutLen_host (t : Fin 7) (n : Word) : (s.setAoutLen t n).host = s.host := rfl
@[simp] theorem State.setAoutLen_work (t : Fin 7) (n : Word) : (s.setAoutLen t n).work = s.work := rfl
@[simp] theorem State.setAoutLen_fbDraw (t : Fin 7) (n : Word) : (s.setAoutLen t n).fbDraw = s.fbDraw := rfl
@[simp] theorem State.setAoutLen_fbZeroed (t : Fin 7) (n : Word) : (s.setAoutLen t n).fbZeroed = s.fbZeroed := rfl
@[simp] theorem State.setAoutLen_params (t : Fin 7) (n : Word) : (s.setAoutLen t n).params = s.params := rfl

/-! ### `State.clearAtree` -/

@[simp] theorem State.clearAtree_bs : (s.clearAtree).bs = s.bs := rfl
@[simp] theorem State.clearAtree_cmd : (s.clearAtree).cmd = s.cmd := rfl
@[simp] theorem State.clearAtree_arg0 : (s.clearAtree).arg0 = s.arg0 := rfl
@[simp] theorem State.clearAtree_arg1 : (s.clearAtree).arg1 = s.arg1 := rfl
@[simp] theorem State.clearAtree_arg2 : (s.clearAtree).arg2 = s.arg2 := rfl
@[simp] theorem State.clearAtree_result : (s.clearAtree).result = s.result := rfl
@[simp] theorem State.clearAtree_status : (s.clearAtree).status = s.status := rfl
@[simp] theorem State.clearAtree_log : (s.clearAtree).log = s.log := rfl
@[simp] theorem State.clearAtree_version : (s.clearAtree).version = s.version := rfl
@[simp] theorem State.clearAtree_width : (s.clearAtree).width = s.width := rfl
@[simp] theorem State.clearAtree_height : (s.clearAtree).height = s.height := rfl
@[simp] theorem State.clearAtree_trk : (s.clearAtree).trk = s.trk := rfl
@[simp] theorem State.clearAtree_atree : (s.clearAtree).atree = Vector.replicate 4 .absent := rfl
@[simp] theorem State.clearAtree_vt : (s.clearAtree).vt = s.vt := rfl
@[simp] theorem State.clearAtree_fb : (s.clearAtree).fb = s.fb := rfl
@[simp] theorem State.clearAtree_aout : (s.clearAtree).aout = s.aout := rfl
@[simp] theorem State.clearAtree_aoutLen : (s.clearAtree).aoutLen = s.aoutLen := rfl
@[simp] theorem State.clearAtree_scanRow : (s.clearAtree).scanRow = s.scanRow := rfl
@[simp] theorem State.clearAtree_scanCol : (s.clearAtree).scanCol = s.scanCol := rfl
@[simp] theorem State.clearAtree_inMem : (s.clearAtree).inMem = s.inMem := rfl
@[simp] theorem State.clearAtree_host : (s.clearAtree).host = s.host := rfl
@[simp] theorem State.clearAtree_work : (s.clearAtree).work = s.work := rfl
@[simp] theorem State.clearAtree_fbDraw : (s.clearAtree).fbDraw = s.fbDraw := rfl
@[simp] theorem State.clearAtree_fbZeroed : (s.clearAtree).fbZeroed = s.fbZeroed := rfl
@[simp] theorem State.clearAtree_params : (s.clearAtree).params = s.params := rfl

/-! ### `State.clearVt` -/

@[simp] theorem State.clearVt_bs : (s.clearVt).bs = s.bs := rfl
@[simp] theorem State.clearVt_cmd : (s.clearVt).cmd = s.cmd := rfl
@[simp] theorem State.clearVt_arg0 : (s.clearVt).arg0 = s.arg0 := rfl
@[simp] theorem State.clearVt_arg1 : (s.clearVt).arg1 = s.arg1 := rfl
@[simp] theorem State.clearVt_arg2 : (s.clearVt).arg2 = s.arg2 := rfl
@[simp] theorem State.clearVt_result : (s.clearVt).result = s.result := rfl
@[simp] theorem State.clearVt_status : (s.clearVt).status = s.status := rfl
@[simp] theorem State.clearVt_log : (s.clearVt).log = s.log := rfl
@[simp] theorem State.clearVt_version : (s.clearVt).version = s.version := rfl
@[simp] theorem State.clearVt_width : (s.clearVt).width = s.width := rfl
@[simp] theorem State.clearVt_height : (s.clearVt).height = s.height := rfl
@[simp] theorem State.clearVt_trk : (s.clearVt).trk = s.trk := rfl
@[simp] theorem State.clearVt_atree : (s.clearVt).atree = s.atree := rfl
@[simp] theorem State.clearVt_vt : (s.clearVt).vt = Vector.replicate 4 .absent := rfl
@[simp] theorem State.clearVt_fb : (s.clearVt).fb = s.fb := rfl
@[simp] theorem State.clearVt_aout : (s.clearVt).aout = s.aout := rfl
@[simp] theorem State.clearVt_aoutLen : (s.clearVt).aoutLen = s.aoutLen := rfl
@[simp] theorem State.clearVt_scanRow : (s.clearVt).scanRow = s.scanRow := rfl
@[simp] theorem State.clearVt_scanCol : (s.clearVt).scanCol = s.scanCol := rfl
@[simp] theorem State.clearVt_inMem : (s.clearVt).inMem = s.inMem := rfl
@[simp] theorem State.clearVt_host : (s.clearVt).host = s.host := rfl
@[simp] theorem State.clearVt_work : (s.clearVt).work = s.work := rfl
@[simp] theorem State.clearVt_fbDraw : (s.clearVt).fbDraw = s.fbDraw := rfl
@[simp] theorem State.clearVt_fbZeroed : (s.clearVt).fbZeroed = s.fbZeroed := rfl
@[simp] theorem State.clearVt_params : (s.clearVt).params = s.params := rfl

/-! ### `State.setWork` -/

@[simp] theorem State.setWork_bs (w : Work) : (s.setWork w).bs = s.bs := rfl
@[simp] theorem State.setWork_cmd (w : Work) : (s.setWork w).cmd = s.cmd := rfl
@[simp] theorem State.setWork_arg0 (w : Work) : (s.setWork w).arg0 = s.arg0 := rfl
@[simp] theorem State.setWork_arg1 (w : Work) : (s.setWork w).arg1 = s.arg1 := rfl
@[simp] theorem State.setWork_arg2 (w : Work) : (s.setWork w).arg2 = s.arg2 := rfl
@[simp] theorem State.setWork_result (w : Work) : (s.setWork w).result = s.result := rfl
@[simp] theorem State.setWork_status (w : Work) : (s.setWork w).status = s.status := rfl
@[simp] theorem State.setWork_log (w : Work) : (s.setWork w).log = s.log := rfl
@[simp] theorem State.setWork_version (w : Work) : (s.setWork w).version = s.version := rfl
@[simp] theorem State.setWork_width (w : Work) : (s.setWork w).width = s.width := rfl
@[simp] theorem State.setWork_height (w : Work) : (s.setWork w).height = s.height := rfl
@[simp] theorem State.setWork_trk (w : Work) : (s.setWork w).trk = s.trk := rfl
@[simp] theorem State.setWork_atree (w : Work) : (s.setWork w).atree = s.atree := rfl
@[simp] theorem State.setWork_vt (w : Work) : (s.setWork w).vt = s.vt := rfl
@[simp] theorem State.setWork_fb (w : Work) : (s.setWork w).fb = s.fb := rfl
@[simp] theorem State.setWork_aout (w : Work) : (s.setWork w).aout = s.aout := rfl
@[simp] theorem State.setWork_aoutLen (w : Work) : (s.setWork w).aoutLen = s.aoutLen := rfl
@[simp] theorem State.setWork_scanRow (w : Work) : (s.setWork w).scanRow = s.scanRow := rfl
@[simp] theorem State.setWork_scanCol (w : Work) : (s.setWork w).scanCol = s.scanCol := rfl
@[simp] theorem State.setWork_inMem (w : Work) : (s.setWork w).inMem = s.inMem := rfl
@[simp] theorem State.setWork_host (w : Work) : (s.setWork w).host = s.host := rfl
@[simp] theorem State.setWork_work (w : Work) : (s.setWork w).work = w := rfl
@[simp] theorem State.setWork_fbDraw (w : Work) : (s.setWork w).fbDraw = s.fbDraw := rfl
@[simp] theorem State.setWork_fbZeroed (w : Work) : (s.setWork w).fbZeroed = s.fbZeroed := rfl
@[simp] theorem State.setWork_params (w : Work) : (s.setWork w).params = s.params := rfl

/-! ### `State.setBs` -/

@[simp] theorem State.setBs_bs (b : BitStream) : (s.setBs b).bs = b := rfl
@[simp] theorem State.setBs_cmd (b : BitStream) : (s.setBs b).cmd = s.cmd := rfl
@[simp] theorem State.setBs_arg0 (b : BitStream) : (s.setBs b).arg0 = s.arg0 := rfl
@[simp] theorem State.setBs_arg1 (b : BitStream) : (s.setBs b).arg1 = s.arg1 := rfl
@[simp] theorem State.setBs_arg2 (b : BitStream) : (s.setBs b).arg2 = s.arg2 := rfl
@[simp] theorem State.setBs_result (b : BitStream) : (s.setBs b).result = s.result := rfl
@[simp] theorem State.setBs_status (b : BitStream) : (s.setBs b).status = s.status := rfl
@[simp] theorem State.setBs_log (b : BitStream) : (s.setBs b).log = s.log := rfl
@[simp] theorem State.setBs_version (b : BitStream) : (s.setBs b).version = s.version := rfl
@[simp] theorem State.setBs_width (b : BitStream) : (s.setBs b).width = s.width := rfl
@[simp] theorem State.setBs_height (b : BitStream) : (s.setBs b).height = s.height := rfl
@[simp] theorem State.setBs_trk (b : BitStream) : (s.setBs b).trk = s.trk := rfl
@[simp] theorem State.setBs_atree (b : BitStream) : (s.setBs b).atree = s.atree := rfl
@[simp] theorem State.setBs_vt (b : BitStream) : (s.setBs b).vt = s.vt := rfl
@[simp] theorem State.setBs_fb (b : BitStream) : (s.setBs b).fb = s.fb := rfl
@[simp] theorem State.setBs_aout (b : BitStream) : (s.setBs b).aout = s.aout := rfl
@[simp] theorem State.setBs_aoutLen (b : BitStream) : (s.setBs b).aoutLen = s.aoutLen := rfl
@[simp] theorem State.setBs_scanRow (b : BitStream) : (s.setBs b).scanRow = s.scanRow := rfl
@[simp] theorem State.setBs_scanCol (b : BitStream) : (s.setBs b).scanCol = s.scanCol := rfl
@[simp] theorem State.setBs_inMem (b : BitStream) : (s.setBs b).inMem = s.inMem := rfl
@[simp] theorem State.setBs_host (b : BitStream) : (s.setBs b).host = s.host := rfl
@[simp] theorem State.setBs_work (b : BitStream) : (s.setBs b).work = s.work := rfl
@[simp] theorem State.setBs_fbDraw (b : BitStream) : (s.setBs b).fbDraw = s.fbDraw := rfl
@[simp] theorem State.setBs_fbZeroed (b : BitStream) : (s.setBs b).fbZeroed = s.fbZeroed := rfl
@[simp] theorem State.setBs_params (b : BitStream) : (s.setBs b).params = s.params := rfl
@[simp] theorem State.setBs_setBs (b c : BitStream) : (s.setBs b).setBs c = s.setBs c := rfl
@[simp] theorem State.setBs_self : s.setBs s.bs = s := rfl
@[simp] theorem State.setWork_setBs (w : Work) (b : BitStream) : (s.setWork w).setBs b = (s.setBs b).setWork w := rfl
@[simp] theorem State.setVt_setBs (id : Fin 4) (t : BigTree) (b : BitStream) :
    (s.setVt id t).setBs b = (s.setBs b).setVt id t := rfl
@[simp] theorem State.setAtree_setBs (slot : Fin 4) (t : SmallTree) (b : BitStream) :
    (s.setAtree slot t).setBs b = (s.setBs b).setAtree slot t := rfl
@[simp] theorem State.setWork_setAtree (w : Work) (slot : Fin 4) (t : SmallTree) :
    (s.setWork w).setAtree slot t = (s.setAtree slot t).setWork w := rfl
@[simp] theorem State.setWork_setVt (w : Work) (id : Fin 4) (t : BigTree) :
    (s.setWork w).setVt id t = (s.setVt id t).setWork w := rfl
@[simp] theorem State.setWork_setWork (v w : Work) : (s.setWork v).setWork w = s.setWork w := rfl

/-! ### `State.openWindow` -/

@[simp] theorem State.openWindow_bs (base size : Word) : (s.openWindow base size).bs = { base := base, size := size, bytePos := 0, bitPos := 0 } := rfl
@[simp] theorem State.openWindow_cmd (base size : Word) : (s.openWindow base size).cmd = s.cmd := rfl
@[simp] theorem State.openWindow_arg0 (base size : Word) : (s.openWindow base size).arg0 = s.arg0 := rfl
@[simp] theorem State.openWindow_arg1 (base size : Word) : (s.openWindow base size).arg1 = s.arg1 := rfl
@[simp] theorem State.openWindow_arg2 (base size : Word) : (s.openWindow base size).arg2 = s.arg2 := rfl
@[simp] theorem State.openWindow_result (base size : Word) : (s.openWindow base size).result = s.result := rfl
@[simp] theorem State.openWindow_status (base size : Word) : (s.openWindow base size).status = s.status := rfl
@[simp] theorem State.openWindow_log (base size : Word) : (s.openWindow base size).log = s.log := rfl
@[simp] theorem State.openWindow_version (base size : Word) : (s.openWindow base size).version = s.version := rfl
@[simp] theorem State.openWindow_width (base size : Word) : (s.openWindow base size).width = s.width := rfl
@[simp] theorem State.openWindow_height (base size : Word) : (s.openWindow base size).height = s.height := rfl
@[simp] theorem State.openWindow_trk (base size : Word) : (s.openWindow base size).trk = s.trk := rfl
@[simp] theorem State.openWindow_atree (base size : Word) : (s.openWindow base size).atree = s.atree := rfl
@[simp] theorem State.openWindow_vt (base size : Word) : (s.openWindow base size).vt = s.vt := rfl
@[simp] theorem State.openWindow_fb (base size : Word) : (s.openWindow base size).fb = s.fb := rfl
@[simp] theorem State.openWindow_aout (base size : Word) : (s.openWindow base size).aout = s.aout := rfl
@[simp] theorem State.openWindow_aoutLen (base size : Word) : (s.openWindow base size).aoutLen = s.aoutLen := rfl
@[simp] theorem State.openWindow_scanRow (base size : Word) : (s.openWindow base size).scanRow = s.scanRow := rfl
@[simp] theorem State.openWindow_scanCol (base size : Word) : (s.openWindow base size).scanCol = s.scanCol := rfl
@[simp] theorem State.openWindow_inMem (base size : Word) : (s.openWindow base size).inMem = s.inMem := rfl
@[simp] theorem State.openWindow_host (base size : Word) : (s.openWindow base size).host = s.host := rfl
@[simp] theorem State.openWindow_work (base size : Word) : (s.openWindow base size).work = s.work := rfl
@[simp] theorem State.openWindow_fbDraw (base size : Word) : (s.openWindow base size).fbDraw = s.fbDraw := rfl
@[simp] theorem State.openWindow_fbZeroed (base size : Word) : (s.openWindow base size).fbZeroed = s.fbZeroed := rfl
@[simp] theorem State.openWindow_params (base size : Word) : (s.openWindow base size).params = s.params := rfl

/-! ### `startCommand` -/

@[simp] theorem startCommand_bs (code : Byte) : (startCommand code s).bs = s.bs := rfl
@[simp] theorem startCommand_cmd (code : Byte) : (startCommand code s).cmd = code := rfl
@[simp] theorem startCommand_arg0 (code : Byte) : (startCommand code s).arg0 = s.arg0 := rfl
@[simp] theorem startCommand_arg1 (code : Byte) : (startCommand code s).arg1 = s.arg1 := rfl
@[simp] theorem startCommand_arg2 (code : Byte) : (startCommand code s).arg2 = s.arg2 := rfl
@[simp] theorem startCommand_result (code : Byte) : (startCommand code s).result = s.result := rfl
@[simp] theorem startCommand_status (code : Byte) : (startCommand code s).status = statusWord code 0 := rfl
@[simp] theorem startCommand_log (code : Byte) : (startCommand code s).log = s.log := rfl
@[simp] theorem startCommand_version (code : Byte) : (startCommand code s).version = s.version := rfl
@[simp] theorem startCommand_width (code : Byte) : (startCommand code s).width = s.width := rfl
@[simp] theorem startCommand_height (code : Byte) : (startCommand code s).height = s.height := rfl
@[simp] theorem startCommand_trk (code : Byte) : (startCommand code s).trk = s.trk := rfl
@[simp] theorem startCommand_atree (code : Byte) : (startCommand code s).atree = s.atree := rfl
@[simp] theorem startCommand_vt (code : Byte) : (startCommand code s).vt = s.vt := rfl
@[simp] theorem startCommand_fb (code : Byte) : (startCommand code s).fb = s.fb := rfl
@[simp] theorem startCommand_aout (code : Byte) : (startCommand code s).aout = s.aout := rfl
@[simp] theorem startCommand_aoutLen (code : Byte) : (startCommand code s).aoutLen = s.aoutLen := rfl
@[simp] theorem startCommand_scanRow (code : Byte) : (startCommand code s).scanRow = s.scanRow := rfl
@[simp] theorem startCommand_scanCol (code : Byte) : (startCommand code s).scanCol = s.scanCol := rfl
@[simp] theorem startCommand_inMem (code : Byte) : (startCommand code s).inMem = s.inMem := rfl
@[simp] theorem startCommand_host (code : Byte) : (startCommand code s).host = s.host := rfl
@[simp] theorem startCommand_work (code : Byte) : (startCommand code s).work = .idle := rfl
@[simp] theorem startCommand_fbDraw (code : Byte) : (startCommand code s).fbDraw = s.fbDraw := rfl
@[simp] theorem startCommand_fbZeroed (code : Byte) : (startCommand code s).fbZeroed = s.fbZeroed := rfl
@[simp] theorem startCommand_params (code : Byte) : (startCommand code s).params = s.params := rfl

/-! ### `State.freshFb` -/

@[simp] theorem State.freshFb_bs : (s.freshFb).bs = s.bs := rfl
@[simp] theorem State.freshFb_cmd : (s.freshFb).cmd = s.cmd := rfl
@[simp] theorem State.freshFb_arg0 : (s.freshFb).arg0 = s.arg0 := rfl
@[simp] theorem State.freshFb_arg1 : (s.freshFb).arg1 = s.arg1 := rfl
@[simp] theorem State.freshFb_arg2 : (s.freshFb).arg2 = s.arg2 := rfl
@[simp] theorem State.freshFb_result : (s.freshFb).result = s.result := rfl
@[simp] theorem State.freshFb_status : (s.freshFb).status = s.status := rfl
@[simp] theorem State.freshFb_log : (s.freshFb).log = s.log := rfl
@[simp] theorem State.freshFb_version : (s.freshFb).version = s.version := rfl
@[simp] theorem State.freshFb_width : (s.freshFb).width = s.width := rfl
@[simp] theorem State.freshFb_height : (s.freshFb).height = s.height := rfl
@[simp] theorem State.freshFb_trk : (s.freshFb).trk = s.trk := rfl
@[simp] theorem State.freshFb_atree : (s.freshFb).atree = s.atree := rfl
@[simp] theorem State.freshFb_vt : (s.freshFb).vt = s.vt := rfl
@[simp] theorem State.freshFb_fb : (s.freshFb).fb = [] := rfl
@[simp] theorem State.freshFb_aout : (s.freshFb).aout = s.aout := rfl
@[simp] theorem State.freshFb_aoutLen : (s.freshFb).aoutLen = s.aoutLen := rfl
@[simp] theorem State.freshFb_scanRow : (s.freshFb).scanRow = s.scanRow := rfl
@[simp] theorem State.freshFb_scanCol : (s.freshFb).scanCol = s.scanCol := rfl
@[simp] theorem State.freshFb_inMem : (s.freshFb).inMem = s.inMem := rfl
@[simp] theorem State.freshFb_host : (s.freshFb).host = s.host := rfl
@[simp] theorem State.freshFb_work : (s.freshFb).work = s.work := rfl
@[simp] theorem State.freshFb_fbDraw : (s.freshFb).fbDraw = s.fbDraw + 1 := rfl
@[simp] theorem State.freshFb_fbZeroed : (s.freshFb).fbZeroed = false := rfl
@[simp] theorem State.freshFb_params : (s.freshFb).params = s.params := rfl

/-! ### `putPixel` -/

@[simp] theorem putPixel_bs (px : Nat × Nat × Byte) : (putPixel s px).bs = s.bs := rfl
@[simp] theorem putPixel_cmd (px : Nat × Nat × Byte) : (putPixel s px).cmd = s.cmd := rfl
@[simp] theorem putPixel_arg0 (px : Nat × Nat × Byte) : (putPixel s px).arg0 = s.arg0 := rfl
@[simp] theorem putPixel_arg1 (px : Nat × Nat × Byte) : (putPixel s px).arg1 = s.arg1 := rfl
@[simp] theorem putPixel_arg2 (px : Nat × Nat × Byte) : (putPixel s px).arg2 = s.arg2 := rfl
@[simp] theorem putPixel_result (px : Nat × Nat × Byte) : (putPixel s px).result = s.result := rfl
@[simp] theorem putPixel_status (px : Nat × Nat × Byte) : (putPixel s px).status = s.status := rfl
@[simp] theorem putPixel_log (px : Nat × Nat × Byte) : (putPixel s px).log = s.log := rfl
@[simp] theorem putPixel_version (px : Nat × Nat × Byte) : (putPixel s px).version = s.version := rfl
@[simp] theorem putPixel_width (px : Nat × Nat × Byte) : (putPixel s px).width = s.width := rfl
@[simp] theorem putPixel_height (px : Nat × Nat × Byte) : (putPixel s px).height = s.height := rfl
@[simp] theorem putPixel_trk (px : Nat × Nat × Byte) : (putPixel s px).trk = s.trk := rfl
@[simp] theorem putPixel_atree (px : Nat × Nat × Byte) : (putPixel s px).atree = s.atree := rfl
@[simp] theorem putPixel_vt (px : Nat × Nat × Byte) : (putPixel s px).vt = s.vt := rfl
@[simp] theorem putPixel_fb (px : Nat × Nat × Byte) : (putPixel s px).fb = Memory.write outBlank s.fb (pixelAddr s px.1 px.2.1) px.2.2 := rfl
@[simp] theorem putPixel_aout (px : Nat × Nat × Byte) : (putPixel s px).aout = s.aout := rfl
@[simp] theorem putPixel_aoutLen (px : Nat × Nat × Byte) : (putPixel s px).aoutLen = s.aoutLen := rfl
@[simp] theorem putPixel_scanRow (px : Nat × Nat × Byte) : (putPixel s px).scanRow = s.scanRow := rfl
@[simp] theorem putPixel_scanCol (px : Nat × Nat × Byte) : (putPixel s px).scanCol = s.scanCol := rfl
@[simp] theorem putPixel_inMem (px : Nat × Nat × Byte) : (putPixel s px).inMem = s.inMem := rfl
@[simp] theorem putPixel_host (px : Nat × Nat × Byte) : (putPixel s px).host = s.host := rfl
@[simp] theorem putPixel_work (px : Nat × Nat × Byte) : (putPixel s px).work = s.work := rfl
@[simp] theorem putPixel_fbDraw (px : Nat × Nat × Byte) : (putPixel s px).fbDraw = s.fbDraw := rfl
@[simp] theorem putPixel_fbZeroed (px : Nat × Nat × Byte) : (putPixel s px).fbZeroed = s.fbZeroed := rfl
@[simp] theorem putPixel_params (px : Nat × Nat × Byte) : (putPixel s px).params = s.params := rfl

/-! ### `startFrame` -/

@[simp] theorem startFrame_bs : (startFrame s).bs = { base := s.arg0, size := s.arg1, bytePos := 0, bitPos := 0 } := rfl
@[simp] theorem startFrame_cmd : (startFrame s).cmd = s.cmd := rfl
@[simp] theorem startFrame_arg0 : (startFrame s).arg0 = s.arg0 := rfl
@[simp] theorem startFrame_arg1 : (startFrame s).arg1 = s.arg1 := rfl
@[simp] theorem startFrame_arg2 : (startFrame s).arg2 = s.arg2 := rfl
@[simp] theorem startFrame_result : (startFrame s).result = s.result := rfl
@[simp] theorem startFrame_status : (startFrame s).status = s.status := rfl
@[simp] theorem startFrame_log : (startFrame s).log = s.log := rfl
@[simp] theorem startFrame_version : (startFrame s).version = s.version := rfl
@[simp] theorem startFrame_width : (startFrame s).width = s.width := rfl
@[simp] theorem startFrame_height : (startFrame s).height = s.height := rfl
@[simp] theorem startFrame_trk : (startFrame s).trk = s.trk := rfl
@[simp] theorem startFrame_atree : (startFrame s).atree = s.atree := rfl
@[simp] theorem startFrame_vt : (startFrame s).vt = s.vt.map btResetTree := rfl
@[simp] theorem startFrame_fb : (startFrame s).fb = s.fb := rfl
@[simp] theorem startFrame_aout : (startFrame s).aout = s.aout := rfl
@[simp] theorem startFrame_aoutLen : (startFrame s).aoutLen = s.aoutLen := rfl
@[simp] theorem startFrame_scanRow : (startFrame s).scanRow = 0 := rfl
@[simp] theorem startFrame_scanCol : (startFrame s).scanCol = 0 := rfl
@[simp] theorem startFrame_inMem : (startFrame s).inMem = s.inMem := rfl
@[simp] theorem startFrame_host : (startFrame s).host = s.host := rfl
@[simp] theorem startFrame_work : (startFrame s).work = .video := rfl
@[simp] theorem startFrame_fbDraw : (startFrame s).fbDraw = s.fbDraw := rfl
@[simp] theorem startFrame_fbZeroed : (startFrame s).fbZeroed = s.fbZeroed := rfl
@[simp] theorem startFrame_params : (startFrame s).params = s.params := rfl

/-! ### `raiseFault` -/

@[simp] theorem raiseFault_bs (c : Cause) : (raiseFault c s).bs = s.bs := by
  unfold raiseFault cleanUp; split <;> rfl
@[simp] theorem raiseFault_cmd (c : Cause) : (raiseFault c s).cmd = s.cmd := by
  unfold raiseFault cleanUp; split <;> rfl
@[simp] theorem raiseFault_arg0 (c : Cause) : (raiseFault c s).arg0 = s.arg0 := by
  unfold raiseFault cleanUp; split <;> rfl
@[simp] theorem raiseFault_arg1 (c : Cause) : (raiseFault c s).arg1 = s.arg1 := by
  unfold raiseFault cleanUp; split <;> rfl
@[simp] theorem raiseFault_arg2 (c : Cause) : (raiseFault c s).arg2 = s.arg2 := by
  unfold raiseFault cleanUp; split <;> rfl
@[simp] theorem raiseFault_result (c : Cause) : (raiseFault c s).result = s.result := by
  unfold raiseFault cleanUp; split <;> rfl
@[simp] theorem raiseFault_version (c : Cause) : (raiseFault c s).version = s.version := by
  unfold raiseFault cleanUp; split <;> rfl
@[simp] theorem raiseFault_width (c : Cause) : (raiseFault c s).width = s.width := by
  unfold raiseFault cleanUp; split <;> rfl
@[simp] theorem raiseFault_height (c : Cause) : (raiseFault c s).height = s.height := by
  unfold raiseFault cleanUp; split <;> rfl
@[simp] theorem raiseFault_trk (c : Cause) : (raiseFault c s).trk = s.trk := by
  unfold raiseFault cleanUp; split <;> rfl
@[simp] theorem raiseFault_atree (c : Cause) : (raiseFault c s).atree = s.atree := by
  unfold raiseFault cleanUp; split <;> rfl
@[simp] theorem raiseFault_fb (c : Cause) : (raiseFault c s).fb = s.fb := by
  unfold raiseFault cleanUp; split <;> rfl
@[simp] theorem raiseFault_aoutLen (c : Cause) : (raiseFault c s).aoutLen = s.aoutLen := by
  unfold raiseFault cleanUp; split <;> rfl
@[simp] theorem raiseFault_scanRow (c : Cause) : (raiseFault c s).scanRow = s.scanRow := by
  unfold raiseFault cleanUp; split <;> rfl
@[simp] theorem raiseFault_scanCol (c : Cause) : (raiseFault c s).scanCol = s.scanCol := by
  unfold raiseFault cleanUp; split <;> rfl
@[simp] theorem raiseFault_inMem (c : Cause) : (raiseFault c s).inMem = s.inMem := by
  unfold raiseFault cleanUp; split <;> rfl
@[simp] theorem raiseFault_host (c : Cause) : (raiseFault c s).host = s.host := by
  unfold raiseFault cleanUp; split <;> rfl
@[simp] theorem raiseFault_fbDraw (c : Cause) : (raiseFault c s).fbDraw = s.fbDraw := by
  unfold raiseFault cleanUp; split <;> rfl
@[simp] theorem raiseFault_fbZeroed (c : Cause) : (raiseFault c s).fbZeroed = s.fbZeroed := by
  unfold raiseFault cleanUp; split <;> rfl
@[simp] theorem raiseFault_params (c : Cause) : (raiseFault c s).params = s.params := by
  unfold raiseFault cleanUp; split <;> rfl
@[simp] theorem raiseFault_work (c : Cause) : (raiseFault c s).work = .idle := rfl
@[simp] theorem raiseFault_status (c : Cause) : (raiseFault c s).status = statusWord s.statusCmd c.code := by
  unfold raiseFault cleanUp; split <;> rfl
@[simp] theorem raiseFault_log (c : Cause) : (raiseFault c s).log = logWith s.log c := by
  unfold raiseFault cleanUp; split <;> rfl

/-- A fault outside BT_BUILD_ALL and AUD_DECODE cleans nothing up. -/
theorem raiseFault_of_idle {s : State} (c : Cause) (h : s.work = .idle) :
    raiseFault c s = { s with status := statusWord s.statusCmd c.code, log := logWith s.log c } := by
  unfold raiseFault cleanUp; rw [h]

end

end Sys2Proof.Machine
end

