-- ==== Sys2Proof/Laws/Engine.lean ====
section
/-! SUPPORT. The engine's operations: lookups, starting and ending a command, and the steps of a command's run. -/

-- The package is compiled as one text: elaborating in order keeps the number of threads small.
set_option Elab.async false

namespace Sys2Proof.Machine

open Sys2Proof Sys2Proof.Config

/-! ### Readers and lookups -/

theorem reading_ok {α : Type} {r : List Host.Cell → Reader α} {s : State} {a : α} {b : BitStream}
    (h : r s.inMem s.bs = .ok a b) : reading r s = .ok a (s.setBs b) := by
  simp only [reading, h]

theorem reading_error {α : Type} {r : List Host.Cell → Reader α} {s : State} {c : Cause} {b : BitStream}
    (h : r s.inMem s.bs = .error c b) : reading r s = .error c (s.setBs b) := by
  simp only [reading, h]

/-- The bits ahead, with what follows them. -/
theorem State.ahead_iff {s : State} {bits : List Bool} :
    s.Ahead bits ↔ ∃ rest, remaining s.inMem s.bs = bits ++ rest :=
  ⟨fun ⟨r, h⟩ => ⟨r, h.symm⟩, fun ⟨r, h⟩ => ⟨r, h.symm⟩⟩

theorem stLookup_absent (m : List Host.Cell) (b : BitStream) : stLookup m .absent b = .error .absentTree b := rfl

theorem stLookup_code {m : List Host.Cell} {n : Node} {bits rest : List Bool} {v : Byte} {b : BitStream}
    (hc : CodeWord n bits v) (h : remaining m b = bits ++ rest) :
    stLookup m (.present n) b = .ok v (b.skip bits.length) := walkNode_code hc h

/-- BT_LOOKUP's walk of an Absent bigtree (42_big_tree.md R174). -/
theorem btLookup_absent {id : Fin 4} {s : State} (h : s.vt[id] = .absent) :
    btLookup id s = .error .absentTree s := by
  simp only [btLookup, ops_bind, ops_get]
  rw [h]
  rfl

/-- The state after a lookup that read `k` bits and returned `value` (42_big_tree.md R174, R175). -/
theorem btLookup_present {id : Fin 4} {s : State} {low high : SmallTree} {root : BNode} {cache : Cache}
    (h : s.vt[id] = .present low high root cache) :
    btLookup id s = match walkBNode s.inMem cache root s.bs with
      | .ok value b => .ok value ((s.setBs b).setVt id (.present low high root (mruUpdate cache value)))
      | .error c b => .error c (s.setBs b) := by
  simp only [btLookup, ops_bind, ops_get]
  rw [h]
  simp only [ops_bind, reading]
  rcases walkBNode s.inMem cache root s.bs with ⟨v, b⟩ | ⟨c, b⟩ <;> rfl

theorem btLookup_code {id : Fin 4} {s : State} {low high : SmallTree} {root leaf : BNode} {cache : Cache}
    {bits : List Bool} (h : s.vt[id] = .present low high root cache) (hc : BigCodeWord root bits leaf)
    (ha : s.Ahead bits) :
    btLookup id s = .ok (leafValue cache leaf) ((s.setBs (s.bs.skip bits.length)).setVt id
      (.present low high root (mruUpdate cache (leafValue cache leaf)))) := by
  obtain ⟨rest, hr⟩ := State.ahead_iff.1 ha
  rw [btLookup_present h, walkBNode_code hc hr]

theorem btLookup_exhausted {id : Fin 4} {s : State} {low high : SmallTree} {root : BNode} {cache : Cache}
    (h : s.vt[id] = .present low high root cache) (hn : ∀ bits leaf, BigCodeWord root bits leaf → ¬ s.Ahead bits) :
    btLookup id s = .error .exhausted (s.setBs (s.bs.skip s.bs.left)) := by
  rw [btLookup_present h]
  rcases walkBNode_cases s.inMem cache root s.bs with ⟨bits, leaf, rest, hc, hr, _⟩ | ⟨_, hw⟩
  · exact absurd ⟨rest, hr.symm⟩ (hn bits leaf hc)
  · rw [hw]

/-- Everything a lookup of a bigtree can do: a fault leaves all but the position alone; a value updates the cache of that
bigtree and moves the position (42_big_tree.md R174, R175). -/
theorem btLookup_cases (id : Fin 4) (s : State) :
    (s.vt[id] = .absent ∧ btLookup id s = .error .absentTree s) ∨
    (∃ low high root cache, s.vt[id] = .present low high root cache ∧
      ((∃ bits leaf, BigCodeWord root bits leaf ∧ s.Ahead bits ∧ bits.length ≤ s.bs.left ∧
        btLookup id s = .ok (leafValue cache leaf) ((s.setBs (s.bs.skip bits.length)).setVt id
          (.present low high root (mruUpdate cache (leafValue cache leaf))))) ∨
      btLookup id s = .error .exhausted (s.setBs (s.bs.skip s.bs.left)))) := by
  cases h : s.vt[id] with
  | absent => exact .inl ⟨rfl, btLookup_absent h⟩
  | present low high root cache =>
    refine .inr ⟨low, high, root, cache, rfl, ?_⟩
    rcases walkBNode_cases s.inMem cache root s.bs with ⟨bits, leaf, rest, hc, hr, _⟩ | ⟨_, hw⟩
    · exact .inl ⟨bits, leaf, hc, ⟨rest, hr.symm⟩, (remaining_after hr).1, btLookup_code h hc ⟨rest, hr.symm⟩⟩
    · exact .inr (by rw [btLookup_present h, hw])

/-! ### Commands -/

theorem perform_ok {e : Engine Unit} {s t : State} (h : e s = .ok () t) : perform e s = .next t := by
  simp only [perform, h]

theorem perform_error {e : Engine Unit} {s t : State} {c : Cause} (h : e s = .error c t) :
    perform e s = .next (raiseFault c t) := by
  simp only [perform, h]

theorem command_ok {code : Byte} {e : Engine Unit} {s t : State} (h : e (startCommand code s) = .ok () t) :
    command code e s = .next t := perform_ok h

theorem command_error {code : Byte} {e : Engine Unit} {s t : State} {c : Cause}
    (h : e (startCommand code s) = .error c t) : command code e s = .next (raiseFault c t) := perform_error h

theorem streamCommand_ok {code : Byte} {e : Engine Unit} {s t : State} (h : e (startCommand code s) = .ok () t) :
    streamCommand code e s = runCommand t := by
  simp only [streamCommand, h]

theorem streamCommand_error {code : Byte} {e : Engine Unit} {s t : State} {c : Cause}
    (h : e (startCommand code s) = .error c t) : streamCommand code e s = .next (raiseFault c t) := by
  simp only [streamCommand, h]

/-- `perform` always answers a next state (60_exceptions.md R290). -/
theorem perform_next (e : Engine Unit) (s : State) : ∃ t, perform e s = .next t := by
  rcases h : e s with ⟨_, t⟩ | ⟨c, t⟩
  · exact ⟨t, perform_ok h⟩
  · exact ⟨_, perform_error h⟩

theorem statusWord_cmd (cmd cause : Byte) : (statusWord cmd cause).extractLsb' 8 8 = cmd := by
  apply BitVec.eq_of_getLsbD_eq
  intro i hi
  simp only [statusWord, BitVec.getLsbD_extractLsb', BitVec.getLsbD_append, hi, decide_true, Bool.true_and]
  simp

theorem statusWord_cause (cmd cause : Byte) : (statusWord cmd cause).extractLsb' 0 8 = cause := by
  apply BitVec.eq_of_getLsbD_eq
  intro i hi
  simp only [statusWord, BitVec.getLsbD_extractLsb', BitVec.getLsbD_append, hi, decide_true, Bool.true_and,
    Nat.zero_add, if_true]

@[simp] theorem startCommand_statusCmd (code : Byte) (s : State) : (startCommand code s).statusCmd = code :=
  statusWord_cmd code 0

@[simp] theorem startCommand_statusCause (code : Byte) (s : State) : (startCommand code s).statusCause = 0 :=
  statusWord_cause code 0

@[simp] theorem raiseFault_statusCmd (c : Cause) (s : State) : (raiseFault c s).statusCmd = s.statusCmd := by
  rw [State.statusCmd, raiseFault_status, statusWord_cmd]

@[simp] theorem raiseFault_statusCause (c : Cause) (s : State) : (raiseFault c s).statusCause = c.code := by
  rw [State.statusCause, raiseFault_status, statusWord_cause]

/-- A fault raised before the command has changed anything (60_exceptions.md R296, first row). -/
theorem raiseFault_start (code : Byte) (c : Cause) (s : State) :
    raiseFault c (startCommand code s) = s.faulted code c := by
  have h : (startCommand code s).statusCmd = code := startCommand_statusCmd code s
  rw [raiseFault_of_idle c rfl, h]
  rfl

/-! ### The run of a command -/

/-- `k` steps of a command's run lead from `s` to `t`. -/
def Runs (k : Nat) (s t : State) : Prop := ∀ fuel, runSteps (fuel + k) s = runSteps fuel t

theorem runSteps_idle {s : State} (n : Nat) (h : s.work = .idle) : runSteps n s = .next s := by
  cases n with
  | zero => rfl
  | succ n => simp only [runSteps, h]

theorem Runs.refl (s : State) : Runs 0 s s := fun _ => rfl

theorem Runs.trans {j k : Nat} {s t u : State} (h : Runs j s t) (h' : Runs k t u) : Runs (j + k) s u := by
  intro fuel
  rw [Nat.add_comm j k, ← Nat.add_assoc, h, h']

theorem runSteps_next {n : Nat} {s t : State} (hw : s.work ≠ .idle) (h : engineStep tokenMeaning s = .next t) :
    runSteps (n + 1) s = runSteps n t := by
  rw [runSteps]
  split
  · exact absurd ‹_› hw
  all_goals rw [h]

theorem Runs.step {s t : State} (hw : s.work ≠ .idle) (h : engineStep tokenMeaning s = .next t) : Runs 1 s t :=
  fun _ => runSteps_next hw h

/-- A run that reaches an idle state within the fuel. -/
theorem Runs.runSteps {k fuel : Nat} {s t : State} (h : Runs k s t) (ht : t.work = .idle) (hk : k ≤ fuel) :
    runSteps fuel s = .next t := by
  obtain ⟨d, rfl⟩ := Nat.exists_eq_add_of_le' hk
  rw [h, runSteps_idle _ ht]

/-- What holds of a state and of every state a step leads to holds at the end of a run. -/
theorem runSteps_invariant {P : State → Prop}
    (hstep : ∀ s t, s.work ≠ .idle → P s → engineStep tokenMeaning s = .next t → P t) :
    ∀ {n : Nat} {s t : State}, P s → Machine.runSteps n s = .next t → P t := by
  intro n
  induction n with
  | zero =>
    intro s t hs h
    cases h
    exact hs
  | succ n ih =>
    intro s t hs h
    by_cases hw : s.work = .idle
    · rw [runSteps_idle _ hw] at h
      cases h
      exact hs
    · rw [Machine.runSteps] at h
      split at h
      · exact absurd ‹_› hw
      all_goals
        split at h
        · exact ih (hstep _ _ hw hs ‹_›) h
        · cases h
        · cases h

/-- A measure that every step of a run decreases bounds its length: the run ends idle (70_reset_and_hazards.md R341). -/
theorem runSteps_ends {P : State → Prop} (μ : State → Nat)
    (hstep : ∀ s, s.work ≠ .idle → P s → ∃ t, engineStep tokenMeaning s = .next t ∧ P t ∧
      (t.work = .idle ∨ μ t < μ s)) :
    ∀ {n : Nat} {s : State}, P s → μ s < n → ∃ t, Machine.runSteps n s = .next t ∧ P t ∧ t.work = .idle := by
  intro n
  induction n with
  | zero => intro s _ h; omega
  | succ n ih =>
    intro s hs h
    by_cases hw : s.work = .idle
    · exact ⟨s, runSteps_idle _ hw, hs, hw⟩
    · obtain ⟨t, ht, hP, hμ⟩ := hstep s hw hs
      rw [runSteps_next hw ht]
      rcases hμ with hμ | hμ
      · exact ⟨t, runSteps_idle _ hμ, hP, hμ⟩
      · exact ih hP (by omega)

theorem BitStream.left_le (b : BitStream) : b.left ≤ 8 * b.size.toNat := Nat.sub_le _ _

/-- A run that ends idle and takes at most a step a bit, and one more, is the command. -/
theorem Runs.runCommand {k : Nat} {s t : State} (h : Runs k s t) (ht : t.work = .idle) (hk : k ≤ s.bs.left + 1) :
    runCommand s = .next t := by
  refine h.runSteps ht ?_
  have := BitStream.left_le s.bs
  unfold stepBound
  omega

end Sys2Proof.Machine
end

