-- ==== Sys2Proof/Laws/Fetch.lean ====
section
/-! SUPPORT. Fetching a token bit by bit. -/

-- The package is compiled as one text: elaborating in order keeps the number of threads small.
set_option Elab.async false

namespace Sys2Proof.Machine

open Sys2Proof Sys2Proof.Config

/-- An update of the bitstream registers changes neither the locals nor the parameters. -/
@[simp] theorem nodeRoom_bs (s : State) (b : BitStream) : nodeRoom (s.setBs b) = nodeRoom s := rfl

theorem tagCheck_ok {acc : List Bool} {s : State} (h : acc ≠ [] ∨ nodeRoom s = true) :
    tagCheck acc s = .ok () s := by
  simp only [tagCheck, ops_bind, ops_get]
  rcases h with h | h
  · cases acc with
    | nil => exact absurd rfl h
    | cons a acc => rfl
  · simp [h]

theorem tagCheck_full {s : State} (h : nodeRoom s = false) : tagCheck [] s = .error .treeCapacity s := by
  simp only [tagCheck, ops_bind, ops_get, h]
  rfl

theorem fetchBits_instr {f : Format} {fuel : Nat} {acc : List Bool} {i : Instr} {s : State}
    (h : decode f acc = .instr i) : fetchBits f (fuel + 1) acc s = .ok i s := by
  simp only [fetchBits, h]
  rfl

theorem fetchBits_reject {f : Format} {fuel : Nat} {acc : List Bool} {e : DecodeError} {s : State}
    (h : decode f acc = .reject e) : fetchBits f (fuel + 1) acc s = .error (rejectCause e) s := by
  simp only [fetchBits, h]
  rfl

/-- One more bit of a token. -/
theorem fetchBits_more {f : Format} {fuel : Nat} {acc : List Bool} {s : State} (h : decode f acc = .more) :
    fetchBits f (fuel + 1) acc s = match readBit s.inMem s.bs with
      | .ok v b => (tagCheck acc >>= fun _ => fetchBits f fuel (acc ++ [v])) (s.setBs b)
      | .error c b => .error c (s.setBs b) := by
  rw [fetchBits, h]
  simp only [ops_bind, reading]
  rcases readBit s.inMem s.bs with ⟨v, b⟩ | ⟨c, b⟩ <;> rfl

/-- A token whose bits decode after exactly `k` more of them. -/
theorem fetchBits_exactly {f : Format} {g : List Bool → Instr} (k : Nat) :
    ∀ {fuel : Nat} {acc : List Bool} {s : State},
      (∀ bits, bits.length < k → decode f (acc ++ bits) = .more) →
      (∀ bits, bits.length = k → decode f (acc ++ bits) = .instr (g bits)) →
      (acc ≠ [] ∨ nodeRoom s = true) → k < fuel →
      fetchBits f fuel acc s = match readBits s.inMem k s.bs with
        | .ok bits b => .ok (g bits) (s.setBs b)
        | .error c b => .error c (s.setBs b) := by
  induction k generalizing g with
  | zero =>
    intro fuel acc s _ hk _ hf
    obtain ⟨n, rfl⟩ := Nat.exists_eq_succ_of_ne_zero (show fuel ≠ 0 by omega)
    have h := hk [] rfl
    rw [List.append_nil] at h
    rw [fetchBits_instr h]
    rfl
  | succ k ih =>
    intro fuel acc s hm hk hr hf
    obtain ⟨n, rfl⟩ := Nat.exists_eq_succ_of_ne_zero (show fuel ≠ 0 by omega)
    have h := hm [] (by simp)
    rw [List.append_nil] at h
    rw [Nat.succ_eq_add_one, fetchBits_more h]
    simp only [readBits, ops_bind]
    rcases hb : readBit s.inMem s.bs with ⟨v, b⟩ | ⟨c, b⟩
    · dsimp only
      rw [tagCheck_ok (by simpa using hr)]
      have := ih (g := fun bits => g (v :: bits)) (fuel := n) (acc := acc ++ [v]) (s := (s.setBs b))
        (fun bits hl => by
          rw [List.append_assoc]
          exact hm _ (by simpa using hl))
        (fun bits hl => by
          rw [List.append_assoc]
          exact hk _ (by simpa using hl))
        (.inl (by simp)) (by omega)
      simp only [this, State.setBs_inMem, State.setBs_bs, State.setBs_setBs]
      rcases readBits s.inMem k b with ⟨bits, b'⟩ | ⟨c, b'⟩ <;> rfl
    · rfl

/-- The first bit of a token for which there is no room (60_exceptions.md R300). -/
theorem fetchBits_full {f : Format} {fuel : Nat} {s : State} (h : decode f [] = .more) (hr : nodeRoom s = false) :
    fetchBits f (fuel + 1) [] s = match readBit s.inMem s.bs with
      | .ok _ b => .error .treeCapacity (s.setBs b)
      | .error c b => .error c (s.setBs b) := by
  rw [fetchBits_more h]
  rcases readBit s.inMem s.bs with ⟨v, b⟩ | ⟨c, b⟩
  · simp only [ops_bind]
    rw [tagCheck_full (s := (s.setBs b)) hr]
  · rfl

/-! ### Steps of a command -/

theorem engineStep_ok {meaning : Instr → State → Answer} {s t : State} {f : Format} {i : Instr}
    (h : wantedFormat s = some f) (ht : fetchToken f s = .ok i t) : engineStep meaning s = meaning i t := by
  simp only [engineStep, h, runFetched, ht]

theorem engineStep_error {meaning : Instr → State → Answer} {s t : State} {f : Format} {c : Cause}
    (h : wantedFormat s = some f) (ht : fetchToken f s = .error c t) :
    engineStep meaning s = .next (raiseFault c t) := by
  simp only [engineStep, h, runFetched, ht]

end Sys2Proof.Machine
end

