-- ==== Sys2Proof/Laws/Builds.lean ====
section
/-! SUPPORT. The tree builds token by token: one step of a `TREE8`, of a `TREE16`, and the run that builds a whole tree. -/

-- The package is compiled as one text: elaborating in order keeps the number of threads small.
set_option Elab.async false

namespace Sys2Proof.Machine

open Sys2Proof Sys2Proof.Config

/-! ### Small trees: one step -/

/-- A finished node, placed (41_small_tree.md R151). -/
def afterNode (n : Node) (path : List (Option Node)) (count : Nat) : SmallWork :=
  match plugNode n path with
  | .inl root => .term root
  | .inr path => .node path count

@[simp] theorem afterNode_left (n : Node) (path : List (Option Node)) (count : Nat) :
    afterNode n (none :: path) count = .node (some n :: path) count := rfl

@[simp] theorem afterNode_right (l n : Node) (path : List (Option Node)) (count : Nat) :
    afterNode n (some l :: path) count = afterNode (.branch l n) path count := rfl

/-- One token of a `TREE8`, read and run (41_small_tree.md R150, R151, R156). -/
def smallStep (p : Params) (m : List Host.Cell) (w : SmallWork) : Reader SmallProgress :=
  match w with
  | .control => do
    let b ← readBit m
    pure (if b then .more (.node [] 0) else .done .absent)
  | .node path count => do
    let tag ← readBit m
    if smallRoom p count then
      if tag then pure (.more (.node (none :: path) (count + 1)))
      else
        let v ← readByte m
        pure (.more (afterNode (.leaf v) path (count + 1)))
    else throw .treeCapacity
  | .term root => do
    let b ← readBit m
    if b then throw .badTerminator else pure (.done (.present root))

/-- The next format of a small tree. -/
theorem wantedFormat_small {s : State} {w : SmallWork} (h : smallWork? s.work = some w) :
    wantedFormat s = some (smallFormat w) := by
  unfold wantedFormat
  unfold smallWork? at h
  split at h <;> simp_all [bigFormat]

theorem smallToken_ok {f : Params → SmallWork → Option (Except Cause SmallProgress)} {s : State} {w : SmallWork}
    {p : SmallProgress} (h : smallWork? s.work = some w) (hf : f s.params w = some (.ok p)) :
    smallToken f s = .next (putSmall p s) := by
  simp only [smallToken, h, hf]

theorem smallToken_error {f : Params → SmallWork → Option (Except Cause SmallProgress)} {s : State} {w : SmallWork}
    {c : Cause} (h : smallWork? s.work = some w) (hf : f s.params w = some (.error c)) :
    smallToken f s = .next (raiseFault c s) := by
  simp only [smallToken, h, hf]

theorem execTreeTerm_small {s : State} {root : Node} (h : smallWork? s.work = some (.term root)) :
    execTreeTerm s = .next (putSmall (.done (.present root)) s) := by
  simp only [execTreeTerm, h]
  exact smallToken_ok h rfl

theorem tree8Absent_small {s : State} (h : smallWork? s.work = some .control) :
    tokenMeaning .tree8Absent s = .next (putSmall (.done .absent) s) := by
  simp only [tokenMeaning, execTree8Absent]
  exact smallToken_ok h rfl

theorem tree8Present_small {s : State} (h : smallWork? s.work = some .control) :
    tokenMeaning .tree8Present s = .next (putSmall (.more (.node [] 0)) s) := by
  simp only [tokenMeaning, execTree8Present]
  exact smallToken_ok h rfl

theorem node8Branch_small {s : State} {path : List (Option Node)} {count : Nat}
    (h : smallWork? s.work = some (.node path count)) (hr : smallRoom s.params count = true) :
    tokenMeaning .node8Branch s = .next (putSmall (.more (.node (none :: path) (count + 1))) s) := by
  simp only [tokenMeaning, execNode8Branch]
  exact smallToken_ok h (by simp only [hr, if_true])

theorem node8Leaf_small {s : State} {path : List (Option Node)} {count : Nat} (v : Byte)
    (h : smallWork? s.work = some (.node path count)) (hr : smallRoom s.params count = true) :
    tokenMeaning (.node8Leaf v) s = .next (putSmall (.more (afterNode (.leaf v) path (count + 1))) s) := by
  simp only [tokenMeaning, execNode8Leaf]
  refine smallToken_ok h ?_
  simp only [hr, if_true, afterNode]
  split <;> simp_all

theorem treeTerm_small {s : State} {root : Node} (h : smallWork? s.work = some (.term root)) :
    tokenMeaning .treeTerm s = .next (putSmall (.done (.present root)) s) := execTreeTerm_small h

/-- Room for a node of the small tree being read. -/
theorem nodeRoom_small {s : State} {path : List (Option Node)} {count : Nat}
    (h : smallWork? s.work = some (.node path count)) : nodeRoom s = smallRoom s.params count := by
  simp only [nodeRoom, h]

theorem nodeRoom_small_control {s : State} (h : smallWork? s.work = some .control) : nodeRoom s = true := by
  unfold nodeRoom
  rw [h]
  unfold smallWork? at h
  split at h <;> simp_all [bigWork?]

theorem nodeRoom_small_term {s : State} {root : Node} (h : smallWork? s.work = some (.term root)) :
    nodeRoom s = true := by
  unfold nodeRoom
  rw [h]
  unfold smallWork? at h
  split at h <;> simp_all [bigWork?]

/-- The first bit of a token read without a capacity check. -/
theorem fetchBits_first {f : Format} {s : State} (h : decode f [] = .more) (hr : nodeRoom s = true) :
    fetchBits f 33 [] s = match readBit s.inMem s.bs with
      | .ok v b => fetchBits f 32 [v] (s.setBs b)
      | .error c b => .error c (s.setBs b) := by
  rw [fetchBits_more h]
  rcases readBit s.inMem s.bs with ⟨v, b⟩ | ⟨c, b⟩
  · simp only [ops_bind]
    rw [tagCheck_ok (s := (s.setBs b)) (.inr hr)]
    rfl
  · rfl

/-- One step of a command that is reading a small tree. -/
theorem engineStep_small {s : State} {w : SmallWork} (h : smallWork? s.work = some w) :
    engineStep tokenMeaning s = match smallStep s.params s.inMem w s.bs with
      | .ok p b => .next (putSmall p (s.setBs b))
      | .error c b => .next (raiseFault c (s.setBs b)) := by
  have hw := wantedFormat_small h
  cases w with
  | control =>
    have hfetch := fetchBits_first (f := .tree8) (s := s) rfl (nodeRoom_small_control h)
    simp only [smallStep, ops_bind]
    rcases hb : readBit s.inMem s.bs with ⟨v, b⟩ | ⟨c, b⟩ <;> rw [hb] at hfetch
    · cases v
      · exact (engineStep_ok hw hfetch).trans (tree8Absent_small h)
      · exact (engineStep_ok hw hfetch).trans (tree8Present_small h)
    · exact engineStep_error hw hfetch
  | node path count =>
    simp only [smallStep, ops_bind]
    by_cases hr : smallRoom s.params count = true
    · have hfetch := fetchBits_first (f := .node8) (s := s) rfl (by rw [nodeRoom_small h, hr])
      rcases hb : readBit s.inMem s.bs with ⟨v, b⟩ | ⟨c, b⟩ <;> rw [hb] at hfetch
      · simp only [hr, if_true]
        cases v
        · have hv := fetchBits_exactly (f := .node8)
            (g := fun bits => .node8Leaf (BitVec.ofNat 8 (ofBits bits))) 8 (fuel := 32) (acc := [false])
            (s := (s.setBs b))
            (fun bits hl => by simp [decode, whole, hl]) (fun bits hl => by simp [decode, whole, hl])
            (.inl (by simp)) (by decide)
          simp only [hv, State.setBs_inMem, State.setBs_bs, State.setBs_setBs] at hfetch
          simp only [Bool.false_eq_true, if_false, ops_bind, readByte]
          rcases hbits : readBits s.inMem 8 b with ⟨bits, b'⟩ | ⟨c, b'⟩ <;> simp only [hbits] at hfetch
          · exact (engineStep_ok hw hfetch).trans (node8Leaf_small _ h hr)
          · exact engineStep_error hw hfetch
        · exact (engineStep_ok hw hfetch).trans (node8Branch_small h hr)
      · exact engineStep_error hw hfetch
    · have hfetch := fetchBits_full (f := .node8) (fuel := 32) (s := s) rfl
        (by rw [nodeRoom_small h]; simpa using hr)
      rcases hb : readBit s.inMem s.bs with ⟨v, b⟩ | ⟨c, b⟩ <;> rw [hb] at hfetch
      · simp only [hr]
        exact engineStep_error hw hfetch
      · exact engineStep_error hw hfetch
  | term root =>
    have hfetch := fetchBits_first (f := .term) (s := s) rfl (nodeRoom_small_term h)
    simp only [smallStep, ops_bind]
    rcases hb : readBit s.inMem s.bs with ⟨v, b⟩ | ⟨c, b⟩ <;> rw [hb] at hfetch
    · cases v
      · exact (engineStep_ok hw hfetch).trans (treeTerm_small h)
      · exact engineStep_error hw hfetch
    · exact engineStep_error hw hfetch

/-! ### Small trees: the run -/

/-- Updates of the small tree a command is reading touch nothing but the locals. -/
theorem putSmall_more {s : State} {w w' : SmallWork} (h : smallWork? s.work = some w) :
    ∃ v, putSmall (.more w') s = s.setWork v ∧ smallWork? v = some w' ∧
      (∀ p b, putSmall p ((s.setBs b).setWork v) = putSmall p (s.setBs b)) ∧
      (∀ c b, raiseFault c ((s.setBs b).setWork v) = raiseFault c (s.setBs b)) := by
  unfold smallWork? at h
  split at h
  case h_1 slot w0 hw =>
    exact ⟨.small slot w', by simp [putSmall, hw], rfl, by intro p b; cases p <;> simp [putSmall, hw],
      by intro c b; simp [raiseFault, cleanUp, hw, State.setWork]; rfl⟩
  case h_2 id w0 hw =>
    exact ⟨.big id (.low w'), by simp [putSmall, hw, bigAfterSmall], rfl,
      by intro p b; cases p <;> simp [putSmall, hw, bigAfterSmall],
      by intro c b; simp [raiseFault, cleanUp, hw, State.setWork]; rfl⟩
  case h_3 id low w0 hw =>
    exact ⟨.big id (.high low w'), by simp [putSmall, hw, bigAfterSmall], rfl,
      by intro p b; cases p <;> simp [putSmall, hw, bigAfterSmall],
      by intro c b; simp [raiseFault, cleanUp, hw, State.setWork]; rfl⟩
  case h_4 id w0 hw =>
    exact ⟨.bigAll id (.low w'), by simp [putSmall, hw, bigAfterSmall], rfl,
      by intro p b; cases p <;> simp [putSmall, hw, bigAfterSmall],
      by intro c b; simp [raiseFault, cleanUp, hw, State.setWork]; rfl⟩
  case h_5 id low w0 hw =>
    exact ⟨.bigAll id (.high low w'), by simp [putSmall, hw, bigAfterSmall], rfl,
      by intro p b; cases p <;> simp [putSmall, hw, bigAfterSmall],
      by intro c b; simp [raiseFault, cleanUp, hw, State.setWork]; rfl⟩
  case h_6 t n slot w0 hw =>
    exact ⟨.audio t (.trees n slot w'), by simp [putSmall, hw], rfl,
      by intro p b; cases p <;> simp [putSmall, hw],
      by intro c b; simp [raiseFault, cleanUp, hw, State.setWork]; rfl⟩
  all_goals cases h

theorem readBit_left {m : List Host.Cell} {b c : BitStream} {v : Bool} (h : readBit m b = .ok v c) :
    c.left + 1 = b.left := by
  rcases hr : remaining m b with _ | ⟨w, rest⟩
  · rw [readBit_nil (remaining_nil.1 hr)] at h
    cases h
  · rw [readBit_cons hr] at h
    cases h
    have := (remaining_after (bits := [_]) hr).1
    simp only [List.length_singleton] at this
    rw [BitStream.left_skip this]
    omega

theorem readBit_error {m : List Host.Cell} {b c : BitStream} {e : Cause} (h : readBit m b = .error e c) :
    e = .exhausted ∧ c = b ∧ b.left = 0 := by
  rcases hr : remaining m b with _ | ⟨w, rest⟩
  · have h0 := remaining_nil.1 hr
    rw [readBit_nil h0] at h
    cases h
    exact ⟨rfl, rfl, h0⟩
  · rw [readBit_cons hr] at h
    cases h

theorem Forward.left_ok {α : Type} {r : Reader α} (h : Forward r) {b c : BitStream} {a : α} (he : r b = .ok a c) :
    c.left ≤ b.left := by
  obtain ⟨k, hk, h⟩ := h b
  rw [he] at h
  dsimp only at h
  rw [h, BitStream.left_skip hk]
  omega

/-- The run that builds a node is the recursion of 41_small_tree.md R151; each step of it consumes a bit. -/
theorem small_node_run (fr : Nat) : ∀ (s : State) (path : List (Option Node)) (count : Nat),
    smallWork? s.work = some (.node path count) → s.bs.left < fr →
    match stBuildRec s.params.smallNodesMax s.inMem fr count s.bs with
    | .ok r b => ∃ k, k + b.left ≤ s.bs.left ∧
        Runs k s (putSmall (.more (afterNode r.1 path r.2)) (s.setBs b))
    | .error c b => ∃ k, k ≤ s.bs.left + 1 ∧ Runs k s (raiseFault c (s.setBs b)) := by
  induction fr with
  | zero => intro s path count _ h; omega
  | succ fr ih =>
    intro s path count hw hl
    have hidle : s.work ≠ .idle := by
      intro h
      rw [h] at hw
      cases hw
    have hstep := engineStep_small hw
    simp only [smallStep, ops_bind] at hstep
    simp only [stBuildRec, ops_bind]
    rcases hb : readBit s.inMem s.bs with ⟨tag, b⟩ | ⟨c, b⟩
    · have hbl := readBit_left hb
      simp only [hb] at hstep
      dsimp only
      by_cases hr : smallRoom s.params count = true
      · have hr' : within s.params.smallNodesMax (count + 1) = true := hr
        simp only [hr, if_true] at hstep
        simp only [hr', if_true]
        cases tag
        · simp only [Bool.false_eq_true, if_false, ops_bind] at hstep ⊢
          rcases hv : readByte s.inMem b with ⟨v, b'⟩ | ⟨c, b'⟩
          · simp only [hv, ops_pure] at hstep ⊢
            have := (forward_readByte s.inMem).left_ok hv
            exact ⟨1, by omega, Runs.step hidle hstep⟩
          · simp only [hv] at hstep ⊢
            exact ⟨1, by omega, Runs.step hidle hstep⟩
        · simp only [if_true, ops_bind] at hstep ⊢
          obtain ⟨v, he, hv, hput, hraise⟩ := putSmall_more (s := (s.setBs b))
            (w' := .node (none :: path) (count + 1)) hw
          simp only [State.setBs_setBs] at hput hraise
          simp only [ops_pure] at hstep
          rw [he] at hstep
          have h1 := ih ((s.setBs b).setWork v) (none :: path) (count + 1) hv (by
            simp only [State.setWork_bs, State.setBs_bs]; omega)
          simp only [State.setWork_params, State.setWork_inMem, State.setWork_bs, State.setBs_params, State.setBs_inMem,
          State.setBs_bs, State.setWork_setBs, State.setBs_setBs] at h1
          rcases hl' : stBuildRec s.params.smallNodesMax s.inMem fr (count + 1) b with ⟨l, b1⟩ | ⟨c, b1⟩
          · simp only [hl'] at h1 ⊢
            obtain ⟨k1, hk1, hrun1⟩ := h1
            rw [hput] at hrun1
            obtain ⟨v1, he1, hv1, hput1, hraise1⟩ := putSmall_more (s := (s.setBs b1))
              (w' := afterNode l.1 (none :: path) l.2) hw
            simp only [State.setBs_setBs] at hput1 hraise1
            rw [he1] at hrun1
            have h2 := ih ((s.setBs b1).setWork v1) (some l.1 :: path) l.2 (by simpa using hv1) (by
              simp only [State.setWork_bs, State.setBs_bs]; omega)
            simp only [State.setWork_params, State.setWork_inMem, State.setWork_bs, State.setBs_params, State.setBs_inMem,
          State.setBs_bs, State.setWork_setBs, State.setBs_setBs] at h2
            rcases hr2 : stBuildRec s.params.smallNodesMax s.inMem fr l.2 b1 with ⟨r, b2⟩ | ⟨c, b2⟩
            · simp only [hr2, ops_pure] at h2 ⊢
              obtain ⟨k2, hk2, hrun2⟩ := h2
              rw [hput1] at hrun2
              refine ⟨1 + k1 + k2, by omega, ?_⟩
              exact ((Runs.step hidle hstep).trans hrun1).trans hrun2
            · simp only [hr2] at h2 ⊢
              obtain ⟨k2, hk2, hrun2⟩ := h2
              rw [hraise1] at hrun2
              refine ⟨1 + k1 + k2, by omega, ?_⟩
              exact ((Runs.step hidle hstep).trans hrun1).trans hrun2
          · simp only [hl'] at h1 ⊢
            obtain ⟨k1, hk1, hrun1⟩ := h1
            rw [hraise] at hrun1
            refine ⟨1 + k1, by omega, ?_⟩
            exact (Runs.step hidle hstep).trans hrun1
      · have hr' : within s.params.smallNodesMax (count + 1) = false := by
          have : ¬ within s.params.smallNodesMax (count + 1) = true := hr
          simpa using this
        simp only [hr] at hstep
        simp only [hr', Bool.false_eq_true, if_false, ops_throw]
        exact ⟨1, by omega, Runs.step hidle hstep⟩
    · simp only [hb] at hstep
      dsimp only
      exact ⟨1, by omega, Runs.step hidle hstep⟩

/-- The run that builds a small tree is the recursion of 41_small_tree.md R150; each step of it consumes a bit. -/
theorem small_run {s : State} (hw : smallWork? s.work = some .control) :
    match stBuildSpec s.params.smallNodesMax s.inMem s.bs with
    | .ok t b => ∃ k, k + b.left ≤ s.bs.left ∧ Runs k s (putSmall (.done t) (s.setBs b))
    | .error c b => ∃ k, k ≤ s.bs.left + 1 ∧ Runs k s (raiseFault c (s.setBs b)) := by
  have hidle : s.work ≠ .idle := by
    intro h
    rw [h] at hw
    cases hw
  have hstep := engineStep_small hw
  simp only [smallStep, ops_bind] at hstep
  simp only [stBuildSpec, ops_bind]
  rcases hb : readBit s.inMem s.bs with ⟨tag, b⟩ | ⟨c, b⟩
  · have hbl := readBit_left hb
    simp only [hb, ops_pure] at hstep
    dsimp only
    cases tag
    · simp only [Bool.false_eq_true, if_false, ops_pure] at hstep ⊢
      exact ⟨1, by omega, Runs.step hidle hstep⟩
    · simp only [if_true, ops_bind, ops_get] at hstep ⊢
      obtain ⟨v, he, hv, hput, hraise⟩ := putSmall_more (s := (s.setBs b)) (w' := .node [] 0) hw
      simp only [State.setBs_setBs] at hput hraise
      rw [he] at hstep
      have h1 := small_node_run (b.left + 1) ((s.setBs b).setWork v) [] 0 hv (by
        simp only [State.setWork_bs, State.setBs_bs]; omega)
      simp only [State.setWork_params, State.setWork_inMem, State.setWork_bs, State.setBs_params, State.setBs_inMem,
          State.setBs_bs, State.setWork_setBs, State.setBs_setBs] at h1
      rcases hn : stBuildRec s.params.smallNodesMax s.inMem (b.left + 1) 0 b with ⟨n, b1⟩ | ⟨c, b1⟩
      · simp only [hn] at h1 ⊢
        obtain ⟨k1, hk1, hrun1⟩ := h1
        rw [hput] at hrun1
        obtain ⟨v1, he1, hv1, hput1, hraise1⟩ := putSmall_more (s := (s.setBs b1)) (w' := .term n.1) hw
        simp only [State.setBs_setBs] at hput1 hraise1
        have hafter : afterNode n.1 [] n.2 = .term n.1 := rfl
        rw [hafter, he1] at hrun1
        have hidle1 : ((s.setBs b1).setWork v1).work ≠ .idle := by
          intro h
          simp only [State.setWork_work] at h
          rw [h] at hv1
          cases hv1
        have hterm := engineStep_small (s := (s.setBs b1).setWork v1) hv1
        simp only [smallStep, ops_bind, State.setWork_inMem, State.setWork_bs, State.setBs_inMem,
          State.setBs_bs, State.setWork_setBs, State.setBs_setBs] at hterm
        rcases hlast : readBit s.inMem b1 with ⟨last, b2⟩ | ⟨c, b2⟩
        · have hb2 := readBit_left hlast
          simp only [hlast] at hterm ⊢
          cases last
          · simp only [Bool.false_eq_true, if_false, ops_pure] at hterm ⊢
            have hterm' := Runs.step hidle1 hterm
            rw [hput1] at hterm'
            exact ⟨1 + k1 + 1, by omega, ((Runs.step hidle hstep).trans hrun1).trans hterm'⟩
          · simp only [if_true, ops_throw] at hterm ⊢
            have hterm' := Runs.step hidle1 hterm
            rw [hraise1] at hterm'
            exact ⟨1 + k1 + 1, by omega, ((Runs.step hidle hstep).trans hrun1).trans hterm'⟩
        · simp only [hlast] at hterm ⊢
          have hterm' := Runs.step hidle1 hterm
          rw [hraise1] at hterm'
          exact ⟨1 + k1 + 1, by omega, ((Runs.step hidle hstep).trans hrun1).trans hterm'⟩
      · simp only [hn] at h1 ⊢
        obtain ⟨k1, hk1, hrun1⟩ := h1
        rw [hraise] at hrun1
        exact ⟨1 + k1, by omega, (Runs.step hidle hstep).trans hrun1⟩
  · simp only [hb] at hstep
    dsimp only
    exact ⟨1, by omega, Runs.step hidle hstep⟩

end Sys2Proof.Machine
end

