-- ==== Sys2Proof/Laws/Memory.lean ====
section
/-! SUPPORT. The memory operations: what is read after a write, and that every operation keeps the canonical form. -/

-- The package is compiled as one text: elaborating in order keeps the number of threads small.
set_option Elab.async false

namespace Sys2Proof.Machine

open Sys2Proof

@[simp] theorem Memory.get?_nil (addr : Nat) : Memory.get? [] addr = none := rfl

theorem Memory.get?_put_same (m : List Host.Cell) (addr : Nat) (v : Byte) :
    Memory.get? (Memory.put m addr v) addr = some v := by
  induction m with
  | nil => simp [Memory.put, Memory.get?]
  | cons c m ih =>
    obtain ⟨a, w⟩ := c
    unfold Memory.put
    split_ifs with h1 h2
    · simp [Memory.get?]
    · simp [Memory.get?]
    · simp [Memory.get?, Ne.symm h2, ih]

theorem Memory.get?_put_ne (m : List Host.Cell) {addr other : Nat} (v : Byte) (h : other ≠ addr) :
    Memory.get? (Memory.put m addr v) other = Memory.get? m other := by
  induction m with
  | nil => simp [Memory.put, Memory.get?, Ne.symm h]
  | cons c m ih =>
    obtain ⟨a, w⟩ := c
    unfold Memory.put
    split_ifs with h1 h2
    · simp [Memory.get?, Ne.symm h]
    · subst h2; simp [Memory.get?, Ne.symm h]
    · simp [Memory.get?, ih]

theorem Memory.get?_eq_none {m : List Host.Cell} {addr : Nat} (h : ∀ c ∈ m, c.1 ≠ addr) :
    Memory.get? m addr = none := by
  induction m with
  | nil => rfl
  | cons c m ih =>
    obtain ⟨a, w⟩ := c
    have := h (a, w) (by simp)
    simp only at this
    simp [Memory.get?, this, ih fun c hc => h c (by simp [hc])]

theorem Memory.get?_mem {m : List Host.Cell} {addr : Nat} {v : Byte} (h : Memory.get? m addr = some v) :
    (addr, v) ∈ m := by
  induction m with
  | nil => simp at h
  | cons c m ih =>
    obtain ⟨a, w⟩ := c
    unfold Memory.get? at h
    split_ifs at h with h1
    · simp_all
    · simp [ih h]

theorem Memory.get?_erase_same {m : List Host.Cell} (addr : Nat) (h : Memory.Sorted m) :
    Memory.get? (Memory.erase m addr) addr = none := by
  induction m with
  | nil => rfl
  | cons c m ih =>
    obtain ⟨a, w⟩ := c
    obtain ⟨h0, h1⟩ := List.pairwise_cons.1 h
    unfold Memory.erase
    split_ifs with h2
    · subst h2
      exact Memory.get?_eq_none fun c hc => (Nat.ne_of_lt (h0 c hc)).symm
    · simp [Memory.get?, h2, ih h1]

theorem Memory.get?_erase_ne (m : List Host.Cell) {addr other : Nat} (h : other ≠ addr) :
    Memory.get? (Memory.erase m addr) other = Memory.get? m other := by
  induction m with
  | nil => rfl
  | cons c m ih =>
    obtain ⟨a, w⟩ := c
    unfold Memory.erase
    split_ifs with h2
    · subst h2; simp [Memory.get?, Ne.symm h]
    · simp [Memory.get?, ih]

theorem Memory.mem_put {m : List Host.Cell} {addr : Nat} {v : Byte} {c : Host.Cell} (h : c ∈ Memory.put m addr v) :
    c = (addr, v) ∨ c ∈ m := by
  induction m with
  | nil => simpa [Memory.put] using h
  | cons d m ih =>
    obtain ⟨a, w⟩ := d
    unfold Memory.put at h
    split_ifs at h with h1 h2
    · simpa using h
    · rcases List.mem_cons.1 h with h | h <;> simp [h]
    · rcases List.mem_cons.1 h with h | h
      · simp [h]
      · rcases ih h with h | h <;> simp [h]

theorem Memory.mem_erase {m : List Host.Cell} {addr : Nat} {c : Host.Cell} (h : c ∈ Memory.erase m addr) : c ∈ m := by
  induction m with
  | nil => simp [Memory.erase] at h
  | cons d m ih =>
    obtain ⟨a, w⟩ := d
    unfold Memory.erase at h
    split_ifs at h with h1
    · simp [h]
    · rcases List.mem_cons.1 h with h | h
      · simp [h]
      · simp [ih h]

theorem Memory.sorted_put {m : List Host.Cell} (addr : Nat) (v : Byte) (h : Memory.Sorted m) :
    Memory.Sorted (Memory.put m addr v) := by
  induction m with
  | nil => simp [Memory.put, Memory.Sorted]
  | cons d m ih =>
    obtain ⟨a, w⟩ := d
    obtain ⟨h0, h1⟩ := List.pairwise_cons.1 h
    unfold Memory.put
    split_ifs with h2 h3
    · refine List.pairwise_cons.2 ⟨fun c hc => ?_, h⟩
      rcases List.mem_cons.1 hc with hc | hc
      · subst hc; exact h2
      · exact Nat.lt_trans h2 (h0 c hc)
    · subst h3; exact List.pairwise_cons.2 ⟨h0, h1⟩
    · refine List.pairwise_cons.2 ⟨fun c hc => ?_, ih h1⟩
      rcases Memory.mem_put hc with hc | hc
      · subst hc; simp only; omega
      · exact h0 c hc

theorem Memory.sorted_erase {m : List Host.Cell} (addr : Nat) (h : Memory.Sorted m) :
    Memory.Sorted (Memory.erase m addr) := by
  induction m with
  | nil => simp [Memory.erase, Memory.Sorted]
  | cons d m ih =>
    obtain ⟨a, w⟩ := d
    obtain ⟨h0, h1⟩ := List.pairwise_cons.1 h
    unfold Memory.erase
    split_ifs with h2
    · exact h1
    · exact List.pairwise_cons.2 ⟨fun c hc => h0 c (Memory.mem_erase hc), ih h1⟩

/-- Everything in a memory after a write is what was written or was there. -/
theorem Memory.mem_write {blank : Option Byte} {m : List Host.Cell} {addr : Nat} {v : Byte} {c : Host.Cell}
    (h : c ∈ Memory.write blank m addr v) : c = (addr, v) ∨ c ∈ m := by
  unfold Memory.write at h
  split_ifs at h
  · exact .inr (Memory.mem_erase h)
  · exact Memory.mem_put h

/-- A write keeps the canonical form. -/
theorem Memory.wf_write {blank : Option Byte} {m : List Host.Cell} (addr : Nat) (v : Byte) (h : Memory.wf blank m) :
    Memory.wf blank (Memory.write blank m addr v) := by
  refine ⟨?_, fun c hc => ?_⟩
  · unfold Memory.write
    split_ifs
    · exact Memory.sorted_erase addr h.1
    · exact Memory.sorted_put addr v h.1
  · by_cases hb : some v = blank
    · simp only [Memory.write, hb, ↓reduceIte] at hc
      exact h.2 c (Memory.mem_erase hc)
    · simp only [Memory.write, hb, ↓reduceIte] at hc
      rcases Memory.mem_put hc with hc | hc
      · subst hc; exact hb
      · exact h.2 c hc

/-- A read after a write to the same address gives the value written. -/
theorem Memory.read_write_same {blank : Option Byte} {m : List Host.Cell} (addr : Nat) (v : Byte)
    (h : Memory.wf blank m) : Memory.read blank (Memory.write blank m addr v) addr = some v := by
  unfold Memory.read Memory.write
  split_ifs with hb
  · rw [Memory.get?_erase_same addr h.1]; exact hb.symm
  · rw [Memory.get?_put_same]

/-- A write leaves every other address alone. -/
theorem Memory.read_write_ne {blank : Option Byte} (m : List Host.Cell) {addr other : Nat} (v : Byte)
    (h : other ≠ addr) : Memory.read blank (Memory.write blank m addr v) other = Memory.read blank m other := by
  unfold Memory.read Memory.write
  split_ifs
  · rw [Memory.get?_erase_ne m h]
  · rw [Memory.get?_put_ne m v h]

/-- In an output memory, where an unlisted byte has no value, no form is needed. -/
theorem Memory.read_write_out (m : List Host.Cell) (addr : Nat) (v : Byte) :
    Memory.read outBlank (Memory.write outBlank m addr v) addr = some v := by
  simp [Memory.read, Memory.write, outBlank, Memory.get?_put_same]

theorem Memory.wf_nil (blank : Option Byte) : Memory.wf blank [] := ⟨List.Pairwise.nil, by simp⟩

end Sys2Proof.Machine
end

