-- ==== Sys2Proof/Laws/Audio.lean ====
section
/-! SUPPORT. The steps of AUD_DECODE's run of a DPCM record, one lemma for each part of it (43_audio_dpcm.md R202 to
R210), and what a step may change. -/

-- The package is compiled as one text: elaborating in order keeps the number of threads small.
set_option Elab.async false

namespace Sys2Proof.Machine

open Sys2Proof Sys2Proof.Config

/-! ### Length, header, initial samples -/

/-- The length a record holds (43_audio_dpcm.md R202). -/
def recordLength (s : State) : Word := BitVec.ofNat 32 (ofBits (lengthBits s.inMem s.arg0.toNat))

theorem lengthBits_length (m : List Host.Cell) (a : Nat) : (lengthBits m a).length = 32 := by
  simp only [lengthBits, List.length_append, bitsOf_length]

/-- Step 1 of a record (43_audio_dpcm.md R202). -/
theorem engineStep_length {s : State} {t : Fin 7} (h : s.work = .audio t .length) :
    engineStep tokenMeaning s =
      if s.arg1.toNat < 4 then .next (raiseFault .exhausted s)
      else .next ((((s.openWindow (s.arg0 + 4) (s.arg1 - 4)).clearAtree).setWork (.audio t (.header (recordLength s))))) := by
  have hw : wantedFormat s = some .dpcmN := by unfold wantedFormat; rw [h]
  by_cases h4 : s.arg1.toNat < 4
  · have hf : fetchToken .dpcmN s = .error .exhausted s := by
      simp only [fetchToken, ops_bind, ops_get, h4, if_true, ops_throw]
    rw [engineStep_error hw hf, if_pos h4]
  · have hd : decode .dpcmN (lengthBits s.inMem s.arg0.toNat) = .instr (.dpcmN (recordLength s)) := by
      simp only [decode, whole, lengthBits_length, Nat.lt_irrefl, if_false, if_true, recordLength]
    have hf : fetchToken .dpcmN s = .ok (.dpcmN (recordLength s)) s := by
      simp only [fetchToken, ops_bind, ops_get, h4, if_false]
      exact fetchBits_instr hd
    rw [engineStep_ok hw hf, if_neg h4]
    simp only [tokenMeaning, execDpcmN, h]
    refine perform_ok ?_
    simp only [dpcmLength, ops_bind, ops_get, h4, if_false, ops_set]

/-- No node is being read outside the trees of a record. -/
theorem nodeRoom_audio {s : State} {t : Fin 7} {w : AudioWork} (h : s.work = .audio t w)
    (hw : ∀ n slot v, w ≠ .trees n slot v) : nodeRoom s = true := by
  unfold nodeRoom
  rw [h]
  cases w <;> first | rfl | exact absurd rfl (hw _ _ _)

/-- A bit of a token after its first. -/
theorem fetchBits_next {f : Format} {fuel : Nat} {acc : List Bool} {s : State} (h : decode f acc = .more)
    (ha : acc ≠ []) :
    fetchBits f (fuel + 1) acc s = match readBit s.inMem s.bs with
      | .ok v b => fetchBits f fuel (acc ++ [v]) (s.setBs b)
      | .error c b => .error c (s.setBs b) := by
  rw [fetchBits_more h]
  rcases readBit s.inMem s.bs with ⟨v, b⟩ | ⟨c, b⟩
  · simp only [ops_bind]
    rw [tagCheck_ok (s := s.setBs b) (.inl ha)]
  · rfl

/-- Step 2 of a record (43_audio_dpcm.md R203): three bits, the first of them 1. -/
theorem engineStep_header {s : State} {t : Fin 7} {n : Word} (h : s.work = .audio t (.header n)) :
    engineStep tokenMeaning s = match readBit s.inMem s.bs with
      | .error c b => .next (raiseFault c (s.setBs b))
      | .ok false b => .next (raiseFault .audioNoData (s.setBs b))
      | .ok true b =>
        match readBit s.inMem b with
        | .error c b => .next (raiseFault c (s.setBs b))
        | .ok stereo b =>
          match readBit s.inMem b with
          | .error c b => .next (raiseFault c (s.setBs b))
          | .ok depth16 b => perform (dpcmHeaderCheck t n stereo depth16) (s.setBs b) := by
  have hw : wantedFormat s = some .dpcmHeader := by unfold wantedFormat; rw [h]
  have hfetch := fetchBits_first (f := .dpcmHeader) (s := s) rfl (nodeRoom_audio h (by simp))
  rcases h1 : readBit s.inMem s.bs with ⟨v, b⟩ | ⟨c, b⟩ <;> rw [h1] at hfetch
  · cases v
    · exact engineStep_error hw (hfetch.trans (fetchBits_reject (e := .noData) rfl))
    · have hf2 := fetchBits_next (f := .dpcmHeader) (fuel := 31) (acc := [true]) (s := s.setBs b) rfl (by simp)
      simp only [State.setBs_inMem, State.setBs_bs, State.setBs_setBs] at hf2
      dsimp only
      rcases h2 : readBit s.inMem b with ⟨stereo, b2⟩ | ⟨c, b2⟩ <;> rw [h2] at hf2
      · have hf3 := fetchBits_next (f := .dpcmHeader) (fuel := 30) (acc := [true, stereo]) (s := s.setBs b2) rfl (by simp)
        simp only [State.setBs_inMem, State.setBs_bs, State.setBs_setBs] at hf3
        dsimp only
        rcases h3 : readBit s.inMem b2 with ⟨depth16, b3⟩ | ⟨c, b3⟩ <;> rw [h3] at hf3
        · have hf4 := fetchBits_instr (f := .dpcmHeader) (fuel := 29) (acc := [true, stereo, depth16])
            (i := .dpcmHeader stereo depth16) (s := s.setBs b3) rfl
          refine (engineStep_ok hw (((hfetch.trans hf2).trans hf3).trans hf4)).trans ?_
          simp only [tokenMeaning, execDpcmHeader, State.setBs_work, h]
        · exact engineStep_error hw ((hfetch.trans hf2).trans hf3)
      · exact engineStep_error hw (hfetch.trans hf2)
  · exact engineStep_error hw hfetch

/-- An initial sample as the engine holds it (30_encoding.md R115). -/
def initialSample (wide : Bool) (bits : List Bool) : Half :=
  if wide then BitVec.ofNat 8 (ofBits bits) ++ BitVec.ofNat 8 (ofBits bits / 256)
  else (BitVec.ofNat 8 (ofBits bits)).setWidth 16

/-- Step 6 of a record (43_audio_dpcm.md R207): one initial sample. -/
theorem engineStep_init {s : State} {t : Fin 7} {n : Word} {got : List Half} (h : s.work = .audio t (.init n got)) :
    engineStep tokenMeaning s = match readBits s.inMem (8 * trkBytes s.trk[t]) s.bs with
      | .ok bits b => .next (dpcmInitial t n got (initialSample (trkDepth16 s.trk[t]) bits) (s.setBs b))
      | .error c b => .next (raiseFault c (s.setBs b)) := by
  have hr := nodeRoom_audio h (by simp)
  by_cases hd : trkDepth16 s.trk[t] = true
  · have hw : wantedFormat s = some .init16 := by
      unfold wantedFormat
      rw [h]
      simp only [hd, if_true]
    have hfetch := fetchBits_exactly (f := .init16)
      (g := fun bits => .dpcmInit16 (BitVec.ofNat 8 (ofBits bits)) (BitVec.ofNat 8 (ofBits bits / 256))) 16 (fuel := 33)
      (acc := []) (s := s) (fun bits hl => by simp [decode, whole, hl]) (fun bits hl => by simp [decode, whole, hl])
      (.inr hr) (by decide)
    simp only [trkBytes, hd, if_true]
    rcases hb : readBits s.inMem 16 s.bs with ⟨bits, b⟩ | ⟨c, b⟩ <;> rw [hb] at hfetch
    · refine (engineStep_ok hw hfetch).trans ?_
      simp only [tokenMeaning, execDpcmInit16, State.setBs_work, State.setBs_trk, h, hd, if_true, initialSample]
    · exact engineStep_error hw hfetch
  · have hd' : trkDepth16 s.trk[t] = false := by simpa using hd
    have hw : wantedFormat s = some .init8 := by
      unfold wantedFormat
      rw [h]
      simp only [hd', Bool.false_eq_true, if_false]
    have hfetch := fetchBits_exactly (f := .init8)
      (g := fun bits => .dpcmInit8 (BitVec.ofNat 8 (ofBits bits))) 8 (fuel := 33)
      (acc := []) (s := s) (fun bits hl => by simp [decode, whole, hl]) (fun bits hl => by simp [decode, whole, hl])
      (.inr hr) (by decide)
    simp only [trkBytes, hd', Bool.false_eq_true, if_false]
    rcases hb : readBits s.inMem 8 s.bs with ⟨bits, b⟩ | ⟨c, b⟩ <;> rw [hb] at hfetch
    · refine (engineStep_ok hw hfetch).trans ?_
      simp only [tokenMeaning, execDpcmInit8, State.setBs_work, State.setBs_trk, h, hd', Bool.false_eq_true, if_false,
        initialSample]
    · exact engineStep_error hw hfetch

/-- Step 7 of a record (43_audio_dpcm.md R208): one sample frame. -/
theorem engineStep_deltas {meaning : Instr → State → Answer} {s : State} {t : Fin 7} {n : Word} {out : Nat} {p0 p1 : Half}
    (h : s.work = .audio t (.deltas n out p0 p1)) :
    engineStep meaning s = perform (deltaFrame t n out p0 p1) s := by
  have hw : wantedFormat s = none := by unfold wantedFormat; rw [h]
  simp only [engineStep, hw, h]

/-! ### Writing samples -/

/-- A sample written touches the output of its track alone (43_audio_dpcm.md R210). -/
theorem emitSample_eq (t : Fin 7) (out : Nat) (v : Half) (s : State) :
    emitSample t out v s = s.setAout t (emitSample t out v s).aout[t] := by
  unfold emitSample
  split <;> simp [State.setAout]

theorem sampleBytes_length (wide : Bool) (v : Half) : (sampleBytes wide v).length = if wide then 2 else 1 := by
  cases wide <;> rfl

/-- The bytes of a sample stand at its place, low byte first; the others stay (20_memory.md R67). -/
theorem emitSample_read (t : Fin 7) (out : Nat) (v : Half) (s : State) (a : Nat) :
    Memory.read outBlank (emitSample t out v s).aout[t] a =
      if out ≤ a ∧ a < out + trkBytes s.trk[t] then (sampleBytes (trkDepth16 s.trk[t]) v)[a - out]?
      else Memory.read outBlank s.aout[t] a := by
  unfold emitSample trkBytes sampleBytes
  cases trkDepth16 s.trk[t]
  · simp only [Bool.false_eq_true, if_false, State.setAout_aout]
    rw [show (s.aout.set t (Memory.write outBlank s.aout[t] out (v.extractLsb' 0 8)))[t] =
      Memory.write outBlank s.aout[t] out (v.extractLsb' 0 8) by simp]
    by_cases ha : a = out
    · subst ha
      rw [Memory.read_write_out, if_pos (by omega), Nat.sub_self]
      rfl
    · rw [Memory.read_write_ne _ _ ha, if_neg (by omega)]
  · simp only [if_true, State.setAout_aout]
    rw [show (s.aout.set t (Memory.write outBlank (Memory.write outBlank s.aout[t] out (v.extractLsb' 0 8)) (out + 1)
        (v.extractLsb' 8 8)))[t] = Memory.write outBlank (Memory.write outBlank s.aout[t] out (v.extractLsb' 0 8)) (out + 1)
        (v.extractLsb' 8 8) by simp]
    by_cases ha : a = out + 1
    · subst ha
      rw [Memory.read_write_out, if_pos (by omega), Nat.add_sub_cancel_left]
      rfl
    · rw [Memory.read_write_ne _ _ ha]
      by_cases ha' : a = out
      · subst ha'
        rw [Memory.read_write_out, if_pos (by omega), Nat.sub_self]
        rfl
      · rw [Memory.read_write_ne _ _ ha', if_neg (by omega)]

/-- A sample written keeps the canonical form. -/
theorem emitSample_wf (t : Fin 7) (out : Nat) (v : Half) {s : State} (h : Memory.wf outBlank s.aout[t]) :
    Memory.wf outBlank (emitSample t out v s).aout[t] := by
  unfold emitSample
  split
  · simpa using Memory.wf_write _ _ (Memory.wf_write _ _ h)
  · simpa using Memory.wf_write _ _ h

/-! ### What a step may change -/

/-- What a step of AUD_DECODE of track `k` may change before its end: the position, the small trees, the log, the track's
output (60_exceptions.md R299). -/
def AudioFrame (k : Fin 7) (s t : State) : Prop :=
  t = { s with
    bs := t.bs, atree := t.atree, log := t.log, work := t.work
    aout := s.aout.set k t.aout[k], aoutLen := s.aoutLen.set k t.aoutLen[k] }

theorem AudioFrame.refl (k : Fin 7) (s : State) : AudioFrame k s s := by
  unfold AudioFrame
  simp

theorem AudioFrame.trans {k : Fin 7} {s t u : State} (h : AudioFrame k s t) (h' : AudioFrame k t u) :
    AudioFrame k s u := by
  unfold AudioFrame at *
  rw [h] at h'
  rw [h']
  simp

theorem AudioFrame.setBs (k : Fin 7) (s : State) (b : BitStream) : AudioFrame k s (s.setBs b) := by
  unfold AudioFrame
  simp [State.setBs]

theorem AudioFrame.setWork (k : Fin 7) (s : State) (w : Work) : AudioFrame k s (s.setWork w) := by
  unfold AudioFrame
  simp [State.setWork]

theorem AudioFrame.setAtree (k : Fin 7) (s : State) (slot : Fin 4) (t : SmallTree) :
    AudioFrame k s (s.setAtree slot t) := by
  unfold AudioFrame
  simp [State.setAtree]

theorem AudioFrame.setAout (k : Fin 7) (s : State) (m : List Host.Cell) : AudioFrame k s (s.setAout k m) := by
  unfold AudioFrame
  simp [State.setAout]

theorem AudioFrame.setAoutLen (k : Fin 7) (s : State) (n : Word) : AudioFrame k s (s.setAoutLen k n) := by
  unfold AudioFrame
  simp [State.setAoutLen]

theorem audioFrame_emitSample (k : Fin 7) (out : Nat) (v : Half) (s : State) : AudioFrame k s (emitSample k out v s) := by
  rw [emitSample_eq]
  exact .setAout k s _

theorem audioFrame_audioNext (k : Fin 7) (n : Word) (out : Nat) (p0 p1 : Half) (s : State) :
    AudioFrame k s (audioNext k n out p0 p1 s) := by
  unfold audioNext
  split
  · exact .setWork k s _
  · exact (AudioFrame.setAoutLen k s n).trans (.setWork k _ _)

/-- The loop goes on with more bytes written, or the record is complete (43_audio_dpcm.md R208). -/
theorem audioNext_work (k : Fin 7) (n : Word) (out : Nat) (p0 p1 : Half) (s : State) :
    (out < n.toNat ∧ (audioNext k n out p0 p1 s).work = .audio k (.deltas n out p0 p1)) ∨
      (audioNext k n out p0 p1 s).work = .idle := by
  unfold audioNext
  split
  · exact .inl ⟨‹_›, rfl⟩
  · exact .inr rfl

@[simp] theorem audioNext_bs (k : Fin 7) (n : Word) (out : Nat) (p0 p1 : Half) (s : State) :
    (audioNext k n out p0 p1 s).bs = s.bs := by
  unfold audioNext
  split <;> rfl

@[simp] theorem emitSample_bs (k : Fin 7) (out : Nat) (v : Half) (s : State) : (emitSample k out v s).bs = s.bs := by
  unfold emitSample
  split <;> rfl

@[simp] theorem emitSample_trk (k : Fin 7) (out : Nat) (v : Half) (s : State) : (emitSample k out v s).trk = s.trk := by
  unfold emitSample
  split <;> rfl

@[simp] theorem emitSample_atree (k : Fin 7) (out : Nat) (v : Half) (s : State) :
    (emitSample k out v s).atree = s.atree := by
  unfold emitSample
  split <;> rfl

@[simp] theorem emitSample_inMem (k : Fin 7) (out : Nat) (v : Half) (s : State) :
    (emitSample k out v s).inMem = s.inMem := by
  unfold emitSample
  split <;> rfl

theorem trkBytes_pos (d : Word) : 0 < trkBytes d := by
  unfold trkBytes
  split <;> omega

/-- Everything an initial sample can do (43_audio_dpcm.md R207): the first of a stereo record is kept, the last one starts
the delta loop or completes the record. -/
theorem dpcmInitial_cases (k : Fin 7) (n : Word) (got : List Half) (v : Half) (s : State) :
    AudioFrame k s (dpcmInitial k n got v s) ∧ (dpcmInitial k n got v s).bs = s.bs ∧
      ((got = [] ∧ (dpcmInitial k n got v s).work = .audio k (.init n [v])) ∨
        (∃ out p0 p1, 0 < out ∧ out < n.toNat ∧ (dpcmInitial k n got v s).work = .audio k (.deltas n out p0 p1)) ∨
        (dpcmInitial k n got v s).work = .idle) := by
  unfold dpcmInitial
  have hb := trkBytes_pos s.trk[k]
  split
  · exact ⟨.setWork k s _, rfl, .inl ⟨rfl, rfl⟩⟩
  · refine ⟨((audioFrame_emitSample k _ _ s).trans (audioFrame_emitSample k _ _ _)).trans (audioFrame_audioNext k n _ _ _ _),
      by simp, .inr ?_⟩
    rcases audioNext_work k n (trkBytes s.trk[k] + trkBytes s.trk[k]) v _ (emitSample k (trkBytes s.trk[k]) _
      (emitSample k 0 v s)) with ⟨h1, h2⟩ | h
    · exact .inl ⟨_, _, _, by omega, h1, h2⟩
    · exact .inr h
  · refine ⟨(audioFrame_emitSample k _ _ s).trans (audioFrame_audioNext k n _ _ _ _), by simp, .inr ?_⟩
    rcases audioNext_work k n (trkBytes s.trk[k]) v 0 (emitSample k 0 v s) with ⟨h1, h2⟩ | h
    · exact .inl ⟨_, _, _, hb, h1, h2⟩
    · exact .inr h

/-- Everything the read of a channel's delta can do: it moves the position and nothing else (43_audio_dpcm.md R208). -/
theorem readDelta_cases (k : Fin 7) (lo hi : Fin 4) (s : State) :
    ∃ j ≤ s.bs.left, (∃ d, readDelta k lo hi s = .ok d (s.setBs (s.bs.skip j))) ∨
      ∃ c, readDelta k lo hi s = .error c (s.setBs (s.bs.skip j)) := by
  obtain ⟨j, hj, h⟩ := forward_stLookup s.inMem s.atree[lo] s.bs
  simp only [readDelta, ops_bind, ops_get]
  rcases hl : stLookup s.inMem s.atree[lo] s.bs with ⟨l, b⟩ | ⟨c, b⟩
  · rw [hl] at h
    subst h
    rw [reading_ok hl]
    dsimp only
    split
    · obtain ⟨i, hi', h'⟩ := forward_stLookup s.inMem s.atree[hi] (s.bs.skip j)
      rw [BitStream.left_skip hj] at hi'
      rcases hh : stLookup s.inMem s.atree[hi] (s.bs.skip j) with ⟨x, b⟩ | ⟨c, b⟩
      · rw [hh] at h'
        subst h'
        refine ⟨j + i, by omega, .inl ⟨x ++ l, ?_⟩⟩
        rw [ops_bind, reading_ok (s := s.setBs (s.bs.skip j)) hh]
        simp only [ops_pure, State.setBs_setBs, BitStream.skip_skip hj]
      · rw [hh] at h'
        subst h'
        refine ⟨j + i, by omega, .inr ⟨c, ?_⟩⟩
        rw [ops_bind, reading_error (s := s.setBs (s.bs.skip j)) hh]
        simp only [State.setBs_setBs, BitStream.skip_skip hj]
    · exact ⟨j, hj, .inl ⟨_, rfl⟩⟩
  · rw [hl] at h
    subst h
    rw [reading_error hl]
    exact ⟨j, hj, .inr ⟨c, rfl⟩⟩

/-- Everything a sample of the delta loop can do (43_audio_dpcm.md R208): the position moves forward; with a delta the new
sample is written. -/
theorem deltaSample_cases (k : Fin 7) (lo hi : Fin 4) (prev : Half) (out : Nat) (s : State) :
    ∃ j ≤ s.bs.left, (∃ d, readDelta k lo hi s = .ok d (s.setBs (s.bs.skip j)) ∧
        deltaSample k lo hi prev out s = .ok (addSample (trkDepth16 s.trk[k]) prev d)
          (emitSample k out (addSample (trkDepth16 s.trk[k]) prev d) (s.setBs (s.bs.skip j)))) ∨
      ∃ c, deltaSample k lo hi prev out s = .error c (s.setBs (s.bs.skip j)) := by
  obtain ⟨j, hj, ⟨d, h⟩ | ⟨c, h⟩⟩ := readDelta_cases k lo hi s
  · refine ⟨j, hj, .inl ⟨d, h, ?_⟩⟩
    simp only [deltaSample, ops_bind, h, ops_get, ops_set, ops_pure, State.setBs_trk]
  · refine ⟨j, hj, .inr ⟨c, ?_⟩⟩
    simp only [deltaSample, ops_bind, h]

/-- Everything a sample frame can do (43_audio_dpcm.md R208): more bytes are written and the loop goes on or the record is
complete, or a fault is raised with the loop where it was. -/
theorem deltaFrame_cases (k : Fin 7) (n : Word) (out : Nat) (p0 p1 : Half) (s : State) :
    (∃ t, deltaFrame k n out p0 p1 s = .ok () t ∧ AudioFrame k s t ∧
      ((∃ out' q0 q1, out < out' ∧ out' < n.toNat ∧ t.work = .audio k (.deltas n out' q0 q1)) ∨ t.work = .idle)) ∨
    ∃ c t, deltaFrame k n out p0 p1 s = .error c t ∧ AudioFrame k s t ∧ t.work = s.work := by
  have hb := trkBytes_pos s.trk[k]
  have hwork : ∀ a b v u, (emitSample k a v (State.setBs u b)).work = u.work := fun a b v u => by
    rw [emitSample_eq]
    rfl
  simp only [deltaFrame, ops_bind, ops_get]
  obtain ⟨j, hj, ⟨d, _, h⟩ | ⟨c, h⟩⟩ := deltaSample_cases k 0 1 p0 out s
  · rw [h]
    dsimp only
    have f1 := (AudioFrame.setBs k s (s.bs.skip j)).trans (audioFrame_emitSample k out
      (addSample (trkDepth16 s.trk[k]) p0 d) _)
    generalize hu : emitSample k out (addSample (trkDepth16 s.trk[k]) p0 d) (s.setBs (s.bs.skip j)) = u at f1
    have hwu : u.work = s.work := by rw [← hu, hwork]
    split
    · rw [ops_bind]
      obtain ⟨i, hi, ⟨d', _, h'⟩ | ⟨c, h'⟩⟩ := deltaSample_cases k 2 3 p1 (out + trkBytes s.trk[k]) u
      · rw [h']
        simp only [ops_modify]
        refine .inl ⟨_, rfl, ((f1.trans (.setBs k u _)).trans (audioFrame_emitSample k _ _ _)).trans
          (audioFrame_audioNext k n _ _ _ _), ?_⟩
        rcases audioNext_work k n (out + trkBytes s.trk[k] + trkBytes s.trk[k]) (addSample (trkDepth16 s.trk[k]) p0 d)
          (addSample (trkDepth16 u.trk[k]) p1 d') (emitSample k (out + trkBytes s.trk[k])
            (addSample (trkDepth16 u.trk[k]) p1 d') (u.setBs (u.bs.skip i))) with ⟨h1, h2⟩ | h1
        · exact .inl ⟨_, _, _, by omega, h1, h2⟩
        · exact .inr h1
      · rw [h']
        exact .inr ⟨c, _, rfl, f1.trans (.setBs k u _), by rw [State.setBs_work, hwu]⟩
    · simp only [ops_modify]
      refine .inl ⟨_, rfl, f1.trans (audioFrame_audioNext k n _ _ _ _), ?_⟩
      rcases audioNext_work k n (out + trkBytes s.trk[k]) (addSample (trkDepth16 s.trk[k]) p0 d) p1 u with ⟨h1, h2⟩ | h1
      · exact .inl ⟨_, _, _, by omega, h1, h2⟩
      · exact .inr h1
  · rw [h]
    exact .inr ⟨c, _, rfl, .setBs k s _, rfl⟩

end Sys2Proof.Machine
end

