-- ==== Sys2Proof/Laws/BigBuilds.lean ====
section
/-! SUPPORT. The bigtree builds token by token: one step of a `TREE16`, and the run that builds a whole bigtree. -/

-- The package is compiled as one text: elaborating in order keeps the number of threads small.
set_option Elab.async false

namespace Sys2Proof.Machine

open Sys2Proof Sys2Proof.Config

/-! ### The commands that build a bigtree -/

/-- The locals of BT_BUILD, or of BT_BUILD_ALL, for some tree. -/
def IsBig (f : BigWork → Work) : Prop := (∃ id, f = .big id) ∨ ∃ id, f = .bigAll id

theorem IsBig.bigWork {f : BigWork → Work} (hf : IsBig f) (w : BigWork) : bigWork? (f w) = some w := by
  rcases hf with ⟨id, rfl⟩ | ⟨id, rfl⟩ <;> rfl

theorem IsBig.not_idle {f : BigWork → Work} (hf : IsBig f) (w : BigWork) : f w ≠ .idle := by
  rcases hf with ⟨id, rfl⟩ | ⟨id, rfl⟩ <;> simp

theorem IsBig.smallWork_low {f : BigWork → Work} (hf : IsBig f) (w : SmallWork) :
    smallWork? (f (.low w)) = some w := by
  rcases hf with ⟨id, rfl⟩ | ⟨id, rfl⟩ <;> rfl

theorem IsBig.smallWork_high {f : BigWork → Work} (hf : IsBig f) (low : SmallTree) (w : SmallWork) :
    smallWork? (f (.high low w)) = some w := by
  rcases hf with ⟨id, rfl⟩ | ⟨id, rfl⟩ <;> rfl

theorem IsBig.wantedFormat {f : BigWork → Work} (hf : IsBig f) {s : State} {w : BigWork} (h : s.work = f w) :
    wantedFormat s = some (bigFormat w) := by
  unfold Machine.wantedFormat
  rw [h]
  rcases hf with ⟨id, rfl⟩ | ⟨id, rfl⟩ <;> rfl

theorem IsBig.putBig_more {f : BigWork → Work} (hf : IsBig f) {s : State} {w w' : BigWork} (h : s.work = f w) :
    putBig (.more w') s = s.setWork (f w') := by
  unfold putBig
  rw [h]
  rcases hf with ⟨id, rfl⟩ | ⟨id, rfl⟩ <;> rfl

theorem IsBig.putBig_setWork {f : BigWork → Work} (hf : IsBig f) {s : State} {w w' : BigWork} (p : BigProgress)
    (h : s.work = f w) : putBig p (s.setWork (f w')) = putBig p s := by
  unfold putBig
  rw [h, State.setWork_work]
  rcases hf with ⟨id, rfl⟩ | ⟨id, rfl⟩ <;> cases p <;> simp

theorem IsBig.raiseFault_setWork {f : BigWork → Work} (hf : IsBig f) {s : State} {w w' : BigWork} (c : Cause)
    (h : s.work = f w) : raiseFault c (s.setWork (f w')) = raiseFault c s := by
  unfold raiseFault cleanUp
  rw [h, State.setWork_work]
  rcases hf with ⟨id, rfl⟩ | ⟨id, rfl⟩ <;> rfl

theorem IsBig.putSmall_low {f : BigWork → Work} (hf : IsBig f) {s : State} {w : SmallWork} (t : SmallTree)
    (h : s.work = f (.low w)) : putSmall (.done t) s = s.setWork (f (.high t .control)) := by
  unfold putSmall
  rw [h]
  rcases hf with ⟨id, rfl⟩ | ⟨id, rfl⟩ <;> rfl

theorem IsBig.putSmall_high {f : BigWork → Work} (hf : IsBig f) {s : State} {low : SmallTree} {w : SmallWork}
    (t : SmallTree) (h : s.work = f (.high low w)) : putSmall (.done t) s = s.setWork (f (.seeds low t [])) := by
  unfold putSmall
  rw [h]
  rcases hf with ⟨id, rfl⟩ | ⟨id, rfl⟩ <;> rfl

/-! ### One step -/

/-- A finished node, placed (42_big_tree.md R171). -/
def afterBNode (low high : SmallTree) (seeds : Cache) (n : BNode) (path : List (Option BNode)) (count : Nat) : BigWork :=
  match plugBNode n path with
  | .inl root => .term low high seeds root
  | .inr path => .node low high seeds path count

@[simp] theorem afterBNode_left (low high : SmallTree) (seeds : Cache) (n : BNode) (path : List (Option BNode))
    (count : Nat) :
    afterBNode low high seeds n (none :: path) count = .node low high seeds (some n :: path) count := rfl

@[simp] theorem afterBNode_right (low high : SmallTree) (seeds : Cache) (l n : BNode) (path : List (Option BNode))
    (count : Nat) :
    afterBNode low high seeds n (some l :: path) count = afterBNode low high seeds (.branch l n) path count := rfl

/-- Two bytes of a seed are 16 bits (20_memory.md R64 (a)). -/
theorem readSeed_eq (m : List Host.Cell) (b : BitStream) :
    readSeed m b = match readBits m 16 b with
      | .ok bits c => .ok (BitVec.ofNat 8 (ofBits bits / 256) ++ BitVec.ofNat 8 (ofBits bits)) c
      | .error e c => .error e c := by
  simp only [readSeed, ops_bind, readByte_eq, readBits_eq]
  by_cases h8 : 8 ≤ b.left
  · rw [if_pos h8]
    simp only [BitStream.left_skip h8, BitStream.skip_skip h8]
    by_cases h16 : 16 ≤ b.left
    · have h8' : 8 ≤ b.left - 8 := by omega
      rw [if_pos h8', if_pos h16]
      simp only [ops_pure, remaining_skip h8]
      have hsplit : (remaining m b).take 16 = (remaining m b).take 8 ++ ((remaining m b).drop 8).take 8 := by
        rw [← List.take_add]
      have hlen : ((remaining m b).take 8).length = 8 := by simp; omega
      have hlt := ofBits_lt ((remaining m b).take 8)
      rw [hlen] at hlt
      rw [hsplit, ofBits_append, hlen]
      congr 2
      · congr 1
        omega
      · apply BitVec.eq_of_toNat_eq
        simp only [BitVec.toNat_ofNat]
        omega
    · have h8' : ¬ 8 ≤ b.left - 8 := by omega
      rw [if_neg h8', if_neg h16]
      dsimp only
      congr 2
      omega
  · have h16 : ¬ 16 ≤ b.left := by omega
    rw [if_neg h8, if_neg h16]

theorem forward_readSeed (m : List Host.Cell) : Forward (readSeed m) :=
  forward_bind (forward_readByte m) fun _ => forward_bind (forward_readByte m) fun _ => forward_pure _

/-- One token of a `TREE16` outside its inner small trees, read and run (42_big_tree.md R170 to R172). -/
def bigStep (p : Params) (m : List Host.Cell) (w : BigWork) : Reader BigProgress :=
  match w with
  | .control => do
    let b ← readBit m
    pure (if b then .more (.low .control) else .done .absent)
  | .seeds low high got => do
    let v ← readSeed m
    pure (.more (afterSeeds low high (got ++ [v])))
  | .node low high seeds path count => do
    let tag ← readBit m
    if bigRoom p count then
      if tag then pure (.more (.node low high seeds (none :: path) (count + 1)))
      else
        let lo ← stLookup m low
        let hi ← stLookup m high
        pure (.more (afterBNode low high seeds (leafOf seeds (hi ++ lo)) path (count + 1)))
    else throw .treeCapacity
  | .term low high seeds root => do
    let b ← readBit m
    if b then throw .badTerminator else pure (.done (.present low high root seeds))
  | .low _ => throw .exhausted
  | .high _ _ => throw .exhausted

/-- The part of the bigtree is not one of its inner small trees. -/
def BigWork.isOuter (w : BigWork) : Bool :=
  match w with
  | .low _ => false
  | .high _ _ => false
  | .control | .seeds _ _ _ | .node _ _ _ _ _ | .term _ _ _ _ => true

theorem IsBig.smallWork_outer {f : BigWork → Work} (hf : IsBig f) {w : BigWork} (h : w.isOuter = true) :
    smallWork? (f w) = none := by
  rcases hf with ⟨id, rfl⟩ | ⟨id, rfl⟩ <;> cases w <;> first | rfl | cases h

theorem bigToken_ok {f : BigWork → Option (Engine BigProgress)} {s t : State} {w : BigWork} {e : Engine BigProgress}
    {p : BigProgress} (h : bigWork? s.work = some w) (hf : f w = some e) (he : e s = .ok p t) :
    bigToken f s = .next (putBig p t) := by
  simp only [bigToken, h, hf]
  apply perform_ok
  simp only [ops_bind, he, ops_modify]

theorem bigToken_error {f : BigWork → Option (Engine BigProgress)} {s t : State} {w : BigWork} {e : Engine BigProgress}
    {c : Cause} (h : bigWork? s.work = some w) (hf : f w = some e) (he : e s = .error c t) :
    bigToken f s = .next (raiseFault c t) := by
  simp only [bigToken, h, hf]
  apply perform_error
  simp only [ops_bind, he]

theorem needBigRoom_ok {s : State} {count : Nat} (h : bigRoom s.params count = true) :
    needBigRoom count s = .ok () s := by
  simp only [needBigRoom, ops_bind, ops_get, h, if_true, ops_pure]

theorem needBigRoom_full {s : State} {count : Nat} (h : bigRoom s.params count = false) :
    needBigRoom count s = .error .treeCapacity s := by
  simp only [needBigRoom, ops_bind, ops_get, h, Bool.false_eq_true, if_false, ops_throw]

theorem nodeRoom_big {f : BigWork → Work} (hf : IsBig f) {s : State} {low high : SmallTree} {seeds : Cache}
    {path : List (Option BNode)} {count : Nat} (h : s.work = f (.node low high seeds path count)) :
    nodeRoom s = bigRoom s.params count := by
  unfold nodeRoom
  rw [h]
  rcases hf with ⟨id, rfl⟩ | ⟨id, rfl⟩ <;> rfl

theorem nodeRoom_outer {f : BigWork → Work} (hf : IsBig f) {s : State} {w : BigWork} (h : s.work = f w)
    (hw : w.isOuter = true) (hn : ∀ low high seeds path count, w ≠ .node low high seeds path count) :
    nodeRoom s = true := by
  unfold nodeRoom
  rw [h]
  rcases hf with ⟨id, rfl⟩ | ⟨id, rfl⟩ <;> cases w <;> first | rfl | exact absurd rfl (hn _ _ _ _ _) | cases hw

/-- One step of a command that is reading a bigtree, outside its inner small trees. -/
theorem engineStep_big {f : BigWork → Work} (hf : IsBig f) {s : State} {w : BigWork} (h : s.work = f w)
    (hw : w.isOuter = true) :
    engineStep tokenMeaning s = match bigStep s.params s.inMem w s.bs with
      | .ok p b => .next (putBig p (s.setBs b))
      | .error c b => .next (raiseFault c (s.setBs b)) := by
  have hwant := hf.wantedFormat h
  have hbig : ∀ b, bigWork? (s.setBs b).work = some w := fun b => by
    rw [State.setBs_work, h]
    exact hf.bigWork w
  have hsmall : ∀ b, smallWork? (s.setBs b).work = none := fun b => by
    rw [State.setBs_work, h]
    exact hf.smallWork_outer hw
  cases w with
  | low w => cases hw
  | high low w => cases hw
  | control =>
    have hfetch := fetchBits_first (f := .tree16) (s := s) rfl (nodeRoom_outer hf h hw (by simp))
    simp only [bigStep, ops_bind]
    rcases hb : readBit s.inMem s.bs with ⟨v, b⟩ | ⟨c, b⟩ <;> rw [hb] at hfetch
    · cases v
      · exact (engineStep_ok hwant hfetch).trans (bigToken_ok (hbig b) rfl rfl)
      · exact (engineStep_ok hwant hfetch).trans (bigToken_ok (hbig b) rfl rfl)
    · exact engineStep_error hwant hfetch
  | seeds low high got =>
    have hfetch := fetchBits_exactly (f := .seed)
      (g := fun bits => .seed (BitVec.ofNat 8 (ofBits bits)) (BitVec.ofNat 8 (ofBits bits / 256))) 16 (fuel := 33)
      (acc := []) (s := s) (fun bits hl => by simp [decode, whole, hl]) (fun bits hl => by simp [decode, whole, hl])
      (.inr (nodeRoom_outer hf h hw (by simp))) (by decide)
    simp only [bigStep, ops_bind, readSeed_eq]
    rcases hb : readBits s.inMem 16 s.bs with ⟨bits, b⟩ | ⟨c, b⟩ <;> rw [hb] at hfetch
    · exact (engineStep_ok hwant hfetch).trans (bigToken_ok (hbig b) rfl rfl)
    · exact engineStep_error hwant hfetch
  | node low high seeds path count =>
    simp only [bigStep, ops_bind]
    by_cases hr : bigRoom s.params count = true
    · have hfetch := fetchBits_first (f := .node16) (s := s) rfl (by rw [nodeRoom_big hf h, hr])
      rcases hb : readBit s.inMem s.bs with ⟨v, b⟩ | ⟨c, b⟩ <;> rw [hb] at hfetch
      · simp only [hr, if_true]
        have hr' : needBigRoom count (s.setBs b) = .ok () (s.setBs b) := needBigRoom_ok hr
        cases v
        · simp only [Bool.false_eq_true, if_false, ops_bind]
          refine (engineStep_ok hwant hfetch).trans ?_
          rcases hlo : stLookup s.inMem low b with ⟨lo, b1⟩ | ⟨c, b1⟩
          · have hlo' : reading (fun m => stLookup m low) (s.setBs b) = .ok lo (s.setBs b1) := reading_ok hlo
            dsimp only
            rcases hhi : stLookup s.inMem high b1 with ⟨hi, b2⟩ | ⟨c, b2⟩
            · have hhi' : reading (fun m => stLookup m high) (s.setBs b1) = .ok hi (s.setBs b2) := reading_ok hhi
              refine bigToken_ok (hbig b) rfl ?_
              simp only [ops_bind, hr', hlo', hhi', afterBNode]
              rcases plugBNode (leafOf seeds (hi ++ lo)) path with root | path <;> rfl
            · have hhi' : reading (fun m => stLookup m high) (s.setBs b1) = .error c (s.setBs b2) := reading_error hhi
              refine bigToken_error (hbig b) rfl ?_
              simp only [ops_bind, hr', hlo', hhi']
          · have hlo' : reading (fun m => stLookup m low) (s.setBs b) = .error c (s.setBs b1) := reading_error hlo
            refine bigToken_error (hbig b) rfl ?_
            simp only [ops_bind, hr', hlo']
        · refine (engineStep_ok hwant hfetch).trans (bigToken_ok (hbig b) rfl ?_)
          simp only [ops_bind, hr', ops_pure]
      · exact engineStep_error hwant hfetch
    · have hfetch := fetchBits_full (f := .node16) (fuel := 32) (s := s) rfl
        (by rw [nodeRoom_big hf h]; simpa using hr)
      rcases hb : readBit s.inMem s.bs with ⟨v, b⟩ | ⟨c, b⟩ <;> rw [hb] at hfetch
      · simp only [hr]
        exact engineStep_error hwant hfetch
      · exact engineStep_error hwant hfetch
  | term low high seeds root =>
    have hfetch := fetchBits_first (f := .term) (s := s) rfl (nodeRoom_outer hf h hw (by simp))
    simp only [bigStep, ops_bind]
    rcases hb : readBit s.inMem s.bs with ⟨v, b⟩ | ⟨c, b⟩ <;> rw [hb] at hfetch
    · cases v
      · refine (engineStep_ok hwant hfetch).trans ?_
        simp only [tokenMeaning, execTreeTerm, hsmall b]
        exact bigToken_ok (hbig b) rfl rfl
      · exact engineStep_error hwant hfetch
    · exact engineStep_error hwant hfetch

/-! ### The run -/

theorem IsBig.work_ne {f : BigWork → Work} (hf : IsBig f) {s : State} {w : BigWork} (h : s.work = f w) :
    s.work ≠ .idle := by
  rw [h]
  exact hf.not_idle w

/-- The run that builds a node is the recursion of 42_big_tree.md R171; each step of it consumes a bit. -/
theorem big_node_run {f : BigWork → Work} (hf : IsBig f) (low high : SmallTree) (seeds : Cache) (fr : Nat) :
    ∀ (s : State) (path : List (Option BNode)) (count : Nat),
    s.work = f (.node low high seeds path count) → s.bs.left < fr →
    match btBuildRec s.params.bigNodesMax s.inMem low high seeds fr count s.bs with
    | .ok r b => ∃ k, k + b.left ≤ s.bs.left ∧
        Runs k s ((s.setBs b).setWork (f (afterBNode low high seeds r.1 path r.2)))
    | .error c b => ∃ k, k ≤ s.bs.left + 1 ∧ Runs k s (raiseFault c (s.setBs b)) := by
  induction fr with
  | zero => intro s path count _ h; omega
  | succ fr ih =>
    intro s path count hw hl
    have hidle := hf.work_ne hw
    have hstep := engineStep_big hf hw rfl
    have hput : ∀ b w', putBig (.more w') (s.setBs b) = (s.setBs b).setWork (f w') :=
      fun b w' => hf.putBig_more (s := s.setBs b) hw
    have hraise : ∀ b c w', raiseFault c ((s.setBs b).setWork (f w')) = raiseFault c (s.setBs b) :=
      fun b c w' => hf.raiseFault_setWork (s := s.setBs b) c hw
    simp only [bigStep, ops_bind] at hstep
    simp only [btBuildRec, ops_bind]
    rcases hb : readBit s.inMem s.bs with ⟨tag, b⟩ | ⟨c, b⟩
    · have hbl := readBit_left hb
      simp only [hb] at hstep
      dsimp only
      by_cases hr : bigRoom s.params count = true
      · have hr' : within s.params.bigNodesMax (count + 1) = true := hr
        simp only [hr, if_true] at hstep
        simp only [hr', if_true]
        cases tag
        · simp only [Bool.false_eq_true, if_false, ops_bind] at hstep ⊢
          rcases hlo : stLookup s.inMem low b with ⟨lo, b1⟩ | ⟨c, b1⟩
          · have hlol := (forward_stLookup s.inMem low).left_ok hlo
            simp only [hlo] at hstep ⊢
            rcases hhi : stLookup s.inMem high b1 with ⟨hi, b2⟩ | ⟨c, b2⟩
            · have hhil := (forward_stLookup s.inMem high).left_ok hhi
              simp only [hhi, ops_pure, hput] at hstep ⊢
              exact ⟨1, by omega, Runs.step hidle hstep⟩
            · simp only [hhi] at hstep ⊢
              exact ⟨1, by omega, Runs.step hidle hstep⟩
          · simp only [hlo] at hstep ⊢
            exact ⟨1, by omega, Runs.step hidle hstep⟩
        · simp only [if_true, ops_pure, ops_bind, hput] at hstep ⊢
          have h1 := ih ((s.setBs b).setWork (f (.node low high seeds (none :: path) (count + 1)))) (none :: path)
            (count + 1) rfl (by simp only [State.setWork_bs, State.setBs_bs]; omega)
          simp only [State.setWork_params, State.setWork_inMem, State.setWork_bs, State.setBs_params, State.setBs_inMem,
            State.setBs_bs, State.setWork_setBs, State.setBs_setBs, State.setWork_setWork, hraise] at h1
          rcases hl' : btBuildRec s.params.bigNodesMax s.inMem low high seeds fr (count + 1) b with ⟨l, b1⟩ | ⟨c, b1⟩
          · simp only [hl'] at h1 ⊢
            obtain ⟨k1, hk1, hrun1⟩ := h1
            have h2 := ih ((s.setBs b1).setWork (f (afterBNode low high seeds l.1 (none :: path) l.2)))
              (some l.1 :: path) l.2 rfl (by simp only [State.setWork_bs, State.setBs_bs]; omega)
            simp only [State.setWork_params, State.setWork_inMem, State.setWork_bs, State.setBs_params,
              State.setBs_inMem, State.setBs_bs, State.setWork_setBs, State.setBs_setBs, State.setWork_setWork,
              hraise] at h2
            rcases hr2 : btBuildRec s.params.bigNodesMax s.inMem low high seeds fr l.2 b1 with ⟨r, b2⟩ | ⟨c, b2⟩
            · simp only [hr2] at h2 ⊢
              obtain ⟨k2, hk2, hrun2⟩ := h2
              refine ⟨1 + k1 + k2, by omega, ?_⟩
              exact ((Runs.step hidle hstep).trans hrun1).trans hrun2
            · simp only [hr2] at h2 ⊢
              obtain ⟨k2, hk2, hrun2⟩ := h2
              refine ⟨1 + k1 + k2, by omega, ?_⟩
              exact ((Runs.step hidle hstep).trans hrun1).trans hrun2
          · simp only [hl'] at h1 ⊢
            obtain ⟨k1, hk1, hrun1⟩ := h1
            refine ⟨1 + k1, by omega, ?_⟩
            exact (Runs.step hidle hstep).trans hrun1
      · have hr' : within s.params.bigNodesMax (count + 1) = false := by
          have : ¬ within s.params.bigNodesMax (count + 1) = true := hr
          simpa using this
        simp only [hr] at hstep
        simp only [hr', Bool.false_eq_true, if_false, ops_throw]
        exact ⟨1, by omega, Runs.step hidle hstep⟩
    · simp only [hb] at hstep
      dsimp only
      exact ⟨1, by omega, Runs.step hidle hstep⟩

/-- A run that ends in a bound on the bits consumed, either with a result or with a fault. -/
def RunsTo {α : Type} (s : State) (good : α → BitStream → State) (r : EStateM.Result Cause BitStream α) : Prop :=
  match r with
  | .ok a b => ∃ k, k + b.left ≤ s.bs.left ∧ Runs k s (good a b)
  | .error c b => ∃ k, k ≤ s.bs.left + 1 ∧ Runs k s (raiseFault c (s.setBs b))

/-- Runs of two readers, one after the other. -/
theorem RunsTo.bind {α β : Type} {f : BigWork → Work} (hf : IsBig f) {s : State} {w : BigWork} (hw : s.work = f w)
    {r : Reader α} {next : α → Reader β} {v : α → BigWork} {good : β → BitStream → State} {b0 : BitStream}
    (h : RunsTo s (fun a b => (s.setBs b).setWork (f (v a))) (r b0))
    (h' : ∀ a b, RunsTo ((s.setBs b).setWork (f (v a))) good (next a b)) :
    RunsTo s good ((r >>= next) b0) := by
  rw [ops_bind]
  rcases hr : r b0 with ⟨a, b⟩ | ⟨c, b⟩
  · rw [hr] at h
    obtain ⟨k, hk, hrun⟩ := h
    have h2 := h' a b
    dsimp only
    rcases hn : next a b with ⟨x, b'⟩ | ⟨c, b'⟩
    · rw [hn] at h2
      obtain ⟨k', hk', hrun'⟩ := h2
      simp only [State.setWork_bs, State.setBs_bs] at hk'
      exact ⟨k + k', by omega, hrun.trans hrun'⟩
    · rw [hn] at h2
      obtain ⟨k', hk', hrun'⟩ := h2
      simp only [State.setWork_bs, State.setBs_bs] at hk'
      rw [State.setWork_setBs, State.setBs_setBs, hf.raiseFault_setWork (s := s.setBs b') c hw] at hrun'
      exact ⟨k + k', by omega, hrun.trans hrun'⟩
  · rw [hr] at h
    exact h

/-- A run after a first step that consumed a bit. -/
theorem RunsTo.step {α : Type} {f : BigWork → Work} (hf : IsBig f) {s : State} {w w' : BigWork} (hw : s.work = f w)
    {b : BitStream} {good : α → BitStream → State} {r : EStateM.Result Cause BitStream α}
    (hstep : engineStep tokenMeaning s = .next ((s.setBs b).setWork (f w'))) (hb : b.left + 1 = s.bs.left)
    (h : RunsTo ((s.setBs b).setWork (f w')) good r) : RunsTo s good r := by
  have hraise : ∀ b c w', raiseFault c ((s.setBs b).setWork (f w')) = raiseFault c (s.setBs b) :=
    fun b c w' => hf.raiseFault_setWork (s := s.setBs b) c hw
  cases r with
  | ok a c =>
    obtain ⟨k, hk, hrun⟩ := h
    simp only [State.setWork_bs, State.setBs_bs] at hk
    exact ⟨1 + k, by omega, (Runs.step (hf.work_ne hw) hstep).trans hrun⟩
  | error e c =>
    obtain ⟨k, hk, hrun⟩ := h
    simp only [State.setWork_bs, State.setBs_bs] at hk
    rw [State.setWork_setBs, State.setBs_setBs, hraise] at hrun
    exact ⟨1 + k, by omega, (Runs.step (hf.work_ne hw) hstep).trans hrun⟩

theorem runsTo_small {f : BigWork → Work} {s : State} {w0 : BigWork} (hw : s.work = f w0)
    (h0 : smallWork? (f w0) = some .control) {v : SmallTree → BigWork}
    (hv : ∀ t b, putSmall (.done t) (s.setBs b) = (s.setBs b).setWork (f (v t))) :
    RunsTo s (fun t b => (s.setBs b).setWork (f (v t))) (stBuildSpec s.params.smallNodesMax s.inMem s.bs) := by
  have h := small_run (s := s) (by rw [hw, h0])
  unfold RunsTo
  rcases hr : stBuildSpec s.params.smallNodesMax s.inMem s.bs with ⟨t, b⟩ | ⟨c, b⟩
  · rw [hr] at h
    simpa only [hv] using h
  · rw [hr] at h
    exact h

theorem runsTo_seed {f : BigWork → Work} (hf : IsBig f) {s : State} {low high : SmallTree} {got : List Half}
    (hw : s.work = f (.seeds low high got)) :
    RunsTo s (fun x b => (s.setBs b).setWork (f (afterSeeds low high (got ++ [x])))) (readSeed s.inMem s.bs) := by
  have hstep := engineStep_big hf hw rfl
  simp only [bigStep, ops_bind] at hstep
  unfold RunsTo
  rcases hr : readSeed s.inMem s.bs with ⟨x, b⟩ | ⟨c, b⟩
  · simp only [hr, ops_pure, hf.putBig_more (s := s.setBs b) hw] at hstep
    refine ⟨1, ?_, Runs.step (hf.work_ne hw) hstep⟩
    rw [readSeed_eq, readBits_eq] at hr
    split_ifs at hr with hl
    · cases hr
      rw [BitStream.left_skip hl]
      omega
  · simp only [hr] at hstep
    exact ⟨1, by omega, Runs.step (hf.work_ne hw) hstep⟩

/-- The run that builds a bigtree is the recursion of 42_big_tree.md R170; each step of it consumes a bit. -/
theorem big_run {f : BigWork → Work} (hf : IsBig f) {s : State} (hw : s.work = f .control) :
    RunsTo s (fun t b => putBig (.done t) (s.setBs b)) (btBuildSpec s.params s.inMem s.bs) := by
  have hidle := hf.work_ne hw
  have hstep := engineStep_big hf hw rfl
  have hdone : ∀ b t w', putBig (.done t) ((s.setBs b).setWork (f w')) = putBig (.done t) (s.setBs b) :=
    fun b t w' => hf.putBig_setWork (s := s.setBs b) _ hw
  simp only [bigStep, ops_bind] at hstep
  unfold btBuildSpec
  rw [ops_bind]
  rcases hb : readBit s.inMem s.bs with ⟨tag, b⟩ | ⟨c, b⟩
  · have hbl := readBit_left hb
    simp only [hb, ops_pure] at hstep
    dsimp only
    cases tag
    · simp only [Bool.false_eq_true, if_false] at hstep ⊢
      exact ⟨1, by omega, Runs.step hidle hstep⟩
    · simp only [if_true] at hstep ⊢
      rw [hf.putBig_more (s := s.setBs b) hw] at hstep
      refine RunsTo.step hf hw hstep hbl ?_
      -- low tree
      refine RunsTo.bind hf (s := (s.setBs b).setWork (f (.low .control))) rfl (v := fun t => .high t .control)
        (runsTo_small (s := (s.setBs b).setWork (f (.low .control))) rfl (hf.smallWork_low _)
          (fun t b' => hf.putSmall_low (s := ((s.setBs b).setWork (f (.low .control))).setBs b') t rfl)) ?_
      intro low b1
      simp only [State.setWork_setBs, State.setBs_setBs, State.setWork_setWork]
      -- high tree
      refine RunsTo.bind hf (s := (s.setBs b1).setWork (f (.high low .control))) rfl (v := fun t => .seeds low t [])
        (runsTo_small (s := (s.setBs b1).setWork (f (.high low .control))) rfl (hf.smallWork_high _ _)
          (fun t b' => hf.putSmall_high (s := ((s.setBs b1).setWork (f (.high low .control))).setBs b') t rfl)) ?_
      intro high b2
      simp only [State.setWork_setBs, State.setBs_setBs, State.setWork_setWork]
      -- seeds
      refine RunsTo.bind hf (s := (s.setBs b2).setWork (f (.seeds low high []))) rfl
        (v := fun x => .seeds low high [x])
        (runsTo_seed hf (s := (s.setBs b2).setWork (f (.seeds low high []))) rfl) ?_
      intro c0 b3
      simp only [State.setWork_setBs, State.setBs_setBs, State.setWork_setWork]
      refine RunsTo.bind hf (s := (s.setBs b3).setWork (f (.seeds low high [c0]))) rfl
        (v := fun x => .seeds low high [c0, x])
        (runsTo_seed hf (s := (s.setBs b3).setWork (f (.seeds low high [c0]))) rfl) ?_
      intro c1 b4
      simp only [State.setWork_setBs, State.setBs_setBs, State.setWork_setWork]
      refine RunsTo.bind hf (s := (s.setBs b4).setWork (f (.seeds low high [c0, c1]))) rfl
        (v := fun x => .node low high { c0 := c0, c1 := c1, c2 := x } [] 0)
        (runsTo_seed hf (s := (s.setBs b4).setWork (f (.seeds low high [c0, c1]))) rfl) ?_
      intro c2 b5
      simp only [State.setWork_setBs, State.setBs_setBs, State.setWork_setWork]
      -- lookup tree
      rw [ops_bind, ops_get]
      dsimp only
      refine RunsTo.bind hf (s := (s.setBs b5).setWork (f (.node low high { c0 := c0, c1 := c1, c2 := c2 } [] 0))) rfl
        (v := fun r => .term low high { c0 := c0, c1 := c1, c2 := c2 } r.1) ?_ ?_
      · have h := big_node_run hf low high { c0 := c0, c1 := c1, c2 := c2 } (b5.left + 1)
          ((s.setBs b5).setWork (f (.node low high { c0 := c0, c1 := c1, c2 := c2 } [] 0))) [] 0 rfl
          (by simp only [State.setWork_bs, State.setBs_bs]; omega)
        simp only [State.setWork_params, State.setWork_inMem, State.setWork_bs, State.setBs_params, State.setBs_inMem,
          State.setBs_bs] at h
        unfold RunsTo
        rcases hn : btBuildRec s.params.bigNodesMax s.inMem low high { c0 := c0, c1 := c1, c2 := c2 } (b5.left + 1) 0 b5
          with ⟨r, b6⟩ | ⟨c, b6⟩
        · rw [hn] at h
          exact h
        · rw [hn] at h
          exact h
      -- terminator
      intro root b6
      simp only [State.setWork_setBs, State.setBs_setBs, State.setWork_setWork]
      have hterm := engineStep_big hf
        (s := (s.setBs b6).setWork (f (.term low high { c0 := c0, c1 := c1, c2 := c2 } root.1))) rfl rfl
      simp only [bigStep, ops_bind, State.setWork_inMem, State.setWork_bs, State.setBs_inMem, State.setBs_bs,
        State.setWork_setBs, State.setBs_setBs] at hterm
      rw [ops_bind]
      unfold RunsTo
      rcases hlast : readBit s.inMem b6 with ⟨last, b7⟩ | ⟨c, b7⟩
      · have hl := readBit_left hlast
        simp only [hlast] at hterm
        dsimp only
        cases last
        · simp only [Bool.false_eq_true, if_false, ops_pure, hdone] at hterm ⊢
          refine ⟨1, ?_, Runs.step (hf.not_idle _) hterm⟩
          simp only [State.setWork_bs, State.setBs_bs]
          omega
        · simp only [if_true, ops_throw] at hterm ⊢
          exact ⟨1, by omega, Runs.step (hf.not_idle _) hterm⟩
      · simp only [hlast] at hterm
        exact ⟨1, by omega, Runs.step (hf.not_idle _) hterm⟩
  · simp only [hb] at hstep
    exact ⟨1, by omega, Runs.step hidle hstep⟩

end Sys2Proof.Machine
end

