-- ==== Sys2Proof/Laws/Cursor.lean ====
section
/-! SUPPORT. The scan cursor: the block it names, its advance, and the pixels of a block (44_video_blocks.md R242;
20_memory.md R66). -/

-- The package is compiled as one text: elaborating in order keeps the number of threads small.
set_option Elab.async false

namespace Sys2Proof.Machine

open Sys2Proof Sys2Proof.Config

/-- What a legal frame configuration says (44_video_blocks.md R230). -/
theorem videoConfigLegal_iff {s : State} : videoConfigLegal s = true ↔
    (s.version = 0x32 ∨ s.version = 0x34) ∧ 0 < s.width.toNat ∧ s.width.toNat % 4 = 0 ∧ 0 < s.height.toNat ∧
      s.height.toNat % 4 = 0 ∧ within s.params.fbMax (s.width.toNat * s.height.toNat) = true := by
  have hw : s.width ≠ 0 ↔ 0 < s.width.toNat := by
    rw [Nat.pos_iff_ne_zero, ne_eq, ne_eq, ← BitVec.toNat_inj]
    rfl
  have hh : s.height ≠ 0 ↔ 0 < s.height.toNat := by
    rw [Nat.pos_iff_ne_zero, ne_eq, ne_eq, ← BitVec.toNat_inj]
    rfl
  simp only [videoConfigLegal, Bool.and_eq_true, Bool.or_eq_true, beq_iff_eq, bne_iff_ne, hw, hh, and_assoc]

/-- The numbers of a frame: whole blocks across and down, and a cursor on a block. -/
theorem FrameWf.blocks {s : State} (h : FrameWf s) (hr : s.scanRow < s.height) :
    ∃ W H R C : Nat, s.width.toNat = 4 * W ∧ s.height.toNat = 4 * H ∧ s.scanRow.toNat = 4 * R ∧ s.scanCol.toNat = 4 * C ∧
      R < H ∧ C < W := by
  obtain ⟨hl, h1, h2, h3, h4⟩ := h
  obtain ⟨_, hw, hw4, hh, hh4, _⟩ := videoConfigLegal_iff.1 hl
  rw [BitVec.lt_def] at hr
  exact ⟨s.width.toNat / 4, s.height.toNat / 4, s.scanRow.toNat / 4, s.scanCol.toNat / 4, by omega, by omega, by omega,
    by omega, by omega, by omega⟩

/-- The advance at the end of a row of blocks. -/
theorem advanceScan_wrap {s : State} (h : FrameWf s) (hr : s.scanRow < s.height)
    (hc : s.width.toNat ≤ s.scanCol.toNat + 4) :
    advanceScan s = { s with scanCol := 0, scanRow := s.scanRow + 4 } ∧
      (s.scanRow + 4).toNat = s.scanRow.toNat + 4 := by
  obtain ⟨W, H, R, C, hW, hH, hR, hC, h1, h2⟩ := h.blocks hr
  have h3 := s.width.isLt
  have h4 := s.height.isLt
  refine ⟨?_, by rw [BitVec.toNat_add]; change (_ + 4) % _ = _; omega⟩
  have : s.width ≤ s.scanCol + 4 := by
    rw [BitVec.le_def, BitVec.toNat_add]
    change _ ≤ (_ + 4) % _
    omega
  simp only [advanceScan, this, if_true]

/-- The advance within a row of blocks. -/
theorem advanceScan_along {s : State} (h : FrameWf s) (hr : s.scanRow < s.height)
    (hc : s.scanCol.toNat + 4 < s.width.toNat) :
    advanceScan s = { s with scanCol := s.scanCol + 4 } ∧ (s.scanCol + 4).toNat = s.scanCol.toNat + 4 := by
  obtain ⟨W, H, R, C, hW, hH, hR, hC, h1, h2⟩ := h.blocks hr
  have h3 := s.width.isLt
  have e : (s.scanCol + 4).toNat = s.scanCol.toNat + 4 := by
    rw [BitVec.toNat_add]
    change (_ + 4) % _ = _
    omega
  refine ⟨?_, e⟩
  have : ¬ s.width ≤ s.scanCol + 4 := by
    rw [BitVec.le_def, e]
    omega
  simp only [advanceScan, this, if_false]

/-- The advance touches the cursor alone. -/
theorem advanceScan_frame (s : State) :
    advanceScan s = { s with scanRow := (advanceScan s).scanRow, scanCol := (advanceScan s).scanCol } := by
  unfold advanceScan
  split <;> rfl

/-! ### Pixels -/

theorem pixelAddr_div {s : State} {r c : Nat} (hc : s.scanCol.toNat + c < s.width.toNat) :
    pixelAddr s r c / s.width.toNat = s.scanRow.toNat + r := by
  rw [pixelAddr, Nat.add_assoc, Nat.mul_comm, Nat.mul_add_div (by omega), Nat.div_eq_of_lt hc, Nat.add_zero]

theorem pixelAddr_mod {s : State} {r c : Nat} (hc : s.scanCol.toNat + c < s.width.toNat) :
    pixelAddr s r c % s.width.toNat = s.scanCol.toNat + c := by
  rw [pixelAddr, Nat.add_assoc, Nat.mul_comm, Nat.mul_add_mod, Nat.mod_eq_of_lt hc]

theorem FrameWf.col_lt {s : State} (h : FrameWf s) (hr : s.scanRow < s.height) {c : Nat} (hc : c < 4) :
    s.scanCol.toNat + c < s.width.toNat := by
  obtain ⟨W, H, R, C, hW, hH, hR, hC, h1, h2⟩ := h.blocks hr
  omega

/-- Different pixels of a block have different addresses. -/
theorem pixelAddr_inj {s : State} (h : FrameWf s) (hr : s.scanRow < s.height) {r c r' c' : Nat} (hc : c < 4) (hc' : c' < 4)
    (e : pixelAddr s r c = pixelAddr s r' c') : r = r' ∧ c = c' := by
  have h1 := pixelAddr_div (r := r) (h.col_lt hr hc)
  have h2 := pixelAddr_div (r := r') (h.col_lt hr hc')
  have h3 := pixelAddr_mod (r := r) (h.col_lt hr hc)
  have h4 := pixelAddr_mod (r := r') (h.col_lt hr hc')
  rw [e] at h1 h3
  omega

/-- Quotient and remainder are determined. -/
theorem mul_add_inj {W x y x' y' : Nat} (hy : y < W) (hy' : y' < W) (h : x * W + y = x' * W + y') : x = x' ∧ y = y' := by
  have hx : x = x' := by
    have e := congrArg (· / W) h
    simp only [Nat.mul_comm _ W, Nat.mul_add_div (show 0 < W by omega), Nat.div_eq_of_lt hy, Nat.div_eq_of_lt hy'] at e
    exact e
  subst hx
  exact ⟨rfl, Nat.add_left_cancel h⟩

/-- The pixels of the block at the cursor are the addresses of the frame that lie in it. -/
theorem inBlock_iff {s : State} (h : FrameWf s) (hr : s.scanRow < s.height) (a : Nat) :
    inBlock s a ↔ a < s.width.toNat * s.height.toNat ∧ blockOf s a = blockNumber s := by
  obtain ⟨W, H, R, C, hW, hH, hR, hC, h1, h2⟩ := h.blocks hr
  constructor
  · rintro ⟨r, c, hr4, hc4, rfl⟩
    have hd := pixelAddr_div (r := r) (h.col_lt hr hc4)
    have hm := pixelAddr_mod (r := r) (h.col_lt hr hc4)
    refine ⟨?_, ?_⟩
    · rw [Nat.mul_comm, ← Nat.div_lt_iff_lt_mul (by omega), hd]
      omega
    · rw [blockOf, blockNumber, hd, hm, hR, hC]
      congr 1
      · congr 1
        omega
      · omega
  · rintro ⟨ha, hb⟩
    rw [blockOf, blockNumber, hW] at hb
    have e1 : 4 * W / 4 = W := by omega
    rw [e1] at hb
    have hx : a % (4 * W) / 4 < W := by
      have := Nat.mod_lt a (show 0 < 4 * W by omega)
      omega
    have hx' : s.scanCol.toNat / 4 < W := by omega
    obtain ⟨hrow, hcol⟩ := mul_add_inj hx hx' hb
    refine ⟨a / (4 * W) % 4, a % (4 * W) % 4, Nat.mod_lt _ (by omega), Nat.mod_lt _ (by omega), ?_⟩
    rw [pixelAddr, hW]
    have e2 : s.scanRow.toNat + a / (4 * W) % 4 = a / (4 * W) := by omega
    have e3 : s.scanCol.toNat + a % (4 * W) % 4 = a % (4 * W) := by omega
    rw [e2, Nat.add_assoc, e3, Nat.mul_comm, Nat.div_add_mod]

end Sys2Proof.Machine
end

