-- ==== Sys2Proof/Laws/Blocks.lean ====
section
/-! SUPPORT. What painting pixels changes, and that lookups and painting do not meet (44_video_blocks.md R236 to R241). -/

-- The package is compiled as one text: elaborating in order keeps the number of threads small.
set_option Elab.async false

namespace Sys2Proof.Machine

open Sys2Proof Sys2Proof.Config

/-- The frame buffer. -/
def State.setFb (s : State) (m : List Host.Cell) : State := { s with fb := m }

@[simp] theorem State.setFb_fb (s : State) (m : List Host.Cell) : (s.setFb m).fb = m := rfl
@[simp] theorem State.setFb_vt (s : State) (m : List Host.Cell) : (s.setFb m).vt = s.vt := rfl
@[simp] theorem State.setFb_bs (s : State) (m : List Host.Cell) : (s.setFb m).bs = s.bs := rfl
@[simp] theorem State.setFb_inMem (s : State) (m : List Host.Cell) : (s.setFb m).inMem = s.inMem := rfl
@[simp] theorem State.setFb_setFb (s : State) (m n : List Host.Cell) : (s.setFb m).setFb n = s.setFb n := rfl
@[simp] theorem State.setFb_setBs (s : State) (m : List Host.Cell) (b : BitStream) :
    (s.setFb m).setBs b = (s.setBs b).setFb m := rfl
@[simp] theorem State.setFb_setVt (s : State) (m : List Host.Cell) (id : Fin 4) (t : BigTree) :
    (s.setFb m).setVt id t = (s.setVt id t).setFb m := rfl

/-- The memory after pixels of the block at the cursor of `s` are written to it. -/
def paintMem (s : State) (pxs : List (Nat × Nat × Byte)) (m : List Host.Cell) : List Host.Cell :=
  pxs.foldl (fun m px => Memory.write outBlank m (pixelAddr s px.1 px.2.1) px.2.2) m

/-- Painting changes FB alone. -/
theorem paint_eq (pxs : List (Nat × Nat × Byte)) (s : State) : paint pxs s = s.setFb (paintMem s pxs s.fb) := by
  suffices h : ∀ t : State, t.scanRow = s.scanRow → t.scanCol = s.scanCol → t.width = s.width →
      pxs.foldl putPixel t = t.setFb (paintMem s pxs t.fb) from h s rfl rfl rfl
  induction pxs with
  | nil => intro t _ _ _; rfl
  | cons px pxs ih =>
    intro t h1 h2 h3
    rw [List.foldl_cons, ih (putPixel t px) h1 h2 h3]
    have e : pixelAddr t px.1 px.2.1 = pixelAddr s px.1 px.2.1 := by simp only [pixelAddr, h1, h2, h3]
    simp only [putPixel, paintMem, List.foldl_cons, e]
    rfl

theorem paintMem_append (s : State) (xs ys : List (Nat × Nat × Byte)) (m : List Host.Cell) :
    paintMem s (xs ++ ys) m = paintMem s ys (paintMem s xs m) := by
  simp only [paintMem, List.foldl_append]

/-- The addresses depend on the cursor and the width alone. -/
theorem paintMem_cursor {s t : State} (h1 : t.scanRow = s.scanRow) (h2 : t.scanCol = s.scanCol) (h3 : t.width = s.width)
    (pxs : List (Nat × Nat × Byte)) (m : List Host.Cell) : paintMem t pxs m = paintMem s pxs m := by
  have e : ∀ r c, pixelAddr t r c = pixelAddr s r c := fun r c => by simp only [pixelAddr, h1, h2, h3]
  simp only [paintMem, e]

/-- A byte that no pixel has the address of stays. -/
theorem paintMem_other {s : State} {pxs : List (Nat × Nat × Byte)} {m : List Host.Cell} {a : Nat}
    (h : ∀ px ∈ pxs, pixelAddr s px.1 px.2.1 ≠ a) :
    Memory.read outBlank (paintMem s pxs m) a = Memory.read outBlank m a := by
  induction pxs generalizing m with
  | nil => rfl
  | cons px pxs ih =>
    have e : paintMem s (px :: pxs) m = paintMem s pxs (Memory.write outBlank m (pixelAddr s px.1 px.2.1) px.2.2) := rfl
    rw [e, ih fun q hq => h q (List.mem_cons_of_mem _ hq),
      Memory.read_write_ne _ _ (Ne.symm (h px List.mem_cons_self))]

/-- A pixel painted once, among pixels of one block, has its colour. -/
theorem paintMem_pixel {s : State} (hf : FrameWf s) (hr : s.scanRow < s.height) {pxs : List (Nat × Nat × Byte)}
    {m : List Host.Cell} (hc : ∀ px ∈ pxs, px.2.1 < 4) (hd : (pxs.map fun px => (px.1, px.2.1)).Nodup)
    {r c : Nat} {v : Byte} (hp : (r, c, v) ∈ pxs) :
    Memory.read outBlank (paintMem s pxs m) (pixelAddr s r c) = some v := by
  induction pxs generalizing m with
  | nil => cases hp
  | cons px pxs ih =>
    have e : paintMem s (px :: pxs) m = paintMem s pxs (Memory.write outBlank m (pixelAddr s px.1 px.2.1) px.2.2) := rfl
    rw [e]
    rw [List.map_cons, List.nodup_cons] at hd
    rcases List.mem_cons.1 hp with rfl | hp'
    · rw [paintMem_other, Memory.read_write_out]
      intro q hq he
      obtain ⟨h1, h2⟩ := pixelAddr_inj hf hr (hc q (List.mem_cons_of_mem _ hq)) (hc _ List.mem_cons_self) he
      exact hd.1 (List.mem_map.2 ⟨q, hq, Prod.ext h1 h2⟩)
    · exact ih (fun q hq => hc q (List.mem_cons_of_mem _ hq)) hd.2 hp'

/-- Painting keeps the canonical form. -/
theorem paintMem_wf (s : State) (pxs : List (Nat × Nat × Byte)) {m : List Host.Cell} (h : Memory.wf outBlank m) :
    Memory.wf outBlank (paintMem s pxs m) := by
  induction pxs generalizing m with
  | nil => exact h
  | cons px pxs ih => exact ih (Memory.wf_write _ _ h)

/-- The 16 pixels of a whole block (44_video_blocks.md R236, R239). -/
theorem paintMem_block {s : State} (hf : FrameWf s) (hr : s.scanRow < s.height) (f : Nat → Nat → Byte)
    (m : List Host.Cell) :
    (∀ r c : Nat, r < 4 → c < 4 → Memory.read outBlank (paintMem s (blockPixels f) m) (pixelAddr s r c) = some (f r c)) ∧
      ∀ a, ¬ inBlock s a → Memory.read outBlank (paintMem s (blockPixels f) m) a = Memory.read outBlank m a := by
  constructor
  · intro r c h4 h4'
    refine paintMem_pixel hf hr ?_ ?_ ?_
    · intro px hpx
      obtain ⟨k, hk, rfl⟩ := List.mem_map.1 hpx
      exact Nat.mod_lt _ (by omega)
    · have e : (blockPixels f).map (fun px => (px.1, px.2.1)) = (List.range 16).map fun k => (k / 4, k % 4) := by
        rw [blockPixels, List.map_map]
        rfl
      rw [e]
      decide
    · refine List.mem_map.2 ⟨4 * r + c, List.mem_range.2 (by omega), ?_⟩
      have e1 : (4 * r + c) / 4 = r := by omega
      have e2 : (4 * r + c) % 4 = c := by omega
      simp only [e1, e2]
  · intro a ha
    refine paintMem_other fun px hpx he => ha ?_
    obtain ⟨k, hk, rfl⟩ := List.mem_map.1 hpx
    rw [List.mem_range] at hk
    exact ⟨k / 4, k % 4, by omega, by omega, he.symm⟩

/-! ### Lookups -/

/-- A lookup neither reads nor writes FB. -/
theorem btLookup_setFb (id : Fin 4) (s : State) (m : List Host.Cell) :
    btLookup id (s.setFb m) = match btLookup id s with
      | .ok v u => .ok v (u.setFb m)
      | .error c u => .error c (u.setFb m) := by
  cases h : s.vt[id] with
  | absent =>
    rw [btLookup_absent h, btLookup_absent (s := s.setFb m) h]
  | present low high root cache =>
    rw [btLookup_present h, btLookup_present (s := s.setFb m) h]
    simp only [State.setFb_inMem, State.setFb_bs]
    rcases walkBNode s.inMem cache root s.bs with ⟨v, b⟩ | ⟨c, b⟩ <;> rfl

/-- The trees of two states differ in their caches at most (10_state.md R29). -/
def SameTrees (s t : State) : Prop :=
  ∀ id : Fin 4, match s.vt[id] with
    | .absent => t.vt[id] = .absent
    | .present low high root _ => ∃ c, t.vt[id] = .present low high root c

theorem SameTrees.refl (s : State) : SameTrees s s := by
  intro id
  cases h : s.vt[id] with
  | absent => rfl
  | present low high root c => exact ⟨c, rfl⟩

theorem SameTrees.trans {s t u : State} (h : SameTrees s t) (h' : SameTrees t u) : SameTrees s u := by
  intro id
  have a := h id
  have b := h' id
  cases hs : s.vt[id] with
  | absent =>
    rw [hs] at a
    simp only at a
    rw [a] at b
    exact b
  | present low high root c =>
    rw [hs] at a
    obtain ⟨d, hd⟩ := a
    rw [hd] at b
    exact b

theorem SameTrees.set {s t : State} {id : Fin 4} {low high : SmallTree} {root : BNode} {cache cache' : Cache}
    (h : s.vt[id] = .present low high root cache) (ht : t.vt = s.vt.set id (.present low high root cache')) :
    SameTrees s t := by
  intro j
  by_cases hj : j = id
  · subst hj
    rw [h]
    exact ⟨cache', by rw [ht]; simp⟩
  · have e : t.vt[j] = s.vt[j] := by
      rw [ht]
      exact Vector.getElem_set_ne _ _ (fun h' => hj (Fin.ext h'.symm))
    have := SameTrees.refl s j
    rw [e]
    exact this

/-- What an operation of a frame's decoding may change: the position, the caches, FB (60_exceptions.md R299). -/
structure DrawFrame (s t : State) : Prop where
  frame : t = { s with bs := t.bs, vt := t.vt, fb := t.fb }
  trees : SameTrees s t

theorem DrawFrame.refl (s : State) : DrawFrame s s := ⟨rfl, .refl s⟩

theorem DrawFrame.trans {s t u : State} (h : DrawFrame s t) (h' : DrawFrame t u) : DrawFrame s u := by
  refine ⟨?_, h.trees.trans h'.trees⟩
  have e1 := h.frame
  have e2 := h'.frame
  rw [e1] at e2
  exact e2

theorem DrawFrame.setFb (s : State) (m : List Host.Cell) : DrawFrame s (s.setFb m) := ⟨rfl, .refl s⟩

/-- An operation that changes what a frame's decoding may change, and raises only what it may raise
(60_exceptions.md R293). -/
def Draws {α : Type} (e : Engine α) : Prop :=
  ∀ s, match e s with
    | .ok _ t => DrawFrame s t
    | .error c t => DrawFrame s t ∧ (c = .absentTree ∨ c = .exhausted)

theorem draws_pure {α : Type} (a : α) : Draws (pure a : Engine α) := fun s => .refl s

theorem draws_bind {α β : Type} {e : Engine α} {f : α → Engine β} (h : Draws e) (hf : ∀ a, Draws (f a)) :
    Draws (e >>= f) := by
  intro s
  have h1 := h s
  rw [ops_bind]
  rcases he : e s with ⟨a, t⟩ | ⟨c, t⟩
  · simp only [he] at h1
    have h2 := hf a t
    dsimp only
    rcases hfa : f a t with ⟨b, u⟩ | ⟨c, u⟩
    · simp only [hfa] at h2
      exact h1.trans h2
    · simp only [hfa] at h2
      exact ⟨h1.trans h2.1, h2.2⟩
  · simp only [he] at h1
    exact h1

theorem draws_paint (pxs : List (Nat × Nat × Byte)) : Draws (modify (paint pxs)) := by
  intro s
  rw [ops_modify, paint_eq]
  exact .setFb _ _

theorem draws_btLookup (id : Fin 4) : Draws (btLookup id) := by
  intro s
  rcases btLookup_cases id s with ⟨_, h⟩ | ⟨low, high, root, cache, hv, ⟨bits, leaf, _, _, _, h⟩ | h⟩
  · rw [h]
    exact ⟨.refl s, .inl rfl⟩
  · rw [h]
    exact ⟨rfl, .set hv rfl⟩
  · rw [h]
    exact ⟨⟨rfl, .refl s⟩, .inr rfl⟩

theorem draws_drawMono : Draws drawMono :=
  draws_bind (draws_btLookup _) fun _ => draws_bind (draws_btLookup _) fun _ => draws_paint _

theorem draws_drawFullRow (r : Nat) : Draws (drawFullRow r) :=
  draws_bind (draws_btLookup _) fun _ => draws_bind (draws_paint _) fun _ => draws_bind (draws_btLookup _) fun _ =>
    draws_paint _

theorem draws_drawFull : Draws drawFull :=
  draws_bind (draws_drawFullRow _) fun _ => draws_bind (draws_drawFullRow _) fun _ =>
    draws_bind (draws_drawFullRow _) fun _ => draws_drawFullRow _

theorem draws_drawDoubleBand (k : Nat) : Draws (drawDoubleBand k) :=
  draws_bind (draws_btLookup _) fun _ => draws_paint _

theorem draws_drawDouble : Draws drawDouble := draws_bind (draws_drawDoubleBand _) fun _ => draws_drawDoubleBand _

theorem draws_drawHalfBand (k : Nat) : Draws (drawHalfBand k) :=
  draws_bind (draws_btLookup _) fun _ => draws_bind (draws_paint _) fun _ => draws_bind (draws_btLookup _) fun _ =>
    draws_paint _

theorem draws_drawHalf : Draws drawHalf := by
  intro s
  simp only [drawHalf, ops_bind, ops_get]
  cases s.params.halfVariant
  · exact draws_bind (draws_drawHalfBand _) (fun _ => draws_drawHalfBand _) s
  · exact draws_drawDouble s

/-- Every block type draws (44_video_blocks.md R236 to R241). -/
theorem draws_block (i : Instr) : Draws (blockDraw i) := by
  cases i
  case mono => exact draws_drawMono
  case full => exact draws_drawFull
  case double => exact draws_drawDouble
  case half => exact draws_drawHalf
  case solid => exact draws_paint _
  all_goals exact draws_pure _

end Sys2Proof.Machine
end

