-- ==== Sys2Proof/Laws/PerInstr.lean ====
section
/-! SUPPORT. One lemma per instruction: its encoding has the length the tables of 30_encoding.md give it. -/

-- The package is compiled as one text: elaborating in order keeps the number of threads small.
set_option Elab.async false

namespace Sys2Proof.Laws.EncodedLength

open Sys2Proof

/-- The number of bits of an instruction at a place of format `f` (30_encoding.md R90 to R116). A NODE16 leaf's tag is its
own; the code words after it are data (R100). -/
def bitCount (f : Format) (i : Instr) : Nat :=
  match i with
  | .nop | .softReset | .logClear | .bsOpen | .bsReadBit | .bsReadByte | .stBuild | .stLookup | .btBuild
  | .btBuildAll | .btReset | .btLookup | .audDecode | .vidDecode => 8
  | .mono _ _ | .void _ _ | .solid _ _ => 16
  | .full _ _ => if f = .typeWord true then 18 else 16
  | .double _ _ => 17
  | .half _ _ => 18
  | .tree8Absent | .tree8Present | .node8Branch | .treeTerm | .tree16Absent | .tree16Present | .node16Branch
  | .node16Leaf => 1
  | .node8Leaf _ => 9
  | .seed _ _ | .dpcmInit16 _ _ => 16
  | .dpcmN _ => 32
  | .dpcmHeader _ _ => 3
  | .dpcmInit8 _ => 8

/-- The statement of the family. -/
def Statement (i : Instr) : Prop := ∀ f : Format, WellFormed f i = true → (encode f i).length = bitCount f i

theorem nop : Statement .nop := by
  intro f h
  simp [encode, bitCount, commandCode]

theorem softReset : Statement .softReset := by
  intro f h
  simp [encode, bitCount, commandCode]

theorem logClear : Statement .logClear := by
  intro f h
  simp [encode, bitCount, commandCode]

theorem bsOpen : Statement .bsOpen := by
  intro f h
  simp [encode, bitCount, commandCode]

theorem bsReadBit : Statement .bsReadBit := by
  intro f h
  simp [encode, bitCount, commandCode]

theorem bsReadByte : Statement .bsReadByte := by
  intro f h
  simp [encode, bitCount, commandCode]

theorem stBuild : Statement .stBuild := by
  intro f h
  simp [encode, bitCount, commandCode]

theorem stLookup : Statement .stLookup := by
  intro f h
  simp [encode, bitCount, commandCode]

theorem btBuild : Statement .btBuild := by
  intro f h
  simp [encode, bitCount, commandCode]

theorem btBuildAll : Statement .btBuildAll := by
  intro f h
  simp [encode, bitCount, commandCode]

theorem btReset : Statement .btReset := by
  intro f h
  simp [encode, bitCount, commandCode]

theorem btLookup : Statement .btLookup := by
  intro f h
  simp [encode, bitCount, commandCode]

theorem audDecode : Statement .audDecode := by
  intro f h
  simp [encode, bitCount, commandCode]

theorem vidDecode : Statement .vidDecode := by
  intro f h
  simp [encode, bitCount, commandCode]

theorem mono (p : Byte) (r : BitVec 6) : Statement (.mono p r) := by
  intro f h
  simp [encode, bitCount]

theorem full (p : Byte) (r : BitVec 6) : Statement (.full p r) := by
  intro f h
  by_cases hf : f = .typeWord true <;> simp [encode, bitCount, hf]

theorem void (p : Byte) (r : BitVec 6) : Statement (.void p r) := by
  intro f h
  simp [encode, bitCount]

theorem solid (p : Byte) (r : BitVec 6) : Statement (.solid p r) := by
  intro f h
  simp [encode, bitCount]

theorem double (p : Byte) (r : BitVec 6) : Statement (.double p r) := by
  intro f h
  simp [encode, bitCount]

theorem half (p : Byte) (r : BitVec 6) : Statement (.half p r) := by
  intro f h
  simp [encode, bitCount]

theorem tree8Absent : Statement .tree8Absent := by
  intro f h
  simp [encode, bitCount]

theorem tree8Present : Statement .tree8Present := by
  intro f h
  simp [encode, bitCount]

theorem node8Branch : Statement .node8Branch := by
  intro f h
  simp [encode, bitCount]

theorem node8Leaf (v : Byte) : Statement (.node8Leaf v) := by
  intro f h
  simp [encode, bitCount]

theorem treeTerm : Statement .treeTerm := by
  intro f h
  simp [encode, bitCount]

theorem tree16Absent : Statement .tree16Absent := by
  intro f h
  simp [encode, bitCount]

theorem tree16Present : Statement .tree16Present := by
  intro f h
  simp [encode, bitCount]

theorem seed (l h : Byte) : Statement (.seed l h) := by
  intro f h
  simp [encode, bitCount]

theorem node16Branch : Statement .node16Branch := by
  intro f h
  simp [encode, bitCount]

theorem node16Leaf : Statement .node16Leaf := by
  intro f h
  simp [encode, bitCount]

theorem dpcmN (n : Word) : Statement (.dpcmN n) := by
  intro f h
  simp [encode, bitCount]

theorem dpcmHeader (s d : Bool) : Statement (.dpcmHeader s d) := by
  intro f h
  simp [encode, bitCount]

theorem dpcmInit8 (v : Byte) : Statement (.dpcmInit8 v) := by
  intro f h
  simp [encode, bitCount]

theorem dpcmInit16 (h l : Byte) : Statement (.dpcmInit16 h l) := by
  intro f h
  simp [encode, bitCount]

end Sys2Proof.Laws.EncodedLength
end

