-- ==== Sys2Proof/Laws/Runs.lean ====
section
/-! SUPPORT. Everything one step of a running command can do, one lemma for each command that runs over tokens, with a
measure that falls (70_reset_and_hazards.md R341). -/

-- The package is compiled as one text: elaborating in order keeps the number of threads small.
set_option Elab.async false

namespace Sys2Proof.Machine

open Sys2Proof Sys2Proof.Config

/-! ### Readers that consume -/

/-- A reader that, when it succeeds, has consumed at least a bit; when it raises, a cause of `C`. -/
def Consumes {α : Type} (C : Cause → Prop) (r : Reader α) : Prop :=
  ∀ b, match r b with
    | .ok _ c => ∃ j, 0 < j ∧ j ≤ b.left ∧ c = b.skip j
    | .error e c => C e ∧ ∃ j ≤ b.left, c = b.skip j

/-- A reader that moves forward, perhaps by no bit; when it raises, a cause of `C`. -/
def Moves {α : Type} (C : Cause → Prop) (r : Reader α) : Prop :=
  ∀ b, match r b with
    | .ok _ c => ∃ j ≤ b.left, c = b.skip j
    | .error e c => C e ∧ ∃ j ≤ b.left, c = b.skip j

theorem moves_pure {α : Type} {C : Cause → Prop} (a : α) : Moves C (pure a : Reader α) :=
  fun b => ⟨0, Nat.zero_le _, by simp⟩

theorem moves_throw {α : Type} {C : Cause → Prop} {c : Cause} (h : C c) : Moves C (throw c : Reader α) :=
  fun b => ⟨h, 0, Nat.zero_le _, by simp⟩

theorem moves_bind {α β : Type} {C : Cause → Prop} {r : Reader α} {f : α → Reader β} (h : Moves C r)
    (hf : ∀ a, Moves C (f a)) : Moves C (r >>= f) := by
  intro b
  have h1 := h b
  rw [ops_bind]
  rcases hr : r b with ⟨a, c⟩ | ⟨e, c⟩ <;> simp only [hr] at h1 ⊢
  · obtain ⟨j, hj, rfl⟩ := h1
    have h2 := hf a (b.skip j)
    rcases hfa : f a (b.skip j) with ⟨x, d⟩ | ⟨e, d⟩ <;> simp only [hfa] at h2 ⊢
    · obtain ⟨i, hi, rfl⟩ := h2
      rw [BitStream.left_skip hj] at hi
      exact ⟨j + i, by omega, BitStream.skip_skip hj⟩
    · obtain ⟨he, i, hi, rfl⟩ := h2
      rw [BitStream.left_skip hj] at hi
      exact ⟨he, j + i, by omega, BitStream.skip_skip hj⟩
  · exact h1

theorem consumes_bind {α β : Type} {C : Cause → Prop} {r : Reader α} {f : α → Reader β} (h : Consumes C r)
    (hf : ∀ a, Moves C (f a)) : Consumes C (r >>= f) := by
  intro b
  have h1 := h b
  rw [ops_bind]
  rcases hr : r b with ⟨a, c⟩ | ⟨e, c⟩ <;> simp only [hr] at h1 ⊢
  · obtain ⟨j, h0, hj, rfl⟩ := h1
    have h2 := hf a (b.skip j)
    rcases hfa : f a (b.skip j) with ⟨x, d⟩ | ⟨e, d⟩ <;> simp only [hfa] at h2 ⊢
    · obtain ⟨i, hi, rfl⟩ := h2
      rw [BitStream.left_skip hj] at hi
      exact ⟨j + i, by omega, by omega, BitStream.skip_skip hj⟩
    · obtain ⟨he, i, hi, rfl⟩ := h2
      rw [BitStream.left_skip hj] at hi
      exact ⟨he, j + i, by omega, BitStream.skip_skip hj⟩
  · exact h1

theorem consumes_readBit {C : Cause → Prop} (hC : C .exhausted) (m : List Host.Cell) : Consumes C (readBit m) := by
  intro b
  rcases h : remaining m b with _ | ⟨v, rest⟩
  · rw [readBit_nil (remaining_nil.1 h)]
    exact ⟨hC, 0, Nat.zero_le _, by simp⟩
  · rw [readBit_cons h]
    exact ⟨1, Nat.one_pos, (remaining_after (bits := [v]) h).1, rfl⟩

theorem Consumes.moves {α : Type} {C : Cause → Prop} {r : Reader α} (h : Consumes C r) : Moves C r := by
  intro b
  have h1 := h b
  rcases hr : r b with ⟨a, c⟩ | ⟨e, c⟩ <;> simp only [hr] at h1 ⊢
  · obtain ⟨j, _, hj, e⟩ := h1
    exact ⟨j, hj, e⟩
  · exact h1

theorem moves_readBits {C : Cause → Prop} (hC : C .exhausted) (m : List Host.Cell) (k : Nat) : Moves C (readBits m k) := by
  induction k with
  | zero => exact moves_pure _
  | succ k ih => exact moves_bind (consumes_readBit hC m).moves fun _ => moves_bind ih fun _ => moves_pure _

theorem moves_readByte {C : Cause → Prop} (hC : C .exhausted) (m : List Host.Cell) : Moves C (readByte m) :=
  moves_bind (moves_readBits hC m 8) fun _ => moves_pure _

theorem moves_stLookup {C : Cause → Prop} (hC : C .exhausted) (hA : C .absentTree) (m : List Host.Cell) (t : SmallTree) :
    Moves C (stLookup m t) := by
  cases t with
  | absent => exact moves_throw hA
  | present n =>
    intro b
    have h : stLookup m (.present n) b = walkNode m n b := rfl
    rw [h]
    rcases walkNode_cases m n b with ⟨bits, v, rest, _, hr, hw⟩ | ⟨_, hw⟩
    · rw [hw]
      exact ⟨bits.length, (remaining_after hr).1, rfl⟩
    · rw [hw]
      exact ⟨hC, b.left, Nat.le_refl _, rfl⟩

/-- The causes a small tree's build may raise (60_exceptions.md R293). -/
def SmallCause (c : Cause) : Prop := c = .exhausted ∨ c = .badTerminator ∨ c = .treeCapacity

/-- The causes a bigtree's build may raise (60_exceptions.md R293). -/
def BigCause (c : Cause) : Prop := SmallCause c ∨ c = .absentTree

theorem consumes_smallStep (p : Params) (m : List Host.Cell) (w : SmallWork) : Consumes SmallCause (smallStep p m w) := by
  have hE : SmallCause .exhausted := .inl rfl
  cases w with
  | control => exact consumes_bind (consumes_readBit hE m) fun _ => moves_pure _
  | node path count =>
    refine consumes_bind (consumes_readBit hE m) fun tag => ?_
    split
    · split
      · exact moves_pure _
      · exact moves_bind (moves_readByte hE m) fun _ => moves_pure _
    · exact moves_throw (.inr (.inr rfl))
  | term root =>
    refine consumes_bind (consumes_readBit hE m) fun b => ?_
    split
    · exact moves_throw (.inr (.inl rfl))
    · exact moves_pure _

theorem consumes_bigStep (p : Params) (m : List Host.Cell) {w : BigWork} (hw : w.isOuter = true) :
    Consumes BigCause (bigStep p m w) := by
  have hE : BigCause .exhausted := .inl (.inl rfl)
  cases w with
  | low w => cases hw
  | high low w => cases hw
  | control => exact consumes_bind (consumes_readBit hE m) fun _ => moves_pure _
  | seeds low high got =>
    refine consumes_bind (consumes_bind (r := readByte m) ?_ fun _ => moves_bind (moves_readByte hE m) fun _ =>
      moves_pure _) fun _ => moves_pure _
    exact consumes_bind (consumes_bind (consumes_readBit hE m) fun _ =>
      moves_bind (moves_readBits hE m 7) fun _ => moves_pure _) fun _ => moves_pure _
  | node low high seeds path count =>
    refine consumes_bind (consumes_readBit hE m) fun tag => ?_
    split
    · split
      · exact moves_pure _
      · exact moves_bind (moves_stLookup hE (.inr rfl) m low) fun _ =>
          moves_bind (moves_stLookup hE (.inr rfl) m high) fun _ => moves_pure _
    · exact moves_throw (.inl (.inr (.inr rfl)))
  | term low high seeds root =>
    refine consumes_bind (consumes_readBit hE m) fun b => ?_
    split
    · exact moves_throw (.inl (.inr (.inl rfl)))
    · exact moves_pure _

/-! ### ST_BUILD -/

/-- Everything a step of ST_BUILD can do (41_small_tree.md R153). -/
theorem engineStep_small_cases {s : State} {slot : Fin 4} {w : SmallWork} (h : s.work = .small slot w) :
    (∃ j w', 0 < j ∧ j ≤ s.bs.left ∧
      engineStep tokenMeaning s = .next ((s.setBs (s.bs.skip j)).setWork (.small slot w'))) ∨
    (∃ j tree, 0 < j ∧ j ≤ s.bs.left ∧
      engineStep tokenMeaning s = .next (((s.setBs (s.bs.skip j)).setAtree slot tree).setWork .idle)) ∨
    (∃ j c, j ≤ s.bs.left ∧ SmallCause c ∧
      engineStep tokenMeaning s = .next (raiseFault c (s.setBs (s.bs.skip j)))) := by
  have hw : smallWork? s.work = some w := by rw [h]; rfl
  rw [engineStep_small hw]
  have hc := consumes_smallStep s.params s.inMem w s.bs
  rcases hr : smallStep s.params s.inMem w s.bs with ⟨p, b⟩ | ⟨c, b⟩ <;> simp only [hr] at hc ⊢
  · obtain ⟨j, h0, hj, rfl⟩ := hc
    cases p with
    | more w' => exact .inl ⟨j, w', h0, hj, by simp only [putSmall, State.setBs_work, h]⟩
    | done t => exact .inr (.inl ⟨j, t, h0, hj, by simp only [putSmall, State.setBs_work, h]⟩)
  · obtain ⟨hC, j, hj, rfl⟩ := hc
    exact .inr (.inr ⟨j, c, hj, hC, rfl⟩)

/-! ### BT_BUILD, BT_BUILD_ALL -/

/-- Everything a step of BT_BUILD or BT_BUILD_ALL can do (42_big_tree.md R176, R177): a token inside the bigtree, the end of
the bigtree, or a fault. -/
theorem engineStep_big_cases {f : BigWork → Work} (hf : IsBig f) {s : State} {w : BigWork} (h : s.work = f w) :
    (∃ j w', 0 < j ∧ j ≤ s.bs.left ∧
      engineStep tokenMeaning s = .next ((s.setBs (s.bs.skip j)).setWork (f w'))) ∨
    (∃ j tree, 0 < j ∧ j ≤ s.bs.left ∧
      engineStep tokenMeaning s = .next (putBig (.done tree) (s.setBs (s.bs.skip j)))) ∨
    (∃ j c, j ≤ s.bs.left ∧ BigCause c ∧
      engineStep tokenMeaning s = .next (raiseFault c (s.setBs (s.bs.skip j)))) := by
  by_cases ho : w.isOuter = true
  · rw [engineStep_big hf h ho]
    have hc := consumes_bigStep s.params s.inMem ho s.bs
    rcases hr : bigStep s.params s.inMem w s.bs with ⟨p, b⟩ | ⟨c, b⟩ <;> simp only [hr] at hc ⊢
    · obtain ⟨j, h0, hj, rfl⟩ := hc
      cases p with
      | more w' => exact .inl ⟨j, w', h0, hj, by rw [hf.putBig_more (s := s.setBs (s.bs.skip j)) h]⟩
      | done t => exact .inr (.inl ⟨j, t, h0, hj, rfl⟩)
    · obtain ⟨hC, j, hj, rfl⟩ := hc
      exact .inr (.inr ⟨j, c, hj, hC, rfl⟩)
  · have key : ∀ v, smallWork? s.work = some v → (∀ p, ∃ w', ∀ b, putSmall p (s.setBs b) = (s.setBs b).setWork (f w')) →
        (∃ j w', 0 < j ∧ j ≤ s.bs.left ∧
          engineStep tokenMeaning s = .next ((s.setBs (s.bs.skip j)).setWork (f w'))) ∨
        (∃ j tree, 0 < j ∧ j ≤ s.bs.left ∧
          engineStep tokenMeaning s = .next (putBig (.done tree) (s.setBs (s.bs.skip j)))) ∨
        (∃ j c, j ≤ s.bs.left ∧ BigCause c ∧
          engineStep tokenMeaning s = .next (raiseFault c (s.setBs (s.bs.skip j)))) := by
      intro v hv hput
      rw [engineStep_small hv]
      have hc := consumes_smallStep s.params s.inMem v s.bs
      rcases hr : smallStep s.params s.inMem v s.bs with ⟨p, b⟩ | ⟨c, b⟩ <;> simp only [hr] at hc ⊢
      · obtain ⟨j, h0, hj, rfl⟩ := hc
        obtain ⟨w', e⟩ := hput p
        exact .inl ⟨j, w', h0, hj, by rw [e]⟩
      · obtain ⟨hC, j, hj, rfl⟩ := hc
        exact .inr (.inr ⟨j, c, hj, .inl hC, rfl⟩)
    cases w with
    | low v =>
      refine key v (by rw [h]; exact hf.smallWork_low v) fun p => ⟨bigAfterSmall (.low v) p, fun b => ?_⟩
      unfold putSmall
      rw [State.setBs_work, h]
      rcases hf with ⟨id, rfl⟩ | ⟨id, rfl⟩ <;> rfl
    | high low v =>
      refine key v (by rw [h]; exact hf.smallWork_high low v) fun p => ⟨bigAfterSmall (.high low v) p, fun b => ?_⟩
      unfold putSmall
      rw [State.setBs_work, h]
      rcases hf with ⟨id, rfl⟩ | ⟨id, rfl⟩ <;> rfl
    | control => exact absurd rfl ho
    | seeds low high got => exact absurd rfl ho
    | node low high seeds path count => exact absurd rfl ho
    | term low high seeds root => exact absurd rfl ho

/-- The end of a bigtree of BT_BUILD_ALL: the next tree, or the end of the command (42_big_tree.md R177). -/
theorem putBig_done_all {s : State} {id : Fin 4} {w : BigWork} (h : s.work = .bigAll id w) (t : BigTree) :
    (∃ id' : Fin 4, id'.val = id.val + 1 ∧ putBig (.done t) s = (s.setVt id t).setWork (.bigAll id' .control)) ∨
      (id.val = 3 ∧ putBig (.done t) s = (s.setVt id t).setWork .idle) := by
  simp only [putBig, h]
  split
  · exact .inl ⟨⟨id.val + 1, ‹_›⟩, rfl, rfl⟩
  · exact .inr ⟨by omega, rfl⟩

/-- The end of the bigtree of BT_BUILD (42_big_tree.md R176). -/
theorem putBig_done_one {s : State} {id : Fin 4} {w : BigWork} (h : s.work = .big id w) (t : BigTree) :
    putBig (.done t) s = (s.setVt id t).setWork .idle := by
  simp only [putBig, h]

/-! ### AUD_DECODE -/

/-- How many steps a DPCM record's decoding takes at most, from a state in the middle of it. -/
def audioMeasure (s : State) : Nat :=
  match s.work with
  | .audio _ .length => 8 * s.arg1.toNat + 2 ^ 32 + 6
  | .audio _ (.header n) => s.bs.left + n.toNat + 5
  | .audio _ (.trees n _ _) => s.bs.left + n.toNat + 4
  | .audio _ (.init n got) => n.toNat + (if got = [] then 3 else 2)
  | .audio _ (.deltas n out _ _) => n.toNat - out + 1
  | _ => 0

/-- The answer of a step of AUD_DECODE's run: the record goes on, with less left to do; it is complete; or a fault is
raised. -/
def AudioStep (k : Fin 7) (s : State) (a : Answer) : Prop :=
  (∃ t w', a = .next t ∧ AudioFrame k s t ∧ t.work = .audio k w' ∧ audioMeasure t < audioMeasure s) ∨
    (∃ t, a = .next t ∧ AudioFrame k s t ∧ t.work = .idle) ∨
    (∃ c t, a = .next (raiseFault c t) ∧ AudioFrame k s t ∧ t.work = s.work)

/-- Everything a step of AUD_DECODE's run can do (43_audio_dpcm.md R202 to R210). -/
theorem engineStep_audio_cases {s : State} {k : Fin 7} {w : AudioWork} (h : s.work = .audio k w) :
    AudioStep k s (engineStep tokenMeaning s) := by
  cases w with
  | length =>
    rw [engineStep_length h]
    by_cases h4 : s.arg1.toNat < 4
    · rw [if_pos h4]
      exact .inr (.inr ⟨_, s, rfl, .refl k s, rfl⟩)
    · rw [if_neg h4]
      refine .inl ⟨_, _, rfl, ?_, rfl, ?_⟩
      · unfold AudioFrame
        simp [State.openWindow, State.clearAtree, State.setWork]
      · have h1 := (recordLength s).isLt
        have h2 := BitStream.left_le { base := s.arg0 + 4, size := s.arg1 - 4, bytePos := 0, bitPos := 0 }
        have h3 : (s.arg1 - 4).toNat ≤ s.arg1.toNat := by
          rw [BitVec.toNat_sub_of_le (by rw [BitVec.le_def]; exact Nat.le_of_not_lt h4)]
          exact Nat.sub_le _ _
        simp only [audioMeasure, State.setWork_work, h, State.setWork_bs, State.clearAtree_bs, State.openWindow_bs]
        dsimp only at h2
        omega
  | header n =>
    rw [engineStep_header h]
    have fault : ∀ c b, AudioStep k s (.next (raiseFault c (s.setBs b))) :=
      fun c b => .inr (.inr ⟨c, _, rfl, .setBs k s b, rfl⟩)
    have c1 := consumes_readBit (C := (· = .exhausted)) rfl s.inMem s.bs
    rcases h1 : readBit s.inMem s.bs with ⟨v, b1⟩ | ⟨c, b1⟩ <;> simp only [h1] at c1 ⊢
    · obtain ⟨j1, hj1, hl1, rfl⟩ := c1
      cases v
      · exact fault _ _
      · dsimp only
        have c2 := consumes_readBit (C := (· = .exhausted)) rfl s.inMem (s.bs.skip j1)
        rcases h2 : readBit s.inMem (s.bs.skip j1) with ⟨st, b2⟩ | ⟨c, b2⟩ <;> simp only [h2] at c2 ⊢
        · obtain ⟨j2, hj2, hl2, rfl⟩ := c2
          have c3 := consumes_readBit (C := (· = .exhausted)) rfl s.inMem ((s.bs.skip j1).skip j2)
          rcases h3 : readBit s.inMem ((s.bs.skip j1).skip j2) with ⟨d16, b3⟩ | ⟨c, b3⟩ <;> simp only [h3] at c3 ⊢
          · obtain ⟨j3, hj3, hl3, rfl⟩ := c3
            simp only [dpcmHeaderCheck, perform, ops_bind, ops_get]
            have hlog : ∀ (u : State) (l : Half), AudioFrame k u { u with log := l } := by
              intro u l
              unfold AudioFrame
              simp
            split
            · rename_i t he
              split at he
              · cases he
              · simp only [ops_bind, ops_set] at he
                split at he
                · cases he
                · simp only [ops_modify] at he
                  cases he
                  refine .inl ⟨_, _, rfl, ((AudioFrame.setBs k s _).trans (hlog _ _)).trans (.setWork k _ _), rfl, ?_⟩
                  simp only [audioMeasure, State.setWork_work, h, State.setWork_bs, State.setBs_bs,
                    BitStream.left_skip hl3, BitStream.left_skip hl2, BitStream.left_skip hl1]
                  omega
            · rename_i c t he
              split at he
              · cases he
                exact fault _ _
              · simp only [ops_bind, ops_set] at he
                split at he
                · cases he
                  exact .inr (.inr ⟨_, _, rfl, (AudioFrame.setBs k s _).trans (hlog _ _), rfl⟩)
                · cases he
          · exact fault _ _
        · exact fault _ _
    · exact fault _ _
  | trees n slot v =>
    have hv : smallWork? s.work = some v := by rw [h]; rfl
    rw [engineStep_small hv]
    have hc := consumes_smallStep s.params s.inMem v s.bs
    rcases hr : smallStep s.params s.inMem v s.bs with ⟨p, b⟩ | ⟨c, b⟩ <;> simp only [hr] at hc ⊢
    · obtain ⟨j, h0, hj, rfl⟩ := hc
      have hleft := BitStream.left_skip hj
      cases p with
      | more w' =>
        refine .inl ⟨(s.setBs (s.bs.skip j)).setWork (.audio k (.trees n slot w')), _,
          by simp only [putSmall, State.setBs_work, h], (AudioFrame.setBs k s _).trans (.setWork k _ _), rfl, ?_⟩
        simp only [audioMeasure, State.setWork_work, h, State.setWork_bs, State.setBs_bs, hleft]
        omega
      | done tree =>
        rcases hn : nextTreeSlot s.trk[k] slot with _ | next
        · refine .inl ⟨((s.setBs (s.bs.skip j)).setAtree slot tree).setWork (.audio k (.init n [])), _,
            by simp only [putSmall, State.setBs_work, State.setBs_trk, h, hn],
            ((AudioFrame.setBs k s _).trans (.setAtree k _ _ _)).trans (.setWork k _ _), rfl, ?_⟩
          simp only [audioMeasure, State.setWork_work, h, if_true]
          omega
        · refine .inl ⟨((s.setBs (s.bs.skip j)).setAtree slot tree).setWork (.audio k (.trees n next .control)), _,
            by simp only [putSmall, State.setBs_work, State.setBs_trk, h, hn],
            ((AudioFrame.setBs k s _).trans (.setAtree k _ _ _)).trans (.setWork k _ _), rfl, ?_⟩
          simp only [audioMeasure, State.setWork_work, h, State.setWork_bs, State.setAtree_bs, State.setBs_bs, hleft]
          omega
    · obtain ⟨_, j, hj, rfl⟩ := hc
      exact .inr (.inr ⟨c, _, rfl, .setBs k s _, rfl⟩)
  | init n got =>
    rw [engineStep_init h]
    rcases hb : readBits s.inMem (8 * trkBytes s.trk[k]) s.bs with ⟨bits, b⟩ | ⟨c, b⟩
    · obtain ⟨hf, _, hw⟩ := dpcmInitial_cases k n got (initialSample (trkDepth16 s.trk[k]) bits) (s.setBs b)
      have hf' := (AudioFrame.setBs k s b).trans hf
      rcases hw with ⟨rfl, hw⟩ | ⟨out, p0, p1, h0, hn, hw⟩ | hw
      · refine .inl ⟨_, _, rfl, hf', hw, ?_⟩
        simp only [audioMeasure, hw, h, if_true, reduceCtorEq, if_false]
        omega
      · refine .inl ⟨_, _, rfl, hf', hw, ?_⟩
        simp only [audioMeasure, hw, h]
        split <;> omega
      · exact .inr (.inl ⟨_, rfl, hf', hw⟩)
    · exact .inr (.inr ⟨c, _, rfl, .setBs k s _, rfl⟩)
  | deltas n out p0 p1 =>
    rw [engineStep_deltas h]
    rcases deltaFrame_cases k n out p0 p1 s with ⟨t, he, hf, ⟨out', q0, q1, h1, h2, hw⟩ | hw⟩ | ⟨c, t, he, hf, hw⟩
    · refine .inl ⟨t, _, perform_ok he, hf, hw, ?_⟩
      simp only [audioMeasure, hw, h]
      omega
    · exact .inr (.inl ⟨t, perform_ok he, hf, hw⟩)
    · exact .inr (.inr ⟨c, t, perform_error he, hf, hw⟩)

/-! ### VID_DECODE -/

/-- What a step of VID_DECODE's run may change before its end: what drawing may change, and the cursor
(60_exceptions.md R299). -/
structure VideoFrame (s t : State) : Prop where
  frame : t = { s with
    bs := t.bs, vt := t.vt, fb := t.fb, scanRow := t.scanRow, scanCol := t.scanCol, work := t.work }
  trees : SameTrees s t

theorem VideoFrame.refl (s : State) : VideoFrame s s := ⟨rfl, .refl s⟩

theorem VideoFrame.trans {s t u : State} (h : VideoFrame s t) (h' : VideoFrame t u) : VideoFrame s u := by
  refine ⟨?_, h.trees.trans h'.trees⟩
  have e1 := h.frame
  have e2 := h'.frame
  rw [e1] at e2
  exact e2

theorem DrawFrame.video {s t : State} (h : DrawFrame s t) : VideoFrame s t := by
  refine ⟨?_, h.trees⟩
  have e := h.frame
  rw [e]

theorem videoFrame_advance (s : State) : VideoFrame s (advanceScan s) := by
  rw [advanceScan_frame]
  exact ⟨rfl, .refl s⟩

theorem videoFrame_setWork (s : State) (w : Work) : VideoFrame s (s.setWork w) := ⟨rfl, .refl s⟩

/-- Drawing changes neither the configuration nor the cursor. -/
theorem DrawFrame.frameWf {s t : State} (h : DrawFrame s t) (hf : FrameWf s) : FrameWf t := by
  rw [h.frame]
  exact hf

/-- The advance keeps the cursor in the frame (44_video_blocks.md R242). -/
theorem FrameWf.advance {s : State} (h : FrameWf s) (hr : s.scanRow < s.height) :
    FrameWf (advanceScan s) ∧ (¬ (advanceScan s).scanRow < (advanceScan s).height →
      (advanceScan s).scanRow = (advanceScan s).height ∧ (advanceScan s).scanCol = 0) := by
  obtain ⟨W, H, R, C, hW, hH, hR, hC, h1, h2⟩ := h.blocks hr
  obtain ⟨hl, _⟩ := id h
  by_cases hc : s.scanCol.toNat + 4 < s.width.toNat
  · obtain ⟨e, e'⟩ := advanceScan_along h hr hc
    rw [e]
    exact ⟨⟨hl, by dsimp only; omega, by dsimp only; omega, by dsimp only; omega, by dsimp only; omega⟩,
      fun hn => absurd hr hn⟩
  · obtain ⟨e, e'⟩ := advanceScan_wrap h hr (by omega)
    rw [e]
    refine ⟨⟨hl, by dsimp only; omega, rfl, by dsimp only; omega, ?_⟩, fun hn => ⟨?_, rfl⟩⟩
    · change 0 < s.width.toNat
      omega
    · dsimp only at hn ⊢
      rw [BitVec.lt_def] at hn
      exact BitVec.eq_of_toNat_eq (by omega)

/-- Everything a run of blocks can do (44_video_blocks.md R232, R235, R244): it ends with the cursor in the frame or at its
end, or a fault is raised at a block of the frame. -/
theorem drawRun_cases {draw : Engine Unit} (hd : Draws draw) (n : Nat) :
    ∀ {s : State}, FrameWf s → (¬ s.scanRow < s.height → s.scanRow = s.height ∧ s.scanCol = 0) →
    (∃ t, drawRun draw n s = .ok () t ∧ VideoFrame s t ∧ t.work = s.work ∧ FrameWf t ∧
      (¬ t.scanRow < t.height → t.scanRow = t.height ∧ t.scanCol = 0)) ∨
    (∃ c t, drawRun draw n s = .error c t ∧ VideoFrame s t ∧ t.work = s.work ∧ FrameWf t ∧ t.scanRow < t.height ∧
      (c = .absentTree ∨ c = .exhausted)) := by
  induction n with
  | zero => exact fun hf he => .inl ⟨_, rfl, .refl _, rfl, hf, he⟩
  | succ n ih =>
    intro s hf he
    simp only [drawRun, ops_bind, ops_get]
    by_cases hr : s.scanRow < s.height
    · simp only [hr, if_true, ops_bind]
      have h1 := hd s
      rcases hs : draw s with ⟨⟨⟩, u⟩ | ⟨c, u⟩ <;> simp only [hs] at h1 ⊢
      · have hwu : u.work = s.work := by rw [h1.frame]
        have hru : u.scanRow < u.height := by rw [h1.frame]; exact hr
        obtain ⟨hfa, hea⟩ := (h1.frameWf hf).advance hru
        have hwa : (advanceScan u).work = s.work := by rw [advanceScan_frame]; exact hwu
        simp only [ops_modify]
        rcases ih hfa hea with ⟨t, h2, h3, h4, h5⟩ | ⟨c, t, h2, h3, h4, h5⟩
        · exact .inl ⟨t, h2, (h1.video.trans (videoFrame_advance u)).trans h3, h4.trans hwa, h5⟩
        · exact .inr ⟨c, t, h2, (h1.video.trans (videoFrame_advance u)).trans h3, h4.trans hwa, h5⟩
      · exact .inr ⟨c, u, rfl, h1.1.video, by rw [h1.1.frame], h1.1.frameWf hf, by rw [h1.1.frame]; exact hr, h1.2⟩
    · simp only [hr, if_false, ops_pure]
      exact .inl ⟨s, rfl, .refl s, rfl, hf, he⟩

/-- The block types: the rows of 30_encoding.md R106. -/
def blockRunidx (i : Instr) : Option (BitVec 6) :=
  match i with
  | .mono _ r => some r
  | .full _ r => some r
  | .void _ r => some r
  | .solid _ r => some r
  | .double _ r => some r
  | .half _ r => some r
  | _ => none

/-- The meaning of a block type inside a frame is its run (44_video_blocks.md R232). -/
theorem tokenMeaning_block {i : Instr} {r : BitVec 6} (hi : blockRunidx i = some r) {s : State} (h : s.work = .video) :
    tokenMeaning i s = blockRun (blockDraw i) (runLength r) s := by
  cases i <;> cases hi <;>
    simp only [tokenMeaning, execMono, execFull, execVoid, execSolid, execDouble, execHalf, blockGroup, h, blockDraw]

/-- The bits of a TYPEWORD, decoded, with the TYPEEXT bits read so far. -/
theorem decode_typeWord (v4 : Bool) (w : Half) (ext : List Bool) :
    decode (.typeWord v4) (bitsOf w ++ ext) = decodeType v4 w ext := by
  have hl : (bitsOf w).length = 16 := bitsOf_length w
  have h1 : ¬ (bitsOf w ++ ext).length < 16 := by rw [List.length_append, hl]; omega
  simp only [decode, h1, if_false]
  rw [List.take_left' hl, List.drop_left' hl, ofNat_ofBits_bitsOf]

/-- Everything the fetch of a TYPEWORD's extension can do (30_encoding.md R105): at most two bits are read, and a block type
is there, or the window ends. -/
theorem fetchType_cases (v4 : Bool) (w : Half) (s : State) :
    ∃ j ≤ s.bs.left, (∃ i r, blockRunidx i = some r ∧
        fetchBits (.typeWord v4) 3 (bitsOf w) s = .ok i (s.setBs (s.bs.skip j))) ∨
      fetchBits (.typeWord v4) 3 (bitsOf w) s = .error .exhausted (s.setBs (s.bs.skip j)) := by
  have d0 := decode_typeWord v4 w []
  rw [List.append_nil] at d0
  have hne : bitsOf w ≠ [] := fun h => by
    have := bitsOf_length w
    rw [h] at this
    cases this
  by_cases hx : v4 = true ∧ typeField w = 1
  · have d0' : decode (.typeWord v4) (bitsOf w) = .more := by rw [d0, decodeType, if_pos hx]
    have f1 := fetchBits_next (fuel := 2) (s := s) d0' hne
    have c1 := consumes_readBit (C := (· = .exhausted)) rfl s.inMem s.bs
    rcases h1 : readBit s.inMem s.bs with ⟨v, b⟩ | ⟨c, b⟩ <;> simp only [h1] at c1 f1
    · obtain ⟨j, _, hj, rfl⟩ := c1
      cases v
      · have d1 : decode (.typeWord v4) (bitsOf w ++ [false]) = .more := by
          rw [decode_typeWord]; simp only [decodeType]; exact if_pos hx
        have f2 := fetchBits_next (fuel := 1) (s := s.setBs (s.bs.skip j)) d1 (by simp)
        simp only [State.setBs_inMem, State.setBs_bs, State.setBs_setBs] at f2
        have c2 := consumes_readBit (C := (· = .exhausted)) rfl s.inMem (s.bs.skip j)
        rcases h2 : readBit s.inMem (s.bs.skip j) with ⟨v, b⟩ | ⟨c, b⟩ <;> simp only [h2] at c2 f2
        · obtain ⟨i, _, hi, rfl⟩ := c2
          rw [BitStream.left_skip hj] at hi
          refine ⟨j + i, by omega, .inl ?_⟩
          rw [← BitStream.skip_skip hj]
          rw [List.append_assoc, List.singleton_append] at f2
          cases v
          · have d2 : decode (.typeWord v4) (bitsOf w ++ [false, false]) =
                .instr (.full (payloadField w) (runidxField w)) := by
              rw [decode_typeWord]; simp only [decodeType]; exact if_pos hx
            exact ⟨.full (payloadField w) (runidxField w), _, rfl, (f1.trans f2).trans (fetchBits_instr d2)⟩
          · have d2 : decode (.typeWord v4) (bitsOf w ++ [false, true]) =
                .instr (.half (payloadField w) (runidxField w)) := by
              rw [decode_typeWord]; simp only [decodeType]; exact if_pos hx
            exact ⟨.half (payloadField w) (runidxField w), _, rfl, (f1.trans f2).trans (fetchBits_instr d2)⟩
        · obtain ⟨rfl, i, hi, rfl⟩ := c2
          rw [BitStream.left_skip hj] at hi
          refine ⟨j + i, by omega, .inr ?_⟩
          rw [← BitStream.skip_skip hj]
          exact f1.trans f2
      · have d1 : decode (.typeWord v4) (bitsOf w ++ [true]) =
            .instr (.double (payloadField w) (runidxField w)) := by
          rw [decode_typeWord]; simp only [decodeType]; exact if_pos hx
        exact ⟨j, hj, .inl ⟨.double (payloadField w) (runidxField w), _, rfl, f1.trans (fetchBits_instr d1)⟩⟩
    · obtain ⟨rfl, j, hj, rfl⟩ := c1
      exact ⟨j, hj, .inr f1⟩
  · refine ⟨0, Nat.zero_le _, .inl ?_⟩
    rw [BitStream.skip_zero]
    rw [decodeType, if_neg hx, if_pos rfl] at d0
    split at d0
    · exact ⟨.mono (payloadField w) (runidxField w), _, rfl, fetchBits_instr d0⟩
    · split at d0
      · exact ⟨.full (payloadField w) (runidxField w), _, rfl, fetchBits_instr d0⟩
      · split at d0
        · exact ⟨.void (payloadField w) (runidxField w), _, rfl, fetchBits_instr d0⟩
        · exact ⟨.solid (payloadField w) (runidxField w), _, rfl, fetchBits_instr d0⟩

/-- Everything a step of VID_DECODE's run can do (44_video_blocks.md R232 to R234): a group is drawn, with what the lookup
and its extension left, or a fault is raised at a block of the frame. -/
theorem engineStep_video_cases {s : State} (h : s.work = .video) :
    (∃ i r t, blockRunidx i = some r ∧ DrawFrame s t ∧ t.work = .video ∧
      engineStep tokenMeaning s = blockRun (blockDraw i) (runLength r) t) ∨
    (∃ c t, (c = .absentTree ∨ c = .exhausted) ∧ DrawFrame s t ∧
      engineStep tokenMeaning s = .next (raiseFault c t)) := by
  have hw : wantedFormat s = some (.typeWord s.isV4) := by unfold wantedFormat; rw [h]
  have hl := draws_btLookup typeId s
  rcases hb : btLookup typeId s with ⟨code, t⟩ | ⟨c, t⟩ <;> simp only [hb] at hl
  · have hf : fetchToken (.typeWord s.isV4) s = fetchBits (.typeWord s.isV4) 3 (bitsOf code) t := by
      simp only [fetchToken, ops_bind, hb]
    have hwt : t.work = .video := by rw [hl.frame]; exact h
    obtain ⟨j, _, ⟨i, r, hi, he⟩ | he⟩ := fetchType_cases s.isV4 code t
    · refine .inl ⟨i, r, t.setBs (t.bs.skip j), hi, hl.trans ⟨rfl, .refl t⟩, hwt, ?_⟩
      rw [engineStep_ok hw (hf.trans he)]
      exact tokenMeaning_block hi hwt
    · exact .inr ⟨.exhausted, t.setBs (t.bs.skip j), .inr rfl, hl.trans ⟨rfl, .refl t⟩, engineStep_error hw (hf.trans he)⟩
  · have hf : fetchToken (.typeWord s.isV4) s = .error c t := by
      simp only [fetchToken, ops_bind, hb]
    exact .inr ⟨c, t, hl.2, hl.1, engineStep_error hw hf⟩

end Sys2Proof.Machine
end

