-- ==== Sys2Proof/Laws/Serial.lean ====
section
/-! SUPPORT. The recursive builds read back serialised trees. -/

-- The package is compiled as one text: elaborating in order keeps the number of threads small.
set_option Elab.async false

namespace Sys2Proof.Machine

open Sys2Proof Sys2Proof.Config

theorem within_mono {cap : Option Nat} {j k : Nat} (h : within cap k = true) (hjk : j ≤ k) : within cap j = true := by
  cases cap with
  | none => rfl
  | some m =>
    simp only [within, decide_eq_true_eq] at h ⊢
    omega

theorem readBit_left_skip {b : BitStream} {k : Nat} {m : List Host.Cell} {bits rest : List Bool}
    (h : remaining m b = bits ++ rest) (hk : bits.length = k) : (b.skip k).left + k = b.left := by
  subst hk
  have := (remaining_after h).1
  rw [BitStream.left_skip this]
  omega

theorem Node.bits_length_pos (n : Node) : 0 < n.bits.length := by
  cases n <;> simp [Node.bits]

/-- A node's serialisation, read back (30_encoding.md R94). -/
theorem stBuildRec_bits {cap : Option Nat} {m : List Host.Cell} (n : Node) :
    ∀ {fr count : Nat} {b : BitStream} {rest : List Bool}, remaining m b = n.bits ++ rest → b.left < fr →
      within cap (count + n.count) = true →
      stBuildRec cap m fr count b = .ok (n, count + n.count) (b.skip n.bits.length) := by
  induction n with
  | leaf v =>
    intro fr count b rest h hf hc
    obtain ⟨fr, rfl⟩ := Nat.exists_eq_succ_of_ne_zero (show fr ≠ 0 by omega)
    have h' : remaining m b = false :: (bitsOf v ++ rest) := by simpa [Node.bits] using h
    obtain ⟨h1, h2⟩ := remaining_after_cons h'
    simp only [stBuildRec, ops_bind, readBit_cons h']
    rw [if_pos (by simpa [Node.count] using hc)]
    simp only [Bool.false_eq_true, if_false, ops_bind, readByte_bits h2, ops_pure, Node.count]
    rw [BitStream.skip_skip h1]
    simp [Node.bits, Nat.add_comm]
  | branch l r ihl ihr =>
    intro fr count b rest h hf hc
    obtain ⟨fr, rfl⟩ := Nat.exists_eq_succ_of_ne_zero (show fr ≠ 0 by omega)
    have h' : remaining m b = true :: (l.bits ++ (r.bits ++ rest)) := by simpa [Node.bits] using h
    obtain ⟨h1, h2⟩ := remaining_after_cons h'
    obtain ⟨h3, h4⟩ := remaining_after h2
    simp only [Node.count] at hc
    have hl := ihl (fr := fr) (count := count + 1) h2 (by rw [BitStream.left_skip h1]; omega)
      (within_mono hc (by omega))
    have hr := ihr (fr := fr) (count := count + 1 + l.count) h4
      (by rw [BitStream.left_skip h3, BitStream.left_skip h1]; omega) (within_mono hc (by omega))
    simp only [stBuildRec, ops_bind, readBit_cons h']
    rw [if_pos (within_mono hc (by omega))]
    simp only [if_true, ops_bind, hl, hr, ops_pure, Node.count]
    rw [BitStream.skip_skip h3, BitStream.skip_skip h1] 
    congr 2
    · omega
    · simp only [Node.bits, List.length_cons, List.length_append]
      omega

/-- A small tree's serialisation, read back (30_encoding.md R94, R95). -/
theorem stBuildSpec_bits {cap : Option Nat} {m : List Host.Cell} {t : SmallTree} {b : BitStream} {rest : List Bool}
    (h : remaining m b = t.bits ++ rest) (hf : t.fits cap = true) :
    stBuildSpec cap m b = .ok t (b.skip t.bits.length) := by
  cases t with
  | absent =>
    have h' : remaining m b = false :: rest := h
    simp only [stBuildSpec, ops_bind, readBit_cons h', Bool.false_eq_true, if_false, ops_pure, SmallTree.bits,
      List.length_singleton]
  | present n =>
    have h' : remaining m b = true :: (n.bits ++ (false :: rest)) := by simpa [SmallTree.bits] using h
    obtain ⟨h1, h2⟩ := remaining_after_cons h'
    obtain ⟨h3, h4⟩ := remaining_after h2
    have hn := stBuildRec_bits (cap := cap) n (fr := (b.skip 1).left + 1) (count := 0) h2 (by omega)
      (by rw [Nat.zero_add]; exact hf)
    simp only [stBuildSpec, ops_bind, readBit_cons h', if_true, ops_get, hn, readBit_cons h4, Bool.false_eq_true,
      if_false, ops_pure]
    have h5 : n.bits.length + 1 ≤ (b.skip 1).left := by
      have := congrArg List.length h2
      simp only [remaining_length, List.length_append, List.length_cons] at this
      omega
    rw [BitStream.skip_skip h3, BitStream.skip_skip h1]
    simp only [SmallTree.bits, List.length_cons, List.length_append, List.length_nil]
    congr 2
    omega

/-- A seed, read back (30_encoding.md R98). -/
theorem readSeed_bits {m : List Host.Cell} {b : BitStream} {v : Half} {rest : List Bool}
    (h : remaining m b = seedBits v ++ rest) : readSeed m b = .ok v (b.skip (seedBits v).length) := by
  have h' : remaining m b = bitsOf (lowByte v) ++ (bitsOf (highByte v) ++ rest) := by simpa [seedBits] using h
  obtain ⟨h1, h2⟩ := remaining_after h'
  rw [bitsOf_length] at h1 h2
  simp only [readSeed, ops_bind, readByte_bits h', readByte_bits h2, ops_pure]
  rw [BitStream.skip_skip h1]
  simp only [seedBits, List.length_append, bitsOf_length]
  congr 1
  apply BitVec.eq_of_getLsbD_eq
  intro i hi
  simp only [lowByte, highByte, BitVec.getLsbD_append, BitVec.getLsbD_extractLsb']
  by_cases h8 : i < 8
  · simp [h8]
  · have : i - 8 < 8 := by omega
    have e : 8 + (i - 8) = i := by omega
    simp [h8, this, e]

theorem stLookup_bits {m : List Host.Cell} {n : Node} {bits rest : List Bool} {v : Byte} {b : BitStream}
    (hc : CodeWord n bits v) (h : remaining m b = bits ++ rest) :
    stLookup m (.present n) b = .ok v (b.skip bits.length) := walkNode_code hc h

/-- A lookup tree's serialisation, read back (30_encoding.md R98, R100). -/
theorem btBuildRec_bits {cap : Option Nat} {m : List Host.Cell} {low high : Node} {seeds : Cache} {n : BNode}
    {bits : List Bool} (hn : BigBits low high seeds n bits) :
    ∀ {fr count : Nat} {b : BitStream} {rest : List Bool}, remaining m b = bits ++ rest → b.left < fr →
      within cap (count + n.count) = true →
      btBuildRec cap m (.present low) (.present high) seeds fr count b =
        .ok (n, count + n.count) (b.skip bits.length) := by
  induction hn with
  | @leaf lo hi codeLo codeHi hlo hhi =>
    intro fr count b rest h hf hc
    obtain ⟨fr, rfl⟩ := Nat.exists_eq_succ_of_ne_zero (show fr ≠ 0 by omega)
    have h' : remaining m b = false :: (codeLo ++ (codeHi ++ rest)) := by simpa using h
    obtain ⟨h1, h2⟩ := remaining_after_cons h'
    obtain ⟨h3, h4⟩ := remaining_after h2
    have hcount : (leafOf seeds (hi ++ lo)).count = 1 := by
      unfold leafOf
      split_ifs <;> rfl
    rw [hcount] at hc ⊢
    simp only [btBuildRec, ops_bind, readBit_cons h']
    rw [if_pos hc]
    simp only [Bool.false_eq_true, if_false, ops_bind, stLookup_bits hlo h2, stLookup_bits hhi h4, ops_pure]
    rw [BitStream.skip_skip h3, BitStream.skip_skip h1]
    congr 2
    simp only [List.length_cons, List.length_append]
    omega
  | @branch l r bl br hl hr ihl ihr =>
    intro fr count b rest h hf hc
    obtain ⟨fr, rfl⟩ := Nat.exists_eq_succ_of_ne_zero (show fr ≠ 0 by omega)
    have h' : remaining m b = true :: (bl ++ (br ++ rest)) := by simpa using h
    obtain ⟨h1, h2⟩ := remaining_after_cons h'
    obtain ⟨h3, h4⟩ := remaining_after h2
    simp only [BNode.count] at hc
    have el := ihl (fr := fr) (count := count + 1) h2 (by rw [BitStream.left_skip h1]; omega)
      (within_mono hc (by omega))
    have er := ihr (fr := fr) (count := count + 1 + l.count) h4
      (by rw [BitStream.left_skip h3, BitStream.left_skip h1]; omega) (within_mono hc (by omega))
    simp only [btBuildRec, ops_bind, readBit_cons h']
    rw [if_pos (within_mono hc (by omega))]
    simp only [if_true, ops_bind, el, er, ops_pure, BNode.count]
    rw [BitStream.skip_skip h3, BitStream.skip_skip h1]
    congr 2
    · omega
    · simp only [List.length_cons, List.length_append]
      omega

/-- A bigtree's serialisation, read back (30_encoding.md R98). -/
theorem btBuildSpec_bits {p : Params} {m : List Host.Cell} {t : BigTree} {bits : List Bool} (ht : TreeBits p t bits)
    {b : BitStream} {rest : List Bool} (h : remaining m b = bits ++ rest) :
    btBuildSpec p m b = .ok t (b.skip bits.length) := by
  cases ht with
  | absent =>
    have h' : remaining m b = false :: rest := h
    simp only [btBuildSpec, ops_bind, readBit_cons h', Bool.false_eq_true, if_false, ops_pure, List.length_singleton]
  | @present low high seeds root bits hroot hlow hhigh hcount =>
    have h0 : remaining m b = true :: ((SmallTree.present low).bits ++ ((SmallTree.present high).bits ++
        (seedBits seeds.c0 ++ (seedBits seeds.c1 ++ (seedBits seeds.c2 ++ (bits ++ (false :: rest))))))) := by
      simpa using h
    obtain ⟨l1, h1⟩ := remaining_after_cons h0
    obtain ⟨l2, h2⟩ := remaining_after (bits := (SmallTree.present low).bits) h1
    obtain ⟨l3, h3⟩ := remaining_after h2
    obtain ⟨l4, h4⟩ := remaining_after h3
    obtain ⟨l5, h5⟩ := remaining_after h4
    obtain ⟨l6, h6⟩ := remaining_after h5
    obtain ⟨l7, h7⟩ := remaining_after h6
    have hn := btBuildRec_bits (cap := p.bigNodesMax) hroot (count := 0) h6 (Nat.lt_succ_self _)
      (by rw [Nat.zero_add]; exact hcount)
    unfold btBuildSpec
    rw [ops_bind, readBit_cons h0]
    dsimp only
    rw [if_pos rfl, ops_bind, stBuildSpec_bits h1 hlow]
    dsimp only
    rw [ops_bind, stBuildSpec_bits h2 hhigh]
    dsimp only
    rw [ops_bind, readSeed_bits h3]
    dsimp only
    rw [ops_bind, readSeed_bits h4]
    dsimp only
    rw [ops_bind, readSeed_bits h5]
    dsimp only
    rw [ops_bind, ops_get]
    dsimp only
    rw [ops_bind, hn]
    dsimp only
    rw [ops_bind, readBit_cons h7]
    dsimp only
    rw [if_neg (by decide), ops_pure]
    rw [BitStream.skip_skip l7, BitStream.skip_skip l6, BitStream.skip_skip l5, BitStream.skip_skip l4,
      BitStream.skip_skip l3, BitStream.skip_skip l2, BitStream.skip_skip l1]
    congr 2
    simp only [List.length_cons, List.length_append, List.length_nil]
    omega

end Sys2Proof.Machine
end

