-- ==== Sys2Proof/Laws/Steps.lean ====
section
/-! SUPPORT. A command's run and the steps of the machine: a token is never a command code, so the steps of a run are steps
of the machine, and a run that ends idle is an `EngineRun`. What keeps the output memories within their bounds. -/

-- The package is compiled as one text: elaborating in order keeps the number of threads small.
set_option Elab.async false

namespace Sys2Proof.Machine

open Sys2Proof Sys2Proof.Config

/-! ### Tokens are no commands -/

theorem whole_instr {w : Nat} {bits : List Bool} {k : Nat → Decoded} {i : Instr} (h : whole w bits k = .instr i) :
    k (ofBits bits) = .instr i := by
  unfold whole at h
  split at h
  · cases h
  · split at h
    · exact h
    · cases h

/-- Only at the place of a command does a command code decode (30_encoding.md R92). -/
theorem decode_token {f : Format} {bits : List Bool} {i : Instr} (hf : f ≠ .cmd) (h : decode f bits = .instr i) :
    isCommand i = false := by
  cases f <;> simp only [decode] at h
  case cmd => exact absurd rfl hf
  case typeWord v4 =>
    split at h
    · cases h
    · simp only [decodeType] at h
      repeat' split at h
      all_goals (cases h; try rfl)
  case seed => cases whole_instr h; rfl
  case dpcmN => cases whole_instr h; rfl
  case init8 => cases whole_instr h; rfl
  case init16 => cases whole_instr h; rfl
  case node8 =>
    split at h
    · cases h
    · cases whole_instr h; rfl
    · cases h; rfl
    · cases h
  all_goals
    repeat' split at h
    all_goals (cases h; try rfl)

theorem fetchBits_token {f : Format} (hf : f ≠ .cmd) {i : Instr} {t : State} :
    ∀ {fuel : Nat} {acc : List Bool} {s : State}, fetchBits f fuel acc s = .ok i t → isCommand i = false := by
  intro fuel
  induction fuel with
  | zero => intro acc s h; cases h
  | succ n ih =>
    intro acc s h
    cases hd : decode f acc with
    | instr j =>
      rw [fetchBits_instr hd] at h
      cases h
      exact decode_token hf hd
    | reject e => rw [fetchBits_reject hd] at h; cases h
    | more =>
      rw [fetchBits_more hd] at h
      split at h
      · simp only [ops_bind] at h
        split at h
        · exact ih h
        · cases h
      · cases h

theorem fetchToken_token {f : Format} (hf : f ≠ .cmd) {i : Instr} {s t : State} (h : fetchToken f s = .ok i t) :
    isCommand i = false := by
  cases f
  case cmd => exact absurd rfl hf
  case typeWord v4 =>
    simp only [fetchToken, ops_bind] at h
    split at h
    · exact fetchBits_token hf h
    · cases h
  case dpcmN =>
    simp only [fetchToken, ops_bind, ops_get] at h
    split at h
    · cases h
    · exact fetchBits_token hf h
  all_goals exact fetchBits_token hf h

/-- No running command reads a command code. -/
theorem wantedFormat_ne_cmd {s : State} {f : Format} (h : wantedFormat s = some f) : f ≠ .cmd := by
  rintro rfl
  have small : ∀ w : SmallWork, smallFormat w ≠ .cmd := fun w => by cases w <;> exact fun h => nomatch h
  have big : ∀ w : BigWork, bigFormat w ≠ .cmd := fun w => by
    cases w <;> first | exact small _ | exact fun h => nomatch h
  unfold wantedFormat at h
  split at h
  any_goals cases h
  · exact small _ (Option.some.inj h)
  · exact big _ (Option.some.inj h)
  · exact big _ (Option.some.inj h)
  · exact small _ (Option.some.inj h)
  · split at h <;> cases h

/-- A token's meaning as an instruction is its meaning in a run. -/
theorem exec_token {i : Instr} (h : isCommand i = false) (s : State) : exec i s = tokenMeaning i s := by
  cases i <;> first | rfl | cases h

/-! ### Steps -/

theorem engineStep_exec (s : State) : engineStep exec s = engineStep tokenMeaning s := by
  cases hw : wantedFormat s with
  | none => simp only [engineStep, hw]
  | some f =>
    rcases ht : fetchToken f s with ⟨i, t⟩ | ⟨c, t⟩
    · rw [engineStep_ok hw ht, engineStep_ok hw ht]
      exact exec_token (fetchToken_token (wantedFormat_ne_cmd hw) ht) t
    · rw [engineStep_error hw ht, engineStep_error hw ht]

/-- In the middle of a command a step of the machine is a step of the command's run. -/
theorem step_running {s : State} (h : s.work ≠ .idle) : step s = engineStep tokenMeaning s := by
  rw [← engineStep_exec, step]
  split
  · exact absurd ‹_› h
  all_goals rfl

/-- A run that ends idle is one of the machine's steps. -/
theorem runSteps_engineRun : ∀ {n : Nat} {s t : State}, runSteps n s = .next t → t.work = .idle → EngineRun s t := by
  intro n
  induction n with
  | zero =>
    intro s t h ht
    cases h
    exact .ended ht
  | succ n ih =>
    intro s t h ht
    by_cases hw : s.work = .idle
    · rw [runSteps_idle _ hw] at h
      cases h
      exact .ended hw
    · rw [runSteps] at h
      split at h
      · exact absurd ‹_› hw
      all_goals
        split at h
        · next u hu => exact .more hw ((step_running hw).trans hu) (ih h ht)
        · cases h
        · cases h

/-- A command ends at one state only. -/
theorem EngineRun.unique {s t u : State} (h : EngineRun s t) (h' : EngineRun s u) : t = u := by
  induction h with
  | ended hw =>
    cases h' with
    | ended _ => rfl
    | more hn _ _ => exact absurd hw hn
  | more hn hs _ ih =>
    cases h' with
    | ended hw => exact absurd hw hn
    | more _ hs' h' =>
      rw [hs] at hs'
      cases hs'
      exact ih h'

/-! ### The bounds of the output memories -/

/-- A byte written behind the last one of an output memory. -/
theorem put_behind (v : Byte) : ∀ {m : List Host.Cell} {a n : Nat}, m.map (·.1) = List.range' a n →
    (Memory.put m (a + n) v).map (·.1) = List.range' a (n + 1) := by
  intro m
  induction m with
  | nil =>
    intro a n h
    cases n with
    | zero => rfl
    | succ n => cases h
  | cons c m ih =>
    intro a n h
    obtain ⟨x, w⟩ := c
    cases n with
    | zero => cases h
    | succ n =>
      rw [List.range'_succ, List.map_cons, List.cons.injEq] at h
      obtain ⟨rfl, h⟩ := h
      have e := ih h
      rw [show x + 1 + n = x + (n + 1) by omega] at e
      dsimp only at e ⊢
      rw [Memory.put, if_neg (by omega), if_neg (by omega), List.map_cons, e, ← List.range'_succ]

theorem write_behind (v : Byte) {m : List Host.Cell} {n : Nat} (h : m.map (·.1) = List.range n) :
    (Memory.write outBlank m n v).map (·.1) = List.range (n + 1) := by
  rw [List.range_eq_range'] at h ⊢
  have := put_behind v h
  rwa [Nat.zero_add] at this

/-- A sample written behind the output so far lengthens it by the sample's bytes (43_audio_dpcm.md R210). -/
theorem emitSample_behind (t : Fin 7) {out : Nat} (v : Half) {s : State}
    (h : (s.aout[t]).map (·.1) = List.range out) :
    ((emitSample t out v s).aout[t]).map (·.1) = List.range (out + trkBytes s.trk[t]) := by
  simp only [Fin.getElem_fin] at h ⊢
  unfold emitSample trkBytes
  by_cases hd : trkDepth16 (s.trk[(t : Nat)]) = true
  · simp only [Fin.getElem_fin, hd, if_true, State.setAout_aout, Vector.getElem_set_self]
    exact write_behind _ (write_behind _ h)
  · simp only [Fin.getElem_fin, hd, Bool.false_eq_true, if_false, State.setAout_aout, Vector.getElem_set_self]
    exact write_behind _ h

theorem mem_put {m : List Host.Cell} {a : Nat} {v : Byte} {c : Host.Cell} (h : c ∈ Memory.put m a v) :
    c = (a, v) ∨ c ∈ m := by
  induction m with
  | nil => exact .inl (List.mem_singleton.1 h)
  | cons d m ih =>
    obtain ⟨x, w⟩ := d
    rw [Memory.put] at h
    split at h
    · exact List.mem_cons.1 h
    · split at h
      · exact (List.mem_cons.1 h).imp id (List.mem_cons_of_mem _)
      · rcases List.mem_cons.1 h with h | h
        · exact .inr (h ▸ List.mem_cons_self)
        · exact (ih h).imp id (List.mem_cons_of_mem _)

/-- A pixel of a block of the frame lies in FB (44_video_blocks.md R242; 20_memory.md R66). -/
theorem pixelAddr_lt {s : State} (hf : FrameWf s) (hr : s.scanRow < s.height) {r c : Nat} (h1 : r < 4) (h2 : c < 4) :
    pixelAddr s r c < s.width.toNat * s.height.toNat := by
  obtain ⟨W, H, R, C, hW, hH, hR, hC, h3, h4⟩ := hf.blocks hr
  unfold pixelAddr
  have hrow : s.scanRow.toNat + r + 1 ≤ s.height.toNat := by omega
  have hcol : s.scanCol.toNat + c < s.width.toNat := by omega
  calc (s.scanRow.toNat + r) * s.width.toNat + s.scanCol.toNat + c
      < (s.scanRow.toNat + r) * s.width.toNat + s.width.toNat := by omega
    _ = (s.scanRow.toNat + r + 1) * s.width.toNat := (Nat.succ_mul _ _).symm
    _ ≤ s.height.toNat * s.width.toNat := Nat.mul_le_mul_right _ hrow
    _ = s.width.toNat * s.height.toNat := Nat.mul_comm _ _

/-- Painting pixels of the block at the cursor lists no address outside FB. -/
theorem paintMem_lt {s : State} (hf : FrameWf s) (hr : s.scanRow < s.height) {pxs : List (Nat × Nat × Byte)} :
    ∀ {m : List Host.Cell}, (∀ px ∈ pxs, px.1 < 4 ∧ px.2.1 < 4) →
      (∀ c ∈ m, c.1 < s.width.toNat * s.height.toNat) →
      ∀ c ∈ paintMem s pxs m, c.1 < s.width.toNat * s.height.toNat := by
  induction pxs with
  | nil => exact fun _ h => h
  | cons px pxs ih =>
    intro m hp h
    refine ih (fun q hq => hp q (List.mem_cons_of_mem _ hq)) fun c hc => ?_
    rcases mem_put hc with rfl | hc
    · exact pixelAddr_lt hf hr (hp px List.mem_cons_self).1 (hp px List.mem_cons_self).2
    · exact h c hc

end Sys2Proof.Machine
end

