-- ==== Sys2Proof/Tests/Slice0.lean ====
section
/-! SUPPORT. Tests: the ill-formed terms, a word of each instruction, one step of each command and token on vectors of
95_test_vectors.md, and for each obligation with hypotheses a state that meets them. -/

-- The package is compiled as one text: elaborating in order keeps the number of threads small.
set_option Elab.async false

open Sys2Proof Sys2Proof.Config Sys2Proof.Machine

/-! ### Helpers -/

/-- `s` with these bytes of `IN` from `addr` on. -/
def testInput (addr : Nat) (bytes : List Byte) (s : State) : State :=
  { s with inMem := (bytes.zipIdx addr).foldl (fun m c => Memory.write inBlank m c.2 c.1) s.inMem }

/-- A window at 0x100 that holds these bytes, open at its first bit. -/
def testWindow (bytes : List Byte) : State :=
  { testInput 0x100 bytes State.reset with
    bs := { base := 0x100, size := BitVec.ofNat 32 bytes.length, bytePos := 0, bitPos := 0 } }

/-- A record at 0x200 for AUD_DECODE of track 0 with descriptor `d`. -/
def testRecord (d : Word) (bytes : List Byte) : State :=
  { testInput 0x200 bytes State.reset with
    trk := State.reset.trk.set 0 d
    arg0 := 0x200
    arg1 := BitVec.ofNat 32 bytes.length }

/-- The one-leaf bigtree of a value, without inner trees or escapes. -/
def testLit (v : Half) : BigTree := .present .absent .absent (.lit v) Cache.zero

/-- An 8 by 8 frame being decoded, at its first block: every bigtree one leaf, the TYPE tree's leaf `w`, the colours
0x1122, the bitmap 0x8421, the pairs 0x0201. -/
def testFrame (version : Byte) (w : Half) (bytes : List Byte) : State :=
  { testWindow bytes with
    work := .video
    status := 0x5000
    version := version
    width := 8
    height := 8
    vt := #v[testLit 0x8421, testLit 0x1122, testLit 0x0201, testLit w] }

/-- The same frame before its VID_DECODE. -/
def testVideo (version : Byte) (w : Half) (bytes : List Byte) : State :=
  { testFrame version w bytes with arg0 := 0x100, arg1 := BitVec.ofNat 32 bytes.length, work := .idle }

/-- The answer is a next state with this property. -/
def testAfter (a : Answer) (p : State → Bool) : Bool :=
  match a with
  | .next t => p t
  | .fault _ | .refused _ => false

/-- The 16 pixels of the first block of an 8-wide frame. -/
def testBlock (s : State) : List (Option Byte) :=
  [0, 1, 2, 3, 8, 9, 10, 11, 16, 17, 18, 19, 24, 25, 26, 27].map (hostReadFb s)

/-- The tree T1 of vector V-ST1. -/
def testT1 : Node := .branch (.leaf 0x00) (.branch (.leaf 0x7F) (.leaf 0xFF))

/-! ### The well-formedness checks refuse an ill-formed term -/

theorem test_wf_command_in_stream : WellFormed .tree8 .nop = false := by decide
theorem test_wf_mono_as_command : WellFormed .cmd (.mono 0 0) = false := by decide
theorem test_wf_solid_as_node : WellFormed .node8 (.solid 0x77 59) = false := by decide
theorem test_wf_double_in_version_2 : WellFormed (.typeWord false) (.double 0 0) = false := by decide
theorem test_wf_half_in_version_2 : WellFormed (.typeWord false) (.half 0 0) = false := by decide
theorem test_wf_tree8_as_tree16 : WellFormed .tree16 .tree8Present = false := by decide
theorem test_wf_node8_as_node16 : WellFormed .node16 (.node8Leaf 0) = false := by decide
theorem test_wf_term_as_tree8 : WellFormed .tree8 .treeTerm = false := by decide
theorem test_wf_tree16_as_tree8 : WellFormed .tree8 .tree16Absent = false := by decide
theorem test_wf_seed_as_init : WellFormed .init16 (.seed 0 0) = false := by decide
theorem test_wf_node16_as_node8 : WellFormed .node8 .node16Leaf = false := by decide
theorem test_wf_length_as_command : WellFormed .cmd (.dpcmN 0) = false := by decide
theorem test_wf_header_as_length : WellFormed .dpcmN (.dpcmHeader true true) = false := by decide
theorem test_wf_init8_as_init16 : WellFormed .init16 (.dpcmInit8 0) = false := by decide
theorem test_wf_init16_as_init8 : WellFormed .init8 (.dpcmInit16 0 0) = false := by decide
theorem test_wf_double_in_version_4 : WellFormed (.typeWord true) (.double 0 0) = true := by decide

/-! ### Words written out from 30_encoding.md -/

-- R92: the command codes; R93: a code between them.
theorem test_decode_nop : decodeTableWord 8 0x00 = some .nop := by decide
theorem test_decode_softReset : decodeTableWord 8 0x01 = some .softReset := by decide
theorem test_decode_logClear : decodeTableWord 8 0x02 = some .logClear := by decide
theorem test_decode_bsOpen : decodeTableWord 8 0x10 = some .bsOpen := by decide
theorem test_decode_bsReadBit : decodeTableWord 8 0x11 = some .bsReadBit := by decide
theorem test_decode_bsReadByte : decodeTableWord 8 0x12 = some .bsReadByte := by decide
theorem test_decode_stBuild : decodeTableWord 8 0x20 = some .stBuild := by decide
theorem test_decode_stLookup : decodeTableWord 8 0x21 = some .stLookup := by decide
theorem test_decode_btBuild : decodeTableWord 8 0x30 = some .btBuild := by decide
theorem test_decode_btBuildAll : decodeTableWord 8 0x31 = some .btBuildAll := by decide
theorem test_decode_btReset : decodeTableWord 8 0x32 = some .btReset := by decide
theorem test_decode_btLookup : decodeTableWord 8 0x33 = some .btLookup := by decide
theorem test_decode_audDecode : decodeTableWord 8 0x40 = some .audDecode := by decide
theorem test_decode_vidDecode : decodeTableWord 8 0x50 = some .vidDecode := by decide
theorem test_decode_reserved : decode .cmd (bitsOf 0x13#8) = .reject (.reservedCommand 0x13) := by decide

-- R103 to R106: 0x77EF is payload 0x77, runidx 59, type 3; the other words of V-BT7; TYPEEXT 1, 01, 00 from bit 16 on.
theorem test_decode_mono : decodeTableWord 16 0x3300 = some (.mono 0x33 0) := by decide
theorem test_decode_full : decodeTableWord 16 0x0001 = some (.full 0 0) := by decide
theorem test_decode_void : decodeTableWord 16 0x000E = some (.void 0 3) := by decide
theorem test_decode_solid : decodeTableWord 16 0x77EF = some (.solid 0x77 59) := by decide
theorem test_decode_double : decodeTableWord 24 0x010001 = some (.double 0 0) := by decide
theorem test_decode_half : decodeTableWord 24 0x020005 = some (.half 0 1) := by decide
theorem test_decode_full_version_4 : decodeTableWord 24 0x000001 = some (.full 0 0) := by decide
theorem test_decode_typeext_missing :
    decode (.typeWord true) [true, false, false, false, false, false, false, false,
      false, false, false, false, false, false, false, false, false] = .more := by decide

-- R94, R97, R98: control bits, tags, terminators, a leaf of 0x7F (V-ST1), a seed of 0x1001 (V-BT1).
theorem test_decode_tree8Absent : decode .tree8 [false] = .instr .tree8Absent := by decide
theorem test_decode_tree8Present : decode .tree8 [true] = .instr .tree8Present := by decide
theorem test_decode_node8Branch : decode .node8 [true] = .instr .node8Branch := by decide
theorem test_decode_node8Leaf :
    decode .node8 [false, true, true, true, true, true, true, true, false] = .instr (.node8Leaf 0x7F) := by decide
theorem test_decode_treeTerm : decode .term [false] = .instr .treeTerm := by decide
theorem test_decode_bad_terminator : decode .term [true] = .reject .badTerminator := by decide
theorem test_decode_tree16Absent : decode .tree16 [false] = .instr .tree16Absent := by decide
theorem test_decode_tree16Present : decode .tree16 [true] = .instr .tree16Present := by decide
theorem test_decode_seed :
    decode .seed [true, false, false, false, false, false, false, false,
      false, false, false, false, true, false, false, false] = .instr (.seed 0x01 0x10) := by decide
theorem test_decode_node16Branch : decode .node16 [true] = .instr .node16Branch := by decide
theorem test_decode_node16Leaf : decode .node16 [false] = .instr .node16Leaf := by decide

-- R112, R113, R115: the length 6 of V-AU2, header bits, initial samples 0x80 (V-AU1) and 0x8000 (V-AU3).
theorem test_decode_dpcmN : decodeTableWord 32 6 = some (.dpcmN 6) := by decide
theorem test_decode_dpcmHeader : decode .dpcmHeader [true, true, false] = .instr (.dpcmHeader true false) := by decide
theorem test_decode_no_data : decode .dpcmHeader [false] = .reject .noData := by decide
theorem test_decode_dpcmInit8 :
    decode .init8 [false, false, false, false, false, false, false, true] = .instr (.dpcmInit8 0x80) := by decide
theorem test_decode_dpcmInit16 :
    decode .init16 [false, false, false, false, false, false, false, true,
      false, false, false, false, false, false, false, false] = .instr (.dpcmInit16 0x80 0x00) := by decide

/-! ### One step: vectors of 95_test_vectors.md -/

-- Section 7: NOP after a fault keeps LOG, LOG_CLEAR clears it, a reserved code faults.
theorem test_nop : testAfter (exec .nop { State.reset with status := 0x1101, log := 2 })
    (fun t => t.status == 0 && t.log == 2) = true := by decide
theorem test_logClear : testAfter (exec .logClear { State.reset with log := 0x010A })
    (fun t => t.status == 0x0200 && t.log == 0) = true := by decide
theorem test_softReset : testAfter (exec .softReset { testRecord 0xC0000000 [] with log := 2, scanRow := 8 })
    (fun t => t.status == 0x0100 && t.log == 0 && t.scanRow == 0 && t.trk[0] == 0xC0000000) = true := by decide
theorem test_reserved : testAfter (step { State.reset with host := [.writeCmd 0x03] })
    (fun t => t.status == 0x0308 && t.log == 0x0100 && t.cmd == 0x03) = true := by decide

-- V-BS1, V-BS2, V-BS4.
theorem test_bsOpen : testAfter (exec .bsOpen { State.reset with arg0 := 0x100, arg1 := 2 })
    (fun t => t.status == 0x1000 && t.bs == { base := 0x100, size := 2, bytePos := 0, bitPos := 0 }) = true := by decide
theorem test_bsOpen_window : testAfter (exec .bsOpen { State.reset with arg0 := 0xFFFFFFFF, arg1 := 2 })
    (fun t => t.status == 0x100A && t.log == 0x0400 && t.bs.size == 0) = true := by decide
theorem test_bsReadBit : testAfter (exec .bsReadBit (testWindow [0xA5, 0x3C]))
    (fun t => t.result == 1 && t.bs.bitPos == 1) = true := by decide
theorem test_bsReadByte :
    testAfter (exec .bsReadByte { testWindow [0xA5, 0x3C] with
      bs := { base := 0x100, size := 2, bytePos := 0, bitPos := 3 } })
    (fun t => t.result == 0x94 && t.bs.bytePos == 1 && t.bs.bitPos == 3) = true := by decide
theorem test_bsReadByte_exhausted :
    testAfter (exec .bsReadByte { testWindow [0xA5, 0x3C] with
      result := 0x94, bs := { base := 0x100, size := 2, bytePos := 1, bitPos := 3 } })
    (fun t => t.status == 0x1201 && t.result == 0x94 && t.bs.bytePos == 2 && t.bs.bitPos == 0) = true := by decide

-- V-ST1, V-ST5, V-ST3.
theorem test_stBuild : testAfter (exec .stBuild (testWindow [0x03, 0xE8, 0xCF, 0xBF, 0x0C]))
    (fun t => t.status == 0x2000 && t.atree[0] == .present testT1 && t.bs.bytePos == 3 && t.bs.bitPos == 7) = true := by
  decide +kernel
theorem test_stBuild_bad_terminator : testAfter (exec .stBuild (testWindow [0x69, 0x05]))
    (fun t => t.status == 0x2002 && t.log == 4 && t.atree[0] == .absent && t.bs.bitPos == 3) = true := by decide +kernel
theorem test_stLookup : testAfter (exec .stLookup ({ testWindow [0x03, 0xE8, 0xCF, 0xBF, 0x0C] with
      bs := { base := 0x100, size := 5, bytePos := 3, bitPos := 7 } }.setAtree 0 (.present testT1)))
    (fun t => t.result == 0x7F && t.bs.bytePos == 4 && t.bs.bitPos == 1) = true := by decide +kernel
theorem test_stLookup_absent : testAfter (exec .stLookup (testWindow [0x00]))
    (fun t => t.status == 0x2103 && t.bs.bitPos == 0) = true := by decide +kernel

-- V-BT5: equal seeds, the lowest slot wins. V-BT8: chunk Z. V-BT2: the three assignments of the cache.
theorem test_btBuild : testAfter (exec .btBuild (testWindow [0x0B, 0x50, 0x80, 0x80, 0x80, 0x80, 0, 0, 0, 0]))
    (fun t => t.status == 0x3000 && t.bs.bytePos == 9 && t.bs.bitPos == 1 &&
      t.vt[0] == .present (.present (.leaf 1)) (.present (.leaf 1)) (.esc 0) { c0 := 0x0101, c1 := 0x0101, c2 := 0 })
    = true := by decide +kernel
theorem test_btBuildAll :
    testAfter (exec .btBuildAll { testInput 0 [0xD8, 0xBB, 0x66, 0xFC, 0xFF, 0xFB, 0xFF, 0xF7, 0xFF, 0x03] State.reset with
      arg1 := 10 })
    (fun t => t.status == 0x3100 && t.vt[0] == .absent && t.bs.bytePos == 9 && t.bs.bitPos == 4 &&
      match t.vt[3] with | .present _ _ root _ => root == .lit 0x33EF | .absent => false) = true := by decide +kernel
theorem test_btReset : testAfter (exec .btReset (State.reset.setVt 0 (.present .absent .absent (.lit 5)
      { c0 := 1, c1 := 2, c2 := 3 })))
    (fun t => t.status == 0x3200 && t.vt[0] == testLit 5) = true := by decide +kernel
theorem test_btLookup : testAfter (exec .btLookup (State.reset.setVt 0 (.present .absent .absent (.esc 1)
      { c0 := 0x1003, c1 := 0x0003, c2 := 0 })))
    (fun t => t.result == 3 &&
      t.vt[0] == .present .absent .absent (.esc 1) { c0 := 0x0003, c1 := 0x1003, c2 := 0x0003 }) = true := by decide +kernel

-- V-AU2: additions that wrap. V-AU3: stereo, 16 bits, four trees.
theorem test_audDecode :
    testAfter (exec .audDecode (testRecord 0xC0000000 [0x06, 0, 0, 0, 0x19, 0x40, 0x01, 0xFE, 0xF9, 0x57, 0x03]))
    (fun t => t.status == 0x4000 && t.aoutLen[0] == 6 &&
      (t.aout[0]).map (·.2) == [0xFE, 0xFF, 0x00, 0x01, 0x00, 0x00]) = true := by decide +kernel
theorem test_audDecode_stereo16 :
    testAfter (exec .audDecode (testRecord 0xF0000000 [0x0C, 0, 0, 0, 0x5F, 0x00, 0x00, 0x03, 0x10, 0x60, 0xFF, 0x00,
      0xF4, 0x0F, 0x10, 0xE0, 0xEF, 0x1F, 0x07]))
    (fun t => t.status == 0x4000 && t.bs.bytePos == 14 && t.bs.bitPos == 3 &&
      (t.aout[0]).map (·.2) == [0xFF, 0x7F, 0x00, 0x80, 0x00, 0x80, 0xFF, 0x7F, 0x00, 0x81, 0xFF, 0x7E]) = true := by
  decide +kernel

-- V-VD6: an empty window with a one-leaf TYPE tree. Program P5: an Absent TYPE tree.
theorem test_vidDecode : testAfter (exec .vidDecode (testVideo 0x32 0x33EF []))
    (fun t => t.status == 0x5000 && t.scanRow == 8 && t.fb.map (·.2) == List.replicate 64 0x33) = true := by decide +kernel
theorem test_vidDecode_absent : testAfter (exec .vidDecode ((testVideo 0x32 0 [0x48, 0xB0, 0xE5, 0x0A]).setVt 3 .absent))
    (fun t => t.status == 0x5003 && t.log == 8 && t.bs.bytePos == 0 && t.fb == []) = true := by decide +kernel

-- V-VD2: the diagonal. V-VD1: 16 pixels. R237, R240, R241 on one-leaf trees.
theorem test_mono : testAfter (step (testFrame 0x32 0x0000 []))
    (fun t => testBlock t == [0x11, 0x22, 0x22, 0x22, 0x22, 0x11, 0x22, 0x22, 0x22, 0x22, 0x11, 0x22,
      0x22, 0x22, 0x22, 0x11].map some && t.scanCol == 4) = true := by decide +kernel
theorem test_full : testAfter (step (testFrame 0x32 0x0001 []))
    (fun t => testBlock t == [1, 2, 1, 2, 1, 2, 1, 2, 1, 2, 1, 2, 1, 2, 1, 2].map some && t.scanCol == 4) = true := by
  decide +kernel
theorem test_void : testAfter (step (testFrame 0x32 0x0006 []))
    (fun t => t.fb == [] && t.scanRow == 4 && t.scanCol == 0 && t.work == .video) = true := by decide +kernel
theorem test_solid : testAfter (step (testFrame 0x32 0xAA03 []))
    (fun t => testBlock t == List.replicate 16 (some 0xAA) && t.fb.length == 16 && t.scanCol == 4) = true := by
  decide +kernel
-- The TYPEEXT bits 1, and 0 then 1.
theorem test_double : testAfter (step (testFrame 0x34 0x0001 [0x01]))
    (fun t => testBlock t == [1, 1, 2, 2, 1, 1, 2, 2, 1, 1, 2, 2, 1, 1, 2, 2].map some && t.bs.bitPos == 1) = true := by
  decide +kernel
theorem test_half : testAfter (step (testFrame 0x34 0x0001 [0x02]))
    (fun t => testBlock t == [1, 2, 1, 2, 1, 2, 1, 2, 1, 2, 1, 2, 1, 2, 1, 2].map some && t.bs.bitPos == 2) = true := by
  decide +kernel

-- One token each, as the rules of its structure say.
theorem test_tree8Absent : testAfter (exec .tree8Absent (State.reset.setWork (.small 1 .control)))
    (fun t => t.work == .idle && t.atree[1] == .absent) = true := by decide
theorem test_tree8Present : testAfter (exec .tree8Present (State.reset.setWork (.small 1 .control)))
    (fun t => t.work == .small 1 (.node [] 0)) = true := by decide
theorem test_node8Branch : testAfter (exec .node8Branch (State.reset.setWork (.small 1 (.node [] 0))))
    (fun t => t.work == .small 1 (.node [none] 1)) = true := by decide
theorem test_node8Leaf : testAfter (exec (.node8Leaf 7) (State.reset.setWork (.small 1 (.node [some (.leaf 5)] 2))))
    (fun t => t.work == .small 1 (.term (.branch (.leaf 5) (.leaf 7)))) = true := by decide
theorem test_treeTerm : testAfter (exec .treeTerm (State.reset.setWork (.small 1 (.term (.leaf 5)))))
    (fun t => t.work == .idle && t.atree[1] == .present (.leaf 5)) = true := by decide
theorem test_tree16Absent : testAfter (exec .tree16Absent (State.reset.setWork (.bigAll 0 .control)))
    (fun t => t.work == .bigAll 1 .control) = true := by decide
theorem test_tree16Present : testAfter (exec .tree16Present (State.reset.setWork (.big 1 .control)))
    (fun t => t.work == .big 1 (.low .control)) = true := by decide
theorem test_seed : testAfter (exec (.seed 0x01 0x10) (State.reset.setWork (.big 1 (.seeds .absent .absent []))))
    (fun t => t.work == .big 1 (.seeds .absent .absent [0x1001])) = true := by decide
theorem test_node16Branch :
    testAfter (exec .node16Branch (State.reset.setWork (.big 1 (.node .absent .absent Cache.zero [] 0))))
    (fun t => t.work == .big 1 (.node .absent .absent Cache.zero [none] 1)) = true := by decide
theorem test_node16Leaf :
    testAfter (exec .node16Leaf (State.reset.setWork
      (.big 1 (.node (.present (.leaf 3)) (.present (.leaf 0x10)) Cache.zero [] 0))))
    (fun t => t.work == .big 1 (.term (.present (.leaf 3)) (.present (.leaf 0x10)) Cache.zero (.lit 0x1003))) = true := by
  decide +kernel
theorem test_dpcmN : testAfter (exec (.dpcmN 6) ((testRecord 0xC0000000 [6, 0, 0, 0, 0x19]).setWork (.audio 0 .length)))
    (fun t => t.bs == { base := 0x204, size := 1, bytePos := 0, bitPos := 0 } && t.work == .audio 0 (.header 6)) = true := by
  decide +kernel
theorem test_dpcmHeader :
    testAfter (exec (.dpcmHeader true false) ((testRecord 0xC0000000 []).setWork (.audio 0 (.header 4))))
    (fun t => t.status == 0x0005 && t.log == 0x20) = true := by decide
theorem test_dpcmInit8 :
    testAfter (exec (.dpcmInit8 0x80) ((testRecord 0xC0000000 []).setWork (.audio 0 (.init 1 []))))
    (fun t => t.work == .idle && t.aoutLen[0] == 1 && t.aout[0] == [(0, 0x80)]) = true := by decide
theorem test_dpcmInit16 :
    testAfter (exec (.dpcmInit16 0x7F 0xFF) ((testRecord 0xF0000000 []).setWork (.audio 0 (.init 12 [0x8000]))))
    (fun t => t.work == .audio 0 (.deltas 12 4 0x7FFF 0x8000) && (t.aout[0]).map (·.2) == [0xFF, 0x7F, 0x00, 0x80])
    = true := by decide

/-! ### Hypotheses that can be met: for each obligation that has some, a state and operands -/

/-- The state with one host access pending. -/
def testHost (op : HostOp) : State := { State.reset with host := [op] }

theorem test_witness_ReservedCodesAndOperands :
    (testHost (.writeCmd 0x03)).work = .idle ∧ (testHost (.writeCmd 0x03)).host = .writeCmd 0x03 :: [] ∧
      ∀ i : Instr, commandCode i ≠ some 0x03 :=
  ⟨rfl, rfl, fun i => by cases i <;> simp [commandCode]⟩

theorem test_witness_ReservedCodesAndOperands_operands :
    3 < ({ State.reset with arg0 := 4 }).arg0.toNat ∧ 6 < ({ State.reset with arg2 := 7 }).arg2.toNat := by decide

theorem test_witness_HostRegisterWrite :
    (testHost (.writeReg .width 8)).work = .idle ∧ (testHost (.writeReg .width 8)).host = .writeReg .width 8 :: [] := by
  decide

-- The last byte of `IN`, and the first address behind it.
theorem test_witness_HostInputWrite :
    (testHost (.writeIn 0xFFFFFFFE 5)).work = .idle ∧
      (testHost (.writeIn 0xFFFFFFFE 5)).host = .writeIn 0xFFFFFFFE 5 :: [] ∧
      Memory.wf inBlank (testHost (.writeIn 0xFFFFFFFE 5)).inMem ∧
      0xFFFFFFFE < (testHost (.writeIn 0xFFFFFFFE 5)).params.inSize.toNat ∧
      (testHost (.writeIn 0xFFFFFFFF 5)).params.inSize.toNat ≤ 0xFFFFFFFF := by decide

theorem test_witness_PowerOnReset :
    (testHost .powerOn).work = .idle ∧ (testHost .powerOn).host = .powerOn :: [] := by decide

theorem test_witness_SafeAfterReset : State.reset.work = .idle ∧ State.reset.host = [] := by decide

theorem test_witness_StepRunsCommand :
    (testHost (.writeCmd 0x12)).work = .idle ∧ (testHost (.writeCmd 0x12)).host = .writeCmd 0x12 :: [] ∧
      commandCode .bsReadByte = some 0x12 := by decide

/-- In the middle of an ST_BUILD of slot 0 in a window that holds these bytes. -/
def testSmall (w : SmallWork) (bytes : List Byte) : State := (testWindow bytes).setWork (.small 0 w)

/-- The same with room for one node in a small tree. -/
def testTight (w : SmallWork) (bytes : List Byte) : State :=
  { testSmall w bytes with params := { Config.defaults with smallNodesMax := some 1 } }

theorem test_witness_StepRunsToken :
    wantedFormat (testTight (.node [] 0) [0xFE, 0x01]) = some .node8 ∧ WellFormed .node8 (.node8Leaf 0xFF) = true ∧
      (testTight (.node [] 0) [0xFE, 0x01]).Ahead (encode .node8 (.node8Leaf 0xFF)) ∧
      nodeRoom (testTight (.node [] 0) [0xFE, 0x01]) = true := by decide +kernel

-- A DOUBLE in version '4': one bit behind the TYPEWORD.
theorem test_witness_StepRunsFetchedWord :
    (testFrame 0x34 0x0001 [0x01]).work = .video ∧
      (testFrame 0x34 0x0001 [0x01]).vt[typeId] = .present .absent .absent (.lit 0x0001) Cache.zero ∧
      BigCodeWord (.lit 0x0001) [] (.lit 0x0001) ∧
      WellFormed (.typeWord (testFrame 0x34 0x0001 [0x01]).isV4) (.double 0 0) = true ∧
      encode (.typeWord (testFrame 0x34 0x0001 [0x01]).isV4) (.double 0 0) =
        bitsOf (leafValue Cache.zero (.lit 0x0001)) ++ [true] ∧
      (testFrame 0x34 0x0001 [0x01]).Ahead ([] ++ [true]) :=
  ⟨by decide, by decide, .lit _, by decide, by decide, by decide +kernel⟩

-- The shortest record that has a length, and one byte less.
theorem test_witness_StepRunsFetchedWord_length :
    ((testRecord 0xC0000000 [6, 0, 0, 0]).setWork (.audio 0 .length)).work = .audio 0 .length ∧
      4 ≤ (testRecord 0xC0000000 [6, 0, 0, 0]).arg1.toNat ∧ (testRecord 0xC0000000 [6, 0, 0]).arg1.toNat < 4 := by
  decide +kernel

-- No TYPE tree; a code word is missing; the first TYPEEXT bit is missing; the second one is.
theorem test_witness_StepRunsFetchedWord_faults :
    ((testFrame 0x34 0x0001 []).setVt typeId .absent).vt[typeId] = .absent ∧
      (∀ bits leaf, BigCodeWord (.branch (.lit 0) (.lit 2)) bits leaf → ¬ (testFrame 0x34 0x0001 []).Ahead bits) ∧
      (testFrame 0x34 0x0001 []).isV4 = true ∧ typeField (leafValue Cache.zero (.lit 0x0001)) = 1 ∧
      remaining (testFrame 0x34 0x0001 []).inMem (testFrame 0x34 0x0001 []).bs = [] ∧
      (let s := { testFrame 0x34 0x0001 [0x7F] with bs := { base := 0x100, size := 1, bytePos := 0, bitPos := 7 } };
        remaining s.inMem s.bs = [] ++ [false]) := by
  refine ⟨by decide, fun bits leaf h ha => ?_, by decide, by decide, by decide, by decide +kernel⟩
  have e : remaining (testFrame 0x34 0x0001 []).inMem (testFrame 0x34 0x0001 []).bs = [] := by decide
  rw [State.Ahead, e, List.prefix_nil] at ha
  subst ha
  cases h

theorem test_witness_TokenFaults_terminator :
    wantedFormat (testSmall (.term (.leaf 1)) [0x01]) = some .term ∧
      (testSmall (.term (.leaf 1)) [0x01]).Ahead [true] := by decide +kernel

theorem test_witness_TokenFaults_no_data :
    wantedFormat ((testWindow [0x00]).setWork (.audio 0 (.header 4))) = some .dpcmHeader ∧
      ((testWindow [0x00]).setWork (.audio 0 (.header 4))).Ahead [false] := by decide +kernel

theorem test_witness_TokenFaults_capacity :
    wantedFormat (testTight (.node [none] 1) [0x00]) = some .node8 ∧
      nodeRoom (testTight (.node [none] 1) [0x00]) = false ∧ 0 < (testTight (.node [none] 1) [0x00]).bs.left := by
  decide +kernel

-- Eight of the nine bits of a leaf.
theorem test_witness_TokenFaults_exhausted :
    wantedFormat (testSmall (.node [] 0) [0x00]) = some .node8 ∧ nodeRoom (testSmall (.node [] 0) [0x00]) = true ∧
      ∀ k ≤ (testSmall (.node [] 0) [0x00]).bs.left,
        decode .node8 ((remaining (testSmall (.node [] 0) [0x00]).inMem (testSmall (.node [] 0) [0x00]).bs).take k) =
          .more := by decide +kernel

-- The sum is IN_SIZE, and one more.
theorem test_witness_BsOpenResult :
    (let s := { State.reset with arg0 := 0xFFFFFFFE, arg1 := 1 }; s.arg0.toNat + s.arg1.toNat ≤ s.params.inSize.toNat) ∧
      (let s := { State.reset with arg0 := 0xFFFFFFFE, arg1 := 2 };
        s.params.inSize.toNat < s.arg0.toNat + s.arg1.toNat) := by decide

/-- The window of one byte at a bit position. -/
def testAt (bytePos : Word) (bitPos : BitVec 3) : State :=
  { testWindow [0xA5] with bs := { base := 0x100, size := 1, bytePos := bytePos, bitPos := bitPos } }

-- The last bit, and the end.
theorem test_witness_BsReadBitResult :
    (testAt 0 7).bs.bytePos < (testAt 0 7).bs.size ∧ (testAt 1 0).bs.size ≤ (testAt 1 0).bs.bytePos := by decide

-- Exactly eight bits, and seven.
theorem test_witness_BsReadByteResult :
    BitsWf (testAt 0 0) ∧ 8 ≤ (testAt 0 0).bs.left ∧ BitsWf (testAt 0 1) ∧ (testAt 0 1).bs.left < 8 := by decide +kernel

theorem test_witness_ReadsAreBounded :
    readBit (testAt 0 7).inMem (testAt 0 7).bs = .ok true (testAt 1 0).bs ∧
      readBits (testAt 0 7).inMem 1 (testAt 0 7).bs = .ok [true] (testAt 1 0).bs ∧
      8 * (testAt 1 0).bs.size.toNat ≤ (testAt 1 0).bs.offset := by
  refine ⟨?_, ?_, ?_⟩
  · rfl
  · rfl
  · decide

theorem test_witness_StBuildIsRecursion : slotOperand ({ State.reset with arg0 := 3 }).arg0 = some 3 := by decide

/-- ST_LOOKUP of slot 3 in a tree T1, at the end of a window. -/
def testLookup (bytes : List Byte) : State := ({ testWindow bytes with arg0 := 3 }).setAtree 3 (.present testT1)

-- A longest code word.
theorem test_witness_StLookupResult :
    slotOperand (testLookup [0x03]).arg0 = some 3 ∧ (testLookup [0x03]).atree[(3 : Fin 4)] = .present testT1 ∧
      CodeWord testT1 [true, true] 0xFF ∧ (testLookup [0x03]).Ahead [true, true] :=
  ⟨by decide, by decide, .right (.right (.leaf _)), by decide +kernel⟩

theorem test_witness_StLookupResult_absent :
    slotOperand ({ State.reset with arg0 := 3 }).arg0 = some 3 ∧ State.reset.atree[(3 : Fin 4)] = .absent := by decide

-- An empty window; T1 has no empty code word.
theorem test_witness_StLookupResult_exhausted :
    (testLookup []).atree[(3 : Fin 4)] = .present testT1 ∧
      ∀ bits v, CodeWord testT1 bits v → ¬ (testLookup []).Ahead bits := by
  refine ⟨by decide, fun bits v h ha => ?_⟩
  have e : remaining (testLookup []).inMem (testLookup []).bs = [] := by decide
  rw [State.Ahead, e, List.prefix_nil] at ha
  subst ha
  cases h

-- The stream of V-ST1, with room for exactly its five nodes.
theorem test_witness_SmallRoundTrip :
    slotOperand (testWindow [0x03, 0xE8, 0xCF, 0xBF, 0x0C]).arg0 = some 0 ∧
      (SmallTree.present testT1).fits (some 5) = true ∧
      (SmallTree.present testT1).fits (testWindow [0x03, 0xE8, 0xCF, 0xBF, 0x0C]).params.smallNodesMax = true ∧
      (∀ c ∈ [([true, false], (0x7F : Byte)), ([false], 0x00), ([true, true], 0xFF)], CodeWord testT1 c.1 c.2) ∧
      (testWindow [0x03, 0xE8, 0xCF, 0xBF, 0x0C]).Ahead ((SmallTree.present testT1).bits ++
        [([true, false], (0x7F : Byte)), ([false], 0x00), ([true, true], 0xFF)].flatMap (·.1)) := by
  refine ⟨by decide, by decide, by decide, ?_, by decide +kernel⟩
  intro c hc
  simp only [List.mem_cons, List.not_mem_nil, or_false] at hc
  obtain rfl | rfl | rfl := hc
  · exact .right (.left (.leaf _))
  · exact .left (.leaf _)
  · exact .right (.right (.leaf _))

theorem test_witness_BtBuildIsRecursion : slotOperand ({ State.reset with arg0 := 3 }).arg0 = some 3 := by decide

-- The one byte 00: four control bits 0.
theorem test_witness_BtBuildAllResult :
    (let s := { testInput 0x100 [0x00] State.reset with arg0 := 0x100, arg1 := 1 };
      windowLegal s s.arg0 s.arg1 = true ∧
        (s.openWindow s.arg0 s.arg1).Ahead ([false] ++ [false] ++ [false] ++ [false])) ∧
      TreeBits Config.defaults .absent [false] :=
  ⟨by decide +kernel, .absent⟩

-- An empty window at the end of `IN`, and a window one byte too long.
theorem test_witness_BtBuildAllResult_empty :
    (let s := { State.reset with arg0 := 0xFFFFFFFF, arg1 := 0 }; windowLegal s s.arg0 s.arg1 = true ∧ s.arg1 = 0) ∧
      (let s := { State.reset with arg0 := 0xFFFFFFFF, arg1 := 1 }; windowLegal s s.arg0 s.arg1 = false) := by decide

theorem test_witness_FailedBuildsLeaveNoTree :
    slotOperand State.reset.arg0 = some 0 ∧
      testAfter (exec .stBuild State.reset) (fun t => t.statusCause != 0) = true ∧
      testAfter (exec .btBuild State.reset) (fun t => t.statusCause != 0) = true ∧
      (let s := { State.reset with arg1 := 2 };
        windowLegal s s.arg0 s.arg1 = true ∧
          testAfter (exec .btBuildAll (testInput 0 [0x01, 0xFF] s)) (fun t => t.statusCause != 0) = true) := by
  decide +kernel

theorem test_witness_BtResetResult :
    slotOperand ({ State.reset with arg0 := 3 }).arg0 = some 3 ∧
      ((State.reset.setVt 3 (testLit 5)).vt[(3 : Fin 4)] = .present .absent .absent (.lit 5) Cache.zero) ∧
      State.reset.vt[(3 : Fin 4)] = .absent := by decide

-- An escape to the last slot, at the end of the window.
theorem test_witness_BtLookupResult :
    slotOperand ({ State.reset with arg0 := 3 }).arg0 = some 3 ∧
      BigCodeWord (.branch (.lit 5) (.esc 2)) [true] (.esc 2) ∧ (testAt 0 7).Ahead [true] ∧
      State.reset.vt[(3 : Fin 4)] = .absent ∧
      ∀ bits leaf, BigCodeWord (.branch (.lit 5) (.esc 2)) bits leaf → ¬ (testAt 1 0).Ahead bits := by
  refine ⟨by decide, .right (.esc 2), by decide +kernel, by decide, fun bits leaf h ha => ?_⟩
  have e : remaining (testAt 1 0).inMem (testAt 1 0).bs = [] := by decide
  rw [State.Ahead, e, List.prefix_nil] at ha
  subst ha
  cases h

theorem test_witness_ResetIdempotence :
    slotOperand State.reset.arg0 = some 0 ∧
      (State.reset.setVt 0 (testLit 5)).vt[(0 : Fin 4)] = .present .absent .absent (.lit 5) Cache.zero := by decide

-- V-BT5 and a code word: both inner trees the leaf 0x01, the lookup tree one literal leaf, an empty code word.
theorem test_witness_BigRoundTrip :
    slotOperand State.reset.arg0 = some 0 ∧
      TreeBits Config.defaults (.present (.present (.leaf 1)) (.present (.leaf 1)) (.lit 0x0101) Cache.zero)
        (true :: ((SmallTree.present (.leaf 1)).bits ++ (SmallTree.present (.leaf 1)).bits ++
          seedBits 0 ++ seedBits 0 ++ seedBits 0 ++ [false] ++ [false])) ∧
      (∀ c ∈ [(([] : List Bool), (0x0101 : Half))], BigCodeWord (.lit 0x0101) c.1 (.lit c.2)) ∧
      (testWindow [0x0B, 0x50, 0x00, 0, 0, 0, 0, 0, 0, 0]).Ahead
        (true :: ((SmallTree.present (.leaf 1)).bits ++ (SmallTree.present (.leaf 1)).bits ++
          seedBits 0 ++ seedBits 0 ++ seedBits 0 ++ [false] ++ [false])) := by
  refine ⟨by decide, ?_, ?_, by decide +kernel⟩
  · exact .present (seeds := Cache.zero) (.leaf (lo := 1) (hi := 1) (.leaf 1) (.leaf 1)) (by decide) (by decide) (by decide)
  · intro c hc
    obtain rfl := List.mem_singleton.mp hc
    exact .lit _

-- Room for one more node, and none.
theorem test_witness_SmallTreeTokens :
    (testTight (.node [] 0) []).work = .small 0 (.node [] 0) ∧
      within (testTight (.node [] 0) []).params.smallNodesMax (0 + 1) = true ∧
      within (testTight (.node [none] 1) []).params.smallNodesMax (1 + 1) = false := by decide

theorem test_witness_BigTreeTokens :
    (State.reset.setWork (.big 3 (.seeds .absent .absent [1, 2]))).work = .big 3 (.seeds .absent .absent [1, 2]) ∧
      (State.reset.setWork (.big 3 (.seeds .absent .absent [1]))).work = .big 3 (.seeds .absent .absent [1]) ∧
      (State.reset.setWork (.big 3 (.high .absent .control))).work = .big 3 (.high .absent .control) ∧
      (State.reset.setWork (.big 3 (.low (.node [none] 1)))).work = .big 3 (.low (.node [none] 1)) ∧
      within State.reset.params.smallNodesMax (1 + 1) = true ∧
      within (testTight .control []).params.smallNodesMax (1 + 1) = false := by
  decide

/-- In the middle of a BT_BUILD, at the first node of a lookup tree with room for one. -/
def testBig (low : SmallTree) : State :=
  { (testAt 0 7).setWork (.big 3 (.node low (.present (.leaf 2)) Cache.zero [] 0)) with
    params := { Config.defaults with bigNodesMax := some 1 } }

theorem test_witness_BigTreeNodes :
    within (testBig .absent).params.bigNodesMax (0 + 1) = true ∧
      within (testBig .absent).params.bigNodesMax (1 + 1) = false ∧
      CodeWord testT1 [true, true] 0xFF ∧ CodeWord (.branch (.leaf 1) (.leaf 2)) [true] 2 ∧
      (testBig (.present (.branch (.leaf 1) (.leaf 2)))).Ahead ([true] ++ []) ∧ CodeWord (.leaf 2) [] 2 :=
  ⟨by decide, by decide, .right (.right (.leaf _)), .right (.leaf _), by decide +kernel, .leaf _⟩

theorem test_witness_TokensNeedACommand : isCommand .treeTerm = false ∧ State.reset.work = .idle := by decide

-- A track of each kind: agreement, each failure of the length, a mismatch under each policy.
theorem test_witness_DpcmHeaderTokens :
    (let s := (testRecord 0xF0000000 [4, 0, 0, 0]).setWork (.audio 0 .length);
      s.work = .audio 0 .length ∧ 4 ≤ s.arg1.toNat) ∧
      (let s := testRecord 0xF0000000 [];
        trkStereo s.trk[(0 : Fin 7)] = true ∧ trkDepth16 s.trk[(0 : Fin 7)] = true ∧ badLength s 0 4 = false ∧
          badLength s 0 0 = true ∧ badLength s 0 3 = true ∧ badLength s 0 5 = true ∧
          s.params.mismatchPolicy = .terminate) ∧
      (let s := { testRecord 0xC0000000 [] with
          params := { Config.defaults with mismatchPolicy := .continueDeclared, aoutMax := some 6 } };
        ¬ (true = trkStereo s.trk[(0 : Fin 7)] ∧ false = trkDepth16 s.trk[(0 : Fin 7)]) ∧ badLength s 0 6 = false ∧
          badLength s 0 7 = true ∧ s.params.mismatchPolicy = .continueDeclared) := by decide +kernel

-- The first sample completes a record of one frame, or not.
theorem test_witness_DpcmTreeAndInitTokens :
    (let s := (testRecord 0xD0000000 []).setWork (.audio 0 (.init 2 [3]));
      s.work = .audio 0 (.init 2 [3]) ∧ trkStereo s.trk[(0 : Fin 7)] = true ∧ trkDepth16 s.trk[(0 : Fin 7)] = false ∧
        ¬ trkFrame s.trk[(0 : Fin 7)] < (2 : Word).toNat) ∧
      (let s := (testRecord 0xE0000000 []).setWork (.audio 0 (.init 3 []));
        s.work = .audio 0 (.init 3 []) ∧ trkStereo s.trk[(0 : Fin 7)] = false ∧ trkDepth16 s.trk[(0 : Fin 7)] = true ∧
          trkFrame s.trk[(0 : Fin 7)] < (3 : Word).toNat) := by decide

-- The last frame of a stereo 16-bit record.
theorem test_witness_DeltaFrameResult :
    (let s := { (testAt 0 6).setWork (.audio 0 (.deltas 8 4 1 2)) with
        trk := State.reset.trk.set 0 0xF0000000
        atree := #v[.present (.branch (.leaf 1) (.leaf 2)), .present (.leaf 0), .present (.branch (.leaf 3) (.leaf 4)),
          .present (.leaf 0xFF)] };
      s.work = .audio 0 (.deltas 8 4 1 2) ∧ trkStereo s.trk[(0 : Fin 7)] = true ∧
        trkDepth16 s.trk[(0 : Fin 7)] = true ∧ s.Ahead ([false] ++ [true])) ∧
      DeltaCode true (.present (.branch (.leaf 1) (.leaf 2))) (.present (.leaf 0)) [false] (0x00#8 ++ 0x01#8) ∧
      DeltaCode true (.present (.branch (.leaf 3) (.leaf 4))) (.present (.leaf 0xFF)) [true] (0xFF#8 ++ 0x04#8) :=
  ⟨by decide +kernel, .wide (bl := [false]) (bh := []) (.left (.leaf _)) (.leaf _),
    .wide (bl := [true]) (bh := []) (.right (.leaf _)) (.leaf _)⟩

-- Each check alone: the window, existence, the variant, the raw record, the compressed one.
theorem test_witness_AudDecodeChecks :
    trackOperand (6 : Word) = some 6 ∧ trackOperand State.reset.arg2 = some 0 ∧
      (let s := { State.reset with arg0 := 0xFFFFFFFF, arg1 := 1 };
        s.params.inSize.toNat < s.arg0.toNat + s.arg1.toNat) ∧
      (let s := testRecord 0x80000000 [];
        s.arg0.toNat + s.arg1.toNat ≤ s.params.inSize.toNat ∧ s.trk[(0 : Fin 7)].getLsbD 30 = false) ∧
      (testRecord 0xC4000000 []).trk[(0 : Fin 7)].extractLsb' 26 2 ≠ 0 ∧
      (let s := { testRecord 0x40000000 [1, 2] with params := { Config.defaults with aoutMax := some 1 } };
        s.trk[(0 : Fin 7)].getLsbD 30 = true ∧ s.trk[(0 : Fin 7)].extractLsb' 26 2 = 0 ∧
          s.trk[(0 : Fin 7)].getLsbD 31 = false ∧ within s.params.aoutMax s.arg1.toNat = false) ∧
      (let s := testRecord 0xC0000000 [1, 2, 3];
        s.trk[(0 : Fin 7)].getLsbD 30 = true ∧ s.trk[(0 : Fin 7)].extractLsb' 26 2 = 0 ∧
          s.trk[(0 : Fin 7)].getLsbD 31 = true ∧ s.arg1.toNat < 4) := by decide +kernel

/-- In the delta loop of a stereo 8-bit record: channel 0's tree has two leaves, channel 1's tree is this. -/
def testDeltas (tree : SmallTree) : State :=
  { testAt 0 7 with
    trk := State.reset.trk.set 0 0xD0000000
    atree := #v[.present (.branch (.leaf 1) (.leaf 2)), .absent, tree, .absent]
    work := .audio 0 (.deltas 4 2 0 0) }

-- The last bit of the window is channel 0's code word; channel 1's tree is Absent, or needs one more bit.
theorem test_witness_DeltaFrameResult_faults :
    (testDeltas .absent).work = .audio 0 (.deltas 4 2 0 0) ∧
      deltaSlots (trkStereo (testDeltas .absent).trk[(0 : Fin 7)]) (trkDepth16 (testDeltas .absent).trk[(0 : Fin 7)]) =
        [0] ++ 2 :: [] ∧
      SlotCodes (testDeltas .absent) [0] ([true] ++ []) ∧ (testDeltas .absent).Ahead ([true] ++ []) ∧
      (testDeltas .absent).atree[(2 : Fin 4)] = .absent ∧
      ∀ code v, CodeWord testT1 code v → ¬ (testDeltas (.present testT1)).Ahead (([true] ++ []) ++ code) := by
  refine ⟨rfl, by decide, .cons (root := .branch (.leaf 1) (.leaf 2)) (v := 2) rfl (.right (.leaf 2)) .nil,
    by decide +kernel, rfl, fun code v h ha => ?_⟩
  have e : remaining (testDeltas (.present testT1)).inMem (testDeltas (.present testT1)).bs = [true] := by decide +kernel
  have hl := ha.length_le
  rw [e] at hl
  cases h <;> simp at hl

theorem test_witness_AudRawCopies :
    let s := { testRecord 0x40000000 [1, 2] with params := { Config.defaults with aoutMax := some 2 } }
    trackOperand s.arg2 = some 0 ∧ windowLegal s s.arg0 s.arg1 = true ∧ s.trk[(0 : Fin 7)].getLsbD 30 = true ∧
      s.trk[(0 : Fin 7)].extractLsb' 26 2 = 0 ∧ s.trk[(0 : Fin 7)].getLsbD 31 = false ∧
      within s.params.aoutMax s.arg1.toNat = true := by decide +kernel

/-- The record of V-AU5, mono and 16 bits, up to its second delta: 6 bytes. -/
def testAu5 : State :=
  testRecord 0xE0000000 [0x06, 0, 0, 0, 0xDD, 0xBF, 0x00, 0xFB, 0x07, 0x00, 0x00, 0x80, 0x07]

/-- Its trees. -/
def testAu5Trees : RecordTrees :=
  ⟨.present (.branch (.leaf 0xFF) (.leaf 0x01)), .present (.branch (.leaf 0xFF) (.leaf 0x00)), .absent, .absent⟩

theorem test_witness_DpcmRecordDecodes :
    (trackOperand testAu5.arg2 = some 0 ∧ windowLegal testAu5 testAu5.arg0 testAu5.arg1 = true ∧
      4 ≤ testAu5.arg1.toNat ∧ trkExists testAu5.trk[(0 : Fin 7)] = true ∧ trkVariant testAu5.trk[(0 : Fin 7)] = 0 ∧
      trkCompressed testAu5.trk[(0 : Fin 7)] = true ∧ lengthBits testAu5.inMem testAu5.arg0.toNat = bitsOf (6 : Word) ∧
      within testAu5.params.aoutMax (6 : Word).toNat = true) ∧
    testAu5Trees.unusedAbsent false true ∧ testAu5Trees.fits testAu5.params.smallNodesMax ∧
    FrameCodes false true testAu5Trees [(0xFF#8 ++ 0xFF#8, 0), (0x00#8 ++ 0x01#8, 0)]
      (([false] ++ [false]) ++ (([true] ++ [true]) ++ [])) ∧
    (6 : Word).toNat = (recordBytes false true 0 0 [(0xFF#8 ++ 0xFF#8, 0), (0x00#8 ++ 0x01#8, 0)]).length ∧
    (testAu5.openWindow (testAu5.arg0 + 4) (testAu5.arg1 - 4)).Ahead ([true, false, true] ++
      testAu5Trees.bits false true ++ (if (false : Bool) then initBits true 0 else []) ++ initBits true 0 ++
        (([false] ++ [false]) ++ (([true] ++ [true]) ++ []))) := by
  refine ⟨by decide +kernel, ⟨fun h => absurd h (by decide), fun _ => ⟨rfl, rfl⟩⟩, ⟨rfl, rfl, rfl, rfl⟩, ?_, by decide,
    by decide +kernel⟩
  exact .mono rfl (.wide (.left (.leaf _)) (.left (.leaf _)))
    (.mono rfl (.wide (.right (.leaf _)) (.right (.leaf _))) .nil)

-- V-AU1, with the smallest capacities it fits.
theorem test_witness_AllZeroDeltas :
    let s := { testRecord 0xC0000000 [0x04, 0, 0, 0, 0x09, 0x00, 0x20] with
      params := { Config.defaults with aoutMax := some 4, smallNodesMax := some 1 } }
    trackOperand s.arg2 = some 0 ∧ windowLegal s s.arg0 s.arg1 = true ∧ 4 ≤ s.arg1.toNat ∧
      trkExists s.trk[(0 : Fin 7)] = true ∧ trkVariant s.trk[(0 : Fin 7)] = 0 ∧
      trkCompressed s.trk[(0 : Fin 7)] = true ∧ trkStereo s.trk[(0 : Fin 7)] = false ∧
      trkDepth16 s.trk[(0 : Fin 7)] = false ∧ lengthBits s.inMem s.arg0.toNat = bitsOf (4 : Word) ∧
      0 < (4 : Word).toNat ∧ within s.params.aoutMax (4 : Word).toNat = true ∧
      within s.params.smallNodesMax 1 = true ∧
      (s.openWindow (s.arg0 + 4) (s.arg1 - 4)).Ahead
        ([true, false, false] ++ (SmallTree.present (.leaf 0)).bits ++ bitsOf (0x80 : Byte)) := by decide +kernel

-- A completed record, a fault after the checks, raw mode.
theorem test_witness_AudDecodeIsolation :
    trackOperand State.reset.arg2 = some 0 ∧
      (let s := testRecord 0xC0000000 [0x04, 0, 0, 0, 0x00];
        testAfter (exec .audDecode s) (fun u => u.statusCause != 0) = true ∧ windowLegal s s.arg0 s.arg1 = true ∧
          trkExists s.trk[(0 : Fin 7)] = true ∧ trkVariant s.trk[(0 : Fin 7)] = 0) ∧
      (let s := testRecord 0x40000000 [1];
        testAfter (exec .audDecode s) (fun u => u.statusCause == 0) = true ∧
          trkCompressed s.trk[(0 : Fin 7)] = false) := by decide +kernel

/-- The last block of the 8 by 8 frame. -/
def testLast (version : Byte) (w : Half) (bytes : List Byte) : State :=
  { testFrame version w bytes with scanRow := 4, scanCol := 4 }

theorem test_witness_CursorVisitsNextBlock :
    FrameWf (testLast 0x32 0 []) ∧ (testLast 0x32 0 []).scanRow < (testLast 0x32 0 []).height := by decide

-- Each check: the window, the version, width and height 0 or no multiple of 4, the capacity.
theorem test_witness_VidDecodeChecks :
    (let s := { testVideo 0x32 0 [] with arg0 := 0xFFFFFFFF, arg1 := 1 };
      s.params.inSize.toNat < s.arg0.toNat + s.arg1.toNat) ∧
      (let s := testVideo 0x33 0 [];
        s.arg0.toNat + s.arg1.toNat ≤ s.params.inSize.toNat ∧ s.version ≠ 0x32 ∧ s.version ≠ 0x34) ∧
      ({ testVideo 0x32 0 [] with width := 6 }).width.toNat % 4 ≠ 0 ∧
      ({ testVideo 0x32 0 [] with height := 0 }).height = 0 ∧
      (let s := { testVideo 0x32 0 [] with params := { Config.defaults with fbMax := some 63 } };
        ∃ m, s.params.fbMax = some m ∧ m < s.width.toNat * s.height.toNat) :=
  ⟨by decide, by decide, by decide, by decide, 63, by decide, by decide⟩

theorem test_witness_VidDecodeWithoutTypeTree :
    let s := (testVideo 0x34 0 []).setVt typeId .absent
    windowLegal s s.arg0 s.arg1 = true ∧ videoConfigLegal s = true ∧ s.vt[typeId] = .absent := by decide

-- A block that is drawn, a block that faults, no row left.
theorem test_witness_RunGoesBlockByBlock :
    (testLast 0x32 0 []).work = .video ∧ (testLast 0x32 0 []).scanRow < (testLast 0x32 0 []).height ∧
      blockDraw (.void 0 0) (testLast 0x32 0 []) = .ok () (testLast 0x32 0 []) ∧
      blockDraw (.mono 0 0) ((testLast 0x32 0 []).clearVt) = .error .absentTree ((testLast 0x32 0 []).clearVt) ∧
      ¬ ({ testLast 0x32 0 [] with scanRow := 8 }).scanRow < (testLast 0x32 0 []).height :=
  ⟨rfl, by decide, rfl, rfl, by decide⟩

theorem test_witness_MonoBlock :
    (let s := testLast 0x32 0 [];
      s.work = .video ∧ FrameWf s ∧ s.scanRow < s.height ∧
        s.vt[mclrId] = .present .absent .absent (.lit 0x1122) Cache.zero ∧
        s.vt[mmapId] = .present .absent .absent (.lit 0x8421) Cache.zero ∧ s.Ahead ([] ++ [])) ∧
      BigCodeWord (.lit 0x1122) [] (.lit 0x1122) ∧ BigCodeWord (.lit 0x8421) [] (.lit 0x8421) :=
  ⟨by decide, .lit _, .lit _⟩

-- No tree of the colours, no tree of the bitmaps, a code word of either missing.
theorem test_witness_MonoBlock_faults :
    ((testLast 0x32 0 []).setVt mclrId .absent).vt[mclrId] = .absent ∧
      ((testLast 0x32 0 []).setVt mmapId .absent).vt[mmapId] = .absent ∧
      ((testLast 0x32 0 []).setVt mmapId .absent).vt[mclrId] = .present .absent .absent (.lit 0x1122) Cache.zero ∧
      ∀ bits leaf, BigCodeWord (.branch (.lit 0) (.lit 2)) bits leaf → ¬ (testLast 0x32 0 []).Ahead ([] ++ bits) := by
  refine ⟨by decide, by decide, by decide, fun bits leaf h ha => ?_⟩
  have e : remaining (testLast 0x32 0 []).inMem (testLast 0x32 0 []).bs = [] := by decide
  rw [State.Ahead, e, List.nil_append, List.prefix_nil] at ha
  subst ha
  cases h

/-- The property of what a number of lookups of the FULL tree give. -/
def testLookups (k : Nat) (s : State) (p : List Half → State → Bool) : Bool :=
  match btLookups fullId k s with
  | .ok ws u => p ws u
  | .error _ _ => false

/-- The last block of a frame whose FULL tree has two leaves. -/
def testPairs (bytes : List Byte) : State :=
  (testLast 0x34 0 bytes).setVt fullId (.present .absent .absent (.branch (.lit 0x0201) (.lit 0x0403)) Cache.zero)

-- Eight lookups; and a window of eight bits, seven of them read, where the eighth lookup fails after one more is gone.
theorem test_witness_FullBlock :
    (testPairs [0x55]).work = .video ∧ FrameWf (testPairs [0x55]) ∧
      (testPairs [0x55]).scanRow < (testPairs [0x55]).height ∧
      testLookups 8 (testPairs [0x55]) (fun ws _ => ws.length == 8) = true ∧
      testLookups 7 ({ testPairs [0x55] with bs := { base := 0x100, size := 1, bytePos := 0, bitPos := 1 } })
        (fun ws u => ws.length == 7 &&
          match btLookup fullId u with
          | .ok _ _ => false
          | .error c _ => c == .exhausted) = true := by decide +kernel

theorem test_witness_DoubleAndHalfBlocks :
    (testPairs [0x55]).work = .video ∧ FrameWf (testPairs [0x55]) ∧
      (testPairs [0x55]).scanRow < (testPairs [0x55]).height ∧
      testLookups 2 (testPairs [0x55]) (fun ws _ => ws == [0x0403, 0x0201]) = true ∧
      testLookups 4 (testPairs [0x55]) (fun ws _ => ws == [0x0403, 0x0201, 0x0403, 0x0201]) = true ∧
      (testPairs [0x55]).params.halfVariant = .fourLookup ∧
      ({ testPairs [0x55] with params := { Config.defaults with halfVariant := .twoLookup } }).params.halfVariant =
        .twoLookup := by decide +kernel

-- The window ends after one lookup, and after three.
theorem test_witness_DoubleAndHalfBlocks_faults :
    (∀ k ∈ [1, 3], testLookups k
        ({ testPairs [0x55] with bs := { base := 0x100, size := 1, bytePos := 0, bitPos := BitVec.ofNat 3 (8 - k) } })
        (fun ws u => ws.length == k &&
          match btLookup fullId u with
          | .ok _ _ => false
          | .error c _ => c == .exhausted) = true) := by decide +kernel

theorem test_witness_VoidAndSolidRuns :
    (testLast 0x32 0 []).work = .video ∧ FrameWf (testLast 0x32 0 []) ∧
      (testLast 0x32 0 []).scanRow < (testLast 0x32 0 []).height := by decide

theorem test_witness_VoidFrame :
    let s := testVideo 0x32 0x000E []
    windowLegal s s.arg0 s.arg1 = true ∧ videoConfigLegal s = true ∧
      s.vt[typeId] = .present .absent .absent (.lit 0x000E) Cache.zero ∧
      (BNode.lit 0x000E).allLits (fun w => w.extractLsb' 0 2 == 2#2) = true := by decide

theorem test_witness_SolidFrame :
    let s := testVideo 0x32 0x33EF []
    windowLegal s s.arg0 s.arg1 = true ∧ videoConfigLegal s = true ∧
      s.vt[typeId] = .present .absent .absent (.lit 0x33EF) Cache.zero ∧
      (BNode.lit 0x33EF).allLits (fun w => w.extractLsb' 0 2 == 3#2 && w.extractLsb' 8 8 == 0x33#8) = true ∧
      testAfter (exec .vidDecode s) (fun t => t.status == 0x5000) = true := by decide +kernel

/-- An 8 by 8 frame whose TYPE tree has the escape to slot 0 and the leaf `w`. -/
def testWords (w : Half) (bytes : List Byte) : State :=
  (testVideo 0x32 0 bytes).setVt typeId (.present .absent .absent (.branch (.esc 0) (.lit w)) Cache.zero)

/-- The property of what a number of TYPE lookups from the start of a frame give. -/
def testTypes (k : Nat) (s : State) (p : List Half → State → Bool) : Bool :=
  match btLookups typeId k (frameStarted s) with
  | .ok ws u => p ws u
  | .error _ _ => false

-- A run of three blocks twice, which ends the frame of four; eight blocks of sixteen, where the window ends.
theorem test_witness_VoidFrame_words :
    (windowLegal (testWords 0x000A [0xFF]) (testWords 0x000A [0xFF]).arg0 (testWords 0x000A [0xFF]).arg1 = true ∧
      videoConfigLegal (testWords 0x000A [0xFF]) = true ∧ frameBlocks (testWords 0x000A [0xFF]) = 4) ∧
      testTypes 2 (testWords 0x000A [0xFF]) (fun ws _ => ws.all (fun w => typeField w == 2) && runBlocks ws.dropLast == 3 &&
        runBlocks ws == 6) = true ∧
      testTypes 8 ({ testWords 0x0002 [0xFF] with width := 16, height := 16 }) (fun ws u => runBlocks ws == 8 &&
        match btLookup typeId u with
        | .ok _ _ => false
        | .error c _ => c == .exhausted) = true := by decide +kernel

theorem test_witness_SolidFrame_words :
    testTypes 2 (testWords 0x770B [0xFF]) (fun ws _ => ws.all (fun w => typeField w == 3 && payloadField w == 0x77) &&
      runBlocks ws.dropLast == 3 && runBlocks ws == 6) = true ∧
      testTypes 8 ({ testWords 0x7703 [0xFF] with width := 16, height := 16 }) (fun ws u => runBlocks ws == 8 &&
        match btLookup typeId u with
        | .ok _ _ => false
        | .error c _ => c == .exhausted) = true := by decide +kernel

-- A completed frame, and a fault of the stream.
theorem test_witness_VidDecodeIsolation :
    testAfter (exec .vidDecode (testVideo 0x32 0x33EF [])) (fun t => t.statusCause == 0) = true ∧
      (let s := (testVideo 0x32 0 []).setVt typeId .absent;
        windowLegal s s.arg0 s.arg1 = true ∧ videoConfigLegal s = true ∧
          testAfter (exec .vidDecode s) (fun t => t.statusCause != 0) = true) := by decide +kernel

theorem test_witness_EveryCommandEnds : commandCode .vidDecode = some 0x50 := by decide

-- The commands that read tokens, each past its checks.
theorem test_witness_EveryCommandEnds_runs :
    (let s := testVideo 0x32 0 []; windowLegal s s.arg0 s.arg1 = true ∧ videoConfigLegal s = true) ∧
      (let s := testRecord 0xC0000000 [0x04, 0, 0, 0, 0x00];
        trackOperand s.arg2 = some 0 ∧ windowLegal s s.arg0 s.arg1 = true ∧ trkExists s.trk[(0 : Fin 7)] = true ∧
          trkVariant s.trk[(0 : Fin 7)] = 0 ∧ trkCompressed s.trk[(0 : Fin 7)] = true ∧ s.arg1 ≠ 0) ∧
      slotOperand State.reset.arg0 = some 0 := by decide +kernel

theorem test_witness_CausesByCommand :
    isCommand .stLookup = true ∧ testAfter (exec .stLookup State.reset) (fun t => t.statusCause == 3) = true := by
  decide +kernel

-- A fault, and a mismatch under `continue_declared`.
theorem test_witness_LogIsSticky :
    isCommand .bsReadBit = true ∧
      testAfter (exec .bsReadBit State.reset) (fun t => t.log.getLsbD 1 && t.statusCause == 1) = true ∧
      isCommand .audDecode = true ∧
      testAfter (exec .audDecode { testRecord 0xC0000000 [0x06, 0, 0, 0, 0x1B, 0x40, 0x01, 0xFE, 0xF9, 0x57, 0x03] with
        params := { Config.defaults with mismatchPolicy := .continueDeclared } })
        (fun t => t.log.getLsbD 5 && t.statusCause == 0) = true := by decide +kernel

theorem test_witness_WhoWritesWhat :
    isCommand .bsReadBit = true ∧
      testAfter (exec .bsReadBit (testAt 0 7)) (fun t => t.result != State.reset.result && t.bs != (testAt 0 7).bs) =
        true := by decide +kernel

theorem test_witness_StepKeepsInvariant :
    (testHost (.writeCmd 0x00)).work = .idle ∧ BitsWf (testHost (.writeCmd 0x00)) ∧
      MemoryWf (testHost (.writeCmd 0x00)) ∧ AoutWf (testHost (.writeCmd 0x00)) ∧ LogWf (testHost (.writeCmd 0x00)) ∧ StatusWf (testHost (.writeCmd 0x00)) ∧
      testAfter (step (testHost (.writeCmd 0x00))) (fun t => t.host == []) = true := by decide +kernel

theorem test_witness_DecodeEncode : WellFormed (.typeWord true) (.full 0xFF 0x3F) = true := by decide

theorem test_witness_EncodeDecode :
    decode .node8 [false, false, true, true, true, true, true, true, true] = .instr (.node8Leaf 0xFE) := by decide
end

section
/-! Every command ends (70_reset_and_hazards.md R341; 46_system.md R280): what a command keeps of CMD, STATUS and the host's
accesses, a measure that every step of a run decreases, and its bound by the fuel of `runCommand`. -/

-- The package is compiled as one text: elaborating in order keeps the number of threads small.
set_option Elab.async false

namespace Sys2Proof.Machine

open Sys2Proof Sys2Proof.Config

/-! ### What a running command keeps -/

/-- `t` belongs to the same command as `s`: its code stands, STATUS.cause is the one of `s` or a listed cause, and the host's
accesses are still to come. -/
structure SameCommand (s t : State) : Prop where
  cmd : t.cmd = s.cmd
  statusCmd : t.statusCmd = s.statusCmd
  cause : t.statusCause = s.statusCause ∨ ∃ c : Cause, t.statusCause = c.code
  host : t.host = s.host

theorem SameCommand.of_eq {s t : State} (hc : t.cmd = s.cmd) (hs : t.status = s.status) (hh : t.host = s.host) :
    SameCommand s t :=
  ⟨hc, by rw [State.statusCmd, hs]; rfl, .inl (by rw [State.statusCause, hs]; rfl), hh⟩

theorem SameCommand.refl (s : State) : SameCommand s s := .of_eq rfl rfl rfl

theorem SameCommand.setBs (s : State) (b : BitStream) : SameCommand s (s.setBs b) := .of_eq rfl rfl rfl

theorem SameCommand.trans {s t u : State} (h : SameCommand s t) (h' : SameCommand t u) : SameCommand s u where
  cmd := h'.cmd.trans h.cmd
  statusCmd := h'.statusCmd.trans h.statusCmd
  cause := by
    rcases h'.cause with e | e
    · rw [e]; exact h.cause
    · exact .inr e
  host := h'.host.trans h.host

/-- A fault ends the command with a listed cause (60_exceptions.md R291, R294). -/
theorem SameCommand.raiseFault {s t : State} (h : SameCommand s t) (c : Cause) : SameCommand s (raiseFault c t) :=
  h.trans ⟨raiseFault_cmd t c, raiseFault_statusCmd c t, .inr ⟨c, raiseFault_statusCause c t⟩, raiseFault_host t c⟩

theorem DrawFrame.sameCommand {s t : State} (h : DrawFrame s t) : SameCommand s t := by
  rw [h.frame]
  exact .of_eq rfl rfl rfl

theorem VideoFrame.sameCommand {s t : State} (h : VideoFrame s t) : SameCommand s t := by
  rw [h.frame]
  exact .of_eq rfl rfl rfl

theorem AudioFrame.sameCommand {k : Fin 7} {s t : State} (h : AudioFrame k s t) : SameCommand s t := by
  unfold AudioFrame at h
  rw [h]
  exact .of_eq rfl rfl rfl

theorem putBig_sameCommand (p : BigProgress) (s : State) : SameCommand s (putBig p s) := by
  unfold putBig
  repeat' split
  all_goals exact .of_eq rfl rfl rfl

/-! ### The end of a command -/

/-- The answer is the end of the command `code` begun in `s` (46_system.md R280): the engine idle, STATUS with the code and a
listed cause, the host's accesses as they were. -/
def CommandEnds (code : Byte) (s : State) (a : Answer) : Prop :=
  ∃ t, a = .next t ∧ t.work = .idle ∧ t.cmd = code ∧ t.statusCmd = code ∧ t.statusCause.toNat ≤ 10 ∧ t.host = s.host

theorem Cause.code_le (c : Cause) : c.code.toNat ≤ 10 := by
  cases c <;> decide

theorem SameCommand.ends {code : Byte} {s t : State} (h : SameCommand (startCommand code s) t) (hw : t.work = .idle) :
    CommandEnds code s (.next t) := by
  refine ⟨t, rfl, hw, h.cmd, h.statusCmd.trans (startCommand_statusCmd code s), ?_, h.host⟩
  rcases h.cause with e | ⟨c, e⟩ <;> rw [e]
  · rw [startCommand_statusCause]
    exact Nat.zero_le 10
  · exact c.code_le

/-- An operation that keeps what belongs to the command and, where it raises nothing, the locals. -/
def KeepsCommand {α : Type} (e : Engine α) : Prop :=
  ∀ s, match e s with
    | .ok _ t => SameCommand s t ∧ t.work = s.work
    | .error _ t => SameCommand s t

theorem keepsCommand_pure {α : Type} (a : α) : KeepsCommand (pure a : Engine α) := fun s => ⟨.refl s, rfl⟩

theorem keepsCommand_throw {α : Type} (c : Cause) : KeepsCommand (throw c : Engine α) := fun s => .refl s

theorem keepsCommand_bind {α β : Type} {e : Engine α} {f : α → Engine β} (h : KeepsCommand e)
    (hf : ∀ a, KeepsCommand (f a)) : KeepsCommand (e >>= f) := by
  intro s
  have h1 := h s
  rw [ops_bind]
  rcases he : e s with ⟨a, t⟩ | ⟨c, t⟩ <;> simp only [he] at h1 ⊢
  · have h2 := hf a t
    rcases hfa : f a t with ⟨b, u⟩ | ⟨c, u⟩ <;> simp only [hfa] at h2 ⊢
    · exact ⟨h1.1.trans h2.1, h2.2.trans h1.2⟩
    · exact h1.1.trans h2
  · exact h1

theorem keepsCommand_reading {α : Type} (r : List Host.Cell → Reader α) : KeepsCommand (reading r) := by
  intro s
  rcases hr : r s.inMem s.bs with ⟨a, b⟩ | ⟨c, b⟩
  · rw [reading_ok hr]
    exact ⟨.of_eq rfl rfl rfl, rfl⟩
  · rw [reading_error hr]
    exact .of_eq rfl rfl rfl

theorem keepsCommand_modify {f : State → State} (hf : ∀ s, SameCommand s (f s)) (hw : ∀ s, (f s).work = s.work) :
    KeepsCommand (modify f) := fun s => ⟨hf s, hw s⟩

theorem keepsCommand_putResult (v : Half) : KeepsCommand (putResult v) :=
  keepsCommand_modify (fun _ => .of_eq rfl rfl rfl) fun _ => rfl

theorem keepsCommand_btLookup (id : Fin 4) : KeepsCommand (btLookup id) := by
  intro s
  have h := draws_btLookup id s
  rcases he : btLookup id s with ⟨v, t⟩ | ⟨c, t⟩ <;> simp only [he] at h ⊢
  · exact ⟨h.sameCommand, by rw [h.frame]⟩
  · exact h.1.sameCommand

/-- A command that meets no token ends (46_system.md R280). -/
theorem command_ends {e : Engine Unit} (h : KeepsCommand e) (code : Byte) (s : State) :
    CommandEnds code s (command code e s) := by
  have h1 := h (startCommand code s)
  rcases he : e (startCommand code s) with ⟨⟨⟩, t⟩ | ⟨c, t⟩ <;> simp only [he] at h1
  · rw [command_ok he]
    exact h1.1.ends h1.2
  · rw [command_error he]
    exact (h1.raiseFault c).ends rfl

/-! ### The commands that meet no token -/

theorem keepsCommand_softReset : KeepsCommand (modify softResetState) :=
  keepsCommand_modify (fun _ => .of_eq rfl rfl rfl) fun _ => rfl

theorem keepsCommand_logClear : KeepsCommand (modify fun s => { s with log := 0 }) :=
  keepsCommand_modify (fun _ => .of_eq rfl rfl rfl) fun _ => rfl

theorem keepsCommand_bsOpenRule : KeepsCommand bsOpenRule := by
  intro s
  simp only [bsOpenRule, ops_bind, ops_get]
  by_cases hw : windowLegal s s.arg0 s.arg1 = true
  · simp only [hw, if_true, ops_set]
    exact ⟨.of_eq rfl rfl rfl, rfl⟩
  · simp only [hw]
    exact .refl s

theorem keepsCommand_bsReadBitRule : KeepsCommand bsReadBitRule :=
  keepsCommand_bind (keepsCommand_reading _) fun _ => keepsCommand_putResult _

theorem keepsCommand_bsReadByteRule : KeepsCommand bsReadByteRule :=
  keepsCommand_bind (keepsCommand_reading _) fun _ => keepsCommand_putResult _

theorem keepsCommand_stLookupRule : KeepsCommand stLookupRule := by
  intro s
  simp only [stLookupRule, ops_bind, ops_get]
  cases slotOperand s.arg0 with
  | none => exact keepsCommand_throw (α := Unit) .badCommand s
  | some slot => exact keepsCommand_bind (keepsCommand_reading _) (fun _ => keepsCommand_putResult _) s

theorem keepsCommand_btResetRule : KeepsCommand btResetRule := by
  intro s
  simp only [btResetRule, ops_bind, ops_get]
  cases slotOperand s.arg0 with
  | none => exact keepsCommand_throw (α := Unit) .badCommand s
  | some id => exact ⟨.of_eq rfl rfl rfl, rfl⟩

theorem keepsCommand_btLookupRule : KeepsCommand btLookupRule := by
  intro s
  simp only [btLookupRule, ops_bind, ops_get]
  cases slotOperand s.arg0 with
  | none => exact keepsCommand_throw (α := Unit) .badCommand s
  | some id => exact keepsCommand_bind (keepsCommand_btLookup id) (fun _ => keepsCommand_putResult _) s

/-! ### The blocks of a frame, counted -/

theorem runLength_pos : ∀ r : BitVec 6, 0 < runLength r := by decide

/-- A cursor inside the frame is at one of its blocks (44_video_blocks.md R232). -/
theorem FrameWf.blockNumber_lt {s : State} (h : FrameWf s) (hr : s.scanRow < s.height) :
    blockNumber s < frameBlocks s := by
  obtain ⟨W, H, R, C, hW, hH, hR, hC, h1, h2⟩ := h.blocks hr
  simp only [blockNumber, frameBlocks, hW, hH, hR, hC, Nat.mul_div_cancel_left _ (show 0 < 4 by decide)]
  calc R * W + C < R * W + W := Nat.add_lt_add_left h2 _
    _ = (R + 1) * W := (Nat.succ_mul R W).symm
    _ ≤ H * W := Nat.mul_le_mul_right W h1
    _ = W * H := Nat.mul_comm H W

/-- The advance goes to the next block in scan order (44_video_blocks.md R242). -/
theorem FrameWf.blockNumber_advance {s : State} (h : FrameWf s) (hr : s.scanRow < s.height) :
    blockNumber (advanceScan s) = blockNumber s + 1 := by
  obtain ⟨W, H, R, C, hW, hH, hR, hC, h1, h2⟩ := h.blocks hr
  by_cases hc : s.scanCol.toNat + 4 < s.width.toNat
  · obtain ⟨e, e'⟩ := advanceScan_along h hr hc
    rw [e, blockNumber, blockNumber]
    dsimp only
    omega
  · obtain ⟨e, e'⟩ := advanceScan_wrap h hr (by omega)
    have hrow : (s.scanRow + 4).toNat / 4 = R + 1 := by omega
    have hlast : C + 1 = W := by omega
    calc blockNumber (advanceScan s)
        = (s.scanRow + 4).toNat / 4 * (s.width.toNat / 4) := by simp [e, blockNumber]
      _ = R * W + (C + 1) := by
          rw [hrow, hW, Nat.mul_div_cancel_left W (by decide), Nat.succ_mul, hlast]
      _ = blockNumber s + 1 := by
          simp only [blockNumber, hW, hR, hC, Nat.mul_div_cancel_left _ (show 0 < 4 by decide), Nat.add_assoc]

theorem DrawFrame.blockNumber_eq {s t : State} (h : DrawFrame s t) : blockNumber t = blockNumber s := by
  rw [h.frame]
  rfl

theorem DrawFrame.frameBlocks_eq {s t : State} (h : DrawFrame s t) : frameBlocks t = frameBlocks s := by
  rw [h.frame]
  rfl

theorem VideoFrame.frameBlocks_eq {s t : State} (h : VideoFrame s t) : frameBlocks t = frameBlocks s := by
  rw [h.frame]
  rfl

theorem DrawFrame.scanRow_lt {s t : State} (h : DrawFrame s t) (hr : s.scanRow < s.height) : t.scanRow < t.height := by
  rw [h.frame]
  exact hr

/-- Past the last row a run draws nothing (44_video_blocks.md R235). -/
theorem drawRun_over (draw : Engine Unit) (n : Nat) {s : State} (h : ¬ s.scanRow < s.height) :
    drawRun draw n s = .ok () s := by
  cases n with
  | zero => rfl
  | succ n => simp only [drawRun, ops_bind, ops_get, h, if_false, ops_pure]

/-- A run that does not reach the frame's end draws all its blocks (44_video_blocks.md R232). -/
theorem drawRun_blockNumber {draw : Engine Unit} (hd : Draws draw) (n : Nat) : ∀ {s t : State}, FrameWf s →
    drawRun draw n s = .ok () t → t.scanRow < t.height → blockNumber t = blockNumber s + n := by
  induction n with
  | zero =>
    intro s t _ h _
    cases h
    rfl
  | succ n ih =>
    intro s t hf h ht
    by_cases hr : s.scanRow < s.height
    · simp only [drawRun, ops_bind, ops_get, hr, if_true] at h
      have h1 := hd s
      rcases hs : draw s with ⟨⟨⟩, u⟩ | ⟨c, u⟩ <;> simp only [hs, ops_modify] at h1 h
      · have hru := h1.scanRow_lt hr
        have hfu := h1.frameWf hf
        rw [ih (hfu.advance hru).1 h ht, hfu.blockNumber_advance hru, h1.blockNumber_eq]
        omega
      · cases h
    · rw [drawRun_over draw _ hr] at h
      cases h
      exact absurd ht hr

/-! ### A measure that every step decreases -/

/-- While a frame is decoded, its configuration is legal and the cursor is at one of its blocks. -/
def CursorInFrame (s : State) : Prop := s.work = .video → FrameWf s ∧ s.scanRow < s.height

theorem cursorInFrame_of_ne {s : State} (h : s.work ≠ .video) : CursorInFrame s := fun h' => absurd h' h

/-- How many more steps the running command takes at most (70_reset_and_hazards.md R341): a bit of the window each, a block
of the frame each, or as `audioMeasure` says. -/
def runMeasure (s : State) : Nat :=
  match s.work with
  | .idle => 0
  | .small _ _ | .big _ _ | .bigAll _ _ => s.bs.left
  | .audio _ _ => audioMeasure s
  | .video => frameBlocks s - blockNumber s

theorem runMeasure_small {s : State} {slot : Fin 4} {w : SmallWork} (h : s.work = .small slot w) :
    runMeasure s = s.bs.left := by
  simp only [runMeasure, h]

theorem runMeasure_big {f : BigWork → Work} (hf : IsBig f) {s : State} {w : BigWork} (h : s.work = f w) :
    runMeasure s = s.bs.left := by
  rcases hf with ⟨id, rfl⟩ | ⟨id, rfl⟩ <;> simp only [runMeasure, h]

theorem runMeasure_audio {s : State} {k : Fin 7} {w : AudioWork} (h : s.work = .audio k w) :
    runMeasure s = audioMeasure s := by
  simp only [runMeasure, h]

theorem runMeasure_video {s : State} (h : s.work = .video) : runMeasure s = frameBlocks s - blockNumber s := by
  simp only [runMeasure, h]

/-- The fuel of a run exceeds the measure (log 7). -/
theorem runMeasure_lt_stepBound (s : State) : runMeasure s < stepBound s := by
  have hl := BitStream.left_le s.bs
  unfold stepBound
  cases h : s.work with
  | idle => simp only [runMeasure, h]; omega
  | small slot w => rw [runMeasure_small h]; omega
  | big id w => rw [runMeasure_big (.inl ⟨id, rfl⟩) h]; omega
  | bigAll id w => rw [runMeasure_big (.inr ⟨id, rfl⟩) h]; omega
  | video => rw [runMeasure_video h]; omega
  | audio k w =>
    rw [runMeasure_audio h]
    cases w with
    | length => simp only [audioMeasure, h]; omega
    | header n => have := n.isLt; simp only [audioMeasure, h]; omega
    | trees n slot w => have := n.isLt; simp only [audioMeasure, h]; omega
    | init n got => have := n.isLt; simp only [audioMeasure, h]; split <;> omega
    | deltas n out p0 p1 => have := n.isLt; simp only [audioMeasure, h]; omega

/-- The answer of a step of a run: a state of the same command, with a smaller measure or the command over. -/
def Progress (s : State) (a : Answer) : Prop :=
  ∃ t, a = .next t ∧ SameCommand s t ∧ CursorInFrame t ∧ (t.work = .idle ∨ runMeasure t < runMeasure s)

theorem progress_idle {s t : State} (h : SameCommand s t) (hw : t.work = .idle) : Progress s (.next t) :=
  ⟨t, rfl, h, cursorInFrame_of_ne (by rw [hw]; exact nofun), .inl hw⟩

theorem progress_fault {s t : State} (h : SameCommand s t) (c : Cause) : Progress s (.next (raiseFault c t)) :=
  progress_idle (h.raiseFault c) rfl

theorem progress_small {s : State} {slot : Fin 4} {w : SmallWork} (h : s.work = .small slot w) :
    Progress s (engineStep tokenMeaning s) := by
  rcases engineStep_small_cases h with ⟨j, w', h0, hj, e⟩ | ⟨j, tree, _, _, e⟩ | ⟨j, c, _, _, e⟩ <;> rw [e]
  · refine ⟨_, rfl, .of_eq rfl rfl rfl, cursorInFrame_of_ne nofun, .inr ?_⟩
    rw [runMeasure_small h, runMeasure_small (State.setWork_work _ _), State.setWork_bs, State.setBs_bs,
      BitStream.left_skip hj]
    omega
  · exact progress_idle (.of_eq rfl rfl rfl) rfl
  · exact progress_fault (.setBs s _) c

theorem IsBig.ne_video {f : BigWork → Work} (hf : IsBig f) (w : BigWork) : f w ≠ .video := by
  rcases hf with ⟨id, rfl⟩ | ⟨id, rfl⟩ <;> exact nofun

/-- What follows a finished bigtree: the end of the command, or the next bigtree of BT_BUILD_ALL (42_big_tree.md R176,
R177). -/
theorem putBig_done_cases {f : BigWork → Work} (hf : IsBig f) {s : State} {w : BigWork} (h : s.work = f w) (t : BigTree) :
    (putBig (.done t) s).work = .idle ∨
      ∃ f', IsBig f' ∧ (putBig (.done t) s).work = f' .control ∧ (putBig (.done t) s).bs = s.bs := by
  rcases hf with ⟨id, rfl⟩ | ⟨id, rfl⟩
  · rw [putBig_done_one h]
    exact .inl rfl
  · rcases putBig_done_all h t with ⟨id', _, e⟩ | ⟨_, e⟩ <;> rw [e]
    · exact .inr ⟨.bigAll id', .inr ⟨id', rfl⟩, rfl, rfl⟩
    · exact .inl rfl

theorem progress_big {f : BigWork → Work} (hf : IsBig f) {s : State} {w : BigWork} (h : s.work = f w) :
    Progress s (engineStep tokenMeaning s) := by
  rcases engineStep_big_cases hf h with ⟨j, w', h0, hj, e⟩ | ⟨j, tree, h0, hj, e⟩ | ⟨j, c, _, _, e⟩ <;> rw [e]
  · refine ⟨_, rfl, .of_eq rfl rfl rfl, cursorInFrame_of_ne (hf.ne_video w'), .inr ?_⟩
    rw [runMeasure_big hf h, runMeasure_big hf (State.setWork_work _ _), State.setWork_bs, State.setBs_bs,
      BitStream.left_skip hj]
    omega
  · have hsame : SameCommand s (putBig (.done tree) (s.setBs (s.bs.skip j))) :=
      (SameCommand.setBs s _).trans (putBig_sameCommand _ _)
    rcases putBig_done_cases hf (s := s.setBs (s.bs.skip j)) h tree with hw | ⟨f', hf', hw, hb⟩
    · exact progress_idle hsame hw
    · refine ⟨_, rfl, hsame, cursorInFrame_of_ne (by rw [hw]; exact hf'.ne_video _), .inr ?_⟩
      rw [runMeasure_big hf h, runMeasure_big hf' hw, hb, State.setBs_bs, BitStream.left_skip hj]
      omega
  · exact progress_fault (.setBs s _) c

theorem progress_audio {s : State} {k : Fin 7} {w : AudioWork} (h : s.work = .audio k w) :
    Progress s (engineStep tokenMeaning s) := by
  rcases engineStep_audio_cases h with ⟨t, w', e, hf, hw, hm⟩ | ⟨t, e, hf, hw⟩ | ⟨c, t, e, hf, _⟩ <;> rw [e]
  · refine ⟨t, rfl, hf.sameCommand, cursorInFrame_of_ne (by rw [hw]; exact nofun), .inr ?_⟩
    rwa [runMeasure_audio h, runMeasure_audio hw]
  · exact progress_idle hf.sameCommand hw
  · exact progress_fault hf.sameCommand c

/-- A run of at least one block goes on in the frame behind the blocks drawn, ends the frame, or faults (44_video_blocks.md
R232, R244). -/
theorem progress_blockRun {draw : Engine Unit} (hd : Draws draw) {n : Nat} (hn : 0 < n) {s : State} (h : s.work = .video)
    (hf : FrameWf s) (hr : s.scanRow < s.height) : Progress s (blockRun draw n s) := by
  rcases drawRun_cases hd n hf (absurd hr) with ⟨t, e, hv, hw, hft, _⟩ | ⟨c, t, e, hv, _⟩
  · have he : blockRun draw n s = .next (endGroup t) := perform_ok (by rw [ops_bind, e]; rfl)
    rw [he, endGroup]
    by_cases hrt : t.scanRow < t.height
    · rw [if_pos hrt]
      refine ⟨t, rfl, hv.sameCommand, fun _ => ⟨hft, hrt⟩, .inr ?_⟩
      have hlt := hft.blockNumber_lt hrt
      rw [runMeasure_video h, runMeasure_video (hw.trans h), hv.frameBlocks_eq, drawRun_blockNumber hd n hf e hrt]
      rw [hv.frameBlocks_eq, drawRun_blockNumber hd n hf e hrt] at hlt
      omega
    · rw [if_neg hrt]
      exact progress_idle (hv.sameCommand.trans (.of_eq rfl rfl rfl)) rfl
  · have he : blockRun draw n s = .next (raiseFault c t) := perform_error (by rw [ops_bind, e])
    rw [he]
    exact progress_fault hv.sameCommand c

theorem progress_video {s : State} (h : s.work = .video) (hf : FrameWf s) (hr : s.scanRow < s.height) :
    Progress s (engineStep tokenMeaning s) := by
  rcases engineStep_video_cases h with ⟨i, r, t, _, hd, hw, e⟩ | ⟨c, t, _, hd, e⟩ <;> rw [e]
  · obtain ⟨u, eu, hc, hi, hm⟩ :=
      progress_blockRun (draws_block i) (runLength_pos r) hw (hd.frameWf hf) (hd.scanRow_lt hr)
    have hm' : runMeasure t = runMeasure s := by
      rw [runMeasure_video hw, runMeasure_video h, hd.frameBlocks_eq, hd.blockNumber_eq]
    exact ⟨u, eu, hd.sameCommand.trans hc, hi, hm' ▸ hm⟩
  · exact progress_fault hd.sameCommand c

/-- Every step of a running command makes progress. -/
theorem engineStep_progress {s : State} (hw : s.work ≠ .idle) (hc : CursorInFrame s) :
    Progress s (engineStep tokenMeaning s) := by
  cases h : s.work with
  | idle => exact absurd h hw
  | small slot w => exact progress_small h
  | big id w => exact progress_big (.inl ⟨id, rfl⟩) h
  | bigAll id w => exact progress_big (.inr ⟨id, rfl⟩) h
  | audio k w => exact progress_audio h
  | video => exact progress_video h (hc h).1 (hc h).2

/-- The run of a command ends (70_reset_and_hazards.md R341). -/
theorem runCommand_ends {s : State} (hc : CursorInFrame s) :
    ∃ t, runCommand s = .next t ∧ SameCommand s t ∧ t.work = .idle := by
  have hstep : ∀ u : State, u.work ≠ .idle → (SameCommand s u ∧ CursorInFrame u) →
      ∃ v, engineStep tokenMeaning u = .next v ∧ (SameCommand s v ∧ CursorInFrame v) ∧
        (v.work = .idle ∨ runMeasure v < runMeasure u) := by
    rintro u hw ⟨hs, hu⟩
    obtain ⟨v, e, huv, hv, hm⟩ := engineStep_progress hw hu
    exact ⟨v, e, ⟨hs.trans huv, hv⟩, hm⟩
  obtain ⟨t, e, ⟨hs, _⟩, hw⟩ := runSteps_ends runMeasure hstep ⟨.refl s, hc⟩ (runMeasure_lt_stepBound s)
  exact ⟨t, e, hs, hw⟩

/-! ### The commands that read tokens -/

/-- The checks and the start of a command keep what belongs to it, and a frame starts with the cursor inside. -/
def StartsRun (e : Engine Unit) (s : State) : Prop :=
  match e s with
  | .ok _ t => SameCommand s t ∧ CursorInFrame t
  | .error _ t => SameCommand s t

theorem startsRun_of_ok {e : Engine Unit} {s t : State} (h : e s = .ok () t) (hs : SameCommand s t)
    (hc : CursorInFrame t) : StartsRun e s := by
  simp only [StartsRun, h]
  exact ⟨hs, hc⟩

theorem startsRun_of_error {e : Engine Unit} {s t : State} {c : Cause} (h : e s = .error c t) (hs : SameCommand s t) :
    StartsRun e s := by
  simp only [StartsRun, h]
  exact hs

/-- From a state between commands an operation that keeps the locals starts no run. -/
theorem KeepsCommand.startsRun {e : Engine Unit} (h : KeepsCommand e) {s : State} (hw : s.work = .idle) :
    StartsRun e s := by
  have h1 := h s
  rcases he : e s with ⟨⟨⟩, t⟩ | ⟨c, t⟩ <;> simp only [he] at h1
  · exact startsRun_of_ok he h1.1 (cursorInFrame_of_ne (by rw [h1.2, hw]; exact nofun))
  · exact startsRun_of_error he h1

theorem StartsRun.of_eq {e e' : Engine Unit} {s t : State} (h : StartsRun e' t) (he : e s = e' t) (hs : SameCommand s t) :
    StartsRun e s := by
  unfold StartsRun at h ⊢
  rw [he]
  split at h
  · exact ⟨hs.trans h.1, h.2⟩
  · exact hs.trans h

/-- A command that reads tokens ends (46_system.md R280). -/
theorem streamCommand_ends {code : Byte} {e : Engine Unit} {s : State} (h : StartsRun e (startCommand code s)) :
    CommandEnds code s (streamCommand code e s) := by
  unfold StartsRun at h
  rcases he : e (startCommand code s) with ⟨⟨⟩, t⟩ | ⟨c, t⟩ <;> simp only [he] at h
  · obtain ⟨u, hu, hs, hw⟩ := runCommand_ends h.2
    rw [streamCommand_ok he, hu]
    exact (h.1.trans hs).ends hw
  · rw [streamCommand_error he]
    exact (h.raiseFault c).ends rfl

/-- A command past its checks ends where step after step from its start ends (46_system.md R280). -/
theorem streamCommand_engineRun {code : Byte} {e : Engine Unit} {s t : State} (h : e (startCommand code s) = .ok () t)
    (hc : CursorInFrame t) : ∃ u, streamCommand code e s = .next u ∧ EngineRun t u := by
  obtain ⟨u, hu, _, hw⟩ := runCommand_ends hc
  exact ⟨u, (streamCommand_ok h).trans hu, runSteps_engineRun hu hw⟩

/-! #### VID_DECODE (44_video_blocks.md R230, R231) -/

/-- A frame of a legal configuration starts at its first block (44_video_blocks.md R231). -/
theorem startFrame_cursorInFrame {s : State} (h : videoConfigLegal s = true) : CursorInFrame (startFrame s) := by
  obtain ⟨_, hw, _, hh, _, _⟩ := videoConfigLegal_iff.1 h
  exact fun _ => ⟨⟨h, rfl, rfl, Nat.zero_le _, hw⟩, hh⟩

theorem vidDecodeStart_ok {s : State} (hw : windowLegal s s.arg0 s.arg1 = true) (hc : videoConfigLegal s = true) :
    vidDecodeStart s = .ok () (startFrame s) := by
  simp only [vidDecodeStart, ops_bind, ops_get, hw, hc, if_true, ops_set]

theorem startsRun_vidDecodeStart (s : State) : StartsRun vidDecodeStart s := by
  by_cases hw : windowLegal s s.arg0 s.arg1 = true
  · by_cases hc : videoConfigLegal s = true
    · exact startsRun_of_ok (vidDecodeStart_ok hw hc) (.of_eq rfl rfl rfl) (startFrame_cursorInFrame hc)
    · refine startsRun_of_error (c := .badConfig) ?_ (.refl s)
      simp only [vidDecodeStart, ops_bind, ops_get, hw, hc, if_true]
      rfl
  · refine startsRun_of_error (c := .window) ?_ (.refl s)
    simp only [vidDecodeStart, ops_bind, ops_get, hw]
    rfl

/-! #### AUD_DECODE (43_audio_dpcm.md R200 to R202) -/

/-- The state in which a DPCM record's decoding starts (43_audio_dpcm.md R200). -/
def recordStarted (k : Fin 7) (s : State) : State := ((s.setAoutLen k 0).setAout k []).setWork (.audio k .length)

theorem audDecodeStart_ok {s : State} {k : Fin 7} (hk : trackOperand s.arg2 = some k)
    (hw : windowLegal s s.arg0 s.arg1 = true) (he : trkExists s.trk[k] = true) (hv : trkVariant s.trk[k] = 0)
    (hc : trkCompressed s.trk[k] = true) : audDecodeStart s = .ok () (recordStarted k s) := by
  simp only [audDecodeStart, ops_bind, ops_get, hk, hw, he, hv, hc, if_true, ops_set, ops_modify, beq_self_eq_true,
    Bool.and_self, recordStarted]

/-- Raw mode reads no token (43_audio_dpcm.md R201). -/
theorem keepsCommand_rawCopy (k : Fin 7) : KeepsCommand (rawCopy k) := by
  intro s
  simp only [rawCopy, ops_bind, ops_get]
  by_cases hm : within s.params.aoutMax s.arg1.toNat = true
  · simp only [hm, if_true, ops_set]
    exact ⟨.of_eq rfl rfl rfl, rfl⟩
  · simp only [hm]
    exact .refl s

theorem startsRun_audDecodeStart {s : State} (h : s.work = .idle) : StartsRun audDecodeStart s := by
  have fault : ∀ c, audDecodeStart s = .error c s → StartsRun audDecodeStart s :=
    fun c e => startsRun_of_error e (.refl s)
  cases hk : trackOperand s.arg2 with
  | none => exact fault .badCommand (by simp only [audDecodeStart, ops_bind, ops_get, hk]; rfl)
  | some k =>
    by_cases hw : windowLegal s s.arg0 s.arg1 = true
    · by_cases he : (trkExists s.trk[k] && trkVariant s.trk[k] == 0) = true
      · by_cases hc : trkCompressed s.trk[k] = true
        · rw [Bool.and_eq_true, beq_iff_eq] at he
          exact startsRun_of_ok (audDecodeStart_ok hk hw he.1 he.2 hc) (.of_eq rfl rfl rfl) (cursorInFrame_of_ne nofun)
        · have e : audDecodeStart s = rawCopy k ((s.setAoutLen k 0).setAout k []) := by
            simp only [audDecodeStart, ops_bind, ops_get, hk, hw, he, hc, if_true, ops_set]
            rfl
          exact ((keepsCommand_rawCopy k).startsRun (s := (s.setAoutLen k 0).setAout k []) h).of_eq e (.of_eq rfl rfl rfl)
      · exact fault .badConfig (by simp only [audDecodeStart, ops_bind, ops_get, hk, hw, he, if_true]; rfl)
    · exact fault .window (by simp only [audDecodeStart, ops_bind, ops_get, hk, hw]; rfl)

/-! #### BT_BUILD_ALL, BT_BUILD, ST_BUILD (42_big_tree.md R176, R177; 41_small_tree.md R153) -/

theorem btBuildAllStart_ok {s : State} (hw : windowLegal s s.arg0 s.arg1 = true) (hn : s.arg1 ≠ 0) :
    btBuildAllStart s = .ok () (((s.openWindow s.arg0 s.arg1).clearVt).setWork (.bigAll 0 .control)) := by
  simp only [btBuildAllStart, ops_bind, ops_get, hw, hn, if_true, if_false, ops_set]

theorem startsRun_btBuildAllStart {s : State} (h : s.work = .idle) : StartsRun btBuildAllStart s := by
  by_cases hw : windowLegal s s.arg0 s.arg1 = true
  · by_cases hn : s.arg1 = 0
    · refine startsRun_of_ok (t := (s.openWindow s.arg0 s.arg1).clearVt) ?_ (.of_eq rfl rfl rfl)
        (cursorInFrame_of_ne ?_)
      · rw [hn] at hw
        simp only [btBuildAllStart, ops_bind, ops_get, hw, hn, if_true, ops_set]
      · show s.work ≠ .video
        rw [h]
        exact nofun
    · exact startsRun_of_ok (btBuildAllStart_ok hw hn) (.of_eq rfl rfl rfl) (cursorInFrame_of_ne nofun)
  · refine startsRun_of_error (c := .window) ?_ (.refl s)
    simp only [btBuildAllStart, ops_bind, ops_get, hw]
    rfl

theorem btBuildStart_ok {s : State} {id : Fin 4} (h : slotOperand s.arg0 = some id) :
    btBuildStart s = .ok () ((s.setVt id .absent).setWork (.big id .control)) := by
  simp only [btBuildStart, ops_bind, ops_get, h, ops_set]

theorem startsRun_btBuildStart (s : State) : StartsRun btBuildStart s := by
  cases h : slotOperand s.arg0 with
  | none =>
    refine startsRun_of_error (c := .badCommand) ?_ (.refl s)
    simp only [btBuildStart, ops_bind, ops_get, h]
    rfl
  | some id => exact startsRun_of_ok (btBuildStart_ok h) (.of_eq rfl rfl rfl) (cursorInFrame_of_ne nofun)

theorem stBuildStart_ok {s : State} {slot : Fin 4} (h : slotOperand s.arg0 = some slot) :
    stBuildStart s = .ok () ((s.setAtree slot .absent).setWork (.small slot .control)) := by
  simp only [stBuildStart, ops_bind, ops_get, h, ops_set]

theorem startsRun_stBuildStart (s : State) : StartsRun stBuildStart s := by
  cases h : slotOperand s.arg0 with
  | none =>
    refine startsRun_of_error (c := .badCommand) ?_ (.refl s)
    simp only [stBuildStart, ops_bind, ops_get, h]
    rfl
  | some slot => exact startsRun_of_ok (stBuildStart_ok h) (.of_eq rfl rfl rfl) (cursorInFrame_of_ne nofun)

/-! ### Every command -/

/-- Every command ends, from every state (00_scope.md R9; 70_reset_and_hazards.md R341). -/
theorem exec_commandEnds {i : Instr} {code : Byte} (h : commandCode i = some code) (s : State) :
    CommandEnds code s (exec i s) := by
  cases i <;> cases h
  case nop => exact command_ends (keepsCommand_pure ()) 0x00 s
  case softReset => exact command_ends keepsCommand_softReset 0x01 s
  case logClear => exact command_ends keepsCommand_logClear 0x02 s
  case bsOpen => exact command_ends keepsCommand_bsOpenRule 0x10 s
  case bsReadBit => exact command_ends keepsCommand_bsReadBitRule 0x11 s
  case bsReadByte => exact command_ends keepsCommand_bsReadByteRule 0x12 s
  case stBuild => exact streamCommand_ends (startsRun_stBuildStart _)
  case stLookup => exact command_ends keepsCommand_stLookupRule 0x21 s
  case btBuild => exact streamCommand_ends (startsRun_btBuildStart _)
  case btBuildAll => exact streamCommand_ends (startsRun_btBuildAllStart rfl)
  case btReset => exact command_ends keepsCommand_btResetRule 0x32 s
  case btLookup => exact command_ends keepsCommand_btLookupRule 0x33 s
  case audDecode => exact streamCommand_ends (startsRun_audDecodeStart rfl)
  case vidDecode => exact streamCommand_ends (startsRun_vidDecodeStart _)

/-- Settles O52: every step of a command's run decreases a measure that the fuel exceeds, so the run ends idle, and a run that
ends idle is one of the machine's steps. -/
theorem everyCommandEnds : Obligations.EveryCommandEnds := by
  unfold Obligations.EveryCommandEnds
  refine ⟨fun i code s h => exec_commandEnds h s, ?vidDecode, ?audDecode, ?btBuildAll, fun s slot h => ⟨?btBuild, ?stBuild⟩⟩
  case vidDecode =>
    intro s hw hc
    exact streamCommand_engineRun (vidDecodeStart_ok (s := startCommand 0x50 s) hw hc)
      (startFrame_cursorInFrame (s := startCommand 0x50 s) hc)
  case audDecode =>
    intro s k hk hw he hv hc
    exact streamCommand_engineRun (audDecodeStart_ok (s := startCommand 0x40 s) hk hw he hv hc)
      (cursorInFrame_of_ne nofun)
  case btBuildAll =>
    intro s hw hn
    exact streamCommand_engineRun (btBuildAllStart_ok (s := startCommand 0x31 s) hw hn) (cursorInFrame_of_ne nofun)
  case btBuild =>
    exact streamCommand_engineRun (btBuildStart_ok (s := startCommand 0x30 s) h) (cursorInFrame_of_ne nofun)
  case stBuild =>
    exact streamCommand_engineRun (stBuildStart_ok (s := startCommand 0x20 s) h) (cursorInFrame_of_ne nofun)

end Sys2Proof.Machine
end

section
/-! The state after power-on reset, and what holds of the memories and the position between and within commands
(10_state.md R21, R23, R30, R31, R38). -/

-- The package is compiled as one text: elaborating in order keeps the number of threads small.
set_option Elab.async false

namespace Sys2Proof.Machine

open Sys2Proof Sys2Proof.Config

/-! ### Power-on reset -/

/-- Between commands a step is the host's next access (46_system.md R280). -/
theorem step_host {s : State} {op : HostOp} {rest : List HostOp} (hw : s.work = .idle) (hh : s.host = op :: rest) :
    step s = hostStep op { s with host := rest } := by
  unfold step
  split
  next =>
    split
    next hn => cases hh.symm.trans hn
    next hn => cases hh.symm.trans hn; rfl
  all_goals
    rename_i he
    cases hw.symm.trans he

/-- The step that takes a power-on reset (70_reset_and_hazards.md R330). -/
theorem step_powerOn {s : State} {rest : List HostOp} (hw : s.work = .idle) (hh : s.host = .powerOn :: rest) :
    step s = .next (State.powerOn s.params s.inMem rest (s.fbDraw + 1)) := step_host hw hh

/-- After power-on reset FB has no byte: its width and height are 0 (10_state.md R30, R38). -/
theorem hostReadFb_powerOn (params : Params) (inMem : List Host.Cell) (host : List HostOp) (draw addr : Nat) :
    hostReadFb (State.powerOn params inMem host draw) addr = none :=
  if_neg (Nat.not_lt_zero addr)

/-- After power-on reset no byte of AOUT can be read: every length is 0 (10_state.md R31, R38). -/
theorem hostReadAout_powerOn (params : Params) (inMem : List Host.Cell) (host : List HostOp) (draw : Nat) (k : Fin 7)
    (addr : Nat) : hostReadAout (State.powerOn params inMem host draw) k addr = none := by
  simp [hostReadAout, State.powerOn]

/-- Settles O6: a step that takes a power-on reset leaves the state of 10_state.md R38's column. -/
theorem powerOnReset : Obligations.PowerOnReset := by
  unfold Obligations.PowerOnReset
  intro s rest hw hh
  refine ⟨_, step_powerOn hw hh,
    ⟨rfl, rfl, rfl, rfl, rfl, rfl, rfl, rfl, rfl, rfl, rfl, ?trk, ?atree, ?vt, ?aoutLen, rfl, rfl⟩,
    hostReadFb_powerOn _ _ _ _, hostReadAout_powerOn _ _ _ _, rfl, rfl, rfl, rfl⟩
  all_goals
    intro k
    simp [State.powerOn]

/-! ### The invariant after reset -/

/-- What `AoutWf` says of one track: the bytes with a value are those below the length, which AOUT_MAX allows
(10_state.md R31). -/
def TrackWf (s : State) (k : Fin 7) : Prop :=
  (s.aout[k]).map (·.1) = List.range s.aoutLen[k].toNat ∧ within s.params.aoutMax s.aoutLen[k].toNat = true

theorem within_zero (cap : Option Nat) : within cap 0 = true := by
  cases cap <;> simp [within]

/-- A track without output. -/
theorem trackWf_empty {s : State} {k : Fin 7} (ha : s.aout[k] = []) (hl : s.aoutLen[k] = 0) : TrackWf s k := by
  unfold TrackWf
  rw [ha, hl]
  exact ⟨rfl, within_zero _⟩

/-- An output memory that lists the first `n` addresses is in canonical form (20_memory.md R60). -/
theorem wf_of_addresses {m : List Host.Cell} {n : Nat} (h : m.map (·.1) = List.range n) : Memory.wf outBlank m := by
  refine ⟨?_, fun c _ => Option.some_ne_none c.2⟩
  have hp : (m.map (·.1)).Pairwise (· < ·) := h ▸ List.pairwise_lt_range
  exact List.pairwise_map.1 hp

/-- Whatever `IN` holds, the state after power-on reset meets the invariant (10_state.md R38). -/
theorem inv_powerOn {params : Params} {inMem : List Host.Cell} (host : List HostOp) (draw : Nat)
    (hwf : Memory.wf inBlank inMem) (hin : ∀ c ∈ inMem, c.1 < params.inSize.toNat) :
    Inv (State.powerOn params inMem host draw) where
  idle := rfl
  bits := ⟨BitVec.le_refl _, fun _ => rfl, Nat.zero_le _⟩
  memory := ⟨hwf, hin, Memory.wf_nil _, by simp [State.powerOn], fun t => by
    simpa [State.powerOn] using Memory.wf_nil outBlank⟩
  output := fun t => trackWf_empty (by simp [State.powerOn]) (by simp [State.powerOn])
  logBits := show (0 : Half) &&& 0xF801#16 = 0 by decide
  status := ⟨show (0 : Half).extractLsb' 8 8 = 0 by decide,
    show ((0 : Half).extractLsb' 0 8).toNat ≤ 10 by decide⟩

/-- Settles O56: reset is a power-on with an empty `IN`. -/
theorem resetMeetsInvariant : Obligations.ResetMeetsInvariant :=
  inv_powerOn [] 0 (Memory.wf_nil _) (by simp)

end Sys2Proof.Machine
end

section
/-! What moves the position and what lists addresses of FB: the position stays legal (10_state.md R21; 40_bitstream.md R136)
and drawing lists pixels of the frame only (10_state.md R30; 20_memory.md R66). -/

-- The package is compiled as one text: elaborating in order keeps the number of threads small.
set_option Elab.async false

namespace Sys2Proof.Machine

open Sys2Proof Sys2Proof.Config

/-! ### The position moves forward in its window -/

/-- `c` is a position of the same window, some of the bits left in `b` further on (40_bitstream.md R136). -/
def Later (b c : BitStream) : Prop := ∃ j ≤ b.left, c = b.skip j

theorem Later.refl (b : BitStream) : Later b b := ⟨0, Nat.zero_le _, (BitStream.skip_zero b).symm⟩

theorem Later.trans {a b c : BitStream} (h : Later a b) (h' : Later b c) : Later a c := by
  obtain ⟨j, hj, rfl⟩ := h
  obtain ⟨k, hk, rfl⟩ := h'
  rw [BitStream.left_skip hj] at hk
  exact ⟨j + k, by omega, BitStream.skip_skip hj⟩

theorem Forward.later_ok {α : Type} {r : Reader α} (h : Forward r) {b c : BitStream} {a : α} (he : r b = .ok a c) :
    Later b c := by
  obtain ⟨j, hj, h⟩ := h b
  rw [he] at h
  exact ⟨j, hj, h⟩

theorem Forward.later_error {α : Type} {r : Reader α} (h : Forward r) {b c : BitStream} {e : Cause}
    (he : r b = .error e c) : Later b c := by
  obtain ⟨j, hj, h⟩ := h b
  rw [he] at h
  exact ⟨j, hj, h⟩

/-- A legal position stays legal as it moves forward (10_state.md R21). -/
theorem BitsWf.later {s t : State} (h : BitsWf s) (hb : Later s.bs t.bs) (hp : t.params = s.params) : BitsWf t := by
  obtain ⟨hpos, hend, hwin⟩ := h
  obtain ⟨j, hj, e⟩ := hb
  have hsize := s.bs.size.isLt
  have hoff : s.bs.offset ≤ 8 * s.bs.size.toNat := by
    rw [BitVec.le_def] at hpos
    have hbit := s.bs.bitPos.isLt
    unfold BitStream.offset
    by_cases he : s.bs.bytePos = s.bs.size
    · rw [hend he, he]
      exact Nat.le_refl _
    · have := BitVec.toNat_ne.1 he
      omega
  have hj' : s.bs.offset + j ≤ 8 * s.bs.size.toNat := by
    unfold BitStream.left at hj
    omega
  have hbyte : (s.bs.skip j).bytePos.toNat = (s.bs.offset + j) / 8 := Nat.mod_eq_of_lt (by omega)
  unfold BitsWf
  rw [e, hp]
  refine ⟨?_, fun hlast => ?_, hwin⟩
  · rw [BitVec.le_def, hbyte, BitStream.skip_size]
    omega
  · rw [hlast, BitStream.skip_size] at hbyte
    have hbit : (s.bs.offset + j) % 8 = 0 := by omega
    simp only [BitStream.skip, hbit]
    rfl

/-- A window just opened is at a legal position (40_bitstream.md R132; 20_memory.md R61). -/
theorem bitsWf_open {s : State} {base size : Word} (hb : s.bs = { base := base, size := size, bytePos := 0, bitPos := 0 })
    (hw : base.toNat + size.toNat ≤ s.params.inSize.toNat) : BitsWf s := by
  unfold BitsWf
  rw [hb]
  exact ⟨Nat.zero_le size.toNat, fun _ => rfl, hw⟩

theorem windowLegal_iff {s : State} {base size : Word} :
    windowLegal s base size = true ↔ base.toNat + size.toNat ≤ s.params.inSize.toNat := by
  simp only [windowLegal, decide_eq_true_eq]

/-! ### Drawing stays in the frame -/

/-- FB is in canonical form and lists pixels of the frame only (10_state.md R30; 20_memory.md R60). -/
def PictureWf (s : State) : Prop :=
  Memory.wf outBlank s.fb ∧ ∀ c ∈ s.fb, c.1 < s.width.toNat * s.height.toNat

/-- A frame is being decoded, with the cursor at one of its blocks. -/
def InFrame (s : State) : Prop := FrameWf s ∧ s.scanRow < s.height

theorem InFrame.draw {s t : State} (h : InFrame s) (hd : DrawFrame s t) : InFrame t :=
  ⟨hd.frameWf h.1, hd.scanRow_lt h.2⟩

/-- What drawing keeps: the position moves forward, and FB stays in its form. -/
structure PictureStep (s t : State) : Prop where
  later : Later s.bs t.bs
  picture : PictureWf s → PictureWf t

theorem PictureStep.refl (s : State) : PictureStep s s := ⟨.refl _, id⟩

theorem PictureStep.trans {s t u : State} (h : PictureStep s t) (h' : PictureStep t u) : PictureStep s u :=
  ⟨h.later.trans h'.later, h'.picture ∘ h.picture⟩

/-- Where FB and the size of the frame stay, only the position counts. -/
theorem PictureStep.of_later {s t : State} (hb : Later s.bs t.bs) (hf : t.fb = s.fb) (hw : t.width = s.width)
    (hh : t.height = s.height) : PictureStep s t := by
  refine ⟨hb, fun h => ?_⟩
  unfold PictureWf
  rw [hf, hw, hh]
  exact h

/-- An operation that, with the cursor at a block, draws inside the frame. -/
def DrawsInside {α : Type} (e : Engine α) : Prop :=
  ∀ s, InFrame s → match e s with
    | .ok _ t => InFrame t ∧ PictureStep s t
    | .error _ t => PictureStep s t

theorem drawsInside_pure {α : Type} (a : α) : DrawsInside (pure a : Engine α) := fun s h => ⟨h, .refl s⟩

theorem drawsInside_bind {α β : Type} {e : Engine α} {f : α → Engine β} (h : DrawsInside e)
    (hf : ∀ a, DrawsInside (f a)) : DrawsInside (e >>= f) := by
  intro s hs
  have h1 := h s hs
  rw [ops_bind]
  rcases he : e s with ⟨a, t⟩ | ⟨c, t⟩ <;> simp only [he] at h1 ⊢
  · have h2 := hf a t h1.1
    rcases hfa : f a t with ⟨b, u⟩ | ⟨c, u⟩ <;> simp only [hfa] at h2 ⊢
    · exact ⟨h2.1, h1.2.trans h2.2⟩
    · exact h1.2.trans h2
  · exact h1

/-- What a lookup changes: the position and the caches, and nothing of FB (42_big_tree.md R174, R175). -/
structure LookFrame (s t : State) : Prop where
  draw : DrawFrame s t
  later : Later s.bs t.bs
  fb : t.fb = s.fb

theorem LookFrame.picture {s t : State} (h : LookFrame s t) : PictureStep s t :=
  .of_later h.later h.fb (by rw [h.draw.frame]) (by rw [h.draw.frame])

theorem LookFrame.setBs {s t : State} (h : LookFrame s t) {j : Nat} (hj : j ≤ t.bs.left) :
    LookFrame s (t.setBs (t.bs.skip j)) :=
  ⟨h.draw.trans ⟨rfl, .refl t⟩, h.later.trans ⟨j, hj, rfl⟩, h.fb⟩

theorem btLookup_lookFrame (id : Fin 4) (s : State) :
    match btLookup id s with
    | .ok _ t => LookFrame s t
    | .error c t => LookFrame s t ∧ (c = .absentTree ∨ c = .exhausted) := by
  have hd := draws_btLookup id s
  rcases btLookup_cases id s with ⟨_, e⟩ | ⟨low, high, root, cache, hv, ⟨bits, leaf, _, _, hl, e⟩ | e⟩ <;>
    rw [e] at hd ⊢
  · exact ⟨⟨hd.1, .refl _, rfl⟩, hd.2⟩
  · exact ⟨hd, ⟨_, hl, rfl⟩, rfl⟩
  · exact ⟨⟨hd.1, ⟨_, Nat.le_refl _, rfl⟩, rfl⟩, hd.2⟩

theorem drawsInside_btLookup (id : Fin 4) : DrawsInside (btLookup id) := by
  intro s hs
  have h := btLookup_lookFrame id s
  rcases he : btLookup id s with ⟨v, t⟩ | ⟨c, t⟩ <;> simp only [he] at h ⊢
  · exact ⟨hs.draw h.draw, h.picture⟩
  · exact h.1.picture

/-- Pixels of one block are painted inside the frame (20_memory.md R66). -/
theorem drawsInside_paint {pxs : List (Nat × Nat × Byte)} (hp : ∀ px ∈ pxs, px.1 < 4 ∧ px.2.1 < 4) :
    DrawsInside (modify (paint pxs)) := by
  intro s hs
  rw [ops_modify, paint_eq]
  exact ⟨hs.draw (.setFb s _), .refl _, fun h => ⟨paintMem_wf s pxs h.1, paintMem_lt hs.1 hs.2 hp h.2⟩⟩

theorem blockPixels_inside (f : Nat → Nat → Byte) : ∀ px ∈ blockPixels f, px.1 < 4 ∧ px.2.1 < 4 := by
  intro px hpx
  obtain ⟨k, hk, rfl⟩ := List.mem_map.1 hpx
  rw [List.mem_range] at hk
  dsimp only
  omega

theorem drawsInside_drawMono : DrawsInside drawMono :=
  drawsInside_bind (drawsInside_btLookup _) fun _ => drawsInside_bind (drawsInside_btLookup _) fun _ =>
    drawsInside_paint (blockPixels_inside _)

theorem drawsInside_drawFullRow {r : Nat} (hr : r < 4) : DrawsInside (drawFullRow r) :=
  drawsInside_bind (drawsInside_btLookup _) fun _ => drawsInside_bind (drawsInside_paint (by simp [hr])) fun _ =>
    drawsInside_bind (drawsInside_btLookup _) fun _ => drawsInside_paint (by simp [hr])

theorem drawsInside_drawFull : DrawsInside drawFull :=
  drawsInside_bind (drawsInside_drawFullRow (by decide)) fun _ =>
    drawsInside_bind (drawsInside_drawFullRow (by decide)) fun _ =>
      drawsInside_bind (drawsInside_drawFullRow (by decide)) fun _ => drawsInside_drawFullRow (by decide)

theorem drawsInside_drawDoubleBand {k : Nat} (hk : 2 * k + 1 < 4) : DrawsInside (drawDoubleBand k) :=
  drawsInside_bind (drawsInside_btLookup _) fun _ => drawsInside_paint (by
    have : 2 * k < 4 := by omega
    simp [hk, this])

theorem drawsInside_drawDouble : DrawsInside drawDouble :=
  drawsInside_bind (drawsInside_drawDoubleBand (by decide)) fun _ => drawsInside_drawDoubleBand (by decide)

theorem drawsInside_drawHalfBand {k : Nat} (hk : 2 * k + 1 < 4) : DrawsInside (drawHalfBand k) := by
  have hk' : 2 * k < 4 := by omega
  exact drawsInside_bind (drawsInside_btLookup _) fun _ =>
    drawsInside_bind (drawsInside_paint (by simp [hk, hk'])) fun _ =>
      drawsInside_bind (drawsInside_btLookup _) fun _ => drawsInside_paint (by simp [hk, hk'])

theorem drawsInside_drawHalf : DrawsInside drawHalf := by
  intro s
  simp only [drawHalf, ops_bind, ops_get]
  cases s.params.halfVariant
  · exact drawsInside_bind (drawsInside_drawHalfBand (by decide)) (fun _ => drawsInside_drawHalfBand (by decide)) s
  · exact drawsInside_drawDouble s

/-- Every block type draws inside the frame (44_video_blocks.md R236 to R241). -/
theorem drawsInside_block (i : Instr) : DrawsInside (blockDraw i) := by
  cases i
  case mono => exact drawsInside_drawMono
  case full => exact drawsInside_drawFull
  case double => exact drawsInside_drawDouble
  case half => exact drawsInside_drawHalf
  case solid => exact drawsInside_paint (blockPixels_inside _)
  all_goals exact drawsInside_pure _

theorem advanceScan_picture (s : State) : PictureStep s (advanceScan s) := by
  rw [advanceScan_frame]
  exact .of_later (.refl _) rfl rfl rfl

/-- A run of blocks, cut at the frame's end, draws inside the frame (44_video_blocks.md R232, R235). -/
theorem drawRun_picture {draw : Engine Unit} (hd : DrawsInside draw) (n : Nat) : ∀ {s : State}, FrameWf s →
    match drawRun draw n s with
    | .ok _ t => PictureStep s t
    | .error _ t => PictureStep s t := by
  induction n with
  | zero => exact fun _ => .refl _
  | succ n ih =>
    intro s hf
    by_cases hr : s.scanRow < s.height
    · simp only [drawRun, ops_bind, ops_get, hr, if_true]
      have h1 := hd s ⟨hf, hr⟩
      rcases hs : draw s with ⟨⟨⟩, u⟩ | ⟨c, u⟩ <;> simp only [hs, ops_modify] at h1 ⊢
      · obtain ⟨⟨hfu, hru⟩, hpic⟩ := h1
        have h2 := ih (hfu.advance hru).1
        have hu := hpic.trans (advanceScan_picture u)
        rcases hrest : drawRun draw n (advanceScan u) with ⟨⟨⟩, t⟩ | ⟨c, t⟩ <;> simp only [hrest] at h2 ⊢
        · exact hu.trans h2
        · exact hu.trans h2
      · exact h1
    · rw [drawRun_over draw _ hr]
      exact .refl s

/-- What a step of VID_DECODE's run does to all but its end: `VideoFrame`, and the picture is kept. -/
structure VideoStep (s t : State) : Prop where
  frame : VideoFrame s t
  picture : PictureStep s t

/-- The answer of a step of VID_DECODE's run: the frame goes on or is over, or a fault is raised. -/
def VideoAnswer (s : State) (a : Answer) : Prop :=
  (∃ t, a = .next t ∧ VideoStep s t ∧ (t.work = .video ∨ t.work = .idle)) ∨
    ∃ c t, a = .next (raiseFault c t) ∧ VideoStep s t ∧ t.work = .video

/-- Everything a TYPEWORD's group can do to FB and the position (44_video_blocks.md R232, R244). -/
theorem blockRun_videoAnswer {i : Instr} {n : Nat} {s : State} (hw : s.work = .video) (h : InFrame s) :
    VideoAnswer s (blockRun (blockDraw i) n s) := by
  have hp := drawRun_picture (drawsInside_block i) n h.1
  rcases drawRun_cases (draws_block i) n h.1 (absurd h.2) with ⟨t, e, hv, hwt, _⟩ | ⟨c, t, e, hv, hwt, _⟩ <;>
    simp only [e] at hp
  · refine .inl ⟨endGroup t, perform_ok (by rw [ops_bind, e]; rfl), ?_⟩
    unfold endGroup
    split
    · exact ⟨⟨hv, hp⟩, .inl (hwt.trans hw)⟩
    · exact ⟨⟨hv.trans (videoFrame_setWork t _), hp.trans (.of_later (.refl _) rfl rfl rfl)⟩, .inr rfl⟩
  · exact .inr ⟨c, t, perform_error (by rw [ops_bind, e]), ⟨hv, hp⟩, hwt.trans hw⟩

theorem VideoAnswer.after {s t : State} {a : Answer} (h : VideoStep s t) (ha : VideoAnswer t a) : VideoAnswer s a := by
  have after : ∀ u, VideoStep t u → VideoStep s u := fun u hu => ⟨h.frame.trans hu.frame, h.picture.trans hu.picture⟩
  rcases ha with ⟨u, e, hu, hw⟩ | ⟨c, u, e, hu, hw⟩
  · exact .inl ⟨u, e, after u hu, hw⟩
  · exact .inr ⟨c, u, e, after u hu, hw⟩

theorem LookFrame.video {s t : State} (h : LookFrame s t) : VideoStep s t := ⟨h.draw.video, h.picture⟩

/-- Everything a step of VID_DECODE's run can do to FB and the position (44_video_blocks.md R232 to R234): the lookup of the
TYPEWORD and its extension touch nothing of FB, then its group is drawn. -/
theorem engineStep_videoAnswer {s : State} (hw : s.work = .video) (h : InFrame s) :
    VideoAnswer s (engineStep tokenMeaning s) := by
  have hf : wantedFormat s = some (.typeWord s.isV4) := by unfold wantedFormat; rw [hw]
  have hl := btLookup_lookFrame typeId s
  rcases hb : btLookup typeId s with ⟨code, t⟩ | ⟨c, t⟩ <;> simp only [hb] at hl
  · have ht : fetchToken (.typeWord s.isV4) s = fetchBits (.typeWord s.isV4) 3 (bitsOf code) t := by
      simp only [fetchToken, ops_bind, hb]
    obtain ⟨j, hj, hcase⟩ := fetchType_cases s.isV4 code t
    have hl' := hl.setBs hj
    have hwt : (t.setBs (t.bs.skip j)).work = .video := by rw [hl'.draw.frame]; exact hw
    rcases hcase with ⟨i, r, hi, e⟩ | e
    · rw [engineStep_ok hf (ht.trans e), tokenMeaning_block hi hwt]
      exact (blockRun_videoAnswer hwt (h.draw hl'.draw)).after hl'.video
    · exact .inr ⟨_, _, engineStep_error hf (ht.trans e), hl'.video, hwt⟩
  · have ht : fetchToken (.typeWord s.isV4) s = .error c t := by
      simp only [fetchToken, ops_bind, hb]
    exact .inr ⟨c, t, engineStep_error hf ht, hl.1.video, by rw [hl.1.draw.frame]; exact hw⟩

end Sys2Proof.Machine
end

section
/-! What a step of AUD_DECODE's run does to LOG, to the position and to the output of its track: how many bytes are written so
far, and that a record which ends has written exactly its length (43_audio_dpcm.md R202 to R210). -/

-- The package is compiled as one text: elaborating in order keeps the number of threads small.
set_option Elab.async false

namespace Sys2Proof.Machine

open Sys2Proof Sys2Proof.Config

/-! ### The output of a record in the middle of its decoding -/

/-- `out` bytes of track `k` are written, its length is still 0, and the record's window is legal (43_audio_dpcm.md R200). -/
structure Written (k : Fin 7) (out : Nat) (s : State) : Prop where
  length : s.aoutLen[k] = 0
  window : windowLegal s s.arg0 s.arg1 = true
  listed : (s.aout[k]).map (·.1) = List.range out

/-- A record of `n` bytes, a legal length, has whole sample frames written, `out` bytes in all (43_audio_dpcm.md R205,
R208). -/
structure FramesWritten (k : Fin 7) (n : Word) (out : Nat) (s : State) : Prop extends Written k out s where
  legal : badLength s k n = false
  whole : trkFrame s.trk[k] ∣ out
  le : out ≤ n.toNat

/-- What holds of a DPCM record in the middle of its decoding (43_audio_dpcm.md R202 to R208). -/
def RecordWf (k : Fin 7) (s : State) (w : AudioWork) : Prop :=
  match w with
  | .length | .header _ => Written k 0 s
  | .trees n _ _ | .init n _ => FramesWritten k n 0 s
  | .deltas n out _ _ => FramesWritten k n out s ∧ out < n.toNat

theorem RecordWf.written {k : Fin 7} {s : State} {w : AudioWork} (h : RecordWf k s w) : ∃ out, Written k out s := by
  cases w with
  | length => exact ⟨0, h⟩
  | header n => exact ⟨0, h⟩
  | trees n slot w => exact ⟨0, h.toWritten⟩
  | init n got => exact ⟨0, h.toWritten⟩
  | deltas n out p0 p1 => exact ⟨out, h.1.toWritten⟩

/-- A legal length is a positive whole number of sample frames that AOUT_MAX allows (43_audio_dpcm.md R205). -/
theorem badLength_eq_false {s : State} {k : Fin 7} {n : Word} : badLength s k n = false ↔
    trkFrame s.trk[k] ≤ n.toNat ∧ trkFrame s.trk[k] ∣ n.toNat ∧ within s.params.aoutMax n.toNat = true := by
  simp only [badLength, Bool.or_eq_false_iff, decide_eq_false_iff_not, Nat.not_lt, bne_eq_false_iff_eq,
    Bool.not_eq_false', Nat.dvd_iff_mod_eq_zero, and_assoc]

theorem trkFrame_stereo {d : Word} (h : trkStereo d = true) : trkFrame d = trkBytes d + trkBytes d := by
  simp only [trkFrame, trkChannels, h, if_true, Nat.two_mul]

theorem trkFrame_mono {d : Word} (h : trkStereo d = false) : trkFrame d = trkBytes d := by
  simp only [trkFrame, trkChannels, h, Bool.false_eq_true, if_false, Nat.one_mul]

theorem trkFrame_pos (d : Word) : 0 < trkFrame d := by
  have := trkBytes_pos d
  cases h : trkStereo d
  · rwa [trkFrame_mono h]
  · rw [trkFrame_stereo h]
    omega

/-- A legal length has room for a first sample frame. -/
theorem FramesWritten.pos {k : Fin 7} {n : Word} {out : Nat} {s : State} (h : FramesWritten k n out s) : 0 < n.toNat :=
  Nat.lt_of_lt_of_le (trkFrame_pos _) (badLength_eq_false.1 h.legal).1

/-- One more sample frame written: while bytes are missing there is room for a whole frame (43_audio_dpcm.md R208). -/
theorem FramesWritten.addFrame {k : Fin 7} {n : Word} {out : Nat} {s t : State} (h : FramesWritten k n out s)
    (hout : out < n.toNat) (hw : Written k (out + trkFrame s.trk[k]) t) (ht : t.trk = s.trk) (hp : t.params = s.params) :
    FramesWritten k n (out + trkFrame s.trk[k]) t := by
  obtain ⟨_, hdvd, _⟩ := badLength_eq_false.1 h.legal
  have hroom : trkFrame s.trk[k] ≤ n.toNat - out := Nat.le_of_dvd (by omega) (Nat.dvd_sub hdvd h.whole)
  refine ⟨hw, ?_, ?_, by omega⟩
  · have hl := h.legal
    unfold badLength at hl ⊢
    rwa [ht, hp]
  · rw [ht]
    exact (Nat.dvd_add_right h.whole).2 (Nat.dvd_refl _)

theorem Written.setBs {k : Fin 7} {out : Nat} {s : State} (h : Written k out s) (b : BitStream) :
    Written k out (s.setBs b) := ⟨h.length, h.window, h.listed⟩

theorem Written.emitSample {k : Fin 7} {out : Nat} {s : State} (h : Written k out s) (v : Half) :
    Written k (out + trkBytes s.trk[k]) (emitSample k out v s) := by
  refine ⟨?_, ?_, emitSample_behind k v h.listed⟩ <;> rw [emitSample_eq]
  · exact h.length
  · exact h.window

@[simp] theorem emitSample_params (k : Fin 7) (out : Nat) (v : Half) (s : State) :
    (emitSample k out v s).params = s.params := by rw [emitSample_eq]; rfl

@[simp] theorem emitSample_log (k : Fin 7) (out : Nat) (v : Half) (s : State) : (emitSample k out v s).log = s.log := by
  rw [emitSample_eq]; rfl

@[simp] theorem emitSample_aoutLen (k : Fin 7) (out : Nat) (v : Half) (s : State) :
    (emitSample k out v s).aoutLen = s.aoutLen := by rw [emitSample_eq]; rfl

@[simp] theorem audioNext_log (k : Fin 7) (n : Word) (out : Nat) (p0 p1 : Half) (s : State) :
    (audioNext k n out p0 p1 s).log = s.log := by
  unfold audioNext
  split <;> rfl

/-! ### The answers of a step -/

/-- What a step does to LOG: nothing, or it records a mismatch under `continue_declared` (43_audio_dpcm.md R204). -/
def RecordLog (s t : State) : Prop :=
  t.log = s.log ∨ (s.params.mismatchPolicy = .continueDeclared ∧ t.log = logWith s.log .audioConfigMismatch)

/-- What a step of the record of track `k` may change, before a fault if it raises one. -/
structure RecordFrame (k : Fin 7) (s t : State) : Prop where
  frame : AudioFrame k s t
  log : RecordLog s t
  bits : windowLegal s s.arg0 s.arg1 = true → BitsWf s → BitsWf t

theorem AudioFrame.params {k : Fin 7} {s t : State} (h : AudioFrame k s t) : t.params = s.params := by
  unfold AudioFrame at h
  rw [h]

theorem RecordFrame.of_later {k : Fin 7} {s t : State} (hf : AudioFrame k s t) (hl : t.log = s.log)
    (hb : Later s.bs t.bs) : RecordFrame k s t :=
  ⟨hf, .inl hl, fun _ h => h.later hb hf.params⟩

theorem RecordFrame.setBs (k : Fin 7) {s : State} {b : BitStream} (hb : Later s.bs b) : RecordFrame k s (s.setBs b) :=
  .of_later (.setBs k s b) rfl hb

/-- The record of track `k` goes on or is complete, in order if `P` held. -/
def RecordGoes (k : Fin 7) (P : Prop) (t : State) : Prop :=
  (∃ w, t.work = .audio k w ∧ (P → RecordWf k t w)) ∨ (t.work = .idle ∧ (P → TrackWf t k))

/-- The answer of a step of the record of track `k`: the record goes on or is complete, or a fault is raised with the
track's length still 0. -/
def RecordAnswer (k : Fin 7) (s : State) (w : AudioWork) (a : Answer) : Prop :=
  ∃ t, RecordFrame k s t ∧ ((a = .next t ∧ RecordGoes k (RecordWf k s w) t) ∨
    ∃ c, a = .next (raiseFault c t) ∧ t.work = s.work ∧ (RecordWf k s w → t.aoutLen[k] = 0))

theorem recordAnswer_next {k : Fin 7} {s t : State} {w : AudioWork} (hf : RecordFrame k s t)
    (hg : RecordGoes k (RecordWf k s w) t) : RecordAnswer k s w (.next t) := ⟨t, hf, .inl ⟨rfl, hg⟩⟩

theorem recordAnswer_fault {k : Fin 7} {s t : State} {w : AudioWork} (c : Cause) (hf : RecordFrame k s t)
    (hw : t.work = s.work) (hl : t.aoutLen = s.aoutLen) : RecordAnswer k s w (.next (raiseFault c t)) :=
  ⟨t, hf, .inr ⟨c, rfl, hw, fun h => by
    obtain ⟨_, hwr⟩ := h.written
    rw [hl]
    exact hwr.length⟩⟩

/-! ### Each part of a record -/

/-- Step 1 (43_audio_dpcm.md R202): the window behind the length lies in the record's. -/
theorem recordAnswer_length {k : Fin 7} {s : State} (h : s.work = .audio k .length) :
    RecordAnswer k s .length (engineStep tokenMeaning s) := by
  rw [engineStep_length h]
  by_cases h4 : s.arg1.toNat < 4
  · rw [if_pos h4]
    exact recordAnswer_fault _ (.of_later (.refl k s) rfl (.refl _)) rfl rfl
  · rw [if_neg h4]
    refine recordAnswer_next ⟨?_, .inl rfl, fun hw _ => bitsWf_open rfl ?_⟩
      (.inl ⟨_, rfl, fun hr => ⟨hr.length, hr.window, hr.listed⟩⟩)
    · unfold AudioFrame
      simp [State.openWindow, State.clearAtree, State.setWork]
    · rw [windowLegal_iff] at hw
      have hin := s.params.inSize.isLt
      have e0 : (s.arg0 + 4).toNat = s.arg0.toNat + 4 := by
        rw [BitVec.toNat_add]
        exact Nat.mod_eq_of_lt (show s.arg0.toNat + 4 < 2 ^ 32 by omega)
      have e1 : (s.arg1 - 4).toNat = s.arg1.toNat - 4 :=
        BitVec.toNat_sub_of_le (by rw [BitVec.le_def]; exact Nat.le_of_not_lt h4)
      show (s.arg0 + 4).toNat + (s.arg1 - 4).toNat ≤ s.params.inSize.toNat
      omega

/-- Everything the checks of the header can do (43_audio_dpcm.md R204, R205). -/
theorem dpcmHeaderCheck_cases (k : Fin 7) (n : Word) (stereo depth16 : Bool) (s : State) :
    (∃ c, dpcmHeaderCheck k n stereo depth16 s = .error c s) ∨
    ∃ l, RecordLog s { s with log := l } ∧
      (dpcmHeaderCheck k n stereo depth16 s = .error .audioLength { s with log := l } ∨
        (badLength s k n = false ∧ dpcmHeaderCheck k n stereo depth16 s =
          .ok () (({ s with log := l } : State).setWork (.audio k (.trees n 0 .control))))) := by
  simp only [dpcmHeaderCheck, ops_bind, ops_get]
  generalize (stereo != trkStereo s.trk[k] || depth16 != trkDepth16 s.trk[k]) = mismatch
  by_cases ht : (mismatch && s.params.mismatchPolicy == .terminate) = true
  · rw [if_pos ht]
    exact .inl ⟨_, rfl⟩
  · rw [if_neg ht]
    refine .inr ⟨if mismatch then logWith s.log .audioConfigMismatch else s.log, ?_, ?_⟩
    · cases mismatch with
      | false => exact .inl rfl
      | true =>
        refine .inr ⟨?_, rfl⟩
        cases hp : s.params.mismatchPolicy with
        | terminate => exact absurd (by rw [hp]; rfl) ht
        | continueDeclared => rfl
    · simp only [ops_bind, ops_set]
      cases badLength s k n with
      | true => exact .inl rfl
      | false => exact .inr ⟨rfl, rfl⟩

/-- Everything the three bits of the header can do (43_audio_dpcm.md R203): a fault, or the checks follow. -/
theorem engineStep_header_cases {k : Fin 7} {s : State} {n : Word} (h : s.work = .audio k (.header n)) :
    ∃ b, Later s.bs b ∧ ((∃ c, engineStep tokenMeaning s = .next (raiseFault c (s.setBs b))) ∨
      ∃ stereo depth16, engineStep tokenMeaning s = perform (dpcmHeaderCheck k n stereo depth16) (s.setBs b)) := by
  have hr := forward_readBit s.inMem
  rw [engineStep_header h]
  rcases h1 : readBit s.inMem s.bs with ⟨v, b1⟩ | ⟨c, b1⟩
  · have l1 := hr.later_ok h1
    cases v with
    | false => exact ⟨b1, l1, .inl ⟨_, rfl⟩⟩
    | true =>
      dsimp only
      rcases h2 : readBit s.inMem b1 with ⟨stereo, b2⟩ | ⟨c, b2⟩
      · have l2 := l1.trans (hr.later_ok h2)
        dsimp only
        rcases h3 : readBit s.inMem b2 with ⟨depth16, b3⟩ | ⟨c, b3⟩
        · exact ⟨b3, l2.trans (hr.later_ok h3), .inr ⟨stereo, depth16, rfl⟩⟩
        · exact ⟨b3, l2.trans (hr.later_error h3), .inl ⟨c, rfl⟩⟩
      · exact ⟨b2, l1.trans (hr.later_error h2), .inl ⟨c, rfl⟩⟩
  · exact ⟨b1, hr.later_error h1, .inl ⟨c, rfl⟩⟩

/-- Steps 2 to 4 (43_audio_dpcm.md R203 to R205): the trees are read only where the length is legal. -/
theorem recordAnswer_header {k : Fin 7} {s : State} {n : Word} (h : s.work = .audio k (.header n)) :
    RecordAnswer k s (.header n) (engineStep tokenMeaning s) := by
  obtain ⟨b, hb, ⟨c, e⟩ | ⟨stereo, depth16, e⟩⟩ := engineStep_header_cases h <;> rw [e]
  · exact recordAnswer_fault c (.setBs k hb) rfl rfl
  · have hlog : ∀ l, RecordLog (s.setBs b) { s.setBs b with log := l } →
        RecordFrame k s { s.setBs b with log := l } := fun l hl =>
      ⟨by unfold AudioFrame; simp [State.setBs], hl, fun _ hs => hs.later hb rfl⟩
    rcases dpcmHeaderCheck_cases k n stereo depth16 (s.setBs b) with ⟨c, e⟩ | ⟨l, hl, e | ⟨hn, e⟩⟩
    · rw [perform_error e]
      exact recordAnswer_fault c (.setBs k hb) rfl rfl
    · rw [perform_error e]
      exact recordAnswer_fault _ (hlog l hl) rfl rfl
    · rw [perform_ok e]
      have hf := hlog l hl
      refine recordAnswer_next ⟨hf.frame.trans (.setWork k _ _), hl, hf.bits⟩ (.inl ⟨_, rfl, fun hr => ?_⟩)
      exact ⟨⟨hr.length, hr.window, hr.listed⟩, hn, Nat.dvd_zero _, Nat.zero_le _⟩

/-- Step 5 (43_audio_dpcm.md R206): the trees of a record touch nothing of its output. -/
theorem recordAnswer_trees {k : Fin 7} {s : State} {n : Word} {slot : Fin 4} {v : SmallWork}
    (h : s.work = .audio k (.trees n slot v)) :
    RecordAnswer k s (.trees n slot v) (engineStep tokenMeaning s) := by
  have hv : smallWork? s.work = some v := by rw [h]; rfl
  have kept : ∀ {t : State}, FramesWritten k n 0 s → t.aoutLen = s.aoutLen → t.aout = s.aout → t.trk = s.trk →
      t.params = s.params → t.arg0 = s.arg0 → t.arg1 = s.arg1 → FramesWritten k n 0 t := by
    intro t hr hl ha ht hp h0 h1
    exact ⟨⟨by rw [hl]; exact hr.length, by unfold windowLegal; rw [hp, h0, h1]; exact hr.window,
      by rw [ha]; exact hr.listed⟩, by unfold badLength; rw [ht, hp]; exact hr.legal, Nat.dvd_zero _, Nat.zero_le _⟩
  rw [engineStep_small hv]
  have hc := consumes_smallStep s.params s.inMem v s.bs
  rcases hr : smallStep s.params s.inMem v s.bs with ⟨p, b⟩ | ⟨c, b⟩ <;> simp only [hr] at hc ⊢
  · obtain ⟨j, _, hj, rfl⟩ := hc
    have hb : Later s.bs (s.bs.skip j) := ⟨j, hj, rfl⟩
    cases p with
    | more w' =>
      simp only [putSmall, State.setBs_work, h]
      exact recordAnswer_next (.of_later ((AudioFrame.setBs k s _).trans (.setWork k _ _)) rfl hb)
        (.inl ⟨_, rfl, fun hr => kept hr rfl rfl rfl rfl rfl rfl⟩)
    | done tree =>
      simp only [putSmall, State.setBs_work, State.setBs_trk, h]
      have hf : ∀ w, RecordFrame k s (((s.setBs (s.bs.skip j)).setAtree slot tree).setWork w) := fun w =>
        .of_later (((AudioFrame.setBs k s _).trans (.setAtree k _ _ _)).trans (.setWork k _ _)) rfl hb
      cases nextTreeSlot s.trk[k] slot with
      | none => exact recordAnswer_next (hf _) (.inl ⟨_, rfl, fun hr => kept hr rfl rfl rfl rfl rfl rfl⟩)
      | some next => exact recordAnswer_next (hf _) (.inl ⟨_, rfl, fun hr => kept hr rfl rfl rfl rfl rfl rfl⟩)
  · obtain ⟨_, j, hj, rfl⟩ := hc
    exact recordAnswer_fault c (.setBs k ⟨j, hj, rfl⟩) rfl rfl

/-- After a whole sample frame the loop goes on, or the output is complete (43_audio_dpcm.md R208). -/
theorem audioNext_goes {k : Fin 7} {n : Word} {out : Nat} {s : State} {P : Prop} (p0 p1 : Half)
    (h : P → FramesWritten k n out s) : RecordGoes k P (audioNext k n out p0 p1 s) := by
  unfold audioNext
  split
  next hlt => exact .inl ⟨_, rfl, fun hP => by
    have hw := h hP
    exact ⟨⟨⟨hw.length, hw.window, hw.listed⟩, hw.legal, hw.whole, hw.le⟩, hlt⟩⟩
  next hlt =>
    refine .inr ⟨rfl, fun hP => ?_⟩
    have hw := h hP
    have hle := hw.le
    have hend : out = n.toNat := by omega
    have hlen : ((s.setAoutLen k n).setWork .idle).aoutLen[k] = n := by simp
    refine ⟨?_, ?_⟩
    · rw [hlen, ← hend]
      exact hw.listed
    · rw [hlen]
      exact (badLength_eq_false.1 hw.legal).2.2

/-- Step 6 (43_audio_dpcm.md R207): the initial samples are the first sample frame. -/
theorem dpcmInitial_goes {k : Fin 7} {n : Word} {s : State} {P : Prop} (got : List Half) (v : Half)
    (h : P → FramesWritten k n 0 s) : RecordGoes k P (dpcmInitial k n got v s) := by
  unfold dpcmInitial
  split
  · exact .inl ⟨_, rfl, fun hP => by
      have hw := h hP
      exact ⟨⟨hw.length, hw.window, hw.listed⟩, hw.legal, hw.whole, hw.le⟩⟩
  next ch1 rest hst =>
    refine audioNext_goes _ _ fun hP => ?_
    have hw := h hP
    have h1 := hw.toWritten.emitSample v
    have h2 := h1.emitSample ch1
    rw [emitSample_trk, Nat.zero_add] at h2
    have := hw.addFrame hw.pos (t := emitSample k (trkBytes s.trk[k]) ch1 (emitSample k 0 v s))
      (by rw [trkFrame_stereo hst, Nat.zero_add]; exact h2) (by simp) (by simp)
    rwa [trkFrame_stereo hst, Nat.zero_add] at this
  next hst =>
    refine audioNext_goes _ _ fun hP => ?_
    have hw := h hP
    have h1 := hw.toWritten.emitSample v
    have := hw.addFrame hw.pos (t := emitSample k 0 v s) (by rw [trkFrame_mono hst]; exact h1) (by simp) (by simp)
    rwa [trkFrame_mono hst, Nat.zero_add] at this

theorem dpcmInitial_log (k : Fin 7) (n : Word) (got : List Half) (v : Half) (s : State) :
    (dpcmInitial k n got v s).log = s.log := by
  unfold dpcmInitial
  split <;> simp

theorem recordAnswer_init {k : Fin 7} {s : State} {n : Word} {got : List Half} (h : s.work = .audio k (.init n got)) :
    RecordAnswer k s (.init n got) (engineStep tokenMeaning s) := by
  rw [engineStep_init h]
  have hread := forward_readBits s.inMem (8 * trkBytes s.trk[k])
  rcases hb : readBits s.inMem (8 * trkBytes s.trk[k]) s.bs with ⟨bits, b⟩ | ⟨c, b⟩
  · obtain ⟨hf, hbs, _⟩ := dpcmInitial_cases k n got (initialSample (trkDepth16 s.trk[k]) bits) (s.setBs b)
    refine recordAnswer_next (.of_later ((AudioFrame.setBs k s b).trans hf) (dpcmInitial_log k n got _ _) ?_)
      (dpcmInitial_goes got _ fun hr => ?_)
    · rw [hbs]
      exact hread.later_ok hb
    · exact ⟨hr.toWritten.setBs b, hr.legal, hr.whole, hr.le⟩
  · exact recordAnswer_fault c (.setBs k (hread.later_error hb)) rfl rfl

/-- What a part of a sample frame may change: the position and the bytes of the track. -/
structure SampleFrame (k : Fin 7) (s t : State) : Prop where
  frame : AudioFrame k s t
  log : t.log = s.log
  later : Later s.bs t.bs
  work : t.work = s.work
  aoutLen : t.aoutLen = s.aoutLen

theorem SampleFrame.trans {k : Fin 7} {s t u : State} (h : SampleFrame k s t) (h' : SampleFrame k t u) :
    SampleFrame k s u :=
  ⟨h.frame.trans h'.frame, h'.log.trans h.log, h.later.trans h'.later, h'.work.trans h.work,
    h'.aoutLen.trans h.aoutLen⟩

theorem SampleFrame.record {k : Fin 7} {s t : State} (h : SampleFrame k s t) : RecordFrame k s t :=
  .of_later h.frame h.log h.later

theorem AudioFrame.trk {k : Fin 7} {s t : State} (h : AudioFrame k s t) : t.trk = s.trk := by
  unfold AudioFrame at h
  rw [h]

theorem sampleFrame_setBs (k : Fin 7) {s : State} {b : BitStream} (hb : Later s.bs b) : SampleFrame k s (s.setBs b) :=
  ⟨.setBs k s b, rfl, hb, rfl, rfl⟩

theorem sampleFrame_emitSample (k : Fin 7) (out : Nat) (v : Half) (s : State) :
    SampleFrame k s (emitSample k out v s) :=
  ⟨audioFrame_emitSample k out v s, by simp, by rw [emitSample_bs]; exact .refl _, by rw [emitSample_eq]; rfl, by simp⟩

/-- One sample of the delta loop is written behind the others; a fault leaves the output as it was (43_audio_dpcm.md
R208). -/
theorem deltaSample_frame (k : Fin 7) (lo hi : Fin 4) (prev : Half) (out : Nat) (s : State) :
    match deltaSample k lo hi prev out s with
    | .ok _ t => SampleFrame k s t ∧ (Written k out s → Written k (out + trkBytes s.trk[k]) t)
    | .error _ t => SampleFrame k s t := by
  obtain ⟨j, hj, ⟨d, _, e⟩ | ⟨c, e⟩⟩ := deltaSample_cases k lo hi prev out s <;> rw [e]
  · have hb := sampleFrame_setBs k (s := s) ⟨j, hj, rfl⟩
    exact ⟨hb.trans (sampleFrame_emitSample k _ _ _), fun hw => (hw.setBs (s.bs.skip j)).emitSample _⟩
  · exact sampleFrame_setBs k ⟨j, hj, rfl⟩

/-- Step 7 (43_audio_dpcm.md R208): a sample frame is written whole, or a fault is raised. -/
theorem recordAnswer_deltas {k : Fin 7} {s : State} {n : Word} {out : Nat} {p0 p1 : Half}
    (h : s.work = .audio k (.deltas n out p0 p1)) :
    RecordAnswer k s (.deltas n out p0 p1) (engineStep tokenMeaning s) := by
  have goes : ∀ {t : State} {out' : Nat} (q0 q1 : Half), SampleFrame k s t → out' = out + trkFrame s.trk[k] →
      (Written k out s → Written k out' t) →
      RecordAnswer k s (.deltas n out p0 p1) (.next (audioNext k n out' q0 q1 t)) := by
    rintro t _ q0 q1 hf rfl hw
    refine recordAnswer_next (.of_later (hf.frame.trans (audioFrame_audioNext k n _ q0 q1 t)) ?_ ?_)
      (audioNext_goes q0 q1 fun hr => hr.1.addFrame hr.2 (hw hr.1.toWritten) hf.frame.trk hf.frame.params)
    · rw [audioNext_log, hf.log]
    · rw [audioNext_bs]
      exact hf.later
  rw [engineStep_deltas h]
  have h0 := deltaSample_frame k 0 1 p0 out s
  rcases e0 : deltaSample k 0 1 p0 out s with ⟨v0, t⟩ | ⟨c, t⟩ <;> simp only [e0] at h0
  · obtain ⟨hf, hw⟩ := h0
    cases hst : trkStereo s.trk[k] with
    | false =>
      have e : deltaFrame k n out p0 p1 s = .ok () (audioNext k n (out + trkBytes s.trk[k]) v0 p1 t) := by
        simp only [deltaFrame, ops_bind, ops_get, e0, hst, Bool.false_eq_true, if_false, ops_modify]
      rw [perform_ok e]
      exact goes v0 p1 hf (by rw [trkFrame_mono hst]) hw
    | true =>
      have h1 := deltaSample_frame k 2 3 p1 (out + trkBytes s.trk[k]) t
      rcases e1 : deltaSample k 2 3 p1 (out + trkBytes s.trk[k]) t with ⟨v1, u⟩ | ⟨c, u⟩ <;> simp only [e1] at h1
      · have e : deltaFrame k n out p0 p1 s =
            .ok () (audioNext k n (out + trkBytes s.trk[k] + trkBytes s.trk[k]) v0 v1 u) := by
          simp only [deltaFrame, ops_bind, ops_get, e0, e1, hst, if_true, ops_modify]
        rw [perform_ok e]
        refine goes v0 v1 (hf.trans h1.1) (by rw [trkFrame_stereo hst, Nat.add_assoc]) fun hr => ?_
        have := h1.2 (hw hr)
        rwa [hf.frame.trk] at this
      · have e : deltaFrame k n out p0 p1 s = .error c u := by
          simp only [deltaFrame, ops_bind, ops_get, e0, e1, hst, if_true]
        rw [perform_error e]
        have hfu := hf.trans h1
        exact recordAnswer_fault c hfu.record hfu.work hfu.aoutLen
  · have e : deltaFrame k n out p0 p1 s = .error c t := by
      simp only [deltaFrame, ops_bind, ops_get, e0]
    rw [perform_error e]
    exact recordAnswer_fault c h0.record h0.work h0.aoutLen

/-- Everything a step of AUD_DECODE's run can do to LOG, the position and the output (43_audio_dpcm.md R202 to R210). -/
theorem engineStep_recordAnswer {k : Fin 7} {s : State} {w : AudioWork} (h : s.work = .audio k w) :
    RecordAnswer k s w (engineStep tokenMeaning s) := by
  cases w with
  | length => exact recordAnswer_length h
  | header n => exact recordAnswer_header h
  | trees n slot v => exact recordAnswer_trees h
  | init n got => exact recordAnswer_init h
  | deltas n out p0 p1 => exact recordAnswer_deltas h

end Sys2Proof.Machine
end

section
/-! Which command writes which state (10_state.md R37), what stays in order while a command runs (10_state.md R21, R23, R30,
R31), and that the steps of a command's run keep both. -/

-- The package is compiled as one text: elaborating in order keeps the number of threads small.
set_option Elab.async false

namespace Sys2Proof.Machine

open Sys2Proof Sys2Proof.Config

/-! ### The table of writes -/

/-- What no command writes: the operands, the configuration, `IN`, the parameters, and which content FB was drawn with
(10_state.md R37). -/
def State.inputs (s : State) :=
  (s.arg0, s.arg1, s.arg2, s.version, s.width, s.height, s.trk, s.inMem, s.params, s.fbDraw, s.fbZeroed)

theorem unchanged {α : Type} {x : α} {P : Prop} (h : x ≠ x) : P := absurd rfl h

/-- A piece of state that changes over two stretches changes over one of them. -/
theorem changed_trans {α : Type} {x y z : α} {P : Prop} (h : y ≠ x → P) (h' : z ≠ y → P) (hz : z ≠ x) : P := by
  by_cases hy : y = x
  · exact h' (hy ▸ hz)
  · exact h hy

/-- The pieces of state in which `s` and `t` differ are those that the table of 10_state.md R37 lets the command `i` write;
RESULT is left to `Writes`. -/
structure WritesTable (i : Instr) (s t : State) : Prop where
  inputs : t.inputs = s.inputs := by rfl
  bs : t.bs ≠ s.bs → i ∈ [Instr.bsOpen, .bsReadBit, .bsReadByte, .stBuild, .stLookup, .btBuild, .btBuildAll, .btLookup,
    .audDecode, .vidDecode, .softReset] := by exact unchanged
  atree : t.atree ≠ s.atree → i ∈ [Instr.stBuild, .audDecode, .softReset] := by exact unchanged
  vt : t.vt ≠ s.vt → i ∈ [Instr.btBuild, .btBuildAll, .btReset, .btLookup, .vidDecode, .softReset] := by exact unchanged
  fb : t.fb ≠ s.fb → i = .vidDecode := by exact unchanged
  aout : t.aout ≠ s.aout → i = .audDecode ∨ i = .softReset := by exact unchanged
  aoutLen : t.aoutLen ≠ s.aoutLen → i = .audDecode ∨ i = .softReset := by exact unchanged
  scanRow : t.scanRow ≠ s.scanRow → i = .vidDecode ∨ i = .softReset := by exact unchanged
  scanCol : t.scanCol ≠ s.scanCol → i = .vidDecode ∨ i = .softReset := by exact unchanged

theorem WritesTable.trans {i : Instr} {s t u : State} (h : WritesTable i s t) (h' : WritesTable i t u) :
    WritesTable i s u where
  inputs := h'.inputs.trans h.inputs
  bs := changed_trans h.bs h'.bs
  atree := changed_trans h.atree h'.atree
  vt := changed_trans h.vt h'.vt
  fb := changed_trans h.fb h'.fb
  aout := changed_trans h.aout h'.aout
  aoutLen := changed_trans h.aoutLen h'.aoutLen
  scanRow := changed_trans h.scanRow h'.scanRow
  scanCol := changed_trans h.scanCol h'.scanCol

/-- What may differ between the start `s` of a command `i` and a state `t` of its run, up to a fault or its completion:
STATUS is as the start left it, LOG as 43_audio_dpcm.md R204 says, and RESULT is left to the reads and lookups. -/
structure Writes (i : Instr) (s t : State) : Prop extends WritesTable i s t where
  status : t.status = s.status := by rfl
  log : i ≠ .softReset → i ≠ .logClear → t.log = s.log ∨ (i = .audDecode ∧
    s.params.mismatchPolicy = .continueDeclared ∧ t.log = logWith s.log .audioConfigMismatch) := by
      exact fun _ _ => .inl rfl
  result : t.result ≠ s.result → i ∈ [Instr.bsReadBit, .bsReadByte, .stLookup, .btLookup, .softReset] := by
    exact unchanged

theorem Writes.refl (i : Instr) (s : State) : Writes i s s where

theorem Writes.params {i : Instr} {s t : State} (h : Writes i s t) : t.params = s.params := by
  have := h.inputs
  simp only [State.inputs, Prod.mk.injEq] at this
  tauto

theorem logWith_idem (l : Half) (c : Cause) : logWith (logWith l c) c = logWith l c := by
  simp only [logWith, BitVec.or_assoc, BitVec.or_self]

theorem Writes.trans {i : Instr} {s t u : State} (h : Writes i s t) (h' : Writes i t u) : Writes i s u where
  toWritesTable := h.toWritesTable.trans h'.toWritesTable
  status := h'.status.trans h.status
  log h1 h2 := by
    rcases h.log h1 h2 with e | ⟨hi, hp, e⟩ <;> rcases h'.log h1 h2 with e' | ⟨hi', hp', e'⟩
    · exact .inl (e'.trans e)
    · exact .inr ⟨hi', h.params ▸ hp', by rw [e', e]⟩
    · exact .inr ⟨hi, hp, e'.trans e⟩
    · exact .inr ⟨hi, hp, by rw [e', e, logWith_idem]⟩
  result := changed_trans h.result h'.result

theorem RecordFrame.writes {k : Fin 7} {s t : State} (h : RecordFrame k s t) : Writes .audDecode s t := by
  obtain ⟨e, hl, _⟩ := h
  unfold AudioFrame at e
  rw [e]
  exact {
    log := fun _ _ => hl.imp id fun ⟨hp, e⟩ => ⟨rfl, hp, e⟩
    bs := fun _ => by decide
    atree := fun _ => by decide
    aout := fun _ => .inl rfl
    aoutLen := fun _ => .inl rfl }

theorem VideoFrame.writes {s t : State} (h : VideoFrame s t) : Writes .vidDecode s t := by
  rw [h.frame]
  exact {
    bs := fun _ => by decide
    vt := fun _ => by decide
    fb := fun _ => rfl
    scanRow := fun _ => .inl rfl
    scanCol := fun _ => .inl rfl }

/-! ### What stays in order -/

/-- The track whose record is being decoded. -/
def busyTrack (s : State) : Option (Fin 7) :=
  match s.work with
  | .audio k _ => some k
  | .idle | .small _ _ | .big _ _ | .bigAll _ _ | .video => none

theorem busyTrack_audio {s : State} {k : Fin 7} {w : AudioWork} (h : s.work = .audio k w) : busyTrack s = some k := by
  simp only [busyTrack, h]

theorem busyTrack_idle {s : State} (h : s.work = .idle) : busyTrack s = none := by
  simp only [busyTrack, h]

/-- What the invariant says of the position, the memories and LOG, with the output of one track left out. -/
structure SoundBut (busy : Option (Fin 7)) (s : State) : Prop where
  bits : BitsWf s
  input : Memory.wf inBlank s.inMem ∧ ∀ c ∈ s.inMem, c.1 < s.params.inSize.toNat
  picture : PictureWf s
  tracks : ∀ k, busy ≠ some k → TrackWf s k
  logBits : LogWf s

/-- What holds between commands and in the middle of one: the invariant, but for a track whose record is being decoded,
which is as far as its loop says. -/
structure Sound (s : State) : Prop where
  but : SoundBut (busyTrack s) s
  record : ∀ k w, s.work = .audio k w → RecordWf k s w

theorem Sound.of_none {s : State} (h : SoundBut none s) (hb : busyTrack s = none) : Sound s := by
  refine ⟨hb ▸ h, fun k w hw => ?_⟩
  rw [busyTrack_audio hw] at hb
  cases hb

theorem Sound.but_none {s : State} (h : Sound s) (hb : busyTrack s = none) : SoundBut none s := hb ▸ h.but

/-- What `SoundBut` speaks of, but for the position. -/
def State.memories (s : State) := (s.inMem, s.params, s.width, s.height, s.fb, s.aout, s.aoutLen, s.log)

/-- Outside AUD_DECODE, where the memories and LOG stay, only the position counts. -/
theorem Sound.of_memories {s t : State} (h : Sound s) (hs : busyTrack s = none) (ht : busyTrack t = none)
    (hm : t.memories = s.memories) (hb : BitsWf s → BitsWf t) : Sound t := by
  obtain ⟨hbits, hin, hpic, htr, hlog⟩ := h.but_none hs
  simp only [State.memories, Prod.mk.injEq] at hm
  obtain ⟨e1, e2, e3, e4, e5, e6, e7, e8⟩ := hm
  refine .of_none ⟨hb hbits, ?_, ?_, ?_, ?_⟩ ht
  · rwa [e1, e2]
  · unfold PictureWf
    rwa [e3, e4, e5]
  · unfold TrackWf
    rwa [e2, e6, e7]
  · unfold LogWf
    rwa [e8]

/-- A fault sets one of the bits 1 to 10 of LOG (10_state.md R23; 60_exceptions.md R291). -/
theorem logWf_logWith {l : Half} (h : l &&& 0xF801#16 = 0) (c : Cause) : logWith l c &&& 0xF801#16 = 0 := by
  have hc : (1#16 <<< c.code.toNat) &&& 0xF801#16 = 0 := by cases c <;> decide
  rw [logWith, BitVec.and_comm, BitVec.and_or_distrib_left, BitVec.and_comm, h, BitVec.and_comm, hc]
  rfl

/-- A fault takes the bytes of the track whose record it ends, and of no other (43_audio_dpcm.md R211). -/
theorem raiseFault_aout (c : Cause) (s : State) (k : Fin 7) :
    (raiseFault c s).aout[k] = if busyTrack s = some k then [] else s.aout[k] := by
  unfold raiseFault cleanUp busyTrack
  cases s.work with
  | audio j w =>
    by_cases hj : j = k
    · subst hj
      simp
    · rw [if_neg fun h => hj (Option.some.inj h)]
      exact Vector.getElem_set_ne j.isLt k.isLt fun h => hj (Fin.ext h)
  | idle => rfl
  | small slot w => rfl
  | big id w => rfl
  | bigAll id w => rfl
  | video => rfl

/-- A fault leaves everything in order: the track whose record it ends loses its bytes, and its length is 0
(60_exceptions.md R294; 43_audio_dpcm.md R211). -/
theorem sound_raiseFault {t : State} (c : Cause) (h : SoundBut (busyTrack t) t)
    (hk : ∀ k, busyTrack t = some k → t.aoutLen[k] = 0) : Sound (raiseFault c t) := by
  obtain ⟨hbits, hin, hpic, htr, hlog⟩ := h
  refine .of_none ⟨?_, ?_, ?_, fun k _ => ?_, ?_⟩ rfl
  · unfold BitsWf
    rwa [raiseFault_bs, raiseFault_params]
  · rwa [raiseFault_inMem, raiseFault_params]
  · unfold PictureWf
    rwa [raiseFault_fb, raiseFault_width, raiseFault_height]
  · have ha := raiseFault_aout c t k
    by_cases hb : busyTrack t = some k
    · rw [if_pos hb] at ha
      exact trackWf_empty ha (by rw [raiseFault_aoutLen]; exact hk k hb)
    · rw [if_neg hb] at ha
      unfold TrackWf
      rw [ha, raiseFault_aoutLen, raiseFault_params]
      exact htr k hb
  · unfold LogWf
    rw [raiseFault_log]
    exact logWf_logWith hlog c

/-- Between commands `Sound` and the facts about the command registers are the invariant. -/
theorem Sound.inv {s : State} (h : Sound s) (hw : s.work = .idle) (hs : StatusWf s) : Inv s := by
  obtain ⟨hbits, hin, hpic, htr, hlog⟩ := h.but_none (busyTrack_idle hw)
  have htracks : ∀ k, TrackWf s k := fun k => htr k nofun
  exact ⟨hw, hbits, ⟨hin.1, hin.2, hpic.1, hpic.2, fun k => wf_of_addresses (htracks k).1⟩, htracks, hlog, hs⟩

theorem Inv.sound {s : State} (h : Inv s) : Sound s := by
  obtain ⟨hin, hinSize, hfb, hfbSize, _⟩ := h.memory
  exact .of_none ⟨h.bits, ⟨hin, hinSize⟩, ⟨hfb, hfbSize⟩, fun k _ => h.output k, h.logBits⟩ (busyTrack_idle h.idle)

end Sys2Proof.Machine
end

section
/-! The run of a command, step by step: each step writes what the command's row of 10_state.md R37 allows and leaves
everything in order. -/

-- The package is compiled as one text: elaborating in order keeps the number of threads small.
set_option Elab.async false

namespace Sys2Proof.Machine

open Sys2Proof Sys2Proof.Config

/-! ### Which command a state is in the middle of -/

/-- The locals `w` are those of the command `i`, or of none. -/
def Belongs (i : Instr) (w : Work) : Prop :=
  match w with
  | .idle => True
  | .small _ _ => i = .stBuild
  | .big _ _ => i = .btBuild
  | .bigAll _ _ => i = .btBuildAll
  | .audio _ _ => i = .audDecode
  | .video => i = .vidDecode

theorem belongs_idle (i : Instr) {w : Work} (h : w = .idle) : Belongs i w := h ▸ trivial

/-- A command that reads tokens does not write RESULT (10_state.md R22). -/
theorem Writes.result_eq {i : Instr} {s t : State} (h : Writes i s t) {w : Work} (hb : Belongs i w) (hw : w ≠ .idle) :
    t.result = s.result := by
  by_contra hne
  have hi := h.result hne
  cases w with
  | idle => exact hw rfl
  | small slot w => cases hb; exact absurd hi (by decide)
  | big id w => cases hb; exact absurd hi (by decide)
  | bigAll id w => cases hb; exact absurd hi (by decide)
  | audio k w => cases hb; exact absurd hi (by decide)
  | video => cases hb; exact absurd hi (by decide)

/-- The command `i` begun in `s` is on its way or complete at `t`, or ended there with a fault (60_exceptions.md R294). -/
def Reaches (i : Instr) (s t : State) : Prop :=
  Writes i s t ∨ ∃ c u, t = raiseFault c u ∧ Writes i s u ∧ Belongs i u.work ∧ u.result = s.result

theorem Reaches.writes {i : Instr} {s t : State} (h : Reaches i s t) (hw : t.work ≠ .idle) : Writes i s t := by
  rcases h with h | ⟨c, u, rfl, _⟩
  · exact h
  · exact absurd rfl hw

/-- What a step of the command `i` leads to: it reaches a state of the same command, and what was in order stays so. -/
structure StepKeeps (i : Instr) (s t : State) : Prop where
  reaches : Reaches i s t
  belongs : Belongs i t.work
  sound : Sound s → Sound t

/-- The answer is a next state that `StepKeeps` holds of. -/
def AnswerKeeps (i : Instr) (s : State) (a : Answer) : Prop := ∃ t, a = .next t ∧ StepKeeps i s t

theorem answerKeeps_next {i : Instr} {s t : State} (hw : Writes i s t) (hb : Belongs i t.work)
    (hs : Sound s → Sound t) : AnswerKeeps i s (.next t) := ⟨t, rfl, .inl hw, hb, hs⟩

theorem answerKeeps_fault {i : Instr} {s t : State} (c : Cause) (hw : Writes i s t) (hb : Belongs i t.work)
    (hr : t.result = s.result)
    (hs : Sound s → SoundBut (busyTrack t) t ∧ ∀ k, busyTrack t = some k → t.aoutLen[k] = 0) :
    AnswerKeeps i s (.next (raiseFault c t)) :=
  ⟨_, rfl, .inr ⟨c, t, rfl, hw, hb, hr⟩, trivial, fun h => sound_raiseFault c (hs h).1 (hs h).2⟩

/-- Outside AUD_DECODE no track is left with bytes to clean up. -/
theorem Sound.fault {t : State} (h : Sound t) (hb : busyTrack t = none) :
    SoundBut (busyTrack t) t ∧ ∀ k, busyTrack t = some k → t.aoutLen[k] = 0 :=
  ⟨h.but, fun k hk => by rw [hb] at hk; cases hk⟩

/-- Outside AUD_DECODE a fault has nothing of a track to clean up. -/
theorem Sound.raiseFault {t : State} (h : Sound t) (c : Cause) (hb : busyTrack t = none) : Sound (raiseFault c t) :=
  sound_raiseFault c (h.fault hb).1 (h.fault hb).2

theorem bitsWf_skip {s t : State} {j : Nat} (hj : j ≤ s.bs.left) (e : t.bs = s.bs.skip j) (hp : t.params = s.params)
    (h : BitsWf s) : BitsWf t := h.later ⟨j, hj, e⟩ hp

/-! ### ST_BUILD -/

theorem keeps_small {s : State} {slot : Fin 4} {w : SmallWork} (h : s.work = .small slot w) :
    AnswerKeeps .stBuild s (engineStep tokenMeaning s) := by
  have hs : busyTrack s = none := by simp only [busyTrack, h]
  rcases engineStep_small_cases h with ⟨j, w', _, hj, e⟩ | ⟨j, tree, _, hj, e⟩ | ⟨j, c, hj, _, e⟩ <;> rw [e]
  · exact answerKeeps_next { bs := fun _ => by decide } rfl fun hsd => hsd.of_memories hs rfl rfl (bitsWf_skip hj rfl rfl)
  · exact answerKeeps_next { bs := fun _ => by decide, atree := fun _ => by decide } trivial fun hsd =>
      hsd.of_memories hs rfl rfl (bitsWf_skip hj rfl rfl)
  · refine answerKeeps_fault c { bs := fun _ => by decide } ?_ rfl fun hsd =>
      (hsd.of_memories (t := s.setBs (s.bs.skip j)) hs hs rfl (bitsWf_skip hj rfl rfl)).fault hs
    rw [State.setBs_work, h]
    rfl

/-! ### BT_BUILD, BT_BUILD_ALL -/

/-- A bigtree in its slot: the command goes on with the next one, or is over (42_big_tree.md R176, R177). -/
theorem putBig_done_setVt {i : Instr} {f : BigWork → Work} (hf : IsBig f) (hb : ∀ w, Belongs i (f w)) {s : State}
    {w : BigWork} (h : s.work = f w) (t : BigTree) : ∃ id w', putBig (.done t) s = (s.setVt id t).setWork w' ∧
      Belongs i w' ∧ busyTrack ((s.setVt id t).setWork w') = none := by
  rcases hf with ⟨id, rfl⟩ | ⟨id, rfl⟩
  · exact ⟨id, _, putBig_done_one h t, trivial, rfl⟩
  · rcases putBig_done_all h t with ⟨id', _, e⟩ | ⟨_, e⟩
    · exact ⟨id, _, e, hb .control, rfl⟩
    · exact ⟨id, _, e, trivial, rfl⟩

theorem IsBig.busyTrack {f : BigWork → Work} (hf : IsBig f) {s : State} {w : BigWork} (h : s.work = f w) :
    Machine.busyTrack s = none := by
  rcases hf with ⟨id, rfl⟩ | ⟨id, rfl⟩ <;> simp only [Machine.busyTrack, h]

theorem keeps_big {i : Instr} (hi : i = .btBuild ∨ i = .btBuildAll) {f : BigWork → Work} (hf : IsBig f)
    (hb : ∀ w, Belongs i (f w)) {s : State} {w : BigWork} (h : s.work = f w) :
    AnswerKeeps i s (engineStep tokenMeaning s) := by
  have hs := hf.busyTrack h
  have hbs : ∀ j, Writes i s (s.setBs (s.bs.skip j)) := fun j =>
    { bs := fun _ => by rcases hi with rfl | rfl <;> decide }
  rcases engineStep_big_cases hf h with ⟨j, w', _, hj, e⟩ | ⟨j, tree, _, hj, e⟩ | ⟨j, c, hj, _, e⟩ <;> rw [e]
  · exact answerKeeps_next ((hbs j).trans {}) (hb w') fun hsd =>
      hsd.of_memories hs (hf.busyTrack (w := w') rfl) rfl (bitsWf_skip hj rfl rfl)
  · obtain ⟨id, w', e, hw', hn⟩ := putBig_done_setVt hf hb (s := s.setBs (s.bs.skip j)) h tree
    rw [e]
    exact answerKeeps_next ((hbs j).trans { vt := fun _ => by rcases hi with rfl | rfl <;> decide }) hw' fun hsd =>
      hsd.of_memories hs hn rfl (bitsWf_skip hj rfl rfl)
  · refine answerKeeps_fault c (hbs j) ?_ rfl fun hsd =>
      (hsd.of_memories (t := s.setBs (s.bs.skip j)) hs hs rfl (bitsWf_skip hj rfl rfl)).fault hs
    rw [State.setBs_work, h]
    exact hb w

/-! ### AUD_DECODE -/

theorem logWf_recordLog {s t : State} (h : RecordLog s t) (hs : LogWf s) : LogWf t := by
  unfold LogWf
  rcases h with e | ⟨_, e⟩ <;> rw [e]
  · exact hs
  · exact logWf_logWith hs _

/-- A step of the record of track `k` leaves everything but that track in order. -/
theorem RecordFrame.soundBut {k : Fin 7} {s t : State} {w : AudioWork} (h : RecordFrame k s t) (hw : s.work = .audio k w)
    (hs : Sound s) : SoundBut (some k) t := by
  obtain ⟨hbits, hin, hpic, htr, hlog⟩ := hs.but
  rw [busyTrack_audio hw] at htr
  obtain ⟨out, hwr⟩ := (hs.record k w hw).written
  have e := h.frame
  unfold AudioFrame at e
  refine ⟨h.bits hwr.window hbits, ?_, ?_, fun j hj => ?_, logWf_recordLog h.log hlog⟩
  · rw [e]
    exact hin
  · rw [e]
    exact hpic
  · have hne : (k : Nat) ≠ (j : Nat) := fun h => hj (congrArg some (Fin.ext h))
    have ha : t.aout[j] = s.aout[j] := by
      rw [e]
      exact Vector.getElem_set_ne k.isLt j.isLt hne
    have hl : t.aoutLen[j] = s.aoutLen[j] := by
      rw [e]
      exact Vector.getElem_set_ne k.isLt j.isLt hne
    unfold TrackWf
    rw [ha, hl, h.frame.params]
    exact htr j hj

/-- With its last track in order nothing is left out. -/
theorem SoundBut.track {k : Fin 7} {s : State} (h : SoundBut (some k) s) (hk : TrackWf s k) : SoundBut none s := by
  refine ⟨h.bits, h.input, h.picture, fun j _ => ?_, h.logBits⟩
  by_cases hj : k = j
  · exact hj ▸ hk
  · exact h.tracks j fun e => hj (Option.some.inj e)

theorem keeps_audio {s : State} {k : Fin 7} {w : AudioWork} (h : s.work = .audio k w) :
    AnswerKeeps .audDecode s (engineStep tokenMeaning s) := by
  obtain ⟨t, hf, ⟨e, ⟨w', hw', hr⟩ | ⟨hw', hr⟩⟩ | ⟨c, e, hw', hl⟩⟩ := engineStep_recordAnswer h <;> rw [e]
  · refine answerKeeps_next hf.writes (by rw [hw']; rfl) fun hs => ⟨?_, fun j v hv => ?_⟩
    · rw [busyTrack_audio hw']
      exact hf.soundBut h hs
    · rw [hw', Work.audio.injEq] at hv
      obtain ⟨rfl, rfl⟩ := hv
      exact hr (hs.record k w h)
  · exact answerKeeps_next hf.writes (belongs_idle _ hw') fun hs =>
      .of_none ((hf.soundBut h hs).track (hr (hs.record k w h))) (busyTrack_idle hw')
  · have hb : busyTrack t = some k := busyTrack_audio (hw'.trans h)
    refine answerKeeps_fault c hf.writes (by rw [hw', h]; rfl) ?_ fun hs => ⟨?_, fun j hj => ?_⟩
    · have e := hf.frame
      unfold AudioFrame at e
      rw [e]
    · rw [hb]
      exact hf.soundBut h hs
    · rw [hb] at hj
      cases hj
      exact hl (hs.record k w h)

/-! ### VID_DECODE -/

/-- A step of a frame's decoding leaves everything in order. -/
theorem VideoStep.sound {s t : State} (h : VideoStep s t) (hs : busyTrack s = none) (ht : busyTrack t = none)
    (hsd : Sound s) : Sound t := by
  obtain ⟨hbits, hin, hpic, htr, hlog⟩ := hsd.but_none hs
  have e := h.frame.frame
  refine .of_none ⟨hbits.later h.picture.later (by rw [e]), ?_, h.picture.picture hpic, fun k _ => ?_, ?_⟩ ht
  · rw [e]
    exact hin
  · rw [e]
    exact htr k nofun
  · rw [e]
    exact hlog

theorem keeps_video {s : State} (h : s.work = .video) (hc : InFrame s) :
    AnswerKeeps .vidDecode s (engineStep tokenMeaning s) := by
  have idle : ∀ {t : State}, t.work = .video ∨ t.work = .idle → busyTrack t = none := fun ht => by
    rcases ht with e | e <;> simp only [busyTrack, e]
  rcases engineStep_videoAnswer h hc with ⟨t, e, hv, hw⟩ | ⟨c, t, e, hv, hw⟩ <;> rw [e]
  · refine answerKeeps_next hv.frame.writes ?_ (hv.sound (idle (.inl h)) (idle hw))
    rcases hw with e | e <;> rw [e]
    · rfl
    · trivial
  · refine answerKeeps_fault c hv.frame.writes (by rw [hw]; rfl) ?_ fun hs =>
      (hv.sound (idle (.inl h)) (idle (.inl hw)) hs).fault (idle (.inl hw))
    rw [hv.frame.frame]

/-! ### The run of a command -/

/-- Every step of a command's run keeps its row of the table and the order of the state. -/
theorem engineStep_keeps {i : Instr} {s : State} (hw : s.work ≠ .idle) (hb : Belongs i s.work) (hc : CursorInFrame s) :
    AnswerKeeps i s (engineStep tokenMeaning s) := by
  cases h : s.work with
  | idle => exact absurd h hw
  | small slot w => rw [h] at hb; cases hb; exact keeps_small h
  | big id w => rw [h] at hb; cases hb; exact keeps_big (.inl rfl) (.inl ⟨id, rfl⟩) (fun _ => rfl) h
  | bigAll id w => rw [h] at hb; cases hb; exact keeps_big (.inr rfl) (.inr ⟨id, rfl⟩) (fun _ => rfl) h
  | audio k w => rw [h] at hb; cases hb; exact keeps_audio h
  | video => rw [h] at hb; cases hb; exact keeps_video h (hc h)

theorem Reaches.after {i : Instr} {s t u : State} (h : Writes i s t) (hb : Belongs i t.work) (hw : t.work ≠ .idle)
    (h' : Reaches i t u) : Reaches i s u := by
  rcases h' with h' | ⟨c, v, rfl, hv, hbv, hr⟩
  · exact .inl (h.trans h')
  · exact .inr ⟨c, v, rfl, h.trans hv, hbv, hr.trans (h.result_eq hb hw)⟩

/-- The run of a command from where its start left it. -/
theorem runCommand_keeps {i : Instr} {s t : State} (hb : Belongs i s.work) (hc : CursorInFrame s)
    (h : runCommand s = .next t) : StepKeeps i s t := by
  have hstep : ∀ u v : State, u.work ≠ .idle → (StepKeeps i s u ∧ CursorInFrame u) →
      engineStep tokenMeaning u = .next v → (StepKeeps i s v ∧ CursorInFrame v) := by
    rintro u v hw ⟨hu, hcu⟩ e
    obtain ⟨v', e', hv⟩ := engineStep_keeps hw hu.belongs hcu
    obtain ⟨v'', e'', _, hcv, _⟩ := engineStep_progress hw hcu
    rw [e] at e' e''
    cases e'
    cases e''
    exact ⟨⟨.after (hu.reaches.writes hw) hu.belongs hw hv.reaches, hv.belongs, hv.sound ∘ hu.sound⟩, hcv⟩
  exact (runSteps_invariant (P := fun u => StepKeeps i s u ∧ CursorInFrame u) hstep
    ⟨⟨.inl (.refl i s), hb, id⟩, hc⟩ h).1

end Sys2Proof.Machine
end

section
/-! The commands: each keeps its row of 10_state.md R37 and the order of the state, from its start to its end. What follows of
LOG, of who writes what, and of the invariant. -/

-- The package is compiled as one text: elaborating in order keeps the number of threads small.
set_option Elab.async false

namespace Sys2Proof.Machine

open Sys2Proof Sys2Proof.Config

/-! ### The rules of the commands -/

/-- What a part of a command's rule keeps that reads no token and does not write RESULT. -/
structure QuietKeeps (i : Instr) (s t : State) : Prop where
  writes : Writes i s t
  work : t.work = .idle
  result : t.result = s.result
  sound : Sound s → Sound t

theorem QuietKeeps.refl (i : Instr) {s : State} (hw : s.work = .idle) : QuietKeeps i s s := ⟨.refl i s, hw, rfl, id⟩

/-- The outcome of the rule of the command `i`: its effect, or a fault before RESULT is written (10_state.md R22). -/
def OutcomeKeeps (i : Instr) (s : State) (r : EStateM.Result Cause State Unit) : Prop :=
  match r with
  | .ok _ t => StepKeeps i s t
  | .error _ t => QuietKeeps i s t

/-- The rule of the command `i`, from any state between commands. -/
def RuleKeeps (i : Instr) (e : Engine Unit) : Prop := ∀ s, s.work = .idle → OutcomeKeeps i s (e s)

/-- A rule that completes without reading tokens leaves the command over. -/
theorem stepKeeps_idle {i : Instr} {s t : State} (hw : Writes i s t) (ht : t.work = .idle) (hs : Sound s → Sound t) :
    StepKeeps i s t := ⟨.inl hw, belongs_idle i ht, hs⟩

/-- RESULT written last (10_state.md R22). -/
theorem outcomeKeeps_putResult {α : Type} {i : Instr} (hi : i ∈ [Instr.bsReadBit, .bsReadByte, .stLookup, .btLookup])
    {e : Engine α} (v : α → Half) {s : State} (h : ∀ t, (∃ a, e s = .ok a t) ∨ (∃ c, e s = .error c t) → QuietKeeps i s t) :
    OutcomeKeeps i s ((e >>= fun a => putResult (v a)) s) := by
  rw [ops_bind]
  rcases he : e s with ⟨a, t⟩ | ⟨c, t⟩
  · have hq := h t (.inl ⟨a, he⟩)
    have hi' : i ∈ [Instr.bsReadBit, .bsReadByte, .stLookup, .btLookup, .softReset] := List.mem_append_left [_] hi
    exact stepKeeps_idle (hq.writes.trans { result := fun _ => hi' }) hq.work fun hs =>
      (hq.sound hs).of_memories (busyTrack_idle hq.work) (busyTrack_idle hq.work) rfl id
  · exact h t (.inr ⟨c, he⟩)

/-- A reader moves the position and nothing else (40_bitstream.md R130 to R134). -/
theorem quietKeeps_reading {α : Type} {i : Instr} (hi : i ∈ [Instr.bsReadBit, .bsReadByte, .stLookup])
    {r : List Host.Cell → Reader α} (hr : ∀ m, Forward (r m)) {s : State} (hw : s.work = .idle) (t : State)
    (h : (∃ a, reading r s = .ok a t) ∨ (∃ c, reading r s = .error c t)) : QuietKeeps i s t := by
  have moved : ∀ {b : BitStream}, Later s.bs b → QuietKeeps i s (s.setBs b) := fun hb =>
    ⟨{ bs := fun _ => by
        simp only [List.mem_cons, List.not_mem_nil, or_false] at hi
        rcases hi with rfl | rfl | rfl <;> decide },
      hw, rfl, fun hs => hs.of_memories (busyTrack_idle hw) (busyTrack_idle (s := s.setBs _) hw) rfl fun hb' =>
        hb'.later hb rfl⟩
  rcases he : r s.inMem s.bs with ⟨a, b⟩ | ⟨c, b⟩
  · rw [reading_ok he] at h
    rcases h with ⟨_, h⟩ | ⟨_, h⟩ <;> cases h
    exact moved ((hr _).later_ok he)
  · rw [reading_error he] at h
    rcases h with ⟨_, h⟩ | ⟨_, h⟩ <;> cases h
    exact moved ((hr _).later_error he)

theorem ruleKeeps_nop : RuleKeeps .nop (pure ()) := fun s hw => stepKeeps_idle (.refl _ s) hw id

theorem ruleKeeps_softReset : RuleKeeps .softReset (modify softResetState) := by
  intro s hw
  refine stepKeeps_idle ?_ hw fun hs => .of_none ?_ (busyTrack_idle (s := softResetState s) hw)
  · exact {
      log := fun h => absurd rfl h
      result := fun _ => by decide
      bs := fun _ => by decide
      atree := fun _ => by decide
      vt := fun _ => by decide
      aout := fun _ => .inr rfl
      aoutLen := fun _ => .inr rfl
      scanRow := fun _ => .inr rfl
      scanCol := fun _ => .inr rfl }
  · have hb := hs.but
    exact ⟨bitsWf_open rfl (Nat.zero_le _), hb.input, hb.picture,
      fun k _ => trackWf_empty (by simp [softResetState]) (by simp [softResetState]), BitVec.zero_and⟩

theorem ruleKeeps_logClear : RuleKeeps .logClear (modify fun s => { s with log := 0 }) := by
  intro s hw
  refine stepKeeps_idle { log := fun _ h => absurd rfl h } hw fun hs => .of_none ?_ (busyTrack_idle hw)
  have hb := hs.but_none (busyTrack_idle hw)
  exact ⟨hb.bits, hb.input, hb.picture, hb.tracks, BitVec.zero_and⟩

theorem ruleKeeps_bsOpen : RuleKeeps .bsOpen bsOpenRule := by
  intro s hw
  simp only [bsOpenRule, ops_bind, ops_get]
  by_cases hl : windowLegal s s.arg0 s.arg1 = true
  · rw [if_pos hl]
    exact stepKeeps_idle (t := s.openWindow s.arg0 s.arg1) { bs := fun _ => by decide } hw fun hs =>
      hs.of_memories (busyTrack_idle hw) (busyTrack_idle (s := s.openWindow s.arg0 s.arg1) hw) rfl fun _ =>
        bitsWf_open rfl (windowLegal_iff.1 hl)
  · rw [if_neg hl]
    exact QuietKeeps.refl _ hw

theorem ruleKeeps_bsReadBit : RuleKeeps .bsReadBit bsReadBitRule := fun _ hw =>
  outcomeKeeps_putResult (by decide) _ (quietKeeps_reading (by decide) forward_readBit hw)

theorem ruleKeeps_bsReadByte : RuleKeeps .bsReadByte bsReadByteRule := fun _ hw =>
  outcomeKeeps_putResult (by decide) _ (quietKeeps_reading (by decide) forward_readByte hw)

theorem ruleKeeps_stLookup : RuleKeeps .stLookup stLookupRule := by
  intro s hw
  simp only [stLookupRule, ops_bind, ops_get]
  cases slotOperand s.arg0 with
  | none => exact QuietKeeps.refl _ hw
  | some slot =>
    have h := quietKeeps_reading (i := .stLookup) (by decide) (fun m => forward_stLookup m s.atree[slot]) hw
    exact outcomeKeeps_putResult (by decide) (fun v : Byte => v.setWidth 16) h

theorem ruleKeeps_btReset : RuleKeeps .btReset btResetRule := by
  intro s hw
  simp only [btResetRule, ops_bind, ops_get]
  cases slotOperand s.arg0 with
  | none => exact QuietKeeps.refl _ hw
  | some id =>
    exact stepKeeps_idle (t := s.setVt id (btResetTree s.vt[id])) { vt := fun _ => by decide } hw fun hs =>
      hs.of_memories (busyTrack_idle hw) (busyTrack_idle (s := s.setVt id _) hw) rfl fun h => h

/-- A lookup of a bigtree changes the position and its cache (42_big_tree.md R174, R175). -/
theorem LookFrame.quietKeeps {s t : State} (h : LookFrame s t) (hw : s.work = .idle) : QuietKeeps .btLookup s t := by
  have ht : t.work = .idle := by rw [h.draw.frame]; exact hw
  refine ⟨?_, ht, by rw [h.draw.frame], fun hs => hs.of_memories (busyTrack_idle hw) (busyTrack_idle ht) ?_ fun hb =>
    hb.later h.later (by rw [h.draw.frame])⟩
  · have hfb := h.fb
    rw [h.draw.frame]
    exact { bs := fun _ => by decide, vt := fun _ => by decide, fb := fun hne => absurd hfb hne }
  · simp only [State.memories, h.fb]
    rw [h.draw.frame]

theorem ruleKeeps_btLookup : RuleKeeps .btLookup btLookupRule := by
  intro s hw
  simp only [btLookupRule, ops_bind, ops_get]
  cases slotOperand s.arg0 with
  | none => exact QuietKeeps.refl _ hw
  | some id =>
    refine outcomeKeeps_putResult (e := btLookup id) (by decide) (fun v => v) fun t ht => ?_
    have h := btLookup_lookFrame id s
    rcases ht with ⟨v, e⟩ | ⟨c, e⟩ <;> rw [e] at h
    · exact LookFrame.quietKeeps h hw
    · exact LookFrame.quietKeeps h.1 hw

/-! ### The starts of the commands that read tokens -/

theorem ruleKeeps_stBuild : RuleKeeps .stBuild stBuildStart := by
  intro s hw
  simp only [stBuildStart, ops_bind, ops_get]
  cases slotOperand s.arg0 with
  | none => exact QuietKeeps.refl _ hw
  | some slot =>
    exact ⟨.inl { atree := fun _ => by decide }, rfl, fun hs => hs.of_memories (busyTrack_idle hw) rfl rfl id⟩

theorem ruleKeeps_btBuild : RuleKeeps .btBuild btBuildStart := by
  intro s hw
  simp only [btBuildStart, ops_bind, ops_get]
  cases slotOperand s.arg0 with
  | none => exact QuietKeeps.refl _ hw
  | some id =>
    exact ⟨.inl { vt := fun _ => by decide }, rfl, fun hs => hs.of_memories (busyTrack_idle hw) rfl rfl fun h => h⟩

theorem ruleKeeps_btBuildAll : RuleKeeps .btBuildAll btBuildAllStart := by
  intro s hw
  have opened : ∀ {t : State}, t.work = .idle ∨ t.work = .bigAll 0 .control →
      t = ((s.openWindow s.arg0 s.arg1).clearVt).setWork t.work → windowLegal s s.arg0 s.arg1 = true →
      StepKeeps .btBuildAll s t := by
    intro t ht e hl
    have hb : Belongs .btBuildAll t.work := by rcases ht with ht | ht <;> rw [ht] <;> trivial
    have hn : busyTrack t = none := by rcases ht with ht | ht <;> simp only [busyTrack, ht]
    refine ⟨.inl ?_, hb, fun hs => hs.of_memories (busyTrack_idle hw) hn ?_ fun _ => ?_⟩ <;> rw [e]
    · exact { bs := fun _ => by decide, vt := fun _ => by decide }
    · rfl
    · exact bitsWf_open rfl (windowLegal_iff.1 hl)
  simp only [btBuildAllStart, ops_bind, ops_get]
  by_cases hl : windowLegal s s.arg0 s.arg1 = true
  · rw [if_pos hl]
    by_cases h0 : s.arg1 = 0
    · rw [if_pos h0]
      exact opened (.inl hw) rfl hl
    · rw [if_neg h0]
      exact opened (.inr rfl) rfl hl
  · rw [if_neg hl]
    exact QuietKeeps.refl _ hw

theorem ruleKeeps_vidDecode : RuleKeeps .vidDecode vidDecodeStart := by
  intro s hw
  simp only [vidDecodeStart, ops_bind, ops_get]
  by_cases hl : windowLegal s s.arg0 s.arg1 = true
  · rw [if_pos hl]
    by_cases hc : videoConfigLegal s = true
    · rw [if_pos hc]
      refine ⟨.inl ?_, rfl, fun hs => hs.of_memories (busyTrack_idle hw) rfl rfl fun _ =>
        bitsWf_open rfl (windowLegal_iff.1 hl)⟩
      exact {
        bs := fun _ => by decide
        vt := fun _ => by decide
        scanRow := fun _ => .inl rfl
        scanCol := fun _ => .inl rfl }
    · rw [if_neg hc]
      exact QuietKeeps.refl _ hw
  · rw [if_neg hl]
    exact QuietKeeps.refl _ hw

/-- The output of track `k` replaced: what belongs to AUD_DECODE of that track. -/
def State.setTrack (s : State) (k : Fin 7) (n : Word) (m : List Host.Cell) : State := (s.setAoutLen k n).setAout k m

theorem State.setTrack_writes (s : State) (k : Fin 7) (n : Word) (m : List Host.Cell) :
    Writes .audDecode s (s.setTrack k n m) where
  aout _ := .inl rfl
  aoutLen _ := .inl rfl

theorem SoundBut.setTrack {s : State} (h : SoundBut none s) (k : Fin 7) (n : Word) (m : List Host.Cell) :
    SoundBut (some k) (s.setTrack k n m) := by
  refine ⟨h.bits, h.input, h.picture, fun j hj => ?_, h.logBits⟩
  have hne : (k : Nat) ≠ (j : Nat) := fun e => hj (congrArg some (Fin.ext e))
  have ha : (s.setTrack k n m).aout[j] = s.aout[j] := Vector.getElem_set_ne k.isLt j.isLt hne
  have hl : (s.setTrack k n m).aoutLen[j] = s.aoutLen[j] := Vector.getElem_set_ne k.isLt j.isLt hne
  unfold TrackWf
  rw [ha, hl]
  exact h.tracks j nofun

theorem State.setTrack_aout (s : State) (k : Fin 7) (n : Word) (m : List Host.Cell) :
    (s.setTrack k n m).aout[k] = m := by
  simp [State.setTrack]

theorem State.setTrack_aoutLen (s : State) (k : Fin 7) (n : Word) (m : List Host.Cell) :
    (s.setTrack k n m).aoutLen[k] = n := by
  simp [State.setTrack]

theorem State.setTrack_setTrack (s : State) (k : Fin 7) (n n' : Word) (m m' : List Host.Cell) :
    (s.setTrack k n m).setTrack k n' m' = s.setTrack k n' m' := by
  simp [State.setTrack, State.setAout, State.setAoutLen]

theorem copyCells_addresses (m : List Host.Cell) (addr n : Nat) : (copyCells m addr n).map (·.1) = List.range n := by
  rw [copyCells, List.map_map]
  exact List.map_id _

/-- Raw mode, from the emptied track (43_audio_dpcm.md R201). -/
theorem rawCopy_setTrack (s : State) (k : Fin 7) : rawCopy k (s.setTrack k 0 []) =
    if within s.params.aoutMax s.arg1.toNat then
      .ok () (s.setTrack k s.arg1 (copyCells s.inMem s.arg0.toNat s.arg1.toNat))
    else .error .audioLength (s.setTrack k 0 []) := by
  simp only [rawCopy, ops_bind, ops_get]
  by_cases hm : within s.params.aoutMax s.arg1.toNat = true
  · rw [if_pos hm, ← s.setTrack_setTrack k 0 s.arg1 []]
    exact congrFun (if_pos hm) _
  · rw [if_neg hm]
    exact congrFun (if_neg hm) _

/-- The bytes of raw mode are those below the length; above the capacity the track stays empty (43_audio_dpcm.md R201). -/
theorem outcomeKeeps_rawCopy {s : State} (hw : s.work = .idle) (k : Fin 7) :
    OutcomeKeeps .audDecode s (rawCopy k (s.setTrack k 0 [])) := by
  have sound : ∀ {n m}, TrackWf (s.setTrack k n m) k → Sound s → Sound (s.setTrack k n m) := fun ht hs =>
    .of_none (((hs.but_none (busyTrack_idle hw)).setTrack k _ _).track ht) (busyTrack_idle (s := s.setTrack k _ _) hw)
  rw [rawCopy_setTrack]
  by_cases hm : within s.params.aoutMax s.arg1.toNat = true
  · rw [if_pos hm]
    refine stepKeeps_idle (s.setTrack_writes k _ _) hw (sound ?_)
    unfold TrackWf
    rw [s.setTrack_aout, s.setTrack_aoutLen]
    exact ⟨copyCells_addresses _ _ _, hm⟩
  · rw [if_neg hm]
    exact ⟨s.setTrack_writes k _ _, hw, rfl, sound (trackWf_empty (s.setTrack_aout k _ _) (s.setTrack_aoutLen k _ _))⟩

/-- A DPCM record starts with nothing written (43_audio_dpcm.md R200). -/
theorem stepKeeps_recordStarted {s : State} (hw : s.work = .idle) {k : Fin 7} (hl : windowLegal s s.arg0 s.arg1 = true) :
    StepKeeps .audDecode s (recordStarted k s) := by
  refine ⟨.inl ((s.setTrack_writes k 0 []).trans {}), rfl, fun hs => ⟨?_, fun j w hj => ?_⟩⟩
  · have hb := (hs.but_none (busyTrack_idle hw)).setTrack k 0 []
    exact ⟨hb.bits, hb.input, hb.picture, hb.tracks, hb.logBits⟩
  · cases hj
    exact ⟨s.setTrack_aoutLen k 0 [], hl, congrArg _ (s.setTrack_aout k 0 [])⟩

theorem ruleKeeps_audDecode : RuleKeeps .audDecode audDecodeStart := by
  intro s hw
  simp only [audDecodeStart, ops_bind, ops_get]
  cases trackOperand s.arg2 with
  | none => exact QuietKeeps.refl _ hw
  | some k =>
    dsimp only
    by_cases hl : windowLegal s s.arg0 s.arg1 = true
    · rw [if_pos hl]
      by_cases he : (trkExists s.trk[k] && trkVariant s.trk[k] == 0) = true
      · rw [if_pos he, ops_bind, ops_set]
        dsimp only
        by_cases hc : trkCompressed s.trk[k] = true
        · rw [if_pos hc, ops_modify]
          exact stepKeeps_recordStarted hw hl
        · rw [if_neg hc]
          exact outcomeKeeps_rawCopy hw k
      · rw [if_neg he]
        exact QuietKeeps.refl _ hw
    · rw [if_neg hl]
      exact QuietKeeps.refl _ hw

/-! ### Every command -/

theorem command_keeps {i : Instr} {code : Byte} {e : Engine Unit} {s t : State} (h : RuleKeeps i e)
    (ht : command code e s = .next t) : StepKeeps i (startCommand code s) t := by
  have hk := h (startCommand code s) rfl
  rcases he : e (startCommand code s) with ⟨⟨⟩, u⟩ | ⟨c, u⟩ <;> rw [he] at hk
  · rw [command_ok he] at ht
    cases ht
    exact hk
  · rw [command_error he] at ht
    cases ht
    exact ⟨.inr ⟨c, u, rfl, hk.writes, belongs_idle i hk.work, hk.result⟩, trivial, fun hs =>
      (hk.sound hs).raiseFault c (busyTrack_idle hk.work)⟩

theorem streamCommand_keeps {i : Instr} {code : Byte} {e : Engine Unit} {s t : State} (h : RuleKeeps i e)
    (hc : StartsRun e (startCommand code s)) (ht : streamCommand code e s = .next t) :
    StepKeeps i (startCommand code s) t := by
  rcases he : e (startCommand code s) with ⟨⟨⟩, u⟩ | ⟨c, u⟩
  · have hk := h (startCommand code s) rfl
    unfold StartsRun at hc
    rw [he] at hk hc
    rw [streamCommand_ok he] at ht
    have hrun := runCommand_keeps hk.belongs hc.2 ht
    by_cases hw : u.work = .idle
    · rw [runCommand, runSteps_idle _ hw] at ht
      cases ht
      exact hk
    · exact ⟨.after (hk.reaches.writes hw) hk.belongs hw hrun.reaches, hrun.belongs, hrun.sound ∘ hk.sound⟩
  · refine command_keeps (e := e) h ?_
    rw [command_error he, ← streamCommand_error he, ht]

/-- Every command keeps its row of 10_state.md R37 and the order of the state. -/
theorem exec_keeps {i : Instr} {code : Byte} (hi : commandCode i = some code) {s t : State} (h : exec i s = .next t) :
    StepKeeps i (startCommand code s) t := by
  cases i <;> cases hi
  case nop => exact command_keeps ruleKeeps_nop h
  case softReset => exact command_keeps ruleKeeps_softReset h
  case logClear => exact command_keeps ruleKeeps_logClear h
  case bsOpen => exact command_keeps ruleKeeps_bsOpen h
  case bsReadBit => exact command_keeps ruleKeeps_bsReadBit h
  case bsReadByte => exact command_keeps ruleKeeps_bsReadByte h
  case stBuild => exact streamCommand_keeps ruleKeeps_stBuild (startsRun_stBuildStart _) h
  case stLookup => exact command_keeps ruleKeeps_stLookup h
  case btBuild => exact streamCommand_keeps ruleKeeps_btBuild (startsRun_btBuildStart _) h
  case btBuildAll => exact streamCommand_keeps ruleKeeps_btBuildAll (startsRun_btBuildAllStart rfl) h
  case btReset => exact command_keeps ruleKeeps_btReset h
  case btLookup => exact command_keeps ruleKeeps_btLookup h
  case audDecode => exact streamCommand_keeps ruleKeeps_audDecode (startsRun_audDecodeStart rfl) h
  case vidDecode => exact streamCommand_keeps ruleKeeps_vidDecode (startsRun_vidDecodeStart _) h

theorem exists_commandCode {i : Instr} (h : isCommand i = true) : ∃ code, commandCode i = some code :=
  Option.isSome_iff_exists.1 h

end Sys2Proof.Machine
end

section
/-! What follows for every command: LOG is sticky, who writes what, and every step keeps the invariant. -/

-- The package is compiled as one text: elaborating in order keeps the number of threads small.
set_option Elab.async false

namespace Sys2Proof.Machine

open Sys2Proof Sys2Proof.Config

/-! ### LOG -/

/-- A fault sets the bit of its cause (60_exceptions.md R294). -/
theorem logWith_bit (l : Half) (c : Cause) (k : Nat) :
    (logWith l c).getLsbD k = true ↔ l.getLsbD k = true ∨ c.code.toNat = k := by
  have hc := c.code_le
  have hbit : (1#16 <<< c.code.toNat).getLsbD k = true ↔ c.code.toNat = k := by
    simp only [BitVec.getLsbD_shiftLeft, BitVec.getLsbD_one, Bool.and_eq_true, Bool.not_eq_true', decide_eq_true_eq,
      decide_eq_false_iff_not]
    omega
  rw [logWith, BitVec.getLsbD_or, Bool.or_eq_true, hbit]

theorem Cause.code_ne_zero (c : Cause) : c.code ≠ 0 := by
  cases c <;> decide

/-- As far as no fault is raised, LOG gains bit 5 at most, under `continue_declared` (43_audio_dpcm.md R204). -/
theorem Writes.log_bit {i : Instr} {s t : State} (h : Writes i s t) (h1 : i ≠ .softReset) (h2 : i ≠ .logClear) (k : Nat) :
    t.log.getLsbD k = true ↔ s.log.getLsbD k = true ∨ (k = 5 ∧ t.log.getLsbD 5 = true ∧
      i = .audDecode ∧ s.params.mismatchPolicy = .continueDeclared) := by
  rcases h.log h1 h2 with e | ⟨hi, hp, e⟩
  · rw [e]
    exact ⟨.inl, fun h => h.elim id fun ⟨hk5, h5, _⟩ => hk5 ▸ h5⟩
  · rw [e, logWith_bit, logWith_bit]
    exact ⟨fun h => h.imp id fun h => ⟨h.symm, .inr rfl, hi, hp⟩, fun h => h.imp id fun h => h.1.symm⟩

/-- Between a command's start and its completion STATUS holds no cause (46_system.md R280). -/
theorem Writes.statusCause {i : Instr} {code : Byte} {s t : State} (h : Writes i (startCommand code s) t) :
    t.statusCause = 0 := by
  rw [State.statusCause, h.status]
  exact startCommand_statusCause code s

/-- Settles O54: along a command's run LOG gains bit 5 at most, under `continue_declared`; the fault that ends the command
adds the bit of its cause. -/
theorem logIsSticky : Obligations.LogIsSticky := by
  unfold Obligations.LogIsSticky
  intro i s t hi h1 h2 ht k _
  obtain ⟨code, hcode⟩ := exists_commandCode hi
  rcases (exec_keeps hcode ht).reaches with hw | ⟨c, u, rfl, hw, _, _⟩
  · have hbit := hw.log_bit h1 h2 k
    rw [hbit, hw.statusCause]
    exact or_congr_right (by simp)
  · have hbit := hw.log_bit h1 h2 k
    rw [raiseFault_statusCause, raiseFault_log, logWith_bit, hbit, logWith_bit]
    constructor
    · rintro ((h | ⟨hk5, h5, hp⟩) | hc)
      · exact .inl h
      · exact .inr (.inr ⟨hk5, .inl h5, hp⟩)
      · exact .inr (.inl ⟨c.code_ne_zero, hc⟩)
    · rintro (h | ⟨_, hc⟩ | ⟨rfl, h | hc, _⟩)
      · exact .inl (.inl h)
      · exact .inr hc
      · exact .inl (hbit.1 h)
      · exact .inr hc

/-! ### Who writes what -/

/-- What the clean-up of a fault writes, the command may write: the bigtrees in BT_BUILD_ALL, the bytes of its track in
AUD_DECODE (42_big_tree.md R177; 43_audio_dpcm.md R211). -/
theorem cleanUp_writesTable {i : Instr} {s : State} (hb : Belongs i s.work) : WritesTable i s (cleanUp s) := by
  unfold cleanUp
  cases hw : s.work with
  | bigAll id w =>
    rw [hw] at hb
    cases hb
    exact { vt := fun _ => by decide }
  | audio k w =>
    rw [hw] at hb
    cases hb
    exact { aout := fun _ => .inl rfl }
  | idle => exact {}
  | small slot w => exact {}
  | big id w => exact {}
  | video => exact {}

/-- A fault keeps to the row of the command it ends (60_exceptions.md R294). -/
theorem raiseFault_writesTable {i : Instr} (c : Cause) {s : State} (hb : Belongs i s.work) :
    WritesTable i s (raiseFault c s) := (cleanUp_writesTable hb).trans {}

theorem Reaches.writesTable {i : Instr} {s t : State} (h : Reaches i s t) : WritesTable i s t := by
  rcases h with h | ⟨c, u, rfl, hw, hb, _⟩
  · exact h.toWritesTable
  · exact hw.toWritesTable.trans (raiseFault_writesTable c hb)

/-- RESULT changes only with the completion of a read or a lookup, or in SOFT_RESET (10_state.md R22). -/
theorem Reaches.result {i : Instr} {code : Byte} {s t : State} (h : Reaches i (startCommand code s) t)
    (hr : t.result ≠ s.result) :
    t.statusCause = 0 ∧ i ∈ [Instr.bsReadBit, .bsReadByte, .stLookup, .btLookup, .softReset] := by
  rcases h with h | ⟨c, u, rfl, _, _, hu⟩
  · exact ⟨h.statusCause, h.result hr⟩
  · exact absurd ((raiseFault_result u c).trans hu) hr

/-- Settles O55: every step of a command's run keeps to its row of the table, and so does a fault. -/
theorem whoWritesWhat : Obligations.WhoWritesWhat := by
  unfold Obligations.WhoWritesWhat
  intro i s t hi ht
  obtain ⟨code, hcode⟩ := exists_commandCode hi
  have hr := (exec_keeps hcode ht).reaches
  have hw := hr.writesTable
  refine ⟨?_, hr.result, hw.bs, hw.atree, hw.vt, hw.fb, ?_, ?_⟩
  · have hin : t.inputs = s.inputs := hw.inputs
    simpa only [State.inputs, Prod.mk.injEq] using hin
  · exact fun h => h.elim hw.aout hw.aoutLen
  · exact fun h => h.elim hw.scanRow hw.scanCol

/-! ### The invariant -/

/-- A code decodes to the command whose code it is (30_encoding.md R92). -/
theorem commandCode_of_decode {code : Byte} {i : Instr} (h : decode .cmd (bitsOf code) = .instr i) :
    commandCode i = some code := by
  simp only [decode] at h
  have hd := whole_instr h
  rw [ofNat_ofBits_bitsOf] at hd
  unfold decodeCommand at hd
  split at hd <;> cases hd
  all_goals
    rename_i hc
    exact congrArg some (BitVec.eq_of_toNat_eq hc.symm)

/-- A command from a state in order ends in a state that meets the invariant (46_system.md R280). -/
theorem Inv.exec {i : Instr} {code : Byte} (hi : commandCode i = some code) {s t : State} (h : Inv s)
    (ht : exec i s = .next t) : Inv t := by
  have hs : Sound (startCommand code s) := h.sound.of_memories (busyTrack_idle h.idle) rfl rfl id
  obtain ⟨t', e, hw, hcmd, hstatus, hcause, _⟩ := exec_commandEnds hi s
  rw [ht] at e
  cases e
  exact ((exec_keeps hi ht).sound hs).inv hw ⟨hstatus.trans hcmd.symm, hcause⟩

/-- A reserved code faults and leaves the rest as it was (30_encoding.md R93). -/
theorem Inv.reservedCommand {s t : State} (h : Inv s) {code : Byte} (ht : reservedCommand code s = .next t) : Inv t := by
  have hs : Sound (startCommand code s) := h.sound.of_memories (busyTrack_idle h.idle) rfl rfl id
  have he : Machine.reservedCommand code s = .next (raiseFault .badCommand (startCommand code s)) := command_error rfl
  rw [he] at ht
  cases ht
  refine (hs.raiseFault .badCommand rfl).inv rfl ⟨?_, ?_⟩
  · rw [raiseFault_statusCmd, startCommand_statusCmd, raiseFault_cmd, startCommand_cmd]
  · rw [raiseFault_statusCause]
    exact Cause.code_le _

/-- A host write to a register: a new width or height empties FB, and nothing else of the invariant is written (46_system.md
R284; 10_state.md R24). -/
theorem Inv.hostWriteReg {s : State} (h : Inv s) (r : HostReg) (v : Word) : Inv (hostWriteReg r v s) := by
  have hempty : ∀ n, ∀ c ∈ ([] : List Host.Cell), c.1 < n := fun _ _ hc => nomatch hc
  obtain ⟨hidle, hbits, ⟨hin, hinSize, hfb, hfbSize, haout⟩, hout, hlog, hstatus⟩ := h
  cases r
  case width =>
    exact ⟨hidle, hbits, ⟨hin, hinSize, Memory.wf_nil _, hempty _, haout⟩, hout, hlog, hstatus⟩
  case height =>
    exact ⟨hidle, hbits, ⟨hin, hinSize, Memory.wf_nil _, hempty _, haout⟩, hout, hlog, hstatus⟩
  all_goals exact ⟨hidle, hbits, ⟨hin, hinSize, hfb, hfbSize, haout⟩, hout, hlog, hstatus⟩

/-- A host write to `IN` below `IN_SIZE` (46_system.md R284). -/
theorem Inv.hostWriteIn {s t : State} (h : Inv s) {addr : Nat} {v : Byte} (ht : hostWriteIn addr v s = .next t) :
    Inv t := by
  unfold Machine.hostWriteIn at ht
  split at ht
  next hlt =>
    cases ht
    obtain ⟨hidle, hbits, ⟨hin, hinSize, hfb⟩, hout, hlog, hstatus⟩ := h
    refine ⟨hidle, hbits, ⟨Memory.wf_write addr v hin, fun c hc => ?_, hfb⟩, hout, hlog, hstatus⟩
    rcases Memory.mem_write hc with rfl | hc
    · exact hlt
    · exact hinSize c hc
  next => cases ht

/-- Every access of the host keeps the invariant (46_system.md R280, R284; 70_reset_and_hazards.md R330). -/
theorem Inv.hostStep {s t : State} (h : Inv s) {op : HostOp} (ht : hostStep op s = .next t) : Inv t := by
  cases op with
  | writeCmd code =>
    simp only [Machine.hostStep] at ht
    cases hd : decode .cmd (bitsOf code) with
    | instr i =>
      rw [hd] at ht
      exact h.exec (commandCode_of_decode hd) ht
    | more => rw [hd] at ht; exact h.reservedCommand ht
    | reject e => rw [hd] at ht; exact h.reservedCommand ht
  | writeReg r v =>
    cases ht
    exact h.hostWriteReg r v
  | writeIn addr v => exact h.hostWriteIn ht
  | powerOn =>
    cases ht
    obtain ⟨hin, hinSize, _⟩ := h.memory
    exact inv_powerOn _ _ hin hinSize

/-- Settles O57: between commands a step is an access of the host, or nothing. -/
theorem stepKeepsInvariant : Obligations.StepKeepsInvariant := by
  unfold Obligations.StepKeepsInvariant
  intro s t h ht
  cases hh : s.host with
  | nil =>
    simp only [step, h.idle, hh] at ht
    cases ht
    exact h
  | cons op rest =>
    rw [step_host h.idle hh] at ht
    have h' : Inv { s with host := rest } := ⟨h.idle, h.bits, h.memory, h.output, h.logBits, h.status⟩
    exact h'.hostStep ht

end Sys2Proof.Machine
end

section
/-! The decoder and the encoder of 30_encoding.md are inverse to each other: one equation for what each format reads, the
inversion of each, and that no instruction's bits begin another's. -/

-- The package is compiled as one text: elaborating in order keeps the number of threads small.
set_option Elab.async false

namespace Sys2Proof

/-! ### Fields -/

/-- A list of `w` bits is the bits of a value (20_memory.md R63). -/
theorem exists_bitsOf {w : Nat} {bits : List Bool} (h : bits.length = w) : ∃ v : BitVec w, bits = bitsOf v := by
  refine ⟨BitVec.ofNat w (ofBits bits), ?_⟩
  have hlt : ofBits bits < 2 ^ w := h ▸ ofBits_lt bits
  rw [bitsOf, BitVec.toNat_ofNat, Nat.mod_eq_of_lt hlt, ← h, natBits_ofBits]

/-- A list of 16 bits is the bits of two bytes. -/
theorem exists_bitsOf_bytes {bits : List Bool} (h : bits.length = 16) :
    ∃ x y : Byte, bits = bitsOf x ++ bitsOf y := by
  obtain ⟨x, hx⟩ := exists_bitsOf (w := 8) (bits := bits.take 8) (by rw [List.length_take]; omega)
  obtain ⟨y, hy⟩ := exists_bitsOf (w := 8) (bits := bits.drop 8) (by rw [List.length_drop]; omega)
  exact ⟨x, y, by rw [← hx, ← hy, List.take_append_drop]⟩

/-- The number of two bytes' bits has the first in its low half, the second above it. -/
theorem ofBits_bytes (x y : Byte) : ofBits (bitsOf x ++ bitsOf y) = x.toNat + 256 * y.toNat := by
  rw [ofBits_append, ofBits_bitsOf, ofBits_bitsOf, bitsOf_length]
  rfl

@[simp] theorem ofNat_ofBits_bytes (x y : Byte) : BitVec.ofNat 8 (ofBits (bitsOf x ++ bitsOf y)) = x := by
  apply BitVec.eq_of_toNat_eq
  have := x.isLt
  rw [ofBits_bytes, BitVec.toNat_ofNat]
  omega

@[simp] theorem ofNat_ofBits_bytes_div (x y : Byte) : BitVec.ofNat 8 (ofBits (bitsOf x ++ bitsOf y) / 256) = y := by
  apply BitVec.eq_of_toNat_eq
  have := x.isLt
  have := y.isLt
  rw [ofBits_bytes, BitVec.toNat_ofNat]
  omega

/-- The bits of a TYPEWORD by field (30_encoding.md R103). -/
theorem mkTypeWord_getLsbD (p : Byte) (r : BitVec 6) (t : BitVec 2) (i : Nat) :
    (mkTypeWord p r t).getLsbD i =
      if i < 2 then t.getLsbD i else if i - 2 < 6 then r.getLsbD (i - 2) else p.getLsbD (i - 2 - 6) := by
  simp only [mkTypeWord, BitVec.getLsbD_append]

@[simp] theorem typeField_mkTypeWord (p : Byte) (r : BitVec 6) (t : BitVec 2) : typeField (mkTypeWord p r t) = t := by
  apply BitVec.eq_of_getLsbD_eq
  intro i hi
  rw [typeField, BitVec.getLsbD_extractLsb', mkTypeWord_getLsbD]
  simp [hi]

@[simp] theorem runidxField_mkTypeWord (p : Byte) (r : BitVec 6) (t : BitVec 2) :
    runidxField (mkTypeWord p r t) = r := by
  apply BitVec.eq_of_getLsbD_eq
  intro i hi
  rw [runidxField, BitVec.getLsbD_extractLsb', mkTypeWord_getLsbD, if_neg (by omega), Nat.add_sub_cancel_left]
  simp [hi]

@[simp] theorem payloadField_mkTypeWord (p : Byte) (r : BitVec 6) (t : BitVec 2) :
    payloadField (mkTypeWord p r t) = p := by
  apply BitVec.eq_of_getLsbD_eq
  intro i hi
  have e : 8 + i - 2 - 6 = i := by omega
  rw [payloadField, BitVec.getLsbD_extractLsb', mkTypeWord_getLsbD, if_neg (by omega), if_neg (by omega), e]
  simp [hi]

/-- A TYPEWORD is its fields (30_encoding.md R103). -/
theorem mkTypeWord_fields (w : Half) : mkTypeWord (payloadField w) (runidxField w) (typeField w) = w := by
  apply BitVec.eq_of_getLsbD_eq
  intro i hi
  simp only [mkTypeWord_getLsbD, payloadField, runidxField, typeField, BitVec.getLsbD_extractLsb']
  by_cases h2 : i < 2
  · simp [h2]
  · by_cases h8 : i - 2 < 6
    · have e : 2 + (i - 2) = i := by omega
      simp [h2, h8, e]
    · have e : 8 + (i - 2 - 6) = i := by omega
      have h : i - 2 - 6 < 8 := by omega
      simp [h2, h8, h, e]

theorem mkTypeWord_of_type {w : Half} {t : BitVec 2} (h : typeField w = t) :
    mkTypeWord (payloadField w) (runidxField w) t = w := h ▸ mkTypeWord_fields w

end Sys2Proof

namespace Sys2Proof.Machine

open Sys2Proof

/-! ### What each format reads -/

@[simp] theorem whole_bitsOf {w : Nat} (v : BitVec w) (k : Nat → Decoded) : whole w (bitsOf v) k = k v.toNat := by
  simp [whole]

theorem whole_bytes (x y : Byte) (k : Nat → Decoded) :
    whole 16 (bitsOf x ++ bitsOf y) k = k (ofBits (bitsOf x ++ bitsOf y)) := by
  simp [whole]

/-- Only a field of the right length decodes. -/
theorem whole_instr_length {w : Nat} {bits : List Bool} {k : Nat → Decoded} {i : Instr}
    (h : whole w bits k = .instr i) : bits.length = w := by
  unfold whole at h
  split at h
  · cases h
  · split at h
    · assumption
    · cases h

theorem whole_more {w : Nat} {bits : List Bool} {k : Nat → Decoded} (h : bits.length < w) :
    whole w bits k = .more := if_pos h

/-- The formats of one field, with its width (30_encoding.md R92, R98, R112, R115). -/
def fieldWidth (f : Format) : Option Nat :=
  match f with
  | .cmd | .init8 => some 8
  | .seed | .init16 => some 16
  | .dpcmN => some 32
  | .typeWord _ | .tree8 | .node8 | .term | .tree16 | .node16 | .dpcmHeader => none

theorem decode_field {f : Format} {w : Nat} (hw : fieldWidth f = some w) :
    ∃ k, ∀ bits, decode f bits = whole w bits k := by
  cases f <;> cases hw
  all_goals
    simp only [decode]
    exact ⟨_, fun _ => rfl⟩

theorem field_length {f : Format} {w : Nat} {bits : List Bool} {i : Instr} (hw : fieldWidth f = some w)
    (h : decode f bits = .instr i) : bits.length = w := by
  obtain ⟨k, hk⟩ := decode_field hw
  exact whole_instr_length ((hk bits).symm.trans h)

theorem node8Leaf_length {bits : List Bool} {i : Instr} (h : decode .node8 (false :: bits) = .instr i) :
    bits.length = 8 := by
  simp only [decode] at h
  exact whole_instr_length h

/-- A field decodes once all of it is there, and not before. -/
theorem decode_field_longer {f : Format} {w : Nat} {bits tail : List Bool} {b : Bool} {i : Instr}
    (hw : fieldWidth f = some w) (h : decode f (bits ++ b :: tail) = .instr i) : decode f bits = .more := by
  have hl := field_length hw h
  rw [List.length_append, List.length_cons] at hl
  obtain ⟨k, hk⟩ := decode_field hw
  rw [hk, whole_more (by omega)]

theorem decode_cmd (code : Byte) : decode .cmd (bitsOf code) = decodeCommand code := by simp [decode]

theorem decode_node8Leaf (v : Byte) : decode .node8 (false :: bitsOf v) = .instr (.node8Leaf v) := by simp [decode]

theorem decode_seed (low high : Byte) : decode .seed (bitsOf low ++ bitsOf high) = .instr (.seed low high) := by
  simp only [decode, whole_bytes, ofNat_ofBits_bytes, ofNat_ofBits_bytes_div]

theorem decode_dpcmN (n : Word) : decode .dpcmN (bitsOf n) = .instr (.dpcmN n) := by simp [decode]

theorem decode_init8 (v : Byte) : decode .init8 (bitsOf v) = .instr (.dpcmInit8 v) := by simp [decode]

theorem decode_init16 (high low : Byte) :
    decode .init16 (bitsOf high ++ bitsOf low) = .instr (.dpcmInit16 high low) := by
  simp only [decode, whole_bytes, ofNat_ofBits_bytes, ofNat_ofBits_bytes_div]

/-! ### Commands and TYPEWORDs -/

/-- The command of a code (30_encoding.md R92). -/
theorem decode_of_commandCode {i : Instr} {code : Byte} (h : commandCode i = some code) :
    decode .cmd (bitsOf code) = .instr i := by
  rw [decode_cmd]
  cases i <;> cases h <;> rfl

theorem encode_command {i : Instr} {code : Byte} (f : Format) (h : commandCode i = some code) :
    encode f i = bitsOf code := by
  cases i <;> cases h <;> rfl

/-- A command may stand at the place of a command and nowhere else (30_encoding.md R90). -/
theorem wellFormed_command {i : Instr} (f : Format) (h : isCommand i = true) : WellFormed f i = (f == .cmd) := by
  cases i <;> first | rfl | cases h

/-- The block type of a TYPEWORD and its TYPEEXT bits may stand there, and they are its encoding (30_encoding.md R103, R105,
R106). -/
theorem decodeType_instr {v4 : Bool} {w : Half} {ext : List Bool} {i : Instr} (h : decodeType v4 w ext = .instr i) :
    WellFormed (.typeWord v4) i = true ∧ encode (.typeWord v4) i = bitsOf w ++ ext := by
  unfold decodeType at h
  dsimp only at h
  split at h
  next hext =>
    obtain ⟨rfl, ht⟩ := hext
    split at h
    all_goals cases h
    all_goals exact ⟨rfl, congrArg (bitsOf · ++ _) (mkTypeWord_of_type ht)⟩
  next hext =>
    split at h
    next he =>
      subst he
      split at h
      next ht => cases h; exact ⟨by cases v4 <;> rfl, by rw [encode, mkTypeWord_of_type ht, List.append_nil]⟩
      next h0 =>
        split at h
        next ht =>
          have hv : v4 = false := by simpa [ht] using hext
          subst hv
          cases h
          exact ⟨rfl, by rw [encode, mkTypeWord_of_type ht]; rfl⟩
        next h1 =>
          split at h
          next ht => cases h; exact ⟨by cases v4 <;> rfl, by rw [encode, mkTypeWord_of_type ht, List.append_nil]⟩
          next h2 =>
            have ht : typeField w = 3 := by
              generalize typeField w = t at h0 h1 h2
              revert t
              decide
            cases h
            exact ⟨by cases v4 <;> rfl, by rw [encode, mkTypeWord_of_type ht, List.append_nil]⟩
    next => cases h

/-! ### Decoding an encoding -/

/-- The bits of a block type decode to it (30_encoding.md R103, R105). -/
theorem decode_encode_type {v4 : Bool} {i : Instr} (h : WellFormed (.typeWord v4) i = true) :
    decode (.typeWord v4) (encode (.typeWord v4) i) = .instr i := by
  have plain : ∀ w : Half, decode (.typeWord v4) (bitsOf w) = decodeType v4 w [] := fun w => by
    rw [← decode_typeWord, List.append_nil]
  cases i
  case mono p r => simp [encode, plain, decodeType]
  case void p r => simp [encode, plain, decodeType]
  case solid p r => simp [encode, plain, decodeType]
  case full p r => cases v4 <;> simp [encode, plain, decode_typeWord, decodeType]
  case double p r => cases v4 <;> simp_all [WellFormed, encode, decode_typeWord, decodeType]
  case half p r => cases v4 <;> simp_all [WellFormed, encode, decode_typeWord, decodeType]
  all_goals cases h

/-- A block type stands at the place of a TYPEWORD (30_encoding.md R103). -/
theorem typeWord_of_wellFormed {f : Format} {i : Instr} {r : BitVec 6} (hb : blockRunidx i = some r)
    (h : WellFormed f i = true) : ∃ v4, f = .typeWord v4 := by
  cases i <;> cases hb
  all_goals
    simp only [WellFormed, Bool.or_eq_true, beq_iff_eq] at h
  case double | half => exact ⟨_, h⟩
  all_goals exact h.elim (⟨_, ·⟩) (⟨_, ·⟩)

theorem decode_encode {f : Format} {i : Instr} (h : WellFormed f i = true) : decode f (encode f i) = .instr i := by
  cases hc : commandCode i with
  | some code =>
    rw [wellFormed_command f (by rw [isCommand, hc]; rfl), beq_iff_eq] at h
    rw [h, encode_command _ hc, decode_of_commandCode hc]
  | none =>
    cases hb : blockRunidx i with
    | some r =>
      obtain ⟨v4, rfl⟩ := typeWord_of_wellFormed hb h
      exact decode_encode_type h
    | none =>
      cases i
      case node8Leaf v => cases eq_of_beq h; exact decode_node8Leaf v
      case seed low high => cases eq_of_beq h; exact decode_seed low high
      case dpcmN n => cases eq_of_beq h; exact decode_dpcmN n
      case dpcmInit8 v => cases eq_of_beq h; exact decode_init8 v
      case dpcmInit16 high low => cases eq_of_beq h; exact decode_init16 high low
      case mono | full | void | solid | double | half => cases hb
      case tree8Absent | tree8Present | node8Branch | treeTerm | tree16Absent | tree16Present | node16Branch |
          node16Leaf | dpcmHeader => cases eq_of_beq h; rfl
      all_goals cases hc

/-! ### An instruction's bits begin no other's -/

theorem decodeType_longer {v4 : Bool} {w : Half} {ext tail : List Bool} {b : Bool} {i : Instr}
    (h : decodeType v4 w (ext ++ b :: tail) = .instr i) : decodeType v4 w ext = .more := by
  by_cases hext : v4 = true ∧ typeField w = 1
  · simp only [decodeType, if_pos hext] at h ⊢
    rcases ext with _ | ⟨_ | _, _ | ⟨x, ext⟩⟩
    · rfl
    · rfl
    · cases x <;> cases ext <;> cases h
    · cases h
    · cases h
  · have hne : ext ++ b :: tail ≠ [] := by simp
    simp only [decodeType, if_neg hext, if_neg hne] at h
    cases h

/-- The bits read before an instruction's last one are no instruction yet and no fault: so reading bit by bit stops at its
end, whatever follows (30_encoding.md R90). -/
theorem decode_longer {f : Format} {bits tail : List Bool} {b : Bool} {i : Instr}
    (h : decode f (bits ++ b :: tail) = .instr i) : decode f bits = .more := by
  cases f
  case cmd | seed | dpcmN | init8 | init16 => exact decode_field_longer rfl h
  case typeWord v4 =>
    by_cases hl : bits.length < 16
    · simp only [decode, if_pos hl]
    · obtain ⟨w, hw⟩ := exists_bitsOf (w := 16) (bits := bits.take 16) (by rw [List.length_take]; omega)
      rw [← List.take_append_drop 16 bits, hw] at h ⊢
      rw [List.append_assoc, decode_typeWord] at h
      rw [decode_typeWord]
      exact decodeType_longer h
  case node8 =>
    rcases bits with _ | ⟨_ | _, bits⟩
    · rfl
    · have hl := node8Leaf_length (bits := bits ++ b :: tail) h
      rw [List.length_append, List.length_cons] at hl
      simp only [decode, whole_more (show bits.length < 8 by omega)]
    · cases bits <;> cases h
  case dpcmHeader =>
    rcases bits with _ | ⟨_ | _, _ | ⟨x, _ | ⟨y, bits⟩⟩⟩
    case nil | cons.true.nil | cons.true.cons.nil => rfl
    case cons.true.cons.cons => cases bits <;> cases h
    all_goals cases h
  case tree8 | term | tree16 | node16 =>
    rcases bits with _ | ⟨_ | _, bits⟩
    · rfl
    all_goals cases bits <;> cases h

/-- Reading bit by bit finds the instruction whose bits are ahead (30_encoding.md R90). -/
theorem decodePrefix_append {f : Format} {i : Instr} (rest : List Bool) : ∀ {bits acc : List Bool},
    decode f (acc ++ bits) = .instr i → decodePrefix f acc (bits ++ rest) = some i := by
  intro bits
  induction bits with
  | nil =>
    intro acc h
    rw [List.append_nil] at h
    cases rest <;> simp only [List.nil_append, decodePrefix, h]
  | cons b bits ih =>
    intro acc h
    rw [List.cons_append, decodePrefix, decode_longer h]
    exact ih (by rwa [List.append_assoc])

/-- Settles O58: what is encoded decodes, and no shorter run of its bits does. -/
theorem decodeEncode : Obligations.DecodeEncode := by
  unfold Obligations.DecodeEncode
  intro f i rest h
  exact ⟨decode_encode h, decodePrefix_append rest (decode_encode h)⟩

/-! ### Encoding what was decoded -/

/-- Settles O59, format by format: the length that decodes gives the fields, and they encode the instruction. -/
theorem encodeDecode : Obligations.EncodeDecode := by
  unfold Obligations.EncodeDecode
  intro f i bits h
  cases f
  case cmd =>
    obtain ⟨code, rfl⟩ := exists_bitsOf (field_length rfl h)
    have hc := commandCode_of_decode h
    exact ⟨by rw [wellFormed_command _ (by rw [isCommand, hc]; rfl)]; rfl, encode_command _ hc⟩
  case typeWord v4 =>
    by_cases hl : bits.length < 16
    · simp only [decode, if_pos hl] at h
      cases h
    · obtain ⟨w, hw⟩ := exists_bitsOf (w := 16) (bits := bits.take 16) (by rw [List.length_take]; omega)
      rw [← List.take_append_drop 16 bits, hw] at h ⊢
      rw [decode_typeWord] at h
      exact decodeType_instr h
  case node8 =>
    rcases bits with _ | ⟨_ | _, bits⟩
    · cases h
    · obtain ⟨v, rfl⟩ := exists_bitsOf (node8Leaf_length h)
      cases (decode_node8Leaf v).symm.trans h
      exact ⟨rfl, rfl⟩
    · cases bits <;> cases h
      exact ⟨rfl, rfl⟩
  case seed =>
    obtain ⟨low, high, rfl⟩ := exists_bitsOf_bytes (field_length rfl h)
    cases (decode_seed low high).symm.trans h
    exact ⟨rfl, rfl⟩
  case init16 =>
    obtain ⟨high, low, rfl⟩ := exists_bitsOf_bytes (field_length rfl h)
    cases (decode_init16 high low).symm.trans h
    exact ⟨rfl, rfl⟩
  case dpcmN =>
    obtain ⟨n, rfl⟩ := exists_bitsOf (field_length rfl h)
    cases (decode_dpcmN n).symm.trans h
    exact ⟨rfl, rfl⟩
  case init8 =>
    obtain ⟨v, rfl⟩ := exists_bitsOf (field_length rfl h)
    cases (decode_init8 v).symm.trans h
    exact ⟨rfl, rfl⟩
  case dpcmHeader =>
    rcases bits with _ | ⟨_ | _, _ | ⟨x, _ | ⟨y, _ | ⟨z, bits⟩⟩⟩⟩ <;> cases h
    exact ⟨rfl, rfl⟩
  case tree8 | term | tree16 | node16 =>
    rcases bits with _ | ⟨_ | _, _ | ⟨x, bits⟩⟩ <;> cases h
    all_goals exact ⟨rfl, rfl⟩

end Sys2Proof.Machine
end

section
/-! Bits that are no instruction (30_encoding.md R93, R97, R113), tokens outside their structure (R90), and the tables of
30_encoding.md written out. -/

-- The package is compiled as one text: elaborating in order keeps the number of threads small.
set_option Elab.async false

namespace Sys2Proof.Machine

open Sys2Proof Sys2Proof.Config

/-! ### Tables -/

/-- Settles O40: the table has 64 entries. -/
theorem runTable_eq : Obligations.RunTable := by
  unfold Obligations.RunTable
  decide

/-- Settles O60: each word is decoded. -/
theorem decodeWords : Obligations.DecodeWords := by
  unfold Obligations.DecodeWords
  decide

/-! ### Tokens outside their structure -/

theorem smallToken_idle {f : Params → SmallWork → Option (Except Cause SmallProgress)} {s : State}
    (h : s.work = .idle) : smallToken f s = .refused .outOfContext := by
  simp only [smallToken, h, smallWork?]

theorem bigToken_idle {f : BigWork → Option (Engine BigProgress)} {s : State} (h : s.work = .idle) :
    bigToken f s = .refused .outOfContext := by
  simp only [bigToken, h, bigWork?]

theorem blockGroup_idle {draw : Engine Unit} {r : BitVec 6} {s : State} (h : s.work = .idle) :
    blockGroup draw r s = .refused .outOfContext := by
  simp only [blockGroup, h]

theorem execTreeTerm_idle {s : State} (h : s.work = .idle) : execTreeTerm s = .refused .outOfContext := by
  simp only [execTreeTerm, h, smallWork?]
  exact bigToken_idle h

/-- Settles O30: each token asks for the command that reads it. -/
theorem tokensNeedACommand : Obligations.TokensNeedACommand := by
  unfold Obligations.TokensNeedACommand
  intro i s hi h
  rw [exec_token hi]
  cases i
  case mono | full | void | solid | double | half => exact blockGroup_idle h
  case tree8Absent | tree8Present | node8Branch | node8Leaf =>
    simp only [tokenMeaning, execTree8Absent, execTree8Present, execNode8Branch, execNode8Leaf]
    exact smallToken_idle h
  case treeTerm => exact execTreeTerm_idle h
  case tree16Absent | tree16Present | seed | node16Branch | node16Leaf => exact bigToken_idle h
  case dpcmN => simp only [tokenMeaning, execDpcmN, h]
  case dpcmHeader => simp only [tokenMeaning, execDpcmHeader, h]
  case dpcmInit8 => simp only [tokenMeaning, execDpcmInit8, h]
  case dpcmInit16 => simp only [tokenMeaning, execDpcmInit16, h]
  all_goals cases hi

/-! ### Reserved codes and operands -/

theorem slotOperand_none {v : Word} (h : 3 < v.toNat) : slotOperand v = none := dif_neg (by omega)

theorem trackOperand_none {v : Word} (h : 6 < v.toNat) : trackOperand v = none := dif_neg (by omega)

/-- A command whose rule refuses its operand (30_encoding.md R93). -/
theorem command_faulted {code : Byte} {e : Engine Unit} {s : State} {c : Cause}
    (h : e (startCommand code s) = .error c (startCommand code s)) : command code e s = .next (s.faulted code c) :=
  (command_error h).trans (by rw [raiseFault_start])

theorem streamCommand_faulted {code : Byte} {e : Engine Unit} {s : State} {c : Cause}
    (h : e (startCommand code s) = .error c (startCommand code s)) :
    streamCommand code e s = .next (s.faulted code c) :=
  (streamCommand_error h).trans (by rw [raiseFault_start])

/-- A code that no command has faults (30_encoding.md R93). -/
theorem step_reserved {s : State} {code : Byte} {rest : List HostOp} (hw : s.work = .idle)
    (hh : s.host = .writeCmd code :: rest) (hc : ∀ i, commandCode i ≠ some code) :
    step s = .next (State.faulted { s with host := rest } code .badCommand) := by
  have hr : hostStep (.writeCmd code) { s with host := rest } = reservedCommand code { s with host := rest } := by
    cases hd : decode .cmd (bitsOf code) with
    | instr i => exact absurd (commandCode_of_decode hd) (hc i)
    | more => simp only [hostStep, hd]
    | reject e => simp only [hostStep, hd]
  rw [step_host hw hh, hr]
  exact command_faulted rfl

/-- Settles O3: a code of no command and an operand of no slot or track fault before anything else happens. -/
theorem reservedCodesAndOperands : Obligations.ReservedCodesAndOperands := by
  unfold Obligations.ReservedCodesAndOperands
  refine ⟨fun s code rest hw hh hc => step_reserved hw hh hc, fun s h => ?slot, fun s h => ?track⟩
  case slot =>
    have hn : slotOperand s.arg0 = none := slotOperand_none h
    refine ⟨streamCommand_faulted ?_, command_faulted ?_, streamCommand_faulted ?_, command_faulted ?_,
      command_faulted ?_⟩
    · simp only [stBuildStart, ops_bind, ops_get, startCommand_arg0, hn, ops_throw]
    · simp only [stLookupRule, ops_bind, ops_get, startCommand_arg0, hn, ops_throw]
    · simp only [btBuildStart, ops_bind, ops_get, startCommand_arg0, hn, ops_throw]
    · simp only [btResetRule, ops_bind, ops_get, startCommand_arg0, hn, ops_throw]
    · simp only [btLookupRule, ops_bind, ops_get, startCommand_arg0, hn, ops_throw]
  case track =>
    have hn : trackOperand s.arg2 = none := trackOperand_none h
    refine streamCommand_faulted ?_
    simp only [audDecodeStart, ops_bind, ops_get, startCommand_arg2, hn, ops_throw]

/-! ### Bits that are no token -/

/-- A running command is not idle. -/
theorem wantedFormat_running {s : State} {f : Format} (h : wantedFormat s = some f) : s.work ≠ .idle := by
  intro hw
  simp only [wantedFormat, hw] at h
  cases h

/-- A token but a TYPEWORD and a length is read from the stream (44_video_blocks.md R233; 43_audio_dpcm.md R202). -/
theorem fetchToken_stream {f : Format} (ht : ∀ v4, f ≠ .typeWord v4) (hn : f ≠ .dpcmN) :
    fetchToken f = fetchBits f 33 [] := by
  cases f <;> first | rfl | exact absurd rfl (ht _) | exact absurd rfl hn

/-- A step whose token raises a cause (60_exceptions.md R294). -/
theorem step_fetch_error {s t : State} {f : Format} {c : Cause} (hf : wantedFormat s = some f)
    (ht : ∀ v4, f ≠ .typeWord v4) (hn : f ≠ .dpcmN) (h : fetchBits f 33 [] s = .error c t) :
    step s = .next (raiseFault c t) := by
  rw [step_running (wantedFormat_running hf)]
  exact engineStep_error hf (by rw [fetchToken_stream ht hn, h])

/-- The capacity can be full only where a node is read (41_small_tree.md R156; 42_big_tree.md R171). -/
theorem format_of_full {s : State} {f : Format} (hf : wantedFormat s = some f) (h : nodeRoom s = false) :
    f = .node8 ∨ f = .node16 := by
  unfold nodeRoom at h
  split at h
  next hs => exact .inl (Option.some.inj (hf.symm.trans (wantedFormat_small hs)))
  next hb _ =>
    right
    unfold bigWork? at hb
    split at hb <;> cases hb
    all_goals
      rename_i hw
      simp only [wantedFormat, hw, bigFormat] at hf
      exact (Option.some.inj hf).symm
  next => cases h

theorem whole_overlong {w : Nat} {bits : List Bool} {k : Nat → Decoded} (h : w < bits.length) :
    whole w bits k = .reject .overlong := by
  unfold whole
  rw [if_neg (by omega), if_neg (by omega)]

/-- No token but a TYPEWORD needs more than 32 bits. -/
theorem decode_more_length {f : Format} {bits : List Bool} (ht : ∀ v4, f ≠ .typeWord v4) (h : decode f bits = .more) :
    bits.length ≤ 32 := by
  by_contra hl
  cases hw : fieldWidth f with
  | some w =>
    obtain ⟨k, hk⟩ := decode_field hw
    have hw32 : w ≤ 32 := by cases f <;> cases hw <;> decide
    rw [hk, whole_overlong (by omega)] at h
    cases h
  | none =>
    obtain ⟨a, b, c, d, rest, rfl⟩ : ∃ a b c d rest, bits = a :: b :: c :: d :: rest := by
      match bits with
      | a :: b :: c :: d :: rest => exact ⟨a, b, c, d, rest, rfl⟩
      | [] | [_] | [_, _] | [_, _, _] => simp at hl
    cases f
    case typeWord v4 => exact ht v4 rfl
    case node8 =>
      cases a
      · rw [decode, whole_overlong (by simp at hl ⊢; omega)] at h
        cases h
      · cases h
    case tree8 | term | tree16 | node16 | dpcmHeader => cases a <;> cases h
    all_goals cases hw

/-- A window that ends within a token: every bit is consumed (60_exceptions.md R297). -/
theorem fetchBits_exhausted {f : Format} : ∀ {fuel : Nat} {acc : List Bool} {s : State}, s.bs.left < fuel →
    (∀ k ≤ s.bs.left, decode f (acc ++ (remaining s.inMem s.bs).take k) = .more) →
    (acc ≠ [] ∨ nodeRoom s = true ∨ s.bs.left = 0) →
    fetchBits f fuel acc s = .error .exhausted (s.setBs (s.bs.skip s.bs.left)) := by
  intro fuel
  induction fuel with
  | zero => intro acc s h; omega
  | succ fuel ih =>
    intro acc s hl hm hr
    have h0 : decode f acc = .more := by simpa using hm 0 (Nat.zero_le _)
    rw [fetchBits_more h0]
    cases hb : remaining s.inMem s.bs with
    | nil =>
      have he := remaining_nil.1 hb
      rw [readBit_nil he, he, BitStream.skip_zero]
    | cons v rest =>
      obtain ⟨h1, hrest⟩ := remaining_after_cons hb
      have hleft := BitStream.left_skip h1
      have hroom : acc ≠ [] ∨ nodeRoom s = true := hr.imp_right (·.resolve_right (by omega))
      rw [readBit_cons hb]
      dsimp only
      rw [ops_bind, tagCheck_ok (s := s.setBs (s.bs.skip 1)) hroom]
      dsimp only
      rw [ih (acc := acc ++ [v]) (s := s.setBs (s.bs.skip 1)) ?_ ?_ (.inl (by simp))]
      · rw [State.setBs_setBs, State.setBs_bs, hleft, BitStream.skip_skip h1]
        congr 3
        omega
      · rw [State.setBs_bs]
        omega
      · intro k hk
        rw [State.setBs_bs, hleft] at hk
        have := hm (k + 1) (by omega)
        rw [hb, List.take_succ_cons] at this
        rw [State.setBs_bs, State.setBs_inMem, hrest, List.append_assoc]
        exact this

/-- A first bit that no token has (30_encoding.md R97, R113). -/
theorem step_reject_first {s : State} {f : Format} {v : Bool} {e : DecodeError} (hf : wantedFormat s = some f)
    (ht : ∀ v4, f ≠ .typeWord v4) (hn : f ≠ .dpcmN) (h0 : decode f [] = .more) (h1 : decode f [v] = .reject e)
    (hr : nodeRoom s = true) (ha : s.Ahead [v]) :
    step s = .next (raiseFault (rejectCause e) { s with bs := s.bs.skip 1 }) := by
  obtain ⟨rest, hrest⟩ := State.ahead_iff.1 ha
  refine step_fetch_error hf ht hn ?_
  rw [fetchBits_first h0 hr, readBit_cons hrest]
  exact fetchBits_reject h1

/-- Settles O11: the fetch is followed to the bit that decides. -/
theorem tokenFaults : Obligations.TokenFaults := by
  unfold Obligations.TokenFaults
  intro s f hf ht hn
  have room : (¬ (f = .node8 ∨ f = .node16)) → nodeRoom s = true := fun h => by
    by_contra hr
    exact h (format_of_full hf (by simpa using hr))
  refine ⟨fun he ha => ?terminator, fun he ha => ?noData, fun hr hl => ?capacity, fun hr hm => ?exhausted⟩
  case terminator =>
    subst he
    exact step_reject_first hf ht hn (e := .badTerminator) rfl rfl (room (by simp)) ha
  case noData =>
    subst he
    exact step_reject_first hf ht hn (e := .noData) rfl rfl (room (by simp)) ha
  case capacity =>
    have h0 : decode f [] = .more := by rcases format_of_full hf hr with rfl | rfl <;> rfl
    refine step_fetch_error hf ht hn ?_
    rw [fetchBits_full h0 hr, readBit_cons (remaining_cons hl)]
    rfl
  case exhausted =>
    have hlen := decode_more_length ht (hm _ (Nat.le_refl _))
    rw [List.length_take, remaining_length, Nat.min_self] at hlen
    exact step_fetch_error hf ht hn (fetchBits_exhausted (by omega) hm (.inr hr))

end Sys2Proof.Machine
end

section
/-! AUD_DECODE of a record that codes its samples (30_encoding.md R112 to R116; 43_audio_dpcm.md R202 to R210): each part of
the record is read from its bits, the output grows frame by frame, and the last frame completes the command. -/

-- The package is compiled as one text: elaborating in order keeps the number of threads small.
set_option Elab.async false

namespace Sys2Proof.Machine

open Sys2Proof Sys2Proof.Config

/-! ### Runs without their lengths -/

/-- Some steps of a command's run lead from `s` to `t`. -/
def Leads (s t : State) : Prop := ∃ k, Runs k s t

theorem Leads.trans {s t u : State} (h : Leads s t) (h' : Leads t u) : Leads s u := by
  obtain ⟨_, h⟩ := h
  obtain ⟨_, h'⟩ := h'
  exact ⟨_, h.trans h'⟩

theorem Leads.step {s t : State} (hw : s.work ≠ .idle) (h : engineStep tokenMeaning s = .next t) : Leads s t :=
  ⟨1, Runs.step hw h⟩

/-- Where a run ends idle the machine's steps end (46_system.md R280). -/
theorem Leads.engineRun {s t : State} (h : Leads s t) (ht : t.work = .idle) : EngineRun s t := by
  obtain ⟨k, h⟩ := h
  exact runSteps_engineRun (h.runSteps ht (Nat.le_refl k)) ht

/-- A command past its checks ends where its run ends: its fuel suffices (70_reset_and_hazards.md R341). -/
theorem streamCommand_of_leads {code : Byte} {e : Engine Unit} {s t u : State}
    (h : e (startCommand code s) = .ok () t) (hc : CursorInFrame t) (hl : Leads t u) (hu : u.work = .idle) :
    streamCommand code e s = .next u := by
  obtain ⟨v, hv, hrun⟩ := streamCommand_engineRun h hc
  rw [hv, hrun.unique (hl.engineRun hu)]

/-! ### Reading a part of a record -/

theorem AudioFrame.inMem {k : Fin 7} {s t : State} (h : AudioFrame k s t) : t.inMem = s.inMem := by
  unfold AudioFrame at h
  rw [h]

theorem State.Ahead.left {s : State} {xs ys : List Bool} (h : s.Ahead (xs ++ ys)) : s.Ahead xs :=
  (List.prefix_append xs ys).trans h

/-- The record of track `k` goes from `s` to `t` and consumes exactly these bits, without a fault or a mismatch. -/
structure RecordReads (k : Fin 7) (bits : List Bool) (s t : State) : Prop where
  leads : Leads s t
  bs : t.bs = s.bs.skip bits.length
  frame : AudioFrame k s t
  log : t.log = s.log

theorem RecordReads.refl (k : Fin 7) (s : State) : RecordReads k [] s s :=
  ⟨⟨0, .refl s⟩, (BitStream.skip_zero _).symm, .refl k s, rfl⟩

/-- What is ahead of a part is ahead of the state behind it. -/
theorem RecordReads.ahead {k : Fin 7} {xs ys : List Bool} {s t : State} (h : RecordReads k xs s t)
    (ha : s.Ahead (xs ++ ys)) : t.Ahead ys := by
  obtain ⟨rest, hr⟩ := State.ahead_iff.1 ha
  rw [List.append_assoc] at hr
  exact State.ahead_iff.2 ⟨rest, by rw [h.frame.inMem, h.bs, (remaining_after hr).2]⟩

theorem RecordReads.trans {k : Fin 7} {xs ys : List Bool} {s t u : State} (h : RecordReads k xs s t)
    (h' : RecordReads k ys t u) (ha : s.Ahead xs) : RecordReads k (xs ++ ys) s u where
  leads := h.leads.trans h'.leads
  bs := by
    obtain ⟨rest, hr⟩ := State.ahead_iff.1 ha
    rw [h'.bs, h.bs, BitStream.skip_skip (remaining_after hr).1, List.length_append]
  frame := h.frame.trans h'.frame
  log := h'.log.trans h.log

/-! #### Header -/

/-- The checks of a header that agrees with the track's descriptor (43_audio_dpcm.md R204, R205). -/
theorem dpcmHeaderCheck_agrees {k : Fin 7} {n : Word} {s : State} (hn : badLength s k n = false) :
    dpcmHeaderCheck k n (trkStereo s.trk[k]) (trkDepth16 s.trk[k]) s =
      .ok () (s.setWork (.audio k (.trees n 0 .control))) := by
  have hn' : badLength { s with log := s.log } k n = false := hn
  simp only [dpcmHeaderCheck, ops_bind, ops_get, bne_self_eq_false, Bool.or_self, Bool.false_and, Bool.false_eq_true,
    if_false, ops_set, hn', ops_modify]

/-- A header that agrees with the track's descriptor (43_audio_dpcm.md R203). -/
theorem record_header {k : Fin 7} {n d : Word} {s : State} (h : s.work = .audio k (.header n)) (hd : s.trk[k] = d)
    (hn : badLength s k n = false) (ha : s.Ahead [true, trkStereo d, trkDepth16 d]) :
    RecordReads k [true, trkStereo d, trkDepth16 d] s
      ((s.setBs (s.bs.skip 3)).setWork (.audio k (.trees n 0 .control))) := by
  subst hd
  obtain ⟨rest, hr⟩ := State.ahead_iff.1 ha
  obtain ⟨h1, hr1⟩ := remaining_after_cons hr
  obtain ⟨h2, hr2⟩ := remaining_after_cons hr1
  have e3 : ((s.bs.skip 1).skip 1).skip 1 = s.bs.skip 3 := by rw [BitStream.skip_skip h2, BitStream.skip_skip h1]
  refine ⟨.step (by rw [h]; nofun) ?_, rfl, (AudioFrame.setBs k s _).trans (.setWork k _ _), rfl⟩
  rw [engineStep_header h, readBit_cons hr]
  dsimp only
  rw [readBit_cons hr1]
  dsimp only
  rw [readBit_cons hr2, e3]
  exact perform_ok (dpcmHeaderCheck_agrees (s := s.setBs (s.bs.skip 3)) hn)

/-! #### Trees -/

/-- What is read after a tree: the next one, or the initial samples (43_audio_dpcm.md R206, R207). -/
def afterTree (n : Word) (next : Option (Fin 4)) : AudioWork :=
  match next with
  | some slot => .trees n slot .control
  | none => .init n []

/-- A tree goes to its slot (43_audio_dpcm.md R206). -/
theorem record_tree {k : Fin 7} {n d : Word} {slot : Fin 4} {tree : SmallTree} {s : State}
    (h : s.work = .audio k (.trees n slot .control)) (hd : s.trk[k] = d)
    (hf : tree.fits s.params.smallNodesMax = true) (ha : s.Ahead tree.bits) :
    RecordReads k tree.bits s (((s.setBs (s.bs.skip tree.bits.length)).setAtree slot tree).setWork
      (.audio k (afterTree n (nextTreeSlot d slot)))) := by
  subst hd
  obtain ⟨rest, hr⟩ := State.ahead_iff.1 ha
  have hrun := small_run (s := s) (by rw [h]; rfl)
  rw [stBuildSpec_bits hr hf] at hrun
  obtain ⟨j, _, hrun⟩ := hrun
  have hput : ∀ b : BitStream, putSmall (.done tree) (s.setBs b) =
      ((s.setBs b).setAtree slot tree).setWork (.audio k (afterTree n (nextTreeSlot s.trk[k] slot))) := fun b => by
    simp only [putSmall, State.setBs_work, State.setBs_trk, h]
    cases nextTreeSlot s.trk[k] slot <;> rfl
  rw [hput] at hrun
  exact ⟨⟨j, hrun⟩, rfl, ((AudioFrame.setBs k s _).trans (.setAtree k _ _ _)).trans (.setWork k _ _), rfl⟩

/-- The trees of one channel, the high one for 16-bit samples only (30_encoding.md R114). -/
theorem record_channel {k : Fin 7} {n d : Word} {lo hi : Fin 4} {next : Option (Fin 4)} {low high : SmallTree}
    {s : State} (h : s.work = .audio k (.trees n lo .control)) (hd : s.trk[k] = d)
    (hlo : nextTreeSlot d lo = if trkDepth16 d then some hi else next)
    (hhi : trkDepth16 d = true → nextTreeSlot d hi = next)
    (hfl : low.fits s.params.smallNodesMax = true) (hfh : high.fits s.params.smallNodesMax = true)
    (ha : s.Ahead (low.bits ++ if trkDepth16 d then high.bits else [])) :
    ∃ t, RecordReads k (low.bits ++ if trkDepth16 d then high.bits else []) s t ∧
      t.work = .audio k (afterTree n next) ∧ t.aout = s.aout ∧
      t.atree = if trkDepth16 d then (s.atree.set lo low).set hi high else s.atree.set lo low := by
  have h1 := record_tree h hd hfl ha.left
  rw [hlo] at h1
  cases hw : trkDepth16 d with
  | false =>
    simp only [hw, Bool.false_eq_true, if_false, List.append_nil] at h1 ⊢
    exact ⟨_, h1, rfl, rfl, rfl⟩
  | true =>
    simp only [hw, if_true] at h1 ha ⊢
    have h2 := record_tree (s := ((s.setBs (s.bs.skip low.bits.length)).setAtree lo low).setWork
      (.audio k (.trees n hi .control))) rfl hd hfh (h1.ahead ha)
    rw [hhi hw] at h2
    exact ⟨_, h1.trans h2 ha.left, rfl, rfl, rfl⟩

/-- All trees of a record (30_encoding.md R114). -/
theorem record_trees {k : Fin 7} {n d : Word} {trees : RecordTrees} {s : State}
    (h : s.work = .audio k (.trees n 0 .control)) (hd : s.trk[k] = d) (hs : s.atree = Vector.replicate 4 .absent)
    (hu : trees.unusedAbsent (trkStereo d) (trkDepth16 d)) (hf : trees.fits s.params.smallNodesMax)
    (ha : s.Ahead (trees.bits (trkStereo d) (trkDepth16 d))) :
    ∃ t, RecordReads k (trees.bits (trkStereo d) (trkDepth16 d)) s t ∧
      t.work = .audio k (.init n []) ∧ t.aout = s.aout ∧
      t.atree = #v[trees.low0, trees.high0, trees.low1, trees.high1] := by
  obtain ⟨low0, high0, low1, high1⟩ := trees
  obtain ⟨hwide, hstereo⟩ := hu
  obtain ⟨hf0, hf0', hf1, hf1'⟩ := hf
  unfold RecordTrees.bits at ha ⊢
  dsimp only at hwide hstereo hf0 hf0' hf1 hf1' ha ⊢
  cases hst : trkStereo d with
  | false =>
    obtain ⟨rfl, rfl⟩ := hstereo hst
    simp only [hst, Bool.false_eq_true, if_false, List.append_nil] at ha ⊢
    obtain ⟨t, hr, hwork, haout, hatree⟩ := record_channel (hi := 1) (next := none) h hd
      (by simp only [nextTreeSlot, hst, Bool.false_eq_true, if_false])
      (fun _ => by simp only [nextTreeSlot, hst, Bool.false_eq_true, if_false]) hf0 hf0' ha
    refine ⟨t, hr, hwork, haout, ?_⟩
    rw [hatree, hs]
    cases hw : trkDepth16 d with
    | false =>
      obtain ⟨rfl, _⟩ := hwide hw
      rfl
    | true => rfl
  | true =>
    simp only [hst, if_true] at ha ⊢
    obtain ⟨t, hr, hwork, haout, hatree⟩ := record_channel (hi := 1) (next := some 2) h hd
      (by simp only [nextTreeSlot, hst, if_true]) (fun _ => by simp only [nextTreeSlot, hst, if_true]) hf0 hf0' ha.left
    have hp := hr.frame.params
    obtain ⟨u, hr', hwork', haout', hatree'⟩ := record_channel (hi := 3) (next := none) hwork
      (by rw [hr.frame.trk]; exact hd) rfl (fun _ => rfl) (by rwa [hp]) (by rwa [hp]) (hr.ahead ha)
    refine ⟨u, hr.trans hr' ha.left, hwork', haout'.trans haout, ?_⟩
    rw [hatree', hatree, hs]
    cases hw : trkDepth16 d with
    | false =>
      obtain ⟨rfl, rfl⟩ := hwide hw
      rfl
    | true => rfl

/-! #### Samples -/

theorem highByte_append_lowByte (v : Half) : highByte v ++ lowByte v = v := by
  apply BitVec.eq_of_getLsbD_eq
  intro i hi
  simp only [lowByte, highByte, BitVec.getLsbD_append, BitVec.getLsbD_extractLsb']
  by_cases h8 : i < 8
  · simp [h8]
  · have : i - 8 < 8 := by omega
    have e : 8 + (i - 8) = i := by omega
    simp [h8, this, e]

theorem setWidth_lowByte (v : Half) : v.setWidth 8 = lowByte v := by
  apply BitVec.eq_of_getLsbD_eq
  intro i hi
  simp [lowByte, hi]

theorem lowByte_setWidth (v : Byte) : lowByte (v.setWidth 16) = v := by
  rw [← setWidth_lowByte]
  exact BitVec.setWidth_setWidth_of_le v (by decide)

/-- The bytes of track `k` are these, from address 0 on (43_audio_dpcm.md R210). -/
def Emitted (k : Fin 7) (bytes : List Byte) (s : State) : Prop :=
  ∀ a, Memory.read outBlank s.aout[k] a = bytes[a]?

theorem sampleBytes_trkBytes (d : Word) (v : Half) : (sampleBytes (trkDepth16 d) v).length = trkBytes d := by
  rw [sampleBytes_length, trkBytes]

theorem frameBytes_trkFrame (d : Word) (v0 v1 : Half) :
    (frameBytes (trkStereo d) (trkDepth16 d) v0 v1).length = trkFrame d := by
  cases hst : trkStereo d with
  | false => simp [frameBytes, sampleBytes_trkBytes, trkFrame_mono hst]
  | true => simp [frameBytes, sampleBytes_trkBytes, trkFrame_stereo hst]

theorem recordBytes_length (d : Word) (frames : List (Half × Half)) : ∀ v0 v1 : Half,
    (recordBytes (trkStereo d) (trkDepth16 d) v0 v1 frames).length = trkFrame d * (frames.length + 1) := by
  induction frames with
  | nil => intro v0 v1; simp [recordBytes, frameBytes_trkFrame]
  | cons f frames ih =>
    intro v0 v1
    rw [recordBytes, List.length_append, frameBytes_trkFrame, ih, List.length_cons, Nat.mul_succ _ (frames.length + 1),
      Nat.add_comm]

/-- A sample written behind the output so far (43_audio_dpcm.md R210). -/
theorem Emitted.emitSample {k : Fin 7} {bytes : List Byte} {s : State} {d : Word} (h : Emitted k bytes s)
    (hd : s.trk[k] = d) (v : Half) :
    Emitted k (bytes ++ sampleBytes (trkDepth16 d) v) (emitSample k bytes.length v s) := by
  intro a
  subst hd
  rw [emitSample_read, List.getElem?_append, h a]
  have hl := sampleBytes_trkBytes s.trk[k] v
  by_cases h1 : a < bytes.length
  · rw [if_neg (by omega), if_pos h1]
  · by_cases h2 : a < bytes.length + trkBytes s.trk[k]
    · rw [if_pos ⟨by omega, h2⟩, if_neg h1]
    · rw [if_neg (by omega), if_neg h1, List.getElem?_eq_none (by omega), List.getElem?_eq_none (by omega)]

/-- Only the bytes of a sample matter to the samples after it (43_audio_dpcm.md R209). -/
theorem addSample_congr {wide : Bool} {p v : Half} (h : sampleBytes wide p = sampleBytes wide v) (d : Half) :
    addSample wide p d = addSample wide v d := by
  cases wide with
  | false =>
    have hl : lowByte p = lowByte v := by simpa [sampleBytes] using h
    simp only [addSample, Bool.false_eq_true, if_false, setWidth_lowByte, hl]
  | true =>
    obtain ⟨hl, hh⟩ : lowByte p = lowByte v ∧ highByte p = highByte v := by simpa [sampleBytes] using h
    rw [← highByte_append_lowByte p, ← highByte_append_lowByte v, hl, hh]

theorem recordBytes_congr {stereo wide : Bool} (frames : List (Half × Half)) : ∀ {p0 p1 v0 v1 : Half},
    sampleBytes wide p0 = sampleBytes wide v0 → (stereo = true → sampleBytes wide p1 = sampleBytes wide v1) →
    recordBytes stereo wide p0 p1 frames = recordBytes stereo wide v0 v1 frames := by
  have frame : ∀ {p0 p1 v0 v1 : Half}, sampleBytes wide p0 = sampleBytes wide v0 →
      (stereo = true → sampleBytes wide p1 = sampleBytes wide v1) →
      frameBytes stereo wide p0 p1 = frameBytes stereo wide v0 v1 := by
    intro p0 p1 v0 v1 h0 h1
    cases stereo with
    | false => simp [frameBytes, h0]
    | true => simp [frameBytes, h0, h1 rfl]
  induction frames with
  | nil => intro p0 p1 v0 v1 h0 h1; exact frame h0 h1
  | cons f frames ih =>
    intro p0 p1 v0 v1 h0 h1
    simp only [recordBytes]
    rw [frame h0 h1, ih (congrArg _ (addSample_congr h0 f.1)) fun hst => congrArg _ (addSample_congr (h1 hst) f.2)]

/-! #### Initial samples -/

theorem readBits_ahead {m : List Host.Cell} {b : BitStream} {bits rest : List Bool} (h : remaining m b = bits ++ rest) :
    readBits m bits.length b = .ok bits (b.skip bits.length) := by
  rw [readBits_eq, if_pos (remaining_after h).1, h, List.take_left]

/-- The engine holds an initial sample with the bytes the record codes (30_encoding.md R115). -/
theorem sampleBytes_initialSample (wide : Bool) (v : Half) :
    sampleBytes wide (initialSample wide (initBits wide v)) = sampleBytes wide v := by
  cases wide with
  | false =>
    simp only [sampleBytes, initialSample, initBits, Bool.false_eq_true, if_false, ofNat_ofBits_bitsOf,
      lowByte_setWidth]
  | true =>
    simp only [initialSample, initBits, if_true, ofNat_ofBits_bytes, ofNat_ofBits_bytes_div, highByte_append_lowByte]

theorem record_init {k : Fin 7} {n d : Word} {got : List Half} {v : Half} {s : State}
    (h : s.work = .audio k (.init n got)) (hd : s.trk[k] = d) (ha : s.Ahead (initBits (trkDepth16 d) v)) :
    RecordReads k (initBits (trkDepth16 d) v) s
      (dpcmInitial k n got (initialSample (trkDepth16 d) (initBits (trkDepth16 d) v))
        (s.setBs (s.bs.skip (initBits (trkDepth16 d) v).length))) := by
  subst hd
  obtain ⟨rest, hr⟩ := State.ahead_iff.1 ha
  have hlen : (initBits (trkDepth16 s.trk[k]) v).length = 8 * trkBytes s.trk[k] := by
    cases hw : trkDepth16 s.trk[k] <;> simp only [initBits, trkBytes, hw] <;> rfl
  obtain ⟨hf, hbs, _⟩ := dpcmInitial_cases k n got
    (initialSample (trkDepth16 s.trk[k]) (initBits (trkDepth16 s.trk[k]) v))
    (s.setBs (s.bs.skip (initBits (trkDepth16 s.trk[k]) v).length))
  refine ⟨.step (by rw [h]; nofun) ?_, hbs, (AudioFrame.setBs k s _).trans hf, dpcmInitial_log _ _ _ _ _⟩
  rw [engineStep_init h, ← hlen, readBits_ahead hr]

/-- `t` is `s` with one more sample frame behind the output so far (43_audio_dpcm.md R208, R210). -/
structure FrameAdded (k : Fin 7) (bytes : List Byte) (v0 v1 : Half) (s t : State) : Prop where
  emitted : Emitted k (bytes ++ frameBytes (trkStereo s.trk[k]) (trkDepth16 s.trk[k]) v0 v1) t
  trk : t.trk = s.trk
  atree : t.atree = s.atree

theorem frameAdded_mono {k : Fin 7} {bytes : List Byte} {s : State} (h : Emitted k bytes s)
    (hst : trkStereo s.trk[k] = false) (v0 v1 : Half) :
    FrameAdded k bytes v0 v1 s (emitSample k bytes.length v0 s) := by
  refine ⟨?_, emitSample_trk _ _ _ _, emitSample_atree _ _ _ _⟩
  rw [hst, frameBytes, if_neg nofun, List.append_nil]
  exact h.emitSample rfl v0

/-- The position may move between the two samples. -/
theorem frameAdded_stereo {k : Fin 7} {bytes : List Byte} {s : State} (h : Emitted k bytes s)
    (hst : trkStereo s.trk[k] = true) (v0 v1 : Half) (b : BitStream) :
    FrameAdded k bytes v0 v1 s
      (emitSample k (bytes.length + trkBytes s.trk[k]) v1 ((emitSample k bytes.length v0 s).setBs b)) := by
  have htrk : ((emitSample k bytes.length v0 s).setBs b).trk = s.trk := emitSample_trk _ _ _ _
  have hatree : ((emitSample k bytes.length v0 s).setBs b).atree = s.atree := emitSample_atree _ _ _ _
  refine ⟨?_, by rw [emitSample_trk, htrk], by rw [emitSample_atree, hatree]⟩
  have h0 : Emitted k _ ((emitSample k bytes.length v0 s).setBs b) := h.emitSample rfl v0
  have h1 := h0.emitSample (congrArg (·[k]) htrk) v1
  rw [List.length_append, sampleBytes_trkBytes, List.append_assoc] at h1
  rw [hst, frameBytes, if_pos rfl]
  exact h1

theorem frameAdded_initials {k : Fin 7} {d : Word} {s : State} (h : Emitted k [] s) (hd : s.trk[k] = d)
    (hst : trkStereo d = true) (v0 v1 : Half) :
    FrameAdded k [] v0 v1 s (emitSample k (trkBytes d) v1 (emitSample k 0 v0 s)) := by
  subst hd
  have hf := frameAdded_stereo h hst v0 v1 (emitSample k 0 v0 s).bs
  rwa [List.length_nil, Nat.zero_add, State.setBs_self] at hf

theorem FrameAdded.of_eq {k : Fin 7} {bytes : List Byte} {v0 v1 : Half} {s s' t : State}
    (h : FrameAdded k bytes v0 v1 s' t) (htrk : s'.trk = s.trk) (hatree : s'.atree = s.atree) :
    FrameAdded k bytes v0 v1 s t :=
  ⟨htrk ▸ h.emitted, h.trk.trans htrk, h.atree.trans hatree⟩

/-- The initial samples of a record, channel 1's first, are its first frame (43_audio_dpcm.md R207): `p0` and `p1`, the
samples the deltas start from, have the bytes of those the record codes. -/
theorem record_inits {k : Fin 7} {n d : Word} {v0 v1 : Half} {s : State} (h : s.work = .audio k (.init n []))
    (hd : s.trk[k] = d) (he : Emitted k [] s)
    (ha : s.Ahead ((if trkStereo d then initBits (trkDepth16 d) v1 else []) ++ initBits (trkDepth16 d) v0)) :
    ∃ t p0 p1, RecordReads k ((if trkStereo d then initBits (trkDepth16 d) v1 else []) ++ initBits (trkDepth16 d) v0) s
        (audioNext k n (trkFrame d) p0 p1 t) ∧
      FrameAdded k [] p0 p1 s t ∧
      sampleBytes (trkDepth16 d) p0 = sampleBytes (trkDepth16 d) v0 ∧
      (trkStereo d = true → sampleBytes (trkDepth16 d) p1 = sampleBytes (trkDepth16 d) v1) := by
  have hb := sampleBytes_initialSample (trkDepth16 d)
  cases hst : trkStereo d with
  | false =>
    simp only [hst, Bool.false_eq_true, if_false, List.nil_append] at ha ⊢
    have hr := record_init h hd ha
    simp only [dpcmInitial, State.setBs_trk, hd, hst, ← trkFrame_mono hst] at hr
    refine ⟨_, _, _, hr, (frameAdded_mono ?_ ?_ _ _).of_eq rfl rfl, hb v0, nofun⟩
    · exact he
    · rw [State.setBs_trk, hd, hst]
  | true =>
    simp only [hst, if_true] at ha ⊢
    have hr1 := record_init h hd ha.left
    simp only [dpcmInitial, State.setBs_trk, hd, hst] at hr1
    have hr0 := record_init (d := d) rfl (by exact hd) (hr1.ahead ha)
    have hr := hr1.trans hr0 ha.left
    simp only [dpcmInitial, State.setBs_trk, State.setWork_trk, hd, hst, ← trkFrame_stereo hst] at hr
    exact ⟨_, _, _, hr, (frameAdded_initials (by exact he) (by exact hd) hst _ _).of_eq rfl rfl, hb v0,
      fun _ => hb v1⟩

/-! #### Deltas -/

theorem readDelta_code {k : Fin 7} {lo hi : Fin 4} {low high : SmallTree} {bits : List Bool} {δ : Half} {d : Word}
    {s : State} (hd : s.trk[k] = d) (hlo : s.atree[lo] = low) (hhi : s.atree[hi] = high)
    (hc : DeltaCode (trkDepth16 d) low high bits δ) (ha : s.Ahead bits) :
    readDelta k lo hi s = .ok δ (s.setBs (s.bs.skip bits.length)) := by
  obtain ⟨rest, hr⟩ := State.ahead_iff.1 ha
  subst hd
  simp only [readDelta, ops_bind, ops_get]
  generalize hw : trkDepth16 s.trk[k] = wide at hc
  cases hc with
  | narrow hl =>
    rw [hlo, reading_ok (stLookup_code hl hr)]
    dsimp only
    simp only [Bool.false_eq_true, if_false, ops_pure]
  | wide hl hh =>
    rw [List.append_assoc] at hr
    obtain ⟨h1, hr1⟩ := remaining_after hr
    rw [hlo, hhi, reading_ok (stLookup_code hl hr)]
    dsimp only
    simp only [if_true, ops_bind]
    rw [reading_ok (s := s.setBs _) (stLookup_code hh hr1)]
    simp only [ops_pure, State.setBs_setBs, BitStream.skip_skip h1, List.length_append]

theorem deltaSample_code {k : Fin 7} {lo hi : Fin 4} {low high : SmallTree} {bits : List Bool} {δ prev : Half}
    {d : Word} {out : Nat} {s : State} (hd : s.trk[k] = d) (hlo : s.atree[lo] = low) (hhi : s.atree[hi] = high)
    (hc : DeltaCode (trkDepth16 d) low high bits δ) (ha : s.Ahead bits) :
    deltaSample k lo hi prev out s = .ok (addSample (trkDepth16 d) prev δ)
      (emitSample k out (addSample (trkDepth16 d) prev δ) (s.setBs (s.bs.skip bits.length))) := by
  simp only [deltaSample, ops_bind, readDelta_code hd hlo hhi hc ha, ops_get, ops_set, ops_pure, State.setBs_trk, hd]

/-- A frame of deltas that ends in `t`, with nothing but the position and the output changed, is a step of the loop. -/
theorem record_frame_of {k : Fin 7} {n : Word} {out out' : Nat} {p0 p1 q0 q1 : Half} {bits : List Bool} {s t : State}
    (h : s.work = .audio k (.deltas n out p0 p1))
    (hs : deltaFrame k n out p0 p1 s = .ok () (audioNext k n out' q0 q1 t)) (hb : t.bs = s.bs.skip bits.length)
    (hf : AudioFrame k s t) (hl : t.log = s.log) : RecordReads k bits s (audioNext k n out' q0 q1 t) where
  leads := .step (by rw [h]; nofun) (by rw [engineStep_deltas h]; exact perform_ok hs)
  bs := by rw [audioNext_bs, hb]
  frame := hf.trans (audioFrame_audioNext k n _ _ _ _)
  log := by rw [audioNext_log, hl]

/-- One frame of deltas (43_audio_dpcm.md R208): the samples before it plus the deltas are written behind the output. -/
theorem record_frame {k : Fin 7} {n d : Word} {trees : RecordTrees} {bytes : List Byte} {p0 p1 δ0 δ1 : Half}
    {bits : List Bool} {s : State} (h : s.work = .audio k (.deltas n bytes.length p0 p1)) (hd : s.trk[k] = d)
    (hs : s.atree = #v[trees.low0, trees.high0, trees.low1, trees.high1]) (he : Emitted k bytes s)
    (hc : FrameCodes (trkStereo d) (trkDepth16 d) trees [(δ0, δ1)] bits) (ha : s.Ahead bits) :
    ∃ t q1, RecordReads k bits s (audioNext k n (bytes.length + trkFrame d) (addSample (trkDepth16 d) p0 δ0) q1 t) ∧
      FrameAdded k bytes (addSample (trkDepth16 d) p0 δ0) q1 s t ∧
      (trkStereo d = true → q1 = addSample (trkDepth16 d) p1 δ1) := by
  cases hc with
  | @mono _ _ bits _ _ hst hc hnil =>
    cases hnil
    rw [List.append_nil] at ha ⊢
    have h0 := deltaSample_code (lo := 0) (hi := 1) (out := bytes.length) (prev := p0) hd (by rw [hs]; rfl)
      (by rw [hs]; rfl) hc ha
    have hf := (AudioFrame.setBs k s (s.bs.skip bits.length)).trans
      (audioFrame_emitSample k bytes.length (addSample (trkDepth16 d) p0 δ0) _)
    refine ⟨_, p1, record_frame_of h ?_ ?_ hf ?_,
      (frameAdded_mono (s := s.setBs (s.bs.skip bits.length)) he ?_ _ _).of_eq rfl rfl, ?_⟩
    · simp only [deltaFrame, ops_bind, ops_get, hd, h0, hst, Bool.false_eq_true, if_false, ops_modify,
        trkFrame_mono hst]
    · rw [emitSample_bs, State.setBs_bs]
    · rw [emitSample_log, State.setBs_log]
    · rw [State.setBs_trk, hd, hst]
    · rw [hst]
      nofun
  | @stereo _ _ bits0 bits1 _ _ hst hc0 hc1 hnil =>
    cases hnil
    rw [List.append_nil] at ha ⊢
    have h0 := deltaSample_code (lo := 0) (hi := 1) (out := bytes.length) (prev := p0) hd (by rw [hs]; rfl)
      (by rw [hs]; rfl) hc0 ha.left
    have hf0 := (AudioFrame.setBs k s (s.bs.skip bits0.length)).trans
      (audioFrame_emitSample k bytes.length (addSample (trkDepth16 d) p0 δ0) _)
    have hadd := fun v1 b => frameAdded_stereo (s := s.setBs (s.bs.skip bits0.length)) he
      (by rw [State.setBs_trk, hd, hst]) (addSample (trkDepth16 d) p0 δ0) v1 b
    generalize hs1 : emitSample k bytes.length (addSample (trkDepth16 d) p0 δ0) (s.setBs (s.bs.skip bits0.length)) = s1
      at h0 hf0 hadd
    have hd1 : s1.trk[k] = d := by rw [hf0.trk]; exact hd
    have hatree1 : s1.atree = #v[trees.low0, trees.high0, trees.low1, trees.high1] := by
      rw [← hs1, emitSample_atree]
      exact hs
    have hb1 : s1.bs = s.bs.skip bits0.length := by rw [← hs1, emitSample_bs, State.setBs_bs]
    have hl1 : s1.log = s.log := by rw [← hs1, emitSample_log, State.setBs_log]
    obtain ⟨rest, hr⟩ := State.ahead_iff.1 ha
    rw [List.append_assoc] at hr
    obtain ⟨hle, hr1⟩ := remaining_after hr
    have ha1 : s1.Ahead bits1 := State.ahead_iff.2 ⟨rest, by rw [hf0.inMem, hb1, hr1]⟩
    have h1 := deltaSample_code (lo := 2) (hi := 3) (out := bytes.length + trkBytes d) (prev := p1) hd1
      (by rw [hatree1]; rfl) (by rw [hatree1]; rfl) hc1 ha1
    simp only [State.setBs_trk, hd] at hadd
    refine ⟨_, _, record_frame_of h ?_ ?_ ((hf0.trans (.setBs k _ (s1.bs.skip bits1.length))).trans
      (audioFrame_emitSample k _ _ _)) ?_, (hadd (addSample (trkDepth16 d) p1 δ1) _).of_eq rfl rfl, fun _ => rfl⟩
    · simp only [deltaFrame, ops_bind, ops_get, hd, h0, h1, hst, if_true, ops_modify, trkFrame_stereo hst,
        Nat.add_assoc]
    · rw [emitSample_bs, State.setBs_bs, hb1, BitStream.skip_skip hle, List.length_append]
    · rw [emitSample_log, State.setBs_log, hl1]

theorem frameCodes_cons {stereo wide : Bool} {trees : RecordTrees} {f : Half × Half} {frames : List (Half × Half)}
    {codes : List Bool} (h : FrameCodes stereo wide trees (f :: frames) codes) :
    ∃ bits rest, codes = bits ++ rest ∧ FrameCodes stereo wide trees [f] bits ∧
      FrameCodes stereo wide trees frames rest := by
  cases h with
  | mono hst hc hrest => exact ⟨_, _, rfl, by simpa using FrameCodes.mono hst hc .nil, hrest⟩
  | stereo hst hc0 hc1 hrest => exact ⟨_, _, rfl, by simpa using FrameCodes.stereo hst hc0 hc1 .nil, hrest⟩

/-- The delta loop (43_audio_dpcm.md R208): after the frame of `p0` and `p1` come the frames of the deltas, and the last one
completes the record. -/
theorem record_deltas {k : Fin 7} {n d : Word} {trees : RecordTrees} (frames : List (Half × Half)) :
    ∀ {codes : List Bool} {bytes : List Byte} {p0 p1 : Half} {s : State}, s.trk[k] = d →
      s.atree = #v[trees.low0, trees.high0, trees.low1, trees.high1] →
      FrameCodes (trkStereo d) (trkDepth16 d) trees frames codes →
      Emitted k (bytes ++ frameBytes (trkStereo d) (trkDepth16 d) p0 p1) s →
      n.toNat = bytes.length + trkFrame d * (frames.length + 1) →
      (audioNext k n (bytes.length + trkFrame d) p0 p1 s).Ahead codes →
      ∃ u, RecordReads k codes (audioNext k n (bytes.length + trkFrame d) p0 p1 s) u ∧ u.work = .idle ∧
        u.atree = s.atree ∧ u.aoutLen[k] = n ∧
        Emitted k (bytes ++ recordBytes (trkStereo d) (trkDepth16 d) p0 p1 frames) u := by
  induction frames with
  | nil =>
    intro codes bytes p0 p1 s hd hs hc he hn ha
    cases hc
    have hend : audioNext k n (bytes.length + trkFrame d) p0 p1 s = (s.setAoutLen k n).setWork .idle :=
      if_neg (by simp at hn; omega)
    rw [hend]
    exact ⟨_, .refl k _, rfl, rfl, by simp, he⟩
  | cons f frames ih =>
    intro codes bytes p0 p1 s hd hs hc he hn ha
    obtain ⟨bits, rest, rfl, hc1, hcs⟩ := frameCodes_cons hc
    obtain ⟨δ0, δ1⟩ := f
    have hpos := trkFrame_pos d
    have hlen : (bytes ++ frameBytes (trkStereo d) (trkDepth16 d) p0 p1).length = bytes.length + trkFrame d := by
      rw [List.length_append, frameBytes_trkFrame]
    rw [List.length_cons, Nat.mul_succ] at hn
    have hgo : audioNext k n (bytes.length + trkFrame d) p0 p1 s =
        s.setWork (.audio k (.deltas n (bytes.length + trkFrame d) p0 p1)) :=
      if_pos (by rw [Nat.mul_succ] at hn; omega)
    rw [hgo, ← hlen] at ha ⊢
    obtain ⟨t, q1, hr, hadd, hq⟩ := record_frame rfl (by exact hd) (by exact hs) (by exact he) hc1 ha.left
    have htrk : t.trk[k] = d := by rw [hadd.trk]; exact hd
    have hadd' := hadd.emitted
    rw [State.setWork_trk, hd] at hadd'
    obtain ⟨u, hu, hidle, hatree, hout, hemit⟩ := ih htrk (by rw [hadd.atree]; exact hs) hcs hadd'
      (by rw [hlen]; omega) (hr.ahead ha)
    refine ⟨u, hr.trans hu ha.left, hidle, by rw [hatree, hadd.atree]; rfl, hout, ?_⟩
    rw [recordBytes, ← List.append_assoc]
    rwa [recordBytes_congr frames rfl fun hst => congrArg _ (hq hst)] at hemit

/-! ### The whole command -/

/-- Step 1 of a record that holds the length `n` (43_audio_dpcm.md R202). -/
theorem record_length {k : Fin 7} {n : Word} {s : State} (h : s.work = .audio k .length) (h4 : 4 ≤ s.arg1.toNat)
    (hn : lengthBits s.inMem s.arg0.toNat = bitsOf n) :
    Leads s (((s.openWindow (s.arg0 + 4) (s.arg1 - 4)).clearAtree).setWork (.audio k (.header n))) := by
  have hrec : recordLength s = n := by rw [recordLength, hn, ofNat_ofBits_bitsOf]
  refine .step (by rw [h]; nofun) ?_
  rw [engineStep_length h, if_neg (by omega), hrec]

/-- From the header on, a record that codes its samples completes with them as its output (43_audio_dpcm.md R203 to R210). -/
theorem record_reads {k : Fin 7} {n d : Word} {trees : RecordTrees} {v0 v1 : Half} {frames : List (Half × Half)}
    {codes : List Bool} {s : State} (h : s.work = .audio k (.header n)) (hd : s.trk[k] = d)
    (hs : s.atree = Vector.replicate 4 .absent) (he : Emitted k [] s) (hm : within s.params.aoutMax n.toNat = true)
    (hu : trees.unusedAbsent (trkStereo d) (trkDepth16 d)) (hf : trees.fits s.params.smallNodesMax)
    (hc : FrameCodes (trkStereo d) (trkDepth16 d) trees frames codes)
    (hn : n.toNat = (recordBytes (trkStereo d) (trkDepth16 d) v0 v1 frames).length)
    (ha : s.Ahead ([true, trkStereo d, trkDepth16 d] ++ trees.bits (trkStereo d) (trkDepth16 d) ++
      (if trkStereo d then initBits (trkDepth16 d) v1 else []) ++ initBits (trkDepth16 d) v0 ++ codes)) :
    ∃ u, RecordReads k ([true, trkStereo d, trkDepth16 d] ++ trees.bits (trkStereo d) (trkDepth16 d) ++
        (if trkStereo d then initBits (trkDepth16 d) v1 else []) ++ initBits (trkDepth16 d) v0 ++ codes) s u ∧
      u.work = .idle ∧ u.atree = #v[trees.low0, trees.high0, trees.low1, trees.high1] ∧ u.aoutLen[k] = n ∧
      Emitted k (recordBytes (trkStereo d) (trkDepth16 d) v0 v1 frames) u := by
  rw [recordBytes_length] at hn
  have hgood : badLength s k n = false := by
    refine badLength_eq_false.2 ⟨?_, ?_, hm⟩ <;> rw [hd, hn]
    · exact Nat.le_mul_of_pos_right _ (Nat.succ_pos _)
    · exact Nat.dvd_mul_right _ _
  simp only [List.append_assoc] at ha ⊢
  -- The header.
  have hr1 := record_header h hd hgood ha.left
  have ha1 := hr1.ahead ha
  -- The trees.
  obtain ⟨s2, hr2, hw2, haout2, hatree2⟩ := record_trees
    (s := (s.setBs (s.bs.skip 3)).setWork (.audio k (.trees n 0 .control))) rfl hd hs hu hf ha1.left
  have htrk2 : s2.trk[k] = d := by rw [hr2.frame.trk]; exact hd
  have he2 : Emitted k [] s2 := by
    unfold Emitted
    rw [haout2]
    exact he
  have ha2 := hr2.ahead ha1
  -- The initial samples.
  rw [← List.append_assoc] at ha2
  obtain ⟨s3, p0, p1, hr3, hadd, hp0, hp1⟩ := record_inits hw2 htrk2 he2 ha2.left
  have htrk3 : s3.trk[k] = d := by rw [hadd.trk]; exact htrk2
  have hadd' := hadd.emitted
  rw [htrk2] at hadd'
  have ha3 := hr3.ahead ha2
  -- The deltas.
  obtain ⟨u, hr4, hidle, hatree, hout, hemit⟩ := record_deltas (bytes := []) frames htrk3
    (by rw [hadd.atree, hatree2]) hc hadd' (by simpa using hn) (by simpa using ha3)
  rw [List.length_nil, Nat.zero_add] at hr4
  have hr := hr1.trans (hr2.trans (hr3.trans hr4 ha2.left) ha1.left) ha.left
  simp only [List.append_assoc] at hr
  refine ⟨u, hr, hidle, by rw [hatree, hadd.atree, hatree2], hout, ?_⟩
  rwa [List.nil_append, recordBytes_congr frames hp0 hp1] at hemit

theorem emitted_recordStarted (k : Fin 7) (s : State) : Emitted k [] (recordStarted k s) := by
  intro a
  have h : (recordStarted k s).aout[k] = [] := s.setTrack_aout k 0 []
  rw [h]
  rfl

/-- Settles O37: the command starts the record, reads its length, and the rest of the record completes it. -/
theorem dpcmRecordDecodes : Obligations.DpcmRecordDecodes := by
  unfold Obligations.DpcmRecordDecodes
  intro s k n trees v0 v1 frames codes stereo wide hk hw h4 hex hv hcomp hlen hm hu hf hc hn ha
  have hstart := audDecodeStart_ok (s := startCommand 0x40 s) hk hw hex hv hcomp
  have hl := record_length (s := recordStarted k (startCommand 0x40 s)) rfl h4 hlen
  obtain ⟨u, hr, hidle, hatree, hout, hemit⟩ := record_reads (d := s.trk[k])
    (s := (((recordStarted k (startCommand 0x40 s)).openWindow (s.arg0 + 4) (s.arg1 - 4)).clearAtree).setWork
      (.audio k (.header n))) rfl rfl rfl (emitted_recordStarted k _) hm hu hf hc hn ha
  refine ⟨u, u.aout[k], streamCommand_of_leads hstart (cursorInFrame_of_ne nofun) (hl.trans hr.leads) hidle, ?_, ?_⟩
  · have hframe := hr.frame
    unfold AudioFrame at hframe
    rw [hidle, hr.bs, hatree, hout, hr.log] at hframe
    have haout : (s.aout.set k []).set k u.aout[k] = s.aout.set k u.aout[k] := Vector.set_set ..
    have haoutLen : (s.aoutLen.set k 0).set k n = s.aoutLen.set k n := Vector.set_set ..
    rw [← haout, ← haoutLen]
    exact hframe
  · intro a
    unfold hostReadAout
    rw [hout, hemit a]
    split
    · rfl
    · rw [List.getElem?_eq_none]
      omega

end Sys2Proof.Machine
end

section
/-! The bitstream commands (40_bitstream.md R130 to R136) and the step that reads a token from the stream
(30_encoding.md R90). -/

-- The package is compiled as one text: elaborating in order keeps the number of threads small.
set_option Elab.async false

namespace Sys2Proof.Machine

open Sys2Proof Sys2Proof.Config

/-! ### Fetching an instruction whose bits are ahead -/

/-- No instruction is longer than a DPCM length (30_encoding.md R90 to R116). -/
theorem encode_length_le (f : Format) (i : Instr) : (encode f i).length ≤ 32 := by
  cases i
  case full p r => by_cases hf : f = .typeWord true <;> simp [encode, hf]
  all_goals simp [encode, commandCode]

/-- The fetch takes exactly the bits that complete an instruction (30_encoding.md R90). -/
theorem fetchBits_ahead {f : Format} {i : Instr} {bits rest : List Bool} :
    ∀ {fuel : Nat} {acc : List Bool} {s : State}, decode f (acc ++ bits) = .instr i →
      remaining s.inMem s.bs = bits ++ rest → (acc ≠ [] ∨ nodeRoom s = true) → bits.length < fuel →
      fetchBits f fuel acc s = .ok i (s.setBs (s.bs.skip bits.length)) := by
  induction bits with
  | nil =>
    intro fuel acc s hd _ _ hf
    obtain ⟨n, rfl⟩ := Nat.exists_eq_add_one_of_ne_zero (Nat.ne_of_gt hf)
    rw [List.append_nil] at hd
    rw [fetchBits_instr hd, List.length_nil, BitStream.skip_zero]
    rfl
  | cons v bits ih =>
    intro fuel acc s hd hr hroom hf
    obtain ⟨n, rfl⟩ := Nat.exists_eq_add_one_of_ne_zero (Nat.ne_of_gt (Nat.zero_lt_of_lt hf))
    obtain ⟨h1, hrest⟩ := remaining_after_cons hr
    rw [fetchBits_more (decode_longer hd), readBit_cons hr]
    dsimp only
    rw [ops_bind, tagCheck_ok (s := s.setBs (s.bs.skip 1)) hroom]
    dsimp only
    rw [ih (by rwa [List.append_assoc]) (s := s.setBs (s.bs.skip 1)) hrest (.inl (by simp))
      (by rw [List.length_cons] at hf; omega)]
    rw [State.setBs_setBs, State.setBs_bs, BitStream.skip_skip h1, List.length_cons, Nat.add_comm 1]

/-- Settles O9: the token decodes after the last of its bits, and not before. -/
theorem stepRunsToken : Obligations.StepRunsToken := by
  unfold Obligations.StepRunsToken
  intro s f i hf ht hn hwf ha hroom
  obtain ⟨rest, hrest⟩ := State.ahead_iff.1 ha
  have hfetch : fetchToken f s = .ok i (s.setBs (s.bs.skip (encode f i).length)) := by
    rw [fetchToken_stream ht hn]
    exact fetchBits_ahead (decode_encode hwf) hrest (.inr hroom) (Nat.lt_succ_of_le (encode_length_le f i))
  rw [step_running (wantedFormat_running hf), ← engineStep_exec]
  exact engineStep_ok hf hfetch

/-! ### A command that reads a value into RESULT -/

section
variable {α : Type} {r : List Host.Cell → Reader α} {s : State} {b : BitStream}

/-- The read succeeds: the position it leaves, and its value in RESULT (46_system.md R280). -/
theorem command_read_ok {a : α} (code : Byte) (g : α → Half) (h : r s.inMem s.bs = .ok a b) :
    command code (reading r >>= fun x => putResult (g x)) s =
      .next { s with bs := b, result := g a, cmd := code, status := statusWord code 0, work := .idle } := by
  refine command_ok ?_
  rw [ops_bind, reading_ok (s := startCommand code s) h]
  rfl

/-- The read faults: the position it leaves, and RESULT as it was (60_exceptions.md R294). -/
theorem command_read_error {c : Cause} (code : Byte) (g : α → Half) (h : r s.inMem s.bs = .error c b) :
    command code (reading r >>= fun x => putResult (g x)) s = .next ((s.setBs b).faulted code c) := by
  have hread : (reading r >>= fun x => putResult (g x)) (startCommand code s) =
      .error c (startCommand code (s.setBs b)) := by
    rw [ops_bind, reading_error (s := startCommand code s) h]
    rfl
  rw [command_error hread, raiseFault_start]

end

/-! ### BS_OPEN -/

/-- A window inside `IN` is opened (40_bitstream.md R132). -/
theorem bsOpen_legal {s : State} (h : windowLegal s s.arg0 s.arg1 = true) :
    execBsOpen s = .next ((startCommand 0x10 s).openWindow s.arg0 s.arg1) := by
  have hl : windowLegal (startCommand 0x10 s) (startCommand 0x10 s).arg0 (startCommand 0x10 s).arg1 = true := h
  refine command_ok ?_
  simp only [bsOpenRule, ops_bind, ops_get]
  rw [if_pos hl]
  rfl

/-- A window that leaves `IN` is refused, before anything changes (40_bitstream.md R132). -/
theorem bsOpen_illegal {s : State} (h : ¬ windowLegal s s.arg0 s.arg1 = true) :
    execBsOpen s = .next (s.faulted 0x10 .window) := by
  have hl : ¬ windowLegal (startCommand 0x10 s) (startCommand 0x10 s).arg0 (startCommand 0x10 s).arg1 = true := h
  refine command_faulted ?_
  simp only [bsOpenRule, ops_bind, ops_get]
  rw [if_neg hl]
  rfl

/-- Settles O13: the two outcomes of the check of the window. -/
theorem bsOpenResult : Obligations.BsOpenResult := by
  unfold Obligations.BsOpenResult
  intro s
  refine ⟨fun hin => bsOpen_legal (windowLegal_iff.2 hin), fun hout => bsOpen_illegal fun hl => ?_⟩
  exact Nat.not_le_of_gt hout (windowLegal_iff.1 hl)

/-! ### BS_READ_BIT -/

/-- `read_bit()` below the end of the window (40_bitstream.md R130). -/
theorem readBit_below {m : List Host.Cell} {b : BitStream} (h : b.bytePos < b.size) :
    readBit m b = .ok (b.bitAt m) b.advance := if_neg (BitVec.not_le.2 h)

/-- `read_bit()` at the end of the window (40_bitstream.md R130). -/
theorem readBit_end {m : List Host.Cell} {b : BitStream} (h : b.size ≤ b.bytePos) :
    readBit m b = .error .exhausted b := if_pos h

/-- Settles O14: the two outcomes of reading a bit. -/
theorem bsReadBitResult : Obligations.BsReadBitResult := by
  unfold Obligations.BsReadBitResult
  exact fun s => ⟨fun h => command_read_ok 0x11 (fun v : Bool => if v then 1 else 0) (readBit_below h),
    fun h => command_read_error 0x11 (fun v : Bool => if v then 1 else 0) (readBit_end h)⟩

/-! ### The position after several bits -/

/-- Registers of the same window are told apart by their offset. -/
theorem BitStream.skip_eq {b c : BitStream} {k : Nat} (hbase : c.base = b.base) (hsize : c.size = b.size)
    (ho : b.offset + k = c.offset) : b.skip k = c := by
  rw [← BitStream.skip_of_offset ho, hbase, hsize]
  rfl

/-- Eight bits are a byte, and the bit position stays (40_bitstream.md R131). -/
theorem BitStream.skip_eight {b : BitStream} (h : 8 ≤ b.left) : b.skip 8 = { b with bytePos := b.bytePos + 1 } := by
  have hsize := b.size.isLt
  have hbyte : (b.bytePos + 1).toNat = b.bytePos.toNat + 1 := by
    unfold BitStream.left BitStream.offset at h
    exact BitVec.toNat_add_of_lt (show b.bytePos.toNat + 1 < 2 ^ 32 by omega)
  refine BitStream.skip_eq rfl rfl ?_
  simp only [BitStream.offset, hbyte]
  omega

/-- In a legal state the position is within the window (10_state.md R21). -/
theorem BitsWf.offset_le {s : State} (h : BitsWf s) : s.bs.offset ≤ 8 * s.bs.size.toNat := by
  obtain ⟨hpos, hend, -⟩ := h
  rw [BitVec.le_def] at hpos
  have hbit := s.bs.bitPos.isLt
  unfold BitStream.offset
  by_cases he : s.bs.bytePos = s.bs.size
  · rw [hend he, he]
    exact Nat.le_refl _
  · have := BitVec.toNat_ne.1 he
    omega

/-- When every bit is consumed, the position is the end of the window (40_bitstream.md R131). -/
theorem BitStream.skip_left {b : BitStream} (h : b.offset ≤ 8 * b.size.toNat) :
    b.skip b.left = { b with bytePos := b.size, bitPos := 0 } :=
  BitStream.skip_eq rfl rfl (Nat.add_sub_cancel' h)

/-! ### BS_READ_BYTE -/

/-- The byte straddling the position: the upper bits of one byte of `IN` below the lower bits of the next
(20_memory.md R63). -/
def straddlingByte (m : List Host.Cell) (b : BitStream) : Byte :=
  (inRead m (b.base.toNat + b.bytePos.toNat) >>> b.bitPos.toNat) |||
    (inRead m (b.base.toNat + b.bytePos.toNat + 1) <<< (8 - b.bitPos.toNat))

/-- Its bits are the next eight of the window. -/
theorem straddlingByte_getLsbD (m : List Host.Cell) (b : BitStream) {j : Nat} (hj : j < 8) :
    (straddlingByte m b).getLsbD j = windowBit m b (b.offset + j) := by
  have hbit := b.bitPos.isLt
  unfold straddlingByte windowBit BitStream.offset
  rw [BitVec.getLsbD_or, BitVec.getLsbD_ushiftRight, BitVec.getLsbD_shiftLeft]
  by_cases hk : b.bitPos.toNat + j < 8
  · have hlow : j < 8 - b.bitPos.toNat := by omega
    have hdiv : (8 * b.bytePos.toNat + b.bitPos.toNat + j) / 8 = b.bytePos.toNat := by omega
    have hmod : (8 * b.bytePos.toNat + b.bitPos.toNat + j) % 8 = b.bitPos.toNat + j := by omega
    simp [hdiv, hmod, hlow]
  · have hhigh : ¬ j < 8 - b.bitPos.toNat := by omega
    have hdiv : (8 * b.bytePos.toNat + b.bitPos.toNat + j) / 8 = b.bytePos.toNat + 1 := by omega
    have hmod : (8 * b.bytePos.toNat + b.bitPos.toNat + j) % 8 = j - (8 - b.bitPos.toNat) := by omega
    have hover : (inRead m (b.base.toNat + b.bytePos.toNat)).getLsbD (b.bitPos.toNat + j) = false :=
      BitVec.getLsbD_of_ge _ _ (by omega)
    rw [hdiv, hmod, hover, ← Nat.add_assoc]
    simp [hhigh, hj]

theorem bitsOf_getElem {w : Nat} (v : BitVec w) {j : Nat} (h : j < (bitsOf v).length) : (bitsOf v)[j] = v.getLsbD j :=
  (natBits_getElem w v.toNat j h).trans (BitVec.testBit_toNat v)

/-- The next eight bits are those of the straddling byte (20_memory.md R63). -/
theorem remaining_take_eight {m : List Host.Cell} {b : BitStream} (h : 8 ≤ b.left) :
    (remaining m b).take 8 = bitsOf (straddlingByte m b) := by
  refine List.ext_getElem (by simp [h]) fun j hj hj' => ?_
  have hj8 : j < 8 := by simpa using hj'
  rw [bitsOf_getElem, straddlingByte_getLsbD m b hj8]
  simp [remaining]

/-- `read_byte()` with a byte left (40_bitstream.md R131). -/
theorem readByte_straddling {m : List Host.Cell} {b : BitStream} (h : 8 ≤ b.left) :
    readByte m b = .ok (straddlingByte m b) { b with bytePos := b.bytePos + 1 } := by
  rw [readByte_eq, if_pos h, remaining_take_eight h, ofNat_ofBits_bitsOf, BitStream.skip_eight h]

/-- `read_byte()` with less than a byte left (40_bitstream.md R131). -/
theorem readByte_exhausted {m : List Host.Cell} {b : BitStream} (ho : b.offset ≤ 8 * b.size.toNat) (h : b.left < 8) :
    readByte m b = .error .exhausted { b with bytePos := b.size, bitPos := 0 } := by
  rw [readByte_eq, if_neg (Nat.not_le_of_gt h), BitStream.skip_left ho]

/-- Settles O15: the two outcomes of reading a byte. -/
theorem bsReadByteResult : Obligations.BsReadByteResult := by
  unfold Obligations.BsReadByteResult
  exact fun s hwf => ⟨fun h => command_read_ok 0x12 (fun v : Byte => v.setWidth 16) (readByte_straddling h),
    fun h => command_read_error 0x12 (fun v : Byte => v.setWidth 16) (readByte_exhausted hwf.offset_le h)⟩

/-! ### The bound on the reads of a window -/

/-- Reads that succeed were all left, and leave the position behind them (40_bitstream.md R136). -/
theorem readBits_ok {m : List Host.Cell} {k : Nat} {b c : BitStream} {bits : List Bool}
    (h : readBits m k b = .ok bits c) : k ≤ b.left ∧ c = b.skip k := by
  rw [readBits_eq] at h
  split at h
  next hk =>
    cases h
    exact ⟨hk, rfl⟩
  next => cases h

theorem readBit_ok {m : List Host.Cell} {b c : BitStream} {v : Bool} (h : readBit m b = .ok v c) :
    1 ≤ b.left ∧ c = b.skip 1 := by
  refine readBits_ok (m := m) (bits := [v]) ?_
  rw [readBits, ops_bind, h]
  rfl

/-- Settles O16: each read that succeeds was one of the bits left. -/
theorem readsAreBounded : Obligations.ReadsAreBounded := by
  unfold Obligations.ReadsAreBounded
  refine fun m b => ⟨fun v c h => ?one, fun k bits c h => ?several, fun h => ?none⟩
  case one =>
    obtain ⟨hl, rfl⟩ := readBit_ok h
    exact ⟨BitStream.offset_skip hl, rfl, rfl⟩
  case several =>
    obtain ⟨hl, rfl⟩ := readBits_ok h
    rw [BitStream.offset_skip hl]
    refine ⟨rfl, fun hk => ?_⟩
    unfold BitStream.left at hl
    omega
  case none => exact readBit_nil (Nat.sub_eq_zero_of_le h)

end Sys2Proof.Machine
end

section
/-! ST_BUILD and ST_LOOKUP (41_small_tree.md R150 to R157; 30_encoding.md R94, R96), the tokens of a small tree, and what a
failed build of a tree of either kind leaves behind (41_small_tree.md R155; 42_big_tree.md R177, R180). -/

-- The package is compiled as one text: elaborating in order keeps the number of threads small.
set_option Elab.async false

namespace Sys2Proof.Machine

open Sys2Proof Sys2Proof.Config

/-! ### A build as a command -/

section
variable {α : Type} {code : Byte} {e : Engine Unit} {s u : State} {good : α → BitStream → State}
  {r : EStateM.Result Cause BitStream α} {b : BitStream}

/-- A command whose run follows a reader completes where the reader does (70_reset_and_hazards.md R341). -/
theorem RunsTo.completes {a : α} (h : RunsTo u good r) (he : e (startCommand code s) = .ok () u) (hr : r = .ok a b)
    (hi : (good a b).work = .idle) : streamCommand code e s = .next (good a b) := by
  subst hr
  obtain ⟨k, hk, hrun⟩ := h
  rw [streamCommand_ok he]
  exact hrun.runCommand hi (by omega)

/-- A command whose run follows a reader faults where the reader does. -/
theorem RunsTo.faults {c : Cause} (h : RunsTo u good r) (he : e (startCommand code s) = .ok () u) (hr : r = .error c b) :
    streamCommand code e s = .next (raiseFault c (u.setBs b)) := by
  subst hr
  obtain ⟨k, hk, hrun⟩ := h
  rw [streamCommand_ok he]
  exact hrun.runCommand rfl hk

end

/-! ### ST_BUILD -/

/-- The recursion of the rules, followed by any command at the control bit of a small tree (41_small_tree.md R150). -/
theorem runsTo_stBuildSpec {s : State} (hw : smallWork? s.work = some .control) :
    RunsTo s (fun t b => putSmall (.done t) (s.setBs b)) (stBuildSpec s.params.smallNodesMax s.inMem s.bs) := by
  have h := small_run hw
  cases hr : stBuildSpec s.params.smallNodesMax s.inMem s.bs with
  | ok t b => rwa [hr] at h
  | error c b => rwa [hr] at h

/-- A build that reads the tree `t` stores it in the slot (41_small_tree.md R153). -/
theorem stBuild_completes {s : State} {slot : Fin 4} {t : SmallTree} {b : BitStream} (h : slotOperand s.arg0 = some slot)
    (hr : stBuildSpec s.params.smallNodesMax s.inMem s.bs = .ok t b) :
    exec .stBuild s =
      .next { s with bs := b, atree := s.atree.set slot t, cmd := 0x20, status := 0x2000, work := .idle } := by
  have hstart := stBuildStart_ok (s := startCommand 0x20 s) h
  refine ((runsTo_stBuildSpec rfl).completes hstart hr rfl).trans ?_
  have hset : (s.atree.set slot .absent).set slot t = s.atree.set slot t := Vector.set_set ..
  rw [← hset]
  rfl

/-- A build that faults leaves the slot Absent (41_small_tree.md R155). -/
theorem stBuild_faults {s : State} {slot : Fin 4} {c : Cause} {b : BitStream} (h : slotOperand s.arg0 = some slot)
    (hr : stBuildSpec s.params.smallNodesMax s.inMem s.bs = .error c b) :
    exec .stBuild s = .next ({ s with bs := b, atree := s.atree.set slot .absent }.faulted 0x20 c) := by
  have hstart := stBuildStart_ok (s := startCommand 0x20 s) h
  refine ((runsTo_stBuildSpec rfl).faults hstart hr).trans (congrArg Host.Outcome.next ?_)
  exact raiseFault_start 0x20 c { s with bs := b, atree := s.atree.set slot .absent }

/-- Settles O17: the two outcomes of the recursion are the two ends of the command. -/
theorem stBuildIsRecursion : Obligations.StBuildIsRecursion := by
  unfold Obligations.StBuildIsRecursion
  intro s slot h
  cases hr : stBuildSpec s.params.smallNodesMax s.inMem s.bs with
  | ok t b => exact stBuild_completes h hr
  | error c b => exact stBuild_faults h hr

/-! ### ST_LOOKUP -/

/-- Past its check ST_LOOKUP is one lookup, its value put into RESULT (41_small_tree.md R154). -/
theorem execStLookup_slot {s : State} {slot : Fin 4} (h : slotOperand s.arg0 = some slot) :
    exec .stLookup s =
      command 0x21 (reading (fun m => stLookup m s.atree[slot]) >>= fun v => putResult (v.setWidth 16)) s := by
  show perform stLookupRule (startCommand 0x21 s) = perform _ (startCommand 0x21 s)
  unfold perform stLookupRule
  rw [ops_bind, ops_get]
  simp only [startCommand_arg0, h, startCommand_atree]

/-- A lookup that reads the value `v` (41_small_tree.md R154). -/
theorem stLookup_completes {s : State} {slot : Fin 4} {v : Byte} {b : BitStream} (h : slotOperand s.arg0 = some slot)
    (hr : stLookup s.inMem s.atree[slot] s.bs = .ok v b) :
    exec .stLookup s =
      .next { s with bs := b, result := v.setWidth 16, cmd := 0x21, status := 0x2100, work := .idle } :=
  (execStLookup_slot h).trans (command_read_ok 0x21 (fun v : Byte => v.setWidth 16) hr)

/-- A lookup that faults (41_small_tree.md R154). -/
theorem stLookup_faults {s : State} {slot : Fin 4} {c : Cause} {b : BitStream} (h : slotOperand s.arg0 = some slot)
    (hr : stLookup s.inMem s.atree[slot] s.bs = .error c b) :
    exec .stLookup s = .next ({ s with bs := b }.faulted 0x21 c) :=
  (execStLookup_slot h).trans (command_read_error 0x21 (fun v : Byte => v.setWidth 16) hr)

/-- ST_LOOKUP of a code word (41_small_tree.md R152; 30_encoding.md R102). -/
theorem stLookup_codeWord {s : State} {slot : Fin 4} {n : Node} {bits : List Bool} {v : Byte}
    (h : slotOperand s.arg0 = some slot) (ht : s.atree[slot] = .present n) (hc : CodeWord n bits v) (ha : s.Ahead bits) :
    exec .stLookup s = .next { s with
      bs := s.bs.skip bits.length, result := v.setWidth 16, cmd := 0x21, status := 0x2100, work := .idle } := by
  obtain ⟨rest, hrest⟩ := State.ahead_iff.1 ha
  refine stLookup_completes h ?_
  rw [ht]
  exact stLookup_code hc hrest

/-- A walk with no code word ahead uses up the window (41_small_tree.md R152). -/
theorem stLookup_exhausted {m : List Host.Cell} {n : Node} {b : BitStream}
    (hn : ∀ bits v, CodeWord n bits v → ¬ bits <+: remaining m b) :
    stLookup m (.present n) b = .error .exhausted (b.skip b.left) := by
  rcases walkNode_cases m n b with ⟨bits, v, rest, hc, hr, _⟩ | ⟨_, hw⟩
  · exact absurd ⟨rest, hr.symm⟩ (hn bits v hc)
  · exact hw

/-- Settles O18: the three outcomes of the walk. -/
theorem stLookupResult : Obligations.StLookupResult := by
  unfold Obligations.StLookupResult
  refine fun s slot h => ⟨fun n bits v ht hc ha => stLookup_codeWord h ht hc ha, fun ht => ?absent,
    fun n ht hn => ?exhausted⟩
  case absent =>
    refine stLookup_faults (b := s.bs) h ?_
    rw [ht]
    exact stLookup_absent s.inMem s.bs
  case exhausted =>
    refine stLookup_faults h ?_
    rw [ht]
    exact stLookup_exhausted hn

/-! ### The round trip of a small tree -/

/-- Successive lookups return the values of the code words ahead (41_small_tree.md R157). -/
theorem results_stLookup {slot : Fin 4} {n : Node} (codes : List (List Bool × Byte)) : ∀ {s : State},
    slotOperand s.arg0 = some slot → s.atree[slot] = .present n → (∀ c ∈ codes, CodeWord n c.1 c.2) →
    s.Ahead (codes.flatMap (·.1)) → results .stLookup codes.length s = some (codes.map fun c => c.2.setWidth 16) := by
  induction codes with
  | nil => exact fun _ _ _ _ => rfl
  | cons c codes ih =>
    intro s h ht hc ha
    obtain ⟨hc1, hcs⟩ := List.forall_mem_cons.1 hc
    obtain ⟨rest, hrest⟩ := State.ahead_iff.1 ha
    rw [List.flatMap_cons, List.append_assoc] at hrest
    rw [List.length_cons, results, stLookup_codeWord h ht hc1 ⟨_, hrest.symm⟩]
    dsimp only
    refine Option.map_eq_some_iff.2 ⟨_, ih ?slot ?tree hcs ?ahead, rfl⟩
    case slot => exact h
    case tree => exact ht
    case ahead => exact ⟨rest, (remaining_after hrest).2.symm⟩

/-- Settles O19: the recursion reads the serialisation back, and the lookups go on behind it in the tree stored. -/
theorem smallRoundTrip : Obligations.SmallRoundTrip := by
  unfold Obligations.SmallRoundTrip
  intro s slot n codes h hfits hc ha
  obtain ⟨rest, hrest⟩ := State.ahead_iff.1 ha
  rw [List.append_assoc] at hrest
  refine ⟨_, stBuild_completes h (stBuildSpec_bits hrest hfits), rfl, ?_⟩
  exact results_stLookup codes h (Vector.getElem_set_self _) hc ⟨rest, (remaining_after hrest).2.symm⟩

/-! ### The tokens of ST_BUILD -/

/-- A token inside the tree (41_small_tree.md R151). -/
theorem putSmall_more_slot {s : State} {slot : Fin 4} {w : SmallWork} (h : s.work = .small slot w) (w' : SmallWork) :
    putSmall (.more w') s = s.setWork (.small slot w') := by
  simp only [putSmall, h]

/-- The token that ends the tree (41_small_tree.md R153). -/
theorem putSmall_done_slot {s : State} {slot : Fin 4} {w : SmallWork} (h : s.work = .small slot w) (t : SmallTree) :
    putSmall (.done t) s = (s.setAtree slot t).setWork .idle := by
  simp only [putSmall, h]

theorem smallWork_slot {s : State} {slot : Fin 4} {w : SmallWork} (h : s.work = .small slot w) :
    smallWork? s.work = some w := by
  rw [h]
  rfl

/-- A branch that is one node too many (41_small_tree.md R156). -/
theorem node8Branch_full {s : State} {path : List (Option Node)} {count : Nat}
    (h : smallWork? s.work = some (.node path count)) (hr : smallRoom s.params count = false) :
    exec .node8Branch s = .next (raiseFault .treeCapacity s) := by
  show execNode8Branch s = _
  unfold execNode8Branch
  exact smallToken_error h (by simp only [hr, Bool.false_eq_true, if_false])

/-- A leaf that is one node too many (41_small_tree.md R156). -/
theorem node8Leaf_full {s : State} {path : List (Option Node)} {count : Nat} (v : Byte)
    (h : smallWork? s.work = some (.node path count)) (hr : smallRoom s.params count = false) :
    exec (.node8Leaf v) s = .next (raiseFault .treeCapacity s) := by
  show execNode8Leaf v s = _
  unfold execNode8Leaf
  exact smallToken_error h (by simp only [hr, Bool.false_eq_true, if_false])

/-- Settles O27, token by token. -/
theorem smallTreeTokens : Obligations.SmallTreeTokens := by
  unfold Obligations.SmallTreeTokens
  intro s slot
  refine ⟨fun h => ⟨?absent, ?present⟩,
    fun path count h => ⟨fun hr => ⟨?branch, fun v => ?leaf⟩, fun hr => ⟨?fullBranch, fun v => ?fullLeaf⟩⟩,
    fun root h => ?term⟩
  all_goals have hw := smallWork_slot h
  case absent => exact (tree8Absent_small hw).trans (congrArg _ (putSmall_done_slot h _))
  case present => exact (tree8Present_small hw).trans (congrArg _ (putSmall_more_slot h _))
  case branch => exact (node8Branch_small hw hr).trans (congrArg _ (putSmall_more_slot h _))
  case leaf =>
    refine (node8Leaf_small v hw hr).trans (congrArg _ ((putSmall_more_slot h _).trans ?_))
    unfold afterNode
    cases plugNode (.leaf v) path <;> rfl
  case fullBranch => exact node8Branch_full hw hr
  case fullLeaf => exact node8Leaf_full v hw hr
  case term => exact (treeTerm_small hw).trans (congrArg _ (putSmall_done_slot h _))

/-! ### BT_BUILD -/

/-- A build that reads the bigtree `t` stores it in its slot (42_big_tree.md R176). -/
theorem btBuild_completes {s : State} {id : Fin 4} {t : BigTree} {b : BitStream} (h : slotOperand s.arg0 = some id)
    (hr : btBuildSpec s.params s.inMem s.bs = .ok t b) :
    exec .btBuild s =
      .next { s with bs := b, vt := s.vt.set id t, cmd := 0x30, status := 0x3000, work := .idle } := by
  have hstart := btBuildStart_ok (s := startCommand 0x30 s) h
  refine ((big_run (.inl ⟨id, rfl⟩) rfl).completes hstart hr rfl).trans ?_
  have hset : (s.vt.set id .absent).set id t = s.vt.set id t := Vector.set_set ..
  rw [← hset]
  rfl

/-- A build that faults leaves its slot Absent (42_big_tree.md R180). -/
theorem btBuild_faults {s : State} {id : Fin 4} {c : Cause} {b : BitStream} (h : slotOperand s.arg0 = some id)
    (hr : btBuildSpec s.params s.inMem s.bs = .error c b) :
    exec .btBuild s = .next ({ s with bs := b, vt := s.vt.set id .absent }.faulted 0x30 c) := by
  have hstart := btBuildStart_ok (s := startCommand 0x30 s) h
  refine ((big_run (.inl ⟨id, rfl⟩) rfl).faults hstart hr).trans (congrArg Host.Outcome.next ?_)
  exact raiseFault_start 0x30 c { s with bs := b, vt := s.vt.set id .absent }

/-! ### BT_BUILD_ALL -/

/-- BT_BUILD_ALL begun in `s` is in the middle of a bigtree at `u` (42_big_tree.md R177). -/
def BuildingAll (s u : State) : Prop :=
  ∃ b vt id w, u = { startCommand 0x31 s with bs := b, vt := vt, work := .bigAll id w }

/-- BT_BUILD_ALL begun in `s` is over at `u`: without a fault, or with all four bigtrees Absent (42_big_tree.md R177). -/
def BuiltAll (s u : State) : Prop :=
  u.work = .idle ∧ (u.statusCause = 0 ∨
    ∃ b c, u = { s with bs := b, vt := Vector.replicate 4 .absent }.faulted 0x31 c)

/-- Every step of BT_BUILD_ALL goes on with a bigtree or ends the command (42_big_tree.md R177). -/
theorem engineStep_buildingAll {s u v : State} (h : BuildingAll s u) (hv : engineStep tokenMeaning u = .next v) :
    BuildingAll s v ∨ BuiltAll s v := by
  obtain ⟨b, vt, id, w, hu⟩ := h
  have hwork : u.work = .bigAll id w := congrArg State.work hu
  rcases engineStep_big_cases (.inr ⟨id, rfl⟩) hwork with
    ⟨j, w', _, _, e⟩ | ⟨j, tree, _, _, e⟩ | ⟨j, c, _, _, e⟩ <;> rw [e] at hv <;> cases hv
  · subst hu
    exact .inl ⟨_, _, id, w', rfl⟩
  · rcases putBig_done_all (s := u.setBs (u.bs.skip j)) hwork tree with ⟨id', _, e⟩ | ⟨_, e⟩ <;>
      rw [e] <;> subst hu
    · exact .inl ⟨_, _, id', .control, rfl⟩
    · exact .inr ⟨rfl, .inl (startCommand_statusCause 0x31 s)⟩
  · subst hu
    exact .inr ⟨rfl, .inr ⟨_, c, raiseFault_start 0x31 c { s with bs := b.skip j, vt := Vector.replicate 4 .absent }⟩⟩

/-- So does its run (42_big_tree.md R177). -/
theorem runCommand_buildingAll {s u t : State} (h : BuildingAll s u) (ht : runCommand u = .next t) :
    BuildingAll s t ∨ BuiltAll s t := by
  refine runSteps_invariant (P := fun u => BuildingAll s u ∨ BuiltAll s u) (fun u v hw hu hv => ?_) (.inl h) ht
  rcases hu with hu | hu
  · exact engineStep_buildingAll hu hv
  · exact absurd hu.1 hw

/-- An empty chunk starts no bigtree (42_big_tree.md R182). -/
theorem btBuildAllStart_empty {s : State} (hw : windowLegal s s.arg0 s.arg1 = true) (h0 : s.arg1 = 0) :
    btBuildAllStart s = .ok () (s.openWindow s.arg0 s.arg1).clearVt := by
  rw [h0] at hw
  simp only [btBuildAllStart, ops_bind, ops_get, hw, h0, if_true, ops_set]

/-- BT_BUILD_ALL past its window check ends with no fault, or with four Absent bigtrees (42_big_tree.md R177, R182). -/
theorem btBuildAll_built {s t : State} (hw : windowLegal s s.arg0 s.arg1 = true) (ht : exec .btBuildAll s = .next t) :
    BuiltAll s t := by
  have hs : windowLegal (startCommand 0x31 s) s.arg0 s.arg1 = true := hw
  by_cases h0 : s.arg1 = 0
  · have hrun := (streamCommand_ok (btBuildAllStart_empty hs h0)).symm.trans ht
    rw [runCommand, runSteps_idle _ rfl] at hrun
    cases hrun
    exact ⟨rfl, .inl (startCommand_statusCause 0x31 s)⟩
  · have hrun := (streamCommand_ok (btBuildAllStart_ok hs h0)).symm.trans ht
    rcases runCommand_buildingAll ⟨_, _, 0, .control, rfl⟩ hrun with ⟨_, _, _, _, rfl⟩ | hbuilt
    · obtain ⟨_, e, hidle, _⟩ := exec_commandEnds (i := .btBuildAll) rfl s
      rw [ht] at e
      cases e
      cases hidle
    · exact hbuilt

/-! ### What a failed build leaves -/

/-- Settles O22: the ends of the three commands, with STATUS.cause telling faults from completions. -/
theorem failedBuildsLeaveNoTree : Obligations.FailedBuildsLeaveNoTree := by
  unfold Obligations.FailedBuildsLeaveNoTree
  refine ⟨fun s t slot h ht hne => ?small, fun s t id h ht hne => ?big, fun s t hw ht hne => ?all⟩
  case small =>
    cases hr : stBuildSpec s.params.smallNodesMax s.inMem s.bs with
    | ok tree b =>
      rw [stBuild_completes h hr] at ht
      cases ht
      exact absurd (statusWord_cause 0x20 0) hne
    | error c b =>
      rw [stBuild_faults h hr] at ht
      cases ht
      rfl
  case big =>
    cases hr : btBuildSpec s.params s.inMem s.bs with
    | ok tree b =>
      rw [btBuild_completes h hr] at ht
      cases ht
      exact absurd (statusWord_cause 0x30 0) hne
    | error c b =>
      rw [btBuild_faults h hr] at ht
      cases ht
      rfl
  case all =>
    obtain ⟨_, h0 | ⟨b, c, rfl⟩⟩ := btBuildAll_built hw ht
    · exact absurd h0 hne
    · rfl

end Sys2Proof.Machine
end

section
/-! BT_BUILD, BT_BUILD_ALL, BT_RESET and BT_LOOKUP (42_big_tree.md R170 to R184; 30_encoding.md R98 to R101). -/

-- The package is compiled as one text: elaborating in order keeps the number of threads small.
set_option Elab.async false

namespace Sys2Proof.Machine

open Sys2Proof Sys2Proof.Config

/-! ### BT_BUILD -/

/-- Settles O20: the two outcomes of the recursion are the two ends of the command. -/
theorem btBuildIsRecursion : Obligations.BtBuildIsRecursion := by
  unfold Obligations.BtBuildIsRecursion
  intro s id h
  cases hr : btBuildSpec s.params s.inMem s.bs with
  | ok t b => exact btBuild_completes h hr
  | error c b => exact btBuild_faults h hr

/-! ### BT_BUILD_ALL -/

/-- A run from `u` to `v` that consumes a bit of the window in each of its steps, or more. -/
def RunsOverBits (u v : State) : Prop := ∃ k, k + v.bs.left ≤ u.bs.left ∧ Runs k u v

theorem RunsOverBits.trans {u v w : State} (h : RunsOverBits u v) (h' : RunsOverBits v w) : RunsOverBits u w := by
  obtain ⟨j, hj, hrun⟩ := h
  obtain ⟨k, hk, hrun'⟩ := h'
  exact ⟨j + k, by omega, hrun.trans hrun'⟩

/-- Such a run, where it ends idle, is the run of the command (70_reset_and_hazards.md R341). -/
theorem RunsOverBits.runCommand {u v : State} (h : RunsOverBits u v) (hv : v.work = .idle) :
    runCommand u = .next v := by
  obtain ⟨k, hk, hrun⟩ := h
  exact hrun.runCommand hv (by omega)

/-- A bigtree takes a bit at least, its control bit (42_big_tree.md R170). -/
theorem TreeBits.length_pos {p : Params} {t : BigTree} {bits : List Bool} (h : TreeBits p t bits) :
    0 < bits.length := by
  cases h <;> simp

/-- No bit is ahead in an empty window. -/
theorem ne_zero_of_ahead {s : State} {base size : Word} {bits : List Bool} (h : 0 < bits.length)
    (ha : (s.openWindow base size).Ahead bits) : size ≠ 0 := by
  rintro rfl
  have hlen := ha.length_le
  rw [remaining_length] at hlen
  have hleft : (s.openWindow base 0).bs.left = 0 := rfl
  omega

/-- BT_BUILD_ALL begun in `s`, at the control bit of the bigtree `id` (42_big_tree.md R177). -/
def atTree (s : State) (id : Fin 4) (b : BitStream) (vt : Vector BigTree 4) : State :=
  { startCommand 0x31 s with bs := b, vt := vt, work := .bigAll id .control }

/-- There it reads the bigtree whose bits are ahead (42_big_tree.md R170). -/
theorem atTree_reads {s : State} {id : Fin 4} {b : BitStream} {vt : Vector BigTree 4} {t : BigTree}
    {bits rest : List Bool} (ht : TreeBits s.params t bits) (hr : remaining s.inMem b = bits ++ rest) :
    RunsOverBits (atTree s id b vt) (putBig (.done t) ((atTree s id b vt).setBs (b.skip bits.length))) := by
  have hrun : RunsTo (atTree s id b vt) (fun t c => putBig (.done t) ((atTree s id b vt).setBs c))
      (btBuildSpec s.params s.inMem b) := big_run (.inr ⟨id, rfl⟩) rfl
  rw [btBuildSpec_bits ht hr] at hrun
  obtain ⟨k, hk, hrun⟩ := hrun
  refine ⟨k, ?_, hrun⟩
  rcases putBig_done_all (s := (atTree s id b vt).setBs (b.skip bits.length)) rfl t with ⟨_, _, e⟩ | ⟨_, e⟩ <;>
    rwa [e]

/-- One of the first three bigtrees is followed by the next (42_big_tree.md R177). -/
theorem atTree_next {s : State} {id id' : Fin 4} {b : BitStream} {vt : Vector BigTree 4} {t : BigTree}
    {bits rest : List Bool} (hid : id'.val = id.val + 1) (ht : TreeBits s.params t bits)
    (hr : remaining s.inMem b = bits ++ rest) :
    RunsOverBits (atTree s id b vt) (atTree s id' (b.skip bits.length) (vt.set id t)) := by
  have hrun := atTree_reads (id := id) (vt := vt) ht hr
  rcases putBig_done_all (s := (atTree s id b vt).setBs (b.skip bits.length)) rfl t with ⟨j, hj, e⟩ | ⟨hlast, _⟩
  · obtain rfl : j = id' := Fin.ext (hj.trans hid.symm)
    rwa [e] at hrun
  · omega

/-- The last of the four bigtrees, TYPE, ends the command (42_big_tree.md R177). -/
theorem atTree_last {s : State} {b : BitStream} {vt : Vector BigTree 4} {t : BigTree} {bits rest : List Bool}
    (ht : TreeBits s.params t bits) (hr : remaining s.inMem b = bits ++ rest) :
    RunsOverBits (atTree s 3 b vt)
      { startCommand 0x31 s with bs := b.skip bits.length, vt := vt.set 3 t, work := .idle } :=
  atTree_reads ht hr

/-- Four bigtrees ahead go into the four slots, in their order (42_big_tree.md R177; 30_encoding.md R101). -/
theorem atTree_four {s : State} {b : BitStream} {vt : Vector BigTree 4} {t0 t1 t2 t3 : BigTree}
    {b0 b1 b2 b3 : List Bool} (h0 : TreeBits s.params t0 b0) (h1 : TreeBits s.params t1 b1)
    (h2 : TreeBits s.params t2 b2) (h3 : TreeBits s.params t3 b3) (ha : b0 ++ b1 ++ b2 ++ b3 <+: remaining s.inMem b) :
    RunsOverBits (atTree s 0 b vt)
      { startCommand 0x31 s with
        bs := b.skip (b0 ++ b1 ++ b2 ++ b3).length, vt := #v[t0, t1, t2, t3], work := .idle } := by
  obtain ⟨rest, hrest⟩ := ha
  have hr : remaining s.inMem b = b0 ++ (b1 ++ (b2 ++ (b3 ++ rest))) := by
    simpa only [List.append_assoc] using hrest.symm
  obtain ⟨l0, r1⟩ := remaining_after hr
  obtain ⟨l1, r2⟩ := remaining_after r1
  obtain ⟨l2, r3⟩ := remaining_after r2
  have run0 := atTree_next (vt := vt) (id := 0) (id' := 1) rfl h0 hr
  have run1 := atTree_next (vt := vt.set 0 t0) (id := 1) (id' := 2) rfl h1 r1
  have run2 := atTree_next (vt := (vt.set 0 t0).set 1 t1) (id := 2) (id' := 3) rfl h2 r2
  have run3 := atTree_last (vt := ((vt.set 0 t0).set 1 t1).set 2 t2) h3 r3
  have hskip : (((b.skip b0.length).skip b1.length).skip b2.length).skip b3.length =
      b.skip (b0 ++ b1 ++ b2 ++ b3).length := by
    rw [BitStream.skip_skip l2, BitStream.skip_skip l1, BitStream.skip_skip l0]
    simp only [List.length_append, Nat.add_assoc]
  have hvt : (((vt.set 0 t0).set 1 t1).set 2 t2).set 3 t3 = #v[t0, t1, t2, t3] := by
    ext i hi
    interval_cases i <;> simp
  rw [← hskip, ← hvt]
  exact run0.trans (run1.trans (run2.trans run3))

/-- Settles O21: four bigtrees ahead are read one after the other; an empty chunk and a window outside `IN` end the command at
its start. -/
theorem btBuildAllResult : Obligations.BtBuildAllResult := by
  unfold Obligations.BtBuildAllResult
  refine fun s => ⟨fun t0 t1 t2 t3 b0 b1 b2 b3 hw h0 h1 h2 h3 ha => ?four, fun hw hz => ?empty, fun hw => ?outside⟩
  case four =>
    have hpos : 0 < (b0 ++ b1 ++ b2 ++ b3).length := by
      have := h0.length_pos
      simp only [List.length_append]
      omega
    refine (streamCommand_ok (btBuildAllStart_ok (s := startCommand 0x31 s) hw (ne_zero_of_ahead hpos ha))).trans ?_
    exact (atTree_four (s := s) h0 h1 h2 h3 ha).runCommand rfl
  case empty =>
    refine (streamCommand_ok (btBuildAllStart_empty (s := startCommand 0x31 s) hw hz)).trans ?_
    rw [runCommand, runSteps_idle _ rfl]
    exact congrArg (fun size => Host.Outcome.next ((startCommand 0x31 s).openWindow s.arg0 size).clearVt) hz
  case outside =>
    have hl : windowLegal (startCommand 0x31 s) (startCommand 0x31 s).arg0 (startCommand 0x31 s).arg1 = false := hw
    refine streamCommand_faulted ?_
    simp only [btBuildAllStart, ops_bind, ops_get, hl, Bool.false_eq_true, if_false, ops_throw]

/-! ### BT_LOOKUP -/

/-- Past its check BT_LOOKUP is one lookup, its value put into RESULT (42_big_tree.md R179). -/
theorem execBtLookup_id {s : State} {id : Fin 4} (h : slotOperand s.arg0 = some id) :
    exec .btLookup s = command 0x33 (btLookup id >>= putResult) s := by
  show perform btLookupRule (startCommand 0x33 s) = perform _ (startCommand 0x33 s)
  unfold perform btLookupRule
  rw [ops_bind, ops_get]
  simp only [startCommand_arg0, h]

/-- A lookup that reads the value `v` (42_big_tree.md R179). -/
theorem btLookup_completes {s t : State} {id : Fin 4} {v : Half} (h : slotOperand s.arg0 = some id)
    (hr : btLookup id (startCommand 0x33 s) = .ok v t) : exec .btLookup s = .next { t with result := v } := by
  rw [execBtLookup_id h]
  refine command_ok ?_
  rw [ops_bind, hr]
  rfl

/-- A lookup that faults where the position is `b` (42_big_tree.md R179). -/
theorem btLookup_faults {s : State} {id : Fin 4} {c : Cause} {b : BitStream} (h : slotOperand s.arg0 = some id)
    (hr : btLookup id (startCommand 0x33 s) = .error c (startCommand 0x33 { s with bs := b })) :
    exec .btLookup s = .next ({ s with bs := b }.faulted 0x33 c) := by
  have hrule : (btLookup id >>= putResult) (startCommand 0x33 s) = .error c (startCommand 0x33 { s with bs := b }) := by
    rw [ops_bind, hr]
  rw [execBtLookup_id h, command_error hrule, raiseFault_start]

/-- BT_LOOKUP of the code word of a leaf: its value, and the cache updated with it (42_big_tree.md R174, R175). -/
theorem btLookup_codeWord {s : State} {id : Fin 4} {low high : SmallTree} {root leaf : BNode} {cache : Cache}
    {bits : List Bool} (h : slotOperand s.arg0 = some id) (ht : s.vt[id] = .present low high root cache)
    (hc : BigCodeWord root bits leaf) (ha : s.Ahead bits) :
    exec .btLookup s = .next { s with
      bs := s.bs.skip bits.length
      result := leafValue cache leaf
      vt := s.vt.set id (.present low high root (mruUpdate cache (leafValue cache leaf)))
      cmd := 0x33, status := 0x3300, work := .idle } :=
  btLookup_completes h (btLookup_code (s := startCommand 0x33 s) ht hc ha)

/-- Settles O24: the three outcomes of the lookup. -/
theorem btLookupResult : Obligations.BtLookupResult := by
  unfold Obligations.BtLookupResult
  refine fun s id h => ⟨fun low high root leaf cache bits ht hc ha => btLookup_codeWord h ht hc ha, fun ht => ?absent,
    fun low high root cache ht hn => ?exhausted⟩
  case absent => exact btLookup_faults h (btLookup_absent (s := startCommand 0x33 s) ht)
  case exhausted => exact btLookup_faults h (btLookup_exhausted (s := startCommand 0x33 s) ht hn)

/-! ### The round trip of a bigtree -/

/-- Successive lookups of literals return them, whatever the cache is (42_big_tree.md R184). -/
theorem results_btLookup {id : Fin 4} {low high : SmallTree} {root : BNode} (codes : List (List Bool × Half)) :
    ∀ {s : State} {cache : Cache}, slotOperand s.arg0 = some id → s.vt[id] = .present low high root cache →
      (∀ c ∈ codes, BigCodeWord root c.1 (.lit c.2)) → s.Ahead (codes.flatMap (·.1)) →
      results .btLookup codes.length s = some (codes.map (·.2)) := by
  induction codes with
  | nil => exact fun _ _ _ _ => rfl
  | cons c codes ih =>
    intro s cache h ht hc ha
    obtain ⟨hc1, hcs⟩ := List.forall_mem_cons.1 hc
    obtain ⟨rest, hrest⟩ := State.ahead_iff.1 ha
    rw [List.flatMap_cons, List.append_assoc] at hrest
    rw [List.length_cons, results, btLookup_codeWord h ht hc1 ⟨_, hrest.symm⟩]
    dsimp only
    refine Option.map_eq_some_iff.2 ⟨_, ih (cache := mruUpdate cache c.2) ?operand ?tree hcs ?ahead, rfl⟩
    case operand => exact h
    case tree => exact Vector.getElem_set_self _
    case ahead => exact ⟨rest, (remaining_after hrest).2.symm⟩

/-- Settles O26: the recursion reads the serialisation back, and the lookups go on behind it in the bigtree stored. -/
theorem bigRoundTrip : Obligations.BigRoundTrip := by
  unfold Obligations.BigRoundTrip
  intro s id low high root seeds bits codes h ht hc ha
  obtain ⟨rest, hrest⟩ := State.ahead_iff.1 ha
  rw [List.append_assoc] at hrest
  refine ⟨_, btBuild_completes h (btBuildSpec_bits ht hrest), rfl, ?_⟩
  exact results_btLookup codes h (Vector.getElem_set_self _) hc ⟨rest, (remaining_after hrest).2.symm⟩

/-! ### BT_RESET -/

/-- Past its check BT_RESET resets the bigtree (42_big_tree.md R178). -/
theorem execBtReset_id {s : State} {id : Fin 4} (h : slotOperand s.arg0 = some id) :
    exec .btReset s = .next ((startCommand 0x32 s).setVt id (btResetTree s.vt[id])) := by
  refine command_ok (e := btResetRule) ?_
  simp only [btResetRule, ops_bind, ops_get, startCommand_arg0, h, ops_set, startCommand_vt]

/-- BT_RESET of a present bigtree: only the cache of that bigtree is set (42_big_tree.md R173). -/
theorem btReset_present {s : State} {id : Fin 4} {low high : SmallTree} {root : BNode} {cache : Cache}
    (h : slotOperand s.arg0 = some id) (ht : s.vt[id] = .present low high root cache) :
    exec .btReset s = .next { s with
      vt := s.vt.set id (.present low high root Cache.zero), cmd := 0x32, status := 0x3200, work := .idle } := by
  rw [execBtReset_id h, ht]
  rfl

/-- Settles O23: an Absent bigtree is put back as it was. -/
theorem btResetResult : Obligations.BtResetResult := by
  unfold Obligations.BtResetResult
  refine fun s id h => ⟨fun low high root cache ht => btReset_present h ht, fun ht => ?absent⟩
  have hvt : s.vt.set id .absent = s.vt := by
    rw [← ht]
    exact Vector.set_getElem_self _
  have hreset : exec .btReset s = .next ((startCommand 0x32 s).setVt id .absent) := by
    rw [execBtReset_id h, ht]
    rfl
  rw [hreset]
  exact congrArg (fun vt => Host.Outcome.next { startCommand 0x32 s with vt := vt }) hvt

/-- Settles O25: BT_RESET leads both states to the same one. -/
theorem resetIdempotence : Obligations.ResetIdempotence := by
  unfold Obligations.ResetIdempotence
  rintro s t id low high root c d k h hs rfl
  refine ⟨_, _, btReset_present h hs, btReset_present (cache := d) h (Vector.getElem_set_self _), ?_⟩
  have hset : (s.vt.set id (.present low high root d)).set id (.present low high root Cache.zero) =
    s.vt.set id (.present low high root Cache.zero) := Vector.set_set ..
  rw [hset]

end Sys2Proof.Machine
end

section
/-! The tokens of a bigtree being built by BT_BUILD (42_big_tree.md R170 to R172): its control bit, its two inner small trees,
its seeds, the nodes of its lookup tree, and its terminator. -/

-- The package is compiled as one text: elaborating in order keeps the number of threads small.
set_option Elab.async false

namespace Sys2Proof.Machine

open Sys2Proof Sys2Proof.Config

/-! ### Tokens outside the inner small trees -/

theorem bigWork_one {s : State} {id : Fin 4} {w : BigWork} (h : s.work = .big id w) : bigWork? s.work = some w := by
  rw [h]
  rfl

/-- A token inside the bigtree (42_big_tree.md R170). -/
theorem putBig_more_one {s : State} {id : Fin 4} {w : BigWork} (h : s.work = .big id w) (w' : BigWork) :
    putBig (.more w') s = s.setWork (.big id w') := IsBig.putBig_more (.inl ⟨id, rfl⟩) h

/-- A seed goes behind those read before it; the third completes the cache (42_big_tree.md R172). -/
theorem seed_big {s : State} {id : Fin 4} {low high : SmallTree} {got : List Half}
    (h : s.work = .big id (.seeds low high got)) (lo hi : Byte) :
    exec (.seed lo hi) s = .next (s.setWork (.big id (afterSeeds low high (got ++ [hi ++ lo])))) :=
  (bigToken_ok (bigWork_one h) rfl rfl).trans (congrArg _ (putBig_more_one h _))

/-- The terminator of a bigtree (42_big_tree.md R170). -/
theorem treeTerm_big {s : State} {id : Fin 4} {low high : SmallTree} {cache : Cache} {root : BNode}
    (h : s.work = .big id (.term low high cache root)) :
    exec .treeTerm s = .next ((s.setVt id (.present low high root cache)).setWork .idle) := by
  have hsmall : smallWork? s.work = none := by
    rw [h]
    rfl
  show execTreeTerm s = _
  simp only [execTreeTerm, hsmall]
  exact (bigToken_ok (bigWork_one h) rfl rfl).trans (congrArg _ (putBig_done_one h _))

/-! ### The inner small trees -/

/-- `inner` is the place of the low or of the high tree in a bigtree being read, and `after` what follows that tree there
(42_big_tree.md R170). -/
def InnerTree (inner : SmallWork → BigWork) (after : SmallTree → BigWork) : Prop :=
  (inner = .low ∧ after = fun low => .high low .control) ∨
    (∃ low, inner = .high low ∧ after = fun high => .seeds low high [])

section
variable {inner : SmallWork → BigWork} {after : SmallTree → BigWork} {s : State} {id : Fin 4} {w : SmallWork}

theorem InnerTree.smallWork (hin : InnerTree inner after) (h : s.work = .big id (inner w)) :
    smallWork? s.work = some w := by
  rw [h]
  rcases hin with ⟨rfl, rfl⟩ | ⟨low, rfl, rfl⟩ <;> rfl

/-- A token inside the small tree (41_small_tree.md R151). -/
theorem InnerTree.putSmall_more (hin : InnerTree inner after) (h : s.work = .big id (inner w)) (w' : SmallWork) :
    putSmall (.more w') s = s.setWork (.big id (inner w')) := by
  simp only [putSmall, h]
  rcases hin with ⟨rfl, rfl⟩ | ⟨low, rfl, rfl⟩ <;> rfl

/-- The token that ends the small tree: it goes into the bigtree (42_big_tree.md R170). -/
theorem InnerTree.putSmall_done (hin : InnerTree inner after) (h : s.work = .big id (inner w)) (t : SmallTree) :
    putSmall (.done t) s = s.setWork (.big id (after t)) := by
  rcases hin with ⟨rfl, rfl⟩ | ⟨low, rfl, rfl⟩
  · exact IsBig.putSmall_low (.inl ⟨id, rfl⟩) t h
  · exact IsBig.putSmall_high (.inl ⟨id, rfl⟩) t h

/-- A leaf of the small tree, with room for it (41_small_tree.md R151). -/
theorem InnerTree.node8Leaf (hin : InnerTree inner after) {path : List (Option Node)} {count : Nat}
    (h : s.work = .big id (inner (.node path count))) (hr : smallRoom s.params count = true) (v : Byte) :
    exec (.node8Leaf v) s = .next { s with
      work := match plugNode (.leaf v) path with
        | .inl root => .big id (inner (.term root))
        | .inr above => .big id (inner (.node above (count + 1))) } := by
  refine (node8Leaf_small v (hin.smallWork h) hr).trans (congrArg _ ((hin.putSmall_more h _).trans ?_))
  unfold afterNode
  cases plugNode (.leaf v) path <;> rfl

end

/-- Settles O28, token by token. -/
theorem bigTreeTokens : Obligations.BigTreeTokens := by
  unfold Obligations.BigTreeTokens
  intro s id
  refine ⟨fun h => ⟨?absent, ?present⟩, fun inner after hin => ?inner, fun low high lo hi h => seed_big h lo hi,
    fun low high c0 lo hi h => seed_big h lo hi, fun low high c0 c1 lo hi h => seed_big h lo hi,
    fun low high cache root h => treeTerm_big h⟩
  case absent => exact (bigToken_ok (bigWork_one h) rfl rfl).trans (congrArg _ (putBig_done_one h _))
  case present => exact (bigToken_ok (bigWork_one h) rfl rfl).trans (congrArg _ (putBig_more_one h _))
  case inner =>
    have hin : InnerTree inner after := hin
    refine ⟨fun h => ⟨?innerAbsent, ?innerPresent⟩,
      fun path count h => ⟨fun hr => ⟨?branch, hin.node8Leaf h hr⟩, fun hr => ⟨?fullBranch, fun v => ?fullLeaf⟩⟩,
      fun root h => ?term⟩
    all_goals have hw := hin.smallWork h
    case innerAbsent => exact (tree8Absent_small hw).trans (congrArg _ (hin.putSmall_done h _))
    case innerPresent => exact (tree8Present_small hw).trans (congrArg _ (hin.putSmall_more h _))
    case branch => exact (node8Branch_small hw hr).trans (congrArg _ (hin.putSmall_more h _))
    case fullBranch => exact node8Branch_full hw hr
    case fullLeaf => exact node8Leaf_full v hw hr
    case term => exact (treeTerm_small hw).trans (congrArg _ (hin.putSmall_done h _))

/-! ### The nodes of the lookup tree -/

section
variable {s : State} {id : Fin 4} {low high : SmallTree} {seeds : Cache} {path : List (Option BNode)} {count : Nat}

/-- A branch, with room for it (42_big_tree.md R171). -/
theorem node16Branch_room (h : s.work = .big id (.node low high seeds path count))
    (hr : bigRoom s.params count = true) :
    exec .node16Branch s = .next (s.setWork (.big id (.node low high seeds (none :: path) (count + 1)))) := by
  refine (bigToken_ok (bigWork_one h) rfl ?_).trans (congrArg _ (putBig_more_one h _))
  simp only [ops_bind, needBigRoom_ok hr, ops_pure]

/-- A branch that is one node too many (42_big_tree.md R171). -/
theorem node16Branch_full (h : s.work = .big id (.node low high seeds path count))
    (hr : bigRoom s.params count = false) : exec .node16Branch s = .next (raiseFault .treeCapacity s) := by
  refine bigToken_error (bigWork_one h) rfl ?_
  rw [ops_bind, needBigRoom_full hr]

/-- A leaf, with room for it: the low tree's symbol, then the high tree's (42_big_tree.md R171). -/
theorem node16Leaf_room {lo hi : Byte} {b c : BitStream} (h : s.work = .big id (.node low high seeds path count))
    (hr : bigRoom s.params count = true) (hlo : stLookup s.inMem low s.bs = .ok lo b)
    (hhi : stLookup s.inMem high b = .ok hi c) :
    exec .node16Leaf s = .next ((s.setBs c).setWork
      (.big id (afterBNode low high seeds (leafOf seeds (hi ++ lo)) path (count + 1)))) := by
  have hhi' : reading (fun m => stLookup m high) (s.setBs b) = .ok hi (s.setBs c) := reading_ok (s := s.setBs b) hhi
  refine (bigToken_ok (bigWork_one h) rfl ?_).trans (congrArg _ (putBig_more_one (s := s.setBs c) h _))
  simp only [ops_bind, needBigRoom_ok hr, reading_ok (r := fun m => stLookup m low) hlo, hhi', afterBNode]
  cases plugBNode (leafOf seeds (hi ++ lo)) path <;> rfl

/-- A leaf whose low tree is Absent (42_big_tree.md R171). -/
theorem node16Leaf_absent (h : s.work = .big id (.node .absent high seeds path count))
    (hr : bigRoom s.params count = true) : exec .node16Leaf s = .next (raiseFault .absentTree s) := by
  refine bigToken_error (bigWork_one h) rfl ?_
  simp only [ops_bind, needBigRoom_ok hr,
    reading_error (r := fun m => stLookup m .absent) (stLookup_absent s.inMem s.bs), State.setBs_self]

/-- A leaf that is one node too many (42_big_tree.md R171). -/
theorem node16Leaf_full (h : s.work = .big id (.node low high seeds path count))
    (hr : bigRoom s.params count = false) : exec .node16Leaf s = .next (raiseFault .treeCapacity s) := by
  refine bigToken_error (bigWork_one h) rfl ?_
  rw [ops_bind, needBigRoom_full hr]

/-- A leaf whose two code words are ahead (42_big_tree.md R171; 30_encoding.md R100). -/
theorem node16Leaf_codes {l r : Node} {bl bh : List Bool} {lo hi : Byte}
    (h : s.work = .big id (.node (.present l) (.present r) seeds path count)) (hr : bigRoom s.params count = true)
    (hl : CodeWord l bl lo) (hh : CodeWord r bh hi) (ha : s.Ahead (bl ++ bh)) :
    exec .node16Leaf s = .next ((s.setBs (s.bs.skip (bl ++ bh).length)).setWork
      (.big id (afterBNode (.present l) (.present r) seeds (leafOf seeds (hi ++ lo)) path (count + 1)))) := by
  obtain ⟨rest, hrest⟩ := State.ahead_iff.1 ha
  rw [List.append_assoc] at hrest
  obtain ⟨hleft, hrest'⟩ := remaining_after hrest
  rw [List.length_append, ← BitStream.skip_skip hleft]
  exact node16Leaf_room h hr (stLookup_code hl hrest) (stLookup_code hh hrest')

end

/-- Settles O29: the tokens of a node with room for it, and without. -/
theorem bigTreeNodes : Obligations.BigTreeNodes := by
  unfold Obligations.BigTreeNodes
  intro s id low high seeds path count h
  refine ⟨fun hr => ⟨node16Branch_room h hr, ?leaf, ?absent⟩,
    fun hr => ⟨node16Branch_full h hr, node16Leaf_full h hr⟩⟩
  case leaf =>
    rintro l r bl bh lo hi leaf rfl rfl hl hh ha hleaf
    obtain rfl : leaf = leafOf seeds (hi ++ lo) := hleaf
    refine (node16Leaf_codes h hr hl hh ha).trans (congrArg Host.Outcome.next ?_)
    unfold afterBNode
    cases plugBNode (leafOf seeds (hi ++ lo)) path <;> rfl
  case absent =>
    rintro rfl
    exact node16Leaf_absent h hr

end Sys2Proof.Machine
end

section
/-! AUD_DECODE as a command (43_audio_dpcm.md R200 to R202, R211): what each outcome of its checks leads to, what raw
mode writes, and what the run of a record keeps (60_exceptions.md R299). -/

-- The package is compiled as one text: elaborating in order keeps the number of threads small.
set_option Elab.async false

namespace Sys2Proof.Machine

open Sys2Proof Sys2Proof.Config

/-! ### The outcomes of the checks -/

section
variable {s : State} {k : Fin 7}

/-- The first check (43_audio_dpcm.md R200): the window. -/
theorem audDecode_window (hk : trackOperand s.arg2 = some k) (hw : windowLegal s s.arg0 s.arg1 = false) :
    exec .audDecode s = .next (s.faulted 0x40 .window) := by
  rw [← raiseFault_start]
  refine streamCommand_error (e := audDecodeStart) ?_
  have hw' : windowLegal (startCommand 0x40 s) s.arg0 s.arg1 = false := hw
  simp only [audDecodeStart, ops_bind, ops_get, startCommand_arg0, startCommand_arg1, startCommand_arg2, hk, hw',
    Bool.false_eq_true, if_false, ops_throw]

/-- The next checks (43_audio_dpcm.md R200): the track exists and names no variant. -/
theorem audDecode_badConfig (hk : trackOperand s.arg2 = some k) (hw : windowLegal s s.arg0 s.arg1 = true)
    (hb : trkExists s.trk[k] = false ∨ trkVariant s.trk[k] ≠ 0) :
    exec .audDecode s = .next (s.faulted 0x40 .badConfig) := by
  rw [← raiseFault_start]
  refine streamCommand_error (e := audDecodeStart) ?_
  have hw' : windowLegal (startCommand 0x40 s) s.arg0 s.arg1 = true := hw
  have hb' : (trkExists s.trk[k] && trkVariant s.trk[k] == 0) = false := by
    rw [Bool.and_eq_false_iff, beq_eq_false_iff_ne]
    exact hb
  simp only [audDecodeStart, ops_bind, ops_get, startCommand_arg0, startCommand_arg1, startCommand_arg2, startCommand_trk,
    hk, hw', hb', Bool.false_eq_true, if_true, if_false, ops_throw]

/-- Raw mode (43_audio_dpcm.md R201): the bytes of the window, or AUDIO_LENGTH with the track's length 0. -/
theorem audDecode_raw (hk : trackOperand s.arg2 = some k) (hw : windowLegal s s.arg0 s.arg1 = true)
    (he : trkExists s.trk[k] = true) (hv : trkVariant s.trk[k] = 0) (hc : trkCompressed s.trk[k] = false) :
    exec .audDecode s =
      if within s.params.aoutMax s.arg1.toNat then
        .next (startCommand 0x40 (s.setTrack k s.arg1 (copyCells s.inMem s.arg0.toNat s.arg1.toNat)))
      else .next ((s.setTrack k 0 []).faulted 0x40 .audioLength) := by
  have hstart : audDecodeStart (startCommand 0x40 s) = rawCopy k ((startCommand 0x40 s).setTrack k 0 []) := by
    have hw' : windowLegal (startCommand 0x40 s) s.arg0 s.arg1 = true := hw
    simp only [audDecodeStart, ops_bind, ops_get, startCommand_arg0, startCommand_arg1, startCommand_arg2,
      startCommand_trk, hk, hw', he, hv, hc, if_true, Bool.false_eq_true, if_false, ops_set, beq_self_eq_true,
      Bool.and_self]
    rfl
  rw [rawCopy_setTrack] at hstart
  by_cases hm : within s.params.aoutMax s.arg1.toNat = true
  · rw [if_pos hm]
    exact (streamCommand_ok (hstart.trans (if_pos hm))).trans (runSteps_idle _ rfl)
  · rw [if_neg hm, ← raiseFault_start]
    exact streamCommand_error (hstart.trans (if_neg hm))

/-- A compressed record that passes the checks is decoded token by token (43_audio_dpcm.md R202). -/
theorem audDecode_record (hk : trackOperand s.arg2 = some k) (hw : windowLegal s s.arg0 s.arg1 = true)
    (he : trkExists s.trk[k] = true) (hv : trkVariant s.trk[k] = 0) (hc : trkCompressed s.trk[k] = true) :
    exec .audDecode s = runCommand (recordStarted k (startCommand 0x40 s)) :=
  streamCommand_ok (audDecodeStart_ok (s := startCommand 0x40 s) hk hw he hv hc)

end

/-! ### Faults of a record -/

/-- A fault of AUD_DECODE of track `k` leaves that track's bytes without value (43_audio_dpcm.md R211). -/
theorem raiseFault_audio {k : Fin 7} {w : AudioWork} {s : State} (c : Cause) (h : s.work = .audio k w) :
    raiseFault c s =
      { s with
        aout := s.aout.set k [], status := statusWord s.statusCmd c.code, log := logWith s.log c, work := .idle } := by
  unfold raiseFault cleanUp
  rw [h]
  rfl

/-- A record too short to hold its length (43_audio_dpcm.md R202). -/
theorem audDecode_short {k : Fin 7} {s : State} (hk : trackOperand s.arg2 = some k)
    (hw : windowLegal s s.arg0 s.arg1 = true) (he : trkExists s.trk[k] = true) (hv : trkVariant s.trk[k] = 0)
    (hc : trkCompressed s.trk[k] = true) (h4 : s.arg1.toNat < 4) :
    exec .audDecode s = .next ((s.setTrack k 0 []).faulted 0x40 .exhausted) := by
  have hstep : Runs 1 (recordStarted k (startCommand 0x40 s))
      (raiseFault .exhausted (recordStarted k (startCommand 0x40 s))) :=
    .step nofun ((engineStep_length rfl).trans (if_pos h4))
  rw [audDecode_record hk hw he hv hc, hstep.runCommand rfl (Nat.le_add_left _ _), raiseFault_audio (w := .length) _ rfl]
  have hcmd : (recordStarted k (startCommand 0x40 s)).statusCmd = 0x40 := startCommand_statusCmd 0x40 s
  rw [hcmd]
  simp [recordStarted, State.setTrack, State.faulted, State.setAout, State.setAoutLen, State.setWork, startCommand]

/-- Settles O35: the checks in their order; raw mode above the capacity and a record without its length follow them. -/
theorem audDecodeChecks : Obligations.AudDecodeChecks := by
  unfold Obligations.AudDecodeChecks
  intro s k hk
  refine ⟨fun hw => audDecode_window hk ?_, fun hw => ?_⟩
  · exact decide_eq_false (Nat.not_le.2 hw)
  · have hw : windowLegal s s.arg0 s.arg1 = true := windowLegal_iff.2 hw
    refine ⟨audDecode_badConfig hk hw, fun he hv hc hm => ⟨[], ?_⟩,
      fun he hv hc h4 => ⟨[], audDecode_short hk hw he hv hc h4⟩⟩
    rw [audDecode_raw hk hw he hv hc, if_neg (Bool.eq_false_iff.1 hm)]
    rfl

/-! ### Raw mode -/

/-- Cells at rising addresses from 0 on read as their bytes. -/
theorem read_map_range (f : Nat → Byte) (n a : Nat) :
    Memory.read outBlank ((List.range n).map fun i => (i, f i)) a = if a < n then some (f a) else none := by
  have hget : ∀ l : List Nat, Memory.get? (l.map fun i => (i, f i)) a = if a ∈ l then some (f a) else none := by
    intro l
    induction l with
    | nil => rfl
    | cons i l ih =>
      by_cases hi : i = a
      · subst hi
        simp [Memory.get?]
      · simp [Memory.get?, hi, ih, Ne.symm hi]
  rw [Memory.read, hget]
  simp only [List.mem_range]
  by_cases ha : a < n
  · simp only [ha, if_true]
  · simp only [ha, if_false, outBlank]

/-- Settles O36. -/
theorem audRawCopies : Obligations.AudRawCopies := by
  unfold Obligations.AudRawCopies
  intro s k hk hw he hv hc hm
  refine ⟨_, copyCells s.inMem s.arg0.toNat s.arg1.toNat, (audDecode_raw hk hw he hv hc).trans (if_pos hm), rfl,
    fun a => ?_⟩
  have hlen := s.setTrack_aoutLen k s.arg1 (copyCells s.inMem s.arg0.toNat s.arg1.toNat)
  have hbytes := s.setTrack_aout k s.arg1 (copyCells s.inMem s.arg0.toNat s.arg1.toNat)
  unfold hostReadAout
  rw [startCommand_aoutLen, startCommand_aout, hlen, hbytes, copyCells, read_map_range]
  split <;> rfl

/-! ### What AUD_DECODE keeps -/

/-- `u` is `s` but for what AUD_DECODE of track `k` may change (43_audio_dpcm.md R211; 60_exceptions.md R299). -/
def DecodesTrack (k : Fin 7) (s u : State) : Prop :=
  ∃ (m : List Host.Cell) (n : Word), u = { s with
    cmd := 0x40, status := u.status, log := u.log, bs := u.bs, atree := u.atree
    aout := s.aout.set k m, aoutLen := s.aoutLen.set k n, work := .idle }

/-- A track without output (43_audio_dpcm.md R211). -/
theorem hostReadAout_of_empty {k : Fin 7} {u : State} (h : u.aoutLen[k] = 0) (a : Nat) : hostReadAout u k a = none := by
  unfold hostReadAout
  rw [h]
  exact if_neg (Nat.not_lt_zero a)

/-- From the start `s` of a record's decoding to `u`: the record of track `k` goes on in order, is complete, or has raised a
fault with the track's length still 0. -/
inductive RecordReaches (k : Fin 7) (s : State) : State → Prop where
  | running {u : State} {w : AudioWork} : AudioFrame k s u → u.work = .audio k w → RecordWf k u w → RecordReaches k s u
  | complete {u : State} : AudioFrame k s u → u.work = .idle → RecordReaches k s u
  | fault {v : State} {w : AudioWork} (c : Cause) : AudioFrame k s v → v.work = .audio k w → v.aoutLen[k] = 0 →
      RecordReaches k s (raiseFault c v)

theorem RecordReaches.step {k : Fin 7} {s u v : State} (hw : u.work ≠ .idle) (h : RecordReaches k s u)
    (hs : engineStep tokenMeaning u = .next v) : RecordReaches k s v := by
  cases h with
  | complete _ hi => exact absurd hi hw
  | fault c _ _ _ => exact absurd rfl hw
  | running hf hu hr =>
    obtain ⟨t, ht, ⟨e, hg⟩ | ⟨c, e, hwork, hl⟩⟩ := engineStep_recordAnswer hu
    · obtain rfl : v = t := Host.Outcome.next.inj (hs.symm.trans e)
      rcases hg with ⟨w', hw', hr'⟩ | ⟨hi, _⟩
      · exact .running (hf.trans ht.frame) hw' (hr' hr)
      · exact .complete (hf.trans ht.frame) hi
    · obtain rfl : v = raiseFault c t := Host.Outcome.next.inj (hs.symm.trans e)
      exact .fault c (hf.trans ht.frame) (hwork.trans hu) (hl hr)

/-- The end of a record's decoding (43_audio_dpcm.md R202 to R211). -/
theorem runCommand_recordReaches {k : Fin 7} {s u : State} (hw : windowLegal s s.arg0 s.arg1 = true)
    (h : runCommand (recordStarted k s) = .next u) : RecordReaches k (recordStarted k s) u ∧ u.work = .idle := by
  have hwf : RecordWf k (recordStarted k s) .length :=
    ⟨s.setTrack_aoutLen k 0 [], hw, congrArg _ (s.setTrack_aout k 0 [])⟩
  obtain ⟨_, hu, _, hidle⟩ := runCommand_ends (s := recordStarted k s) (cursorInFrame_of_ne nofun)
  rw [h] at hu
  cases hu
  exact ⟨runSteps_invariant (fun _ _ => .step) (.running (.refl k _) rfl hwf) h, hidle⟩

/-- `v` is reached by a record's run, and `u` is its end, STATUS apart: all that changed since the command began belongs to
the track. -/
theorem decodesTrack_of_frame {k : Fin 7} {s u v : State} (hf : AudioFrame k (recordStarted k (startCommand 0x40 s)) v)
    (hu : AudioFrame k v { u with status := v.status }) (hi : u.work = .idle) : DecodesTrack k s u := by
  have hf := hf.trans hu
  unfold AudioFrame at hf
  have set_aout : ∀ m : List Host.Cell, (s.aout.set k []).set k m = s.aout.set k m := fun m => Vector.set_set ..
  have set_aoutLen : ∀ n : Word, (s.aoutLen.set k 0).set k n = s.aoutLen.set k n := fun n => Vector.set_set ..
  refine ⟨u.aout[k], u.aoutLen[k], ?_⟩
  rw [← set_aout, ← set_aoutLen, ← hi]
  exact congrArg (fun t => { t with status := u.status }) hf

/-- What a record's decoding leaves of the state the command began in. -/
theorem RecordReaches.decodesTrack {k : Fin 7} {s u : State} (h : RecordReaches k (recordStarted k (startCommand 0x40 s)) u)
    (hu : u.work = .idle) : DecodesTrack k s u ∧ (u.statusCause ≠ 0 → u.aoutLen[k] = 0) := by
  cases h with
  | running _ hw _ => exact absurd (hw.symm.trans hu) nofun
  | complete hf _ =>
    refine ⟨decodesTrack_of_frame hf (.refl k u) hu, fun hc => absurd ?_ hc⟩
    unfold AudioFrame at hf
    have hstatus : u.status = statusWord 0x40 0 := congrArg State.status hf
    rw [State.statusCause, hstatus, statusWord_cause]
  | @fault v w c hf hw hl =>
    refine ⟨decodesTrack_of_frame hf ?_ hu, fun _ => by rw [raiseFault_aoutLen]; exact hl⟩
    unfold AudioFrame
    rw [raiseFault_audio c hw]
    simp

/-- Everything AUD_DECODE of a track can do: its checks refuse the track, raw mode writes it or faults, or a record is
decoded (43_audio_dpcm.md R200 to R202). -/
theorem audDecode_cases {k : Fin 7} {s u : State} (hk : trackOperand s.arg2 = some k) (h : exec .audDecode s = .next u) :
    (∃ c, u = s.faulted 0x40 c ∧
      ¬ (windowLegal s s.arg0 s.arg1 = true ∧ trkExists s.trk[k] = true ∧ trkVariant s.trk[k] = 0)) ∨
    (∃ n m, u = startCommand 0x40 (s.setTrack k n m)) ∨
    u = (s.setTrack k 0 []).faulted 0x40 .audioLength ∨
    (trkCompressed s.trk[k] = true ∧ RecordReaches k (recordStarted k (startCommand 0x40 s)) u ∧ u.work = .idle) := by
  cases hw : windowLegal s s.arg0 s.arg1 with
  | false =>
    rw [audDecode_window hk hw] at h
    cases h
    exact .inl ⟨_, rfl, nofun⟩
  | true =>
    by_cases hb : trkExists s.trk[k] = false ∨ trkVariant s.trk[k] ≠ 0
    · rw [audDecode_badConfig hk hw hb] at h
      cases h
      refine .inl ⟨_, rfl, fun ⟨_, he, hv⟩ => ?_⟩
      exact hb.elim (fun hf => Bool.false_ne_true (hf.symm.trans he)) fun hf => hf hv
    · rw [not_or, Bool.not_eq_false, not_ne_iff] at hb
      obtain ⟨he, hv⟩ := hb
      cases hc : trkCompressed s.trk[k] with
      | false =>
        rw [audDecode_raw hk hw he hv hc] at h
        split at h
        · cases h
          exact .inr (.inl ⟨_, _, rfl⟩)
        · cases h
          exact .inr (.inr (.inl rfl))
      | true =>
        rw [audDecode_record hk hw he hv hc] at h
        obtain ⟨hr, hi⟩ := runCommand_recordReaches (s := startCommand 0x40 s) hw h
        exact .inr (.inr (.inr ⟨rfl, hr, hi⟩))

theorem decodesTrack_refl (k : Fin 7) (s : State) (status log : Half) :
    DecodesTrack k s { s with cmd := 0x40, status := status, log := log, work := .idle } :=
  ⟨s.aout[k], s.aoutLen[k], by simp⟩

theorem decodesTrack_setTrack (k : Fin 7) (s : State) (n : Word) (m : List Host.Cell) (status log : Half) :
    DecodesTrack k s { s.setTrack k n m with cmd := 0x40, status := status, log := log, work := .idle } :=
  ⟨m, n, rfl⟩

/-- Settles O39: each outcome of AUD_DECODE touches its track alone, and a fault past the checks finds the length 0. -/
theorem audDecodeIsolation : Obligations.AudDecodeIsolation := by
  unfold Obligations.AudDecodeIsolation
  intro s u k hk hu
  rcases audDecode_cases hk hu with ⟨c, rfl, hbad⟩ | ⟨n, m, rfl⟩ | rfl | ⟨hcomp, hr, hi⟩
  · exact ⟨decodesTrack_refl k s _ _, fun _ hw he hv => absurd ⟨hw, he, hv⟩ hbad, fun _ => ⟨rfl, rfl⟩⟩
  · exact ⟨decodesTrack_setTrack k s n m _ _, fun hc => absurd (startCommand_statusCause _ _) hc, fun _ => ⟨rfl, rfl⟩⟩
  · have hl := s.setTrack_aoutLen k 0 []
    exact ⟨decodesTrack_setTrack k s 0 [] _ _, fun _ _ _ _ => ⟨hl, hostReadAout_of_empty hl⟩, fun _ => ⟨rfl, rfl⟩⟩
  · obtain ⟨hd, hl⟩ := hr.decodesTrack hi
    exact ⟨hd, fun hc _ _ _ => ⟨hl hc, hostReadAout_of_empty (hl hc)⟩,
      fun hraw => absurd (hraw.symm.trans hcomp) Bool.false_ne_true⟩

end Sys2Proof.Machine
end

section
/-! The samples of a DPCM record: the addition that wraps (43_audio_dpcm.md R209) and the record whose deltas are all zero
(R212). -/

-- The package is compiled as one text: elaborating in order keeps the number of threads small.
set_option Elab.async false

namespace Sys2Proof.Machine

open Sys2Proof Sys2Proof.Config

/-! ### The addition -/

theorem addSample_wide (prev delta : Half) : addSample true prev delta = prev + delta := rfl

/-- An 8-bit sample stands in the low byte (43_audio_dpcm.md R209). -/
theorem addSample_narrow (prev delta : Half) :
    addSample false prev delta = (prev.setWidth 8 + delta.setWidth 8).setWidth 16 := rfl

/-- Adding a word read as a signed number is adding the word. -/
theorem ofInt_toNat_add_toInt {w : Nat} (x y : BitVec w) : BitVec.ofInt w (x.toNat + y.toInt) = x + y := by
  rw [BitVec.ofInt_add, BitVec.ofInt_natCast, BitVec.ofNat_toNat, BitVec.setWidth_eq, BitVec.ofInt_toInt]

theorem setWidth_add_narrow (prev delta : Half) :
    (addSample false prev delta).setWidth 8 = prev.setWidth 8 + delta.setWidth 8 := by
  rw [addSample_narrow]
  exact BitVec.setWidth_setWidth_of_le _ (by decide)

/-- Settles O33. -/
theorem sampleArithmetic : Obligations.SampleArithmetic := by
  unfold Obligations.SampleArithmetic
  intro prev delta
  refine ⟨BitVec.toNat_add _ _, ?_, ?_, ?_⟩
  · rw [addSample_narrow, BitVec.toNat_setWidth_of_le (by decide), BitVec.toNat_add, BitVec.toNat_setWidth,
      BitVec.toNat_setWidth]
  · rw [addSample_wide, ofInt_toNat_add_toInt]
  · rw [setWidth_add_narrow, ofInt_toNat_add_toInt]

/-! ### All deltas zero -/

/-- A delta of 0 repeats an 8-bit sample. -/
theorem addSample_narrow_zero (v : Byte) : addSample false (v.setWidth 16) 0 = v.setWidth 16 := by
  have hzero : (0 : Half).setWidth 8 = 0 := rfl
  rw [addSample_narrow, BitVec.setWidth_setWidth_of_le _ (by decide), hzero, add_zero,
    BitVec.setWidth_eq]

/-- The output of a mono 8-bit record whose deltas are all 0: its initial sample and a copy for each delta. -/
theorem recordBytes_zeroDeltas (v : Byte) (v1 : Half) (frames : Nat) :
    recordBytes false false (v.setWidth 16) v1 (List.replicate frames (0, 0)) = List.replicate (frames + 1) v := by
  have hframe : ∀ v1, frameBytes false false (v.setWidth 16) v1 = [v] := fun v1 => by
    simp [frameBytes, sampleBytes, lowByte_setWidth]
  induction frames generalizing v1 with
  | zero => exact hframe v1
  | succ frames ih =>
    rw [List.replicate_succ, recordBytes, hframe, addSample_narrow_zero, ih]
    rfl

/-- With the single leaf 0 as the tree of channel 0, deltas of 0 take no bits (30_encoding.md R102, R116). -/
theorem frameCodes_zeroDeltas {trees : RecordTrees} (h : trees.low0 = .present (.leaf 0)) (frames : Nat) :
    FrameCodes false false trees (List.replicate frames (0, 0)) [] := by
  induction frames with
  | zero => exact .nil
  | succ frames ih =>
    refine .mono (bits := []) rfl ?_ ih
    rw [h]
    exact .narrow (.leaf 0)

/-- Settles O38: the record codes its initial sample and deltas of 0 alone. -/
theorem allZeroDeltas : Obligations.AllZeroDeltas := by
  unfold Obligations.AllZeroDeltas
  intro s k n v hk hw h4 he hv hc hst hd hlen hpos hm hnodes ha
  have hn : n.toNat - 1 + 1 = n.toNat := Nat.succ_pred_eq_of_pos hpos
  have hbytes := recordBytes_zeroDeltas v 0 (n.toNat - 1)
  rw [hn] at hbytes
  have hrec := dpcmRecordDecodes s k n ⟨.present (.leaf 0), .absent, .absent, .absent⟩ (v.setWidth 16) 0
    (List.replicate (n.toNat - 1) (0, 0)) []
  simp only [hst, hd, RecordTrees.bits, initBits, lowByte_setWidth, hbytes, Bool.false_eq_true, if_false,
    List.append_nil, List.length_replicate] at hrec
  obtain ⟨u, m, hu, heq, hread⟩ := hrec hk hw h4 he hv hc hlen hm ⟨fun _ => ⟨rfl, rfl⟩, fun _ => ⟨rfl, rfl⟩⟩
    ⟨hnodes, rfl, rfl, rfl⟩ (frameCodes_zeroDeltas rfl _) trivial ha
  refine ⟨u, hu, congrArg State.status heq, ?_, fun a => ?_⟩
  · have hout : u.aoutLen = s.aoutLen.set k n := congrArg State.aoutLen heq
    rw [hout]
    exact Vector.getElem_set_self _
  · rw [hread, List.getElem?_replicate]

end Sys2Proof.Machine
end

section
/-! The tokens of a DPCM record before its deltas (30_encoding.md R112 to R115; 43_audio_dpcm.md R202 to R207, R210): its
length, its header, its trees and its initial samples. -/

-- The package is compiled as one text: elaborating in order keeps the number of threads small.
set_option Elab.async false

namespace Sys2Proof.Machine

open Sys2Proof Sys2Proof.Config

/-! ### Length and header -/

/-- DPCM.N (43_audio_dpcm.md R202). -/
theorem dpcmN_audio {s : State} {k : Fin 7} (n : Word) (h : s.work = .audio k .length) (h4 : 4 ≤ s.arg1.toNat) :
    exec (.dpcmN n) s = .next (((s.openWindow (s.arg0 + 4) (s.arg1 - 4)).clearAtree).setWork (.audio k (.header n))) := by
  show execDpcmN n s = _
  simp only [execDpcmN, h]
  refine perform_ok ?_
  simp only [dpcmLength, ops_bind, ops_get, Nat.not_lt.2 h4, if_false, ops_set]

/-- DPCM.HEADER runs the checks of steps 3 and 4 (43_audio_dpcm.md R204, R205). -/
theorem dpcmHeader_audio {s : State} {k : Fin 7} {n : Word} (stereo depth16 : Bool) (h : s.work = .audio k (.header n)) :
    exec (.dpcmHeader stereo depth16) s = perform (dpcmHeaderCheck k n stereo depth16) s := by
  show execDpcmHeader stereo depth16 s = _
  simp only [execDpcmHeader, h]

/-- The header bits differ from the track's descriptor (43_audio_dpcm.md R204). -/
def headerDiffers (d : Word) (stereo depth16 : Bool) : Bool := stereo != trkStereo d || depth16 != trkDepth16 d

theorem headerDiffers_eq_false {d : Word} {stereo depth16 : Bool} :
    headerDiffers d stereo depth16 = false ↔ stereo = trkStereo d ∧ depth16 = trkDepth16 d := by
  simp [headerDiffers]

/-- A mismatch that the policy does not forgive (43_audio_dpcm.md R204). -/
theorem dpcmHeaderCheck_terminates {k : Fin 7} {n : Word} {stereo depth16 : Bool} {s : State}
    (hd : headerDiffers s.trk[k] stereo depth16 = true) (hp : s.params.mismatchPolicy = .terminate) :
    dpcmHeaderCheck k n stereo depth16 s = .error .audioConfigMismatch s := by
  unfold headerDiffers at hd
  simp only [dpcmHeaderCheck, ops_bind, ops_get, hd, hp, beq_self_eq_true, Bool.and_self, if_true, ops_throw]

/-- The length is checked after the header: `log` is what the header left of LOG (43_audio_dpcm.md R204, R205). -/
theorem dpcmHeaderCheck_length {k : Fin 7} {n : Word} {stereo depth16 : Bool} {s : State} {log : Half}
    (h : (headerDiffers s.trk[k] stereo depth16 = false ∧ log = s.log) ∨
      (headerDiffers s.trk[k] stereo depth16 = true ∧ s.params.mismatchPolicy = .continueDeclared ∧
        log = logWith s.log .audioConfigMismatch)) :
    dpcmHeaderCheck k n stereo depth16 s =
      if badLength s k n then .error .audioLength { s with log := log }
      else .ok () { s with log := log, work := .audio k (.trees n 0 .control) } := by
  unfold headerDiffers at h
  rcases h with ⟨hd, rfl⟩ | ⟨hd, hp, rfl⟩
  · simp only [dpcmHeaderCheck, ops_bind, ops_get, hd, Bool.false_and, Bool.false_eq_true, if_false, ops_set]
    split <;> rfl
  · have hne : (MismatchPolicy.continueDeclared == MismatchPolicy.terminate) = false := rfl
    simp only [dpcmHeaderCheck, ops_bind, ops_get, hd, hp, hne, Bool.and_false, Bool.false_eq_true, if_false, if_true,
      ops_set]
    split <;> rfl

/-- What makes a length illegal (43_audio_dpcm.md R205). -/
theorem badLength_iff {s : State} {k : Fin 7} {n : Word} : badLength s k n = true ↔
    n.toNat < trkFrame s.trk[k] ∨ n.toNat % trkFrame s.trk[k] ≠ 0 ∨ ∃ m, s.params.aoutMax = some m ∧ m < n.toNat := by
  have hcap : within s.params.aoutMax n.toNat = false ↔ ∃ m, s.params.aoutMax = some m ∧ m < n.toNat := by
    cases s.params.aoutMax with
    | none => simp [within]
    | some m => simp [within]
  rw [badLength, Bool.or_eq_true, Bool.or_eq_true, decide_eq_true_eq, bne_iff_ne, Bool.not_eq_true', hcap, or_assoc]

/-- Settles O31, token by token. -/
theorem dpcmHeaderTokens : Obligations.DpcmHeaderTokens := by
  unfold Obligations.DpcmHeaderTokens
  intro s k n
  refine ⟨fun h h4 => dpcmN_audio n h h4, fun stereo depth16 h => ?_, badLength_iff⟩
  rw [dpcmHeader_audio stereo depth16 h, ← headerDiffers_eq_false, Bool.not_eq_false]
  have agrees := fun hd => dpcmHeaderCheck_length (s := s) (k := k) (n := n) (stereo := stereo) (depth16 := depth16)
    (.inl ⟨hd, rfl⟩)
  have forgiven := fun hd hp => dpcmHeaderCheck_length (s := s) (k := k) (n := n) (stereo := stereo) (depth16 := depth16)
    (.inr ⟨hd, hp, rfl⟩)
  refine ⟨fun hd hn => ?good, fun hd hn => ?length, fun hd hp => ?mismatch, fun hd hp hn => ?forgiven,
    fun hd hp hn => ?forgivenLength⟩
  case good => exact perform_ok ((agrees hd).trans (if_neg (Bool.eq_false_iff.1 hn)))
  case length => exact perform_error ((agrees hd).trans (if_pos hn))
  case mismatch => exact perform_error (dpcmHeaderCheck_terminates hd hp)
  case forgiven => exact perform_ok ((forgiven hd hp).trans (if_neg (Bool.eq_false_iff.1 hn)))
  case forgivenLength => exact perform_error ((forgiven hd hp).trans (if_pos hn))

/-! ### Trees -/

/-- A finished tree goes to its slot, and the next slot in use, or the initial samples, follow (43_audio_dpcm.md R206). -/
theorem putSmall_done_record {s : State} {k : Fin 7} {n : Word} {slot : Fin 4} {w : SmallWork}
    (h : s.work = .audio k (.trees n slot w)) (tree : SmallTree) :
    putSmall (.done tree) s =
      (s.setAtree slot tree).setWork (.audio k (afterTree n (nextTreeSlot s.trk[k] slot))) := by
  simp only [putSmall, h]
  cases nextTreeSlot s.trk[k] slot <;> rfl

/-- The order of the slots in use (30_encoding.md R114). -/
theorem afterTree_nextTreeSlot (n : Word) (d : Word) (k : Fin 7) (slot : Fin 4) :
    Work.audio k (afterTree n (nextTreeSlot d slot)) =
      match slot, trkStereo d, trkDepth16 d with
      | 0, _, true => .audio k (.trees n 1 .control)
      | 0, true, false => .audio k (.trees n 2 .control)
      | 1, true, _ => .audio k (.trees n 2 .control)
      | 2, _, true => .audio k (.trees n 3 .control)
      | _, _, _ => .audio k (.init n []) := by
  unfold nextTreeSlot
  match slot with
  | 0 => cases trkDepth16 d <;> cases trkStereo d <;> rfl
  | 1 => cases trkStereo d <;> rfl
  | 2 => cases trkDepth16 d <;> cases trkStereo d <;> rfl
  | 3 => cases trkDepth16 d <;> cases trkStereo d <;> rfl

/-! ### Initial samples -/

/-- The sample a token of an initial sample holds, read where the track's width is `wide` (30_encoding.md R115). -/
def HoldsSample (wide : Bool) (i : Instr) (v : Half) : Prop :=
  (∃ value : Byte, i = .dpcmInit8 value ∧ v = value.setWidth 16 ∧ wide = false) ∨
    (∃ hi lo : Byte, i = .dpcmInit16 hi lo ∧ v = hi ++ lo ∧ wide = true)

theorem HoldsSample.exec {s : State} {k : Fin 7} {n : Word} {got : List Half} {i : Instr} {v : Half}
    (hi : HoldsSample (trkDepth16 s.trk[k]) i v) (h : s.work = .audio k (.init n got)) :
    exec i s = .next (dpcmInitial k n got v s) := by
  rcases hi with ⟨value, rfl, rfl, hd⟩ | ⟨hi, lo, rfl, rfl, hd⟩
  · show execDpcmInit8 value s = _
    simp only [execDpcmInit8, h, hd, Bool.false_eq_true, if_false]
  · show execDpcmInit16 hi lo s = _
    simp only [execDpcmInit16, h, hd, if_true]

/-- What an update of the output of track `k` alone looks like. -/
theorem audioNext_setAout (k : Fin 7) (n : Word) (out : Nat) (p0 p1 : Half) (m : List Host.Cell) (s : State) :
    audioNext k n out p0 p1 (s.setAout k m) = { s with
      aout := s.aout.set k m
      aoutLen := if out < n.toNat then s.aoutLen else s.aoutLen.set k n
      work := if out < n.toNat then .audio k (.deltas n out p0 p1) else .idle } := by
  unfold audioNext
  split <;> rfl

/-- The bytes of the samples of one frame, written at `out` (43_audio_dpcm.md R210). -/
def frameOut (k : Fin 7) (out : Nat) (v0 v1 : Half) (s : State) : State :=
  if trkStereo s.trk[k] then emitSample k (out + trkBytes s.trk[k]) v1 (emitSample k out v0 s) else emitSample k out v0 s

theorem frameOut_eq (k : Fin 7) (out : Nat) (v0 v1 : Half) (s : State) :
    frameOut k out v0 v1 s = s.setAout k (frameOut k out v0 v1 s).aout[k] := by
  unfold frameOut
  split
  · rw [emitSample_eq k (out + trkBytes s.trk[k]) v1, emitSample_eq k out v0 s]
    simp [State.setAout]
  · exact emitSample_eq k out v0 s

/-- The bytes of a frame stand at its place, channel 0's first; the others stay (43_audio_dpcm.md R210). -/
theorem frameOut_read (k : Fin 7) (out : Nat) (v0 v1 : Half) (s : State) (a : Nat) :
    Memory.read outBlank (frameOut k out v0 v1 s).aout[k] a =
      if out ≤ a ∧ a < out + trkFrame s.trk[k] then
        (frameBytes (trkStereo s.trk[k]) (trkDepth16 s.trk[k]) v0 v1)[a - out]?
      else Memory.read outBlank s.aout[k] a := by
  unfold frameOut
  cases hst : trkStereo s.trk[k] with
  | false =>
    simp only [Bool.false_eq_true, if_false, emitSample_read, trkFrame_mono hst, frameBytes, List.append_nil]
  | true =>
    have hlen := sampleBytes_trkBytes s.trk[k] v0
    rw [if_pos rfl, emitSample_read, emitSample_trk, emitSample_read, trkFrame_stereo hst, frameBytes, if_pos rfl,
      List.getElem?_append, hlen]
    by_cases h1 : a < out + trkBytes s.trk[k]
    · by_cases h0 : out ≤ a
      · rw [if_neg (by omega), if_pos ⟨h0, h1⟩, if_pos (by omega), if_pos (by omega)]
      · rw [if_neg (by omega), if_neg (by omega), if_neg (by omega)]
    · by_cases h2 : a < out + trkBytes s.trk[k] + trkBytes s.trk[k]
      · rw [if_pos (by omega), if_pos (by omega), if_neg (by omega), Nat.sub_sub]
      · rw [if_neg (by omega), if_neg (by omega), if_neg (by omega)]

/-- The last initial sample: the first frame is written, channel 0's sample first (43_audio_dpcm.md R207). -/
theorem dpcmInitial_last {k : Fin 7} {n : Word} {got : List Half} {ch1 v : Half} {s : State}
    (h : (trkStereo s.trk[k] = true ∧ got = [ch1]) ∨ (trkStereo s.trk[k] = false ∧ got = [] ∧ ch1 = 0)) :
    dpcmInitial k n got v s = audioNext k n (trkFrame s.trk[k]) v ch1 (frameOut k 0 v ch1 s) := by
  unfold frameOut
  rcases h with ⟨hst, rfl⟩ | ⟨hst, rfl, rfl⟩
  · simp only [dpcmInitial, hst, if_true, trkFrame_stereo hst, Nat.zero_add]
  · simp only [dpcmInitial, hst, Bool.false_eq_true, if_false, trkFrame_mono hst]

/-- Settles O32. -/
theorem dpcmTreeAndInitTokens : Obligations.DpcmTreeAndInitTokens := by
  unfold Obligations.DpcmTreeAndInitTokens
  intro s k n
  refine ⟨fun slot w i tree ht h => ?tree, fun i v hv => ⟨fun h hst => ?first, fun got ch1 h hgot => ?last⟩⟩
  case tree =>
    have hexec : exec i s = .next (putSmall (.done tree) s) := by
      rcases ht with ⟨rfl, rfl, rfl⟩ | ⟨root, rfl, rfl, rfl⟩
      · exact tree8Absent_small (by rw [h]; rfl)
      · exact treeTerm_small (by rw [h]; rfl)
    rw [hexec, putSmall_done_record h, afterTree_nextTreeSlot]
    rfl
  case first =>
    rw [HoldsSample.exec hv h]
    simp only [dpcmInitial, hst]
    rfl
  case last =>
    refine ⟨(frameOut k 0 v ch1 s).aout[k], ?_, fun a => ?_⟩
    · rw [HoldsSample.exec hv h, dpcmInitial_last hgot]
      exact congrArg _ ((congrArg _ (frameOut_eq k 0 v ch1 s)).trans (audioNext_setAout ..))
    · have hread := frameOut_read k 0 v ch1 s a
      simpa using hread

end Sys2Proof.Machine
end

section
/-! One sample frame of the delta loop (43_audio_dpcm.md R208 to R211): the step that writes it, and the faults of its lookups
with the position they leave (60_exceptions.md R297). -/

-- The package is compiled as one text: elaborating in order keeps the number of threads small.
set_option Elab.async false

namespace Sys2Proof.Machine

open Sys2Proof Sys2Proof.Config

/-! ### A frame whose code words are ahead -/

/-- Writing a sample and moving the position do not touch each other. -/
theorem emitSample_setBs (k : Fin 7) (out : Nat) (v : Half) (s : State) (b : BitStream) :
    emitSample k out v (s.setBs b) = (emitSample k out v s).setBs b := by
  unfold emitSample
  rw [State.setBs_trk]
  split <;> rfl

section
variable {s : State} {k : Fin 7} {n : Word} {out : Nat} {p0 p1 d0 d1 : Half} {bits0 bits1 : List Bool}

/-- A mono frame (43_audio_dpcm.md R208). -/
theorem deltaFrame_mono (hst : trkStereo s.trk[k] = false)
    (hc0 : DeltaCode (trkDepth16 s.trk[k]) s.atree[0] s.atree[1] bits0 d0) (ha : s.Ahead bits0) (v1 : Half) :
    deltaFrame k n out p0 p1 s = .ok () (audioNext k n (out + trkFrame s.trk[k])
      (addSample (trkDepth16 s.trk[k]) p0 d0) p1
      (frameOut k out (addSample (trkDepth16 s.trk[k]) p0 d0) v1 (s.setBs (s.bs.skip bits0.length)))) := by
  have h0 := deltaSample_code (lo := 0) (hi := 1) (out := out) (prev := p0) rfl rfl rfl hc0 ha
  simp only [deltaFrame, ops_bind, ops_get, h0, hst, Bool.false_eq_true, if_false, ops_modify, trkFrame_mono hst,
    frameOut, State.setBs_trk]

/-- A stereo frame: channel 0's code words, then channel 1's (43_audio_dpcm.md R208). -/
theorem deltaFrame_stereo (hst : trkStereo s.trk[k] = true)
    (hc0 : DeltaCode (trkDepth16 s.trk[k]) s.atree[0] s.atree[1] bits0 d0)
    (hc1 : DeltaCode (trkDepth16 s.trk[k]) s.atree[2] s.atree[3] bits1 d1) (ha : s.Ahead (bits0 ++ bits1)) :
    deltaFrame k n out p0 p1 s = .ok () (audioNext k n (out + trkFrame s.trk[k])
      (addSample (trkDepth16 s.trk[k]) p0 d0) (addSample (trkDepth16 s.trk[k]) p1 d1)
      (frameOut k out (addSample (trkDepth16 s.trk[k]) p0 d0) (addSample (trkDepth16 s.trk[k]) p1 d1)
        (s.setBs (s.bs.skip (bits0 ++ bits1).length)))) := by
  have h0 := deltaSample_code (lo := 0) (hi := 1) (out := out) (prev := p0) rfl rfl rfl hc0 ha.left
  obtain ⟨rest, hr⟩ := State.ahead_iff.1 ha
  rw [List.append_assoc] at hr
  obtain ⟨hle, hr1⟩ := remaining_after hr
  generalize hv0 : addSample (trkDepth16 s.trk[k]) p0 d0 = v0 at h0 ⊢
  rw [emitSample_setBs] at h0
  have htrk : ((emitSample k out v0 s).setBs (s.bs.skip bits0.length)).trk = s.trk := emitSample_trk ..
  have hatree : ((emitSample k out v0 s).setBs (s.bs.skip bits0.length)).atree = s.atree := emitSample_atree ..
  have hin : ((emitSample k out v0 s).setBs (s.bs.skip bits0.length)).inMem = s.inMem := emitSample_inMem ..
  have ha1 : ((emitSample k out v0 s).setBs (s.bs.skip bits0.length)).Ahead bits1 :=
    State.ahead_iff.2 ⟨rest, by rw [hin]; exact hr1⟩
  have h1 := deltaSample_code (lo := 2) (hi := 3) (out := out + trkBytes s.trk[k]) (prev := p1) (congrArg (·[k]) htrk)
    (congrArg (·[2]) hatree) (congrArg (·[3]) hatree) hc1 ha1
  simp only [deltaFrame, ops_bind, ops_get, h0, h1, hst, if_true, ops_modify, trkFrame_stereo hst, frameOut,
    State.setBs_trk, emitSample_setBs, State.setBs_setBs, State.setBs_bs, BitStream.skip_skip hle, List.length_append,
    Nat.add_assoc]

/-- A frame whose code words are ahead (43_audio_dpcm.md R208). -/
theorem deltaFrame_codes (hc0 : DeltaCode (trkDepth16 s.trk[k]) s.atree[0] s.atree[1] bits0 d0)
    (hc1 : trkStereo s.trk[k] = true → DeltaCode (trkDepth16 s.trk[k]) s.atree[2] s.atree[3] bits1 d1)
    (hmono : trkStereo s.trk[k] = false → bits1 = []) (ha : s.Ahead (bits0 ++ bits1)) :
    deltaFrame k n out p0 p1 s = .ok () (audioNext k n (out + trkFrame s.trk[k])
      (addSample (trkDepth16 s.trk[k]) p0 d0)
      (if trkStereo s.trk[k] then addSample (trkDepth16 s.trk[k]) p1 d1 else p1)
      (frameOut k out (addSample (trkDepth16 s.trk[k]) p0 d0) (addSample (trkDepth16 s.trk[k]) p1 d1)
        (s.setBs (s.bs.skip (bits0 ++ bits1).length)))) := by
  cases hst : trkStereo s.trk[k] with
  | false =>
    obtain rfl := hmono hst
    rw [List.append_nil] at ha ⊢
    exact deltaFrame_mono hst hc0 ha _
  | true => exact deltaFrame_stereo hst hc0 (hc1 hst) ha

end

/-! ### The lookups of a frame -/

/-- The slots of the deltas of one channel (30_encoding.md R116). -/
def channelSlots (wide : Bool) (lo hi : Fin 4) : List (Fin 4) := lo :: if wide then [hi] else []

theorem deltaSlots_eq (stereo wide : Bool) :
    deltaSlots stereo wide = channelSlots wide 0 1 ++ if stereo then channelSlots wide 2 3 else [] := rfl

/-- An element of two lists in a row stands in the first or in the second. -/
theorem append_eq_append_cons {α : Type} {xs ys before later : List α} {x : α} (h : xs ++ ys = before ++ x :: later) :
    (∃ rest, xs = before ++ x :: rest) ∨ ∃ rest, before = xs ++ rest ∧ ys = rest ++ x :: later := by
  rcases List.append_eq_append_iff.1 h with ⟨rest, hb, hy⟩ | ⟨rest, hx, hl⟩
  · exact .inr ⟨rest, hb, hy⟩
  · cases rest with
    | nil => exact .inr ⟨[], by rw [hx, List.append_nil, List.append_nil], hl.symm⟩
    | cons y rest =>
      obtain ⟨rfl, _⟩ := List.cons.inj hl
      exact .inl ⟨rest, hx⟩

theorem SlotCodes.append {s : State} {xs ys : List (Fin 4)} : ∀ {bits : List Bool}, SlotCodes s (xs ++ ys) bits →
    ∃ bits0 bits1, bits = bits0 ++ bits1 ∧ SlotCodes s xs bits0 ∧ SlotCodes s ys bits1 := by
  induction xs with
  | nil => exact fun h => ⟨[], _, rfl, .nil, h⟩
  | cons x xs ih =>
    rintro _ (_ | ⟨ht, hc, hrest⟩)
    obtain ⟨bits0, bits1, rfl, h0, h1⟩ := ih hrest
    exact ⟨_, bits1, (List.append_assoc ..).symm, .cons ht hc h0, h1⟩

theorem SlotCodes.of_atree {s t : State} {slots : List (Fin 4)} {bits : List Bool} (hc : SlotCodes s slots bits)
    (h : t.atree = s.atree) : SlotCodes t slots bits := by
  induction hc with
  | nil => exact .nil
  | cons ht hw _ ih => exact .cons (by rw [h]; exact ht) hw ih

/-- Code words of the trees of a channel are a delta (30_encoding.md R116). -/
theorem SlotCodes.deltaCode {s : State} {wide : Bool} {lo hi : Fin 4} {bits : List Bool}
    (h : SlotCodes s (channelSlots wide lo hi) bits) : ∃ d, DeltaCode wide s.atree[lo] s.atree[hi] bits d := by
  cases h with
  | cons hlo hl hrest =>
    cases wide with
    | false =>
      cases hrest
      rw [hlo, List.append_nil]
      exact ⟨_, .narrow hl⟩
    | true =>
      cases hrest with
      | cons hhi hh hnil =>
        cases hnil
        rw [hlo, hhi, List.append_nil]
        exact ⟨_, .wide hl hh⟩

/-! ### Faults -/

section
variable {s : State} {k : Fin 7} {n : Word} {out : Nat} {p0 p1 prev : Half} {lo hi slot : Fin 4}
  {before later : List (Fin 4)} {bits : List Bool} {c : Cause} {b : BitStream}

/-- A lookup that fails behind the code words of the lookups before it fails the delta (43_audio_dpcm.md R208). -/
theorem readDelta_fails (hs : channelSlots (trkDepth16 s.trk[k]) lo hi = before ++ slot :: later)
    (hc : SlotCodes s before bits) (ha : s.Ahead bits)
    (hf : stLookup s.inMem s.atree[slot] (s.bs.skip bits.length) = .error c b) :
    readDelta k lo hi s = .error c (s.setBs b) := by
  unfold channelSlots at hs
  simp only [readDelta, ops_bind, ops_get]
  cases before with
  | nil =>
    obtain ⟨rfl, _⟩ := List.cons.inj hs
    cases hc
    rw [List.length_nil, BitStream.skip_zero] at hf
    rw [reading_error hf]
  | cons x before =>
    obtain ⟨rfl, hnext⟩ := List.cons.inj hs
    cases hd : trkDepth16 s.trk[k] with
    | false =>
      rw [hd, if_neg Bool.false_ne_true] at hnext
      simp at hnext
    | true =>
      rw [hd, if_pos rfl] at hnext
      obtain ⟨rfl, rfl⟩ : before = [] ∧ slot = hi := by
        cases before with
        | nil => exact ⟨rfl, (List.cons.inj hnext).1.symm⟩
        | cons y before => simp at hnext
      cases hc with
      | cons hlo hl hnil =>
        cases hnil
        obtain ⟨rest, hr⟩ := State.ahead_iff.1 ha
        rw [List.append_nil] at hf hr
        rw [hlo, reading_ok (stLookup_code hl hr)]
        dsimp only
        rw [if_pos rfl, ops_bind, reading_error (s := s.setBs _) hf]
        rfl

/-- A sample whose delta fails is not written. -/
theorem deltaSample_fails (h : readDelta k lo hi s = .error c (s.setBs b)) :
    deltaSample k lo hi prev out s = .error c (s.setBs b) := by
  simp only [deltaSample, ops_bind, h]

/-- A failing lookup fails the frame: nothing but the position and the bytes of the track has changed (43_audio_dpcm.md
R208, R211). -/
theorem deltaFrame_fails (hs : deltaSlots (trkStereo s.trk[k]) (trkDepth16 s.trk[k]) = before ++ slot :: later)
    (hc : SlotCodes s before bits) (ha : s.Ahead bits)
    (hf : stLookup s.inMem s.atree[slot] (s.bs.skip bits.length) = .error c b) :
    ∃ m, deltaFrame k n out p0 p1 s = .error c ((s.setBs b).setAout k m) := by
  rw [deltaSlots_eq] at hs
  rcases append_eq_append_cons hs with ⟨rest, hs0⟩ | ⟨rest, rfl, hs1⟩
  · have h0 := deltaSample_fails (prev := p0) (out := out) (readDelta_fails hs0 hc ha hf)
    refine ⟨s.aout[k], ?_⟩
    simp only [deltaFrame, ops_bind, ops_get, h0]
    simp [State.setAout, State.setBs]
  · cases hst : trkStereo s.trk[k] with
    | false =>
      rw [hst, if_neg Bool.false_ne_true] at hs1
      simp at hs1
    | true =>
      rw [hst, if_pos rfl] at hs1
      obtain ⟨bits0, bits1, rfl, hc0, hc1⟩ := hc.append
      obtain ⟨d, hd⟩ := hc0.deltaCode
      have h0 := deltaSample_code (lo := 0) (hi := 1) (out := out) (prev := p0) rfl rfl rfl hd ha.left
      obtain ⟨tail, hr⟩ := State.ahead_iff.1 ha
      rw [List.append_assoc] at hr
      obtain ⟨hle, hr1⟩ := remaining_after hr
      rw [emitSample_setBs, emitSample_eq] at h0
      generalize (emitSample k out (addSample (trkDepth16 s.trk[k]) p0 d) s).aout[k] = m at h0
      rw [List.length_append, ← BitStream.skip_skip hle] at hf
      have hfail := deltaSample_fails (prev := p1) (out := out + trkBytes s.trk[k])
        (readDelta_fails (s := (s.setAout k m).setBs (s.bs.skip bits0.length)) hs1
          (hc1.of_atree (t := (s.setAout k m).setBs (s.bs.skip bits0.length)) rfl) ⟨tail, hr1.symm⟩ hf)
      refine ⟨m, ?_⟩
      simp only [deltaFrame, ops_bind, ops_get, h0, hst, if_true, hfail]
      rfl

end

/-- A failing lookup ends the command: the bytes of the track lose their value, its length and the small trees stay
(43_audio_dpcm.md R211; 60_exceptions.md R294). -/
theorem step_deltas_fails {s : State} {k : Fin 7} {n : Word} {out : Nat} {p0 p1 : Half} {before later : List (Fin 4)}
    {slot : Fin 4} {bits : List Bool} {c : Cause} {b : BitStream} (h : s.work = .audio k (.deltas n out p0 p1))
    (hs : deltaSlots (trkStereo s.trk[k]) (trkDepth16 s.trk[k]) = before ++ slot :: later) (hc : SlotCodes s before bits)
    (ha : s.Ahead bits) (hf : stLookup s.inMem s.atree[slot] (s.bs.skip bits.length) = .error c b) :
    step s = .next { s with
      bs := b, aout := s.aout.set k []
      status := statusWord s.statusCmd c.code, log := logWith s.log c, work := .idle } := by
  obtain ⟨m, hm⟩ := deltaFrame_fails (n := n) (out := out) (p0 := p0) (p1 := p1) hs hc ha hf
  rw [step_running (by rw [h]; nofun), engineStep_deltas h, perform_error hm,
    raiseFault_audio (s := (s.setBs b).setAout k m) c h]
  have hset : (s.aout.set k m).set k [] = s.aout.set k [] := Vector.set_set ..
  rw [← hset]
  rfl

/-- A lookup with no code word of its tree ahead uses up the window (41_small_tree.md R152; 60_exceptions.md R297). -/
theorem stLookup_exhausted_behind {s : State} {root : Node} {bits : List Bool} (ha : s.Ahead bits)
    (hn : ∀ code v, CodeWord root code v → ¬ s.Ahead (bits ++ code)) :
    stLookup s.inMem (.present root) (s.bs.skip bits.length) = .error .exhausted (s.bs.skip s.bs.left) := by
  obtain ⟨rest, hr⟩ := State.ahead_iff.1 ha
  obtain ⟨hle, hrest⟩ := remaining_after hr
  rw [stLookup_exhausted fun code v hcw hcode => hn code v hcw ?_, BitStream.skip_skip hle, BitStream.left_skip hle,
    Nat.add_sub_cancel' hle]
  obtain ⟨tail, htail⟩ := hcode
  exact State.ahead_iff.2 ⟨tail, by rw [hr, ← hrest, ← htail, List.append_assoc]⟩

/-- Settles O34: the frame's code words are read and its bytes written; a failing lookup ends the command. -/
theorem deltaFrameResult : Obligations.DeltaFrameResult := by
  unfold Obligations.DeltaFrameResult
  refine ⟨fun s k n out p0 p1 d0 d1 bits0 bits1 h hc0 hc1 hmono ha => ?frame,
    fun s k n out p0 p1 before later slot bits h hs hc ha => ⟨fun habsent => ?absent, fun root hroot hn => ?exhausted⟩⟩
  case frame =>
    refine ⟨_, ?_, frameOut_read k out _ _ (s.setBs (s.bs.skip (bits0 ++ bits1).length))⟩
    rw [step_running (by rw [h]; nofun), engineStep_deltas h, perform_ok (deltaFrame_codes hc0 hc1 hmono ha)]
    exact congrArg _ ((congrArg _ (frameOut_eq ..)).trans (audioNext_setAout ..))
  case absent => exact step_deltas_fails (c := .absentTree) h hs hc ha (by rw [habsent]; rfl)
  case exhausted =>
    exact step_deltas_fails (c := .exhausted) h hs hc ha (by rw [hroot]; exact stLookup_exhausted_behind ha hn)

end Sys2Proof.Machine
end

section
/-! The scan over the blocks of a frame (44_video_blocks.md R232, R235, R242): where the cursor may stand, and a run of
blocks taken one block at a time. -/

-- The package is compiled as one text: elaborating in order keeps the number of threads small.
set_option Elab.async false

namespace Sys2Proof.Machine

open Sys2Proof Sys2Proof.Config

/-! ### Where the cursor stands -/

/-- The cursor is at a block of the frame, or at its end: row HEIGHT, column 0 (44_video_blocks.md R242). -/
def ScanWf (s : State) : Prop := FrameWf s ∧ (¬ s.scanRow < s.height → s.scanRow = s.height ∧ s.scanCol = 0)

theorem InFrame.scanWf {s : State} (h : InFrame s) : ScanWf s := ⟨h.1, absurd h.2⟩

theorem FrameWf.scanWf_advance {s : State} (h : FrameWf s) (hr : s.scanRow < s.height) : ScanWf (advanceScan s) :=
  h.advance hr

/-- The end of the frame counts as the block behind the last one. -/
theorem ScanWf.blockNumber_end {s : State} (h : ScanWf s) (hr : ¬ s.scanRow < s.height) :
    blockNumber s = frameBlocks s := by
  obtain ⟨hrow, hcol⟩ := h.2 hr
  rw [blockNumber, hrow, hcol, frameBlocks, Nat.mul_comm]
  rfl

theorem ScanWf.row_lt_iff {s : State} (h : ScanWf s) : s.scanRow < s.height ↔ blockNumber s < frameBlocks s := by
  refine ⟨h.1.blockNumber_lt, fun hlt => ?_⟩
  by_contra hr
  exact Nat.ne_of_lt hlt (h.blockNumber_end hr)

theorem ScanWf.blockNumber_le {s : State} (h : ScanWf s) : blockNumber s ≤ frameBlocks s := by
  by_cases hr : s.scanRow < s.height
  · exact Nat.le_of_lt (h.1.blockNumber_lt hr)
  · exact Nat.le_of_eq (h.blockNumber_end hr)

@[simp] theorem advanceScan_width (s : State) : (advanceScan s).width = s.width := by rw [advanceScan_frame]
@[simp] theorem advanceScan_height (s : State) : (advanceScan s).height = s.height := by rw [advanceScan_frame]
@[simp] theorem advanceScan_fb (s : State) : (advanceScan s).fb = s.fb := by rw [advanceScan_frame]

theorem frameBlocks_advance (s : State) : frameBlocks (advanceScan s) = frameBlocks s :=
  (videoFrame_advance s).frameBlocks_eq

/-- Settles O41: the block behind the one at the cursor, counted, says whether the cursor has left the last row. -/
theorem cursorVisitsNextBlock : Obligations.CursorVisitsNextBlock := by
  unfold Obligations.CursorVisitsNextBlock
  intro s hf hr
  have hs := hf.scanWf_advance hr
  have hnext := hf.blockNumber_advance hr
  have hlast := hs.row_lt_iff
  rw [advanceScan_height, hnext, frameBlocks_advance] at hlast
  refine ⟨hs.1, hnext, hlast, fun hend => (hs.2 fun hlt => ?_).2⟩
  rw [hend, advanceScan_height, BitVec.lt_def] at hlt
  exact Nat.lt_irrefl _ hlt

/-! ### A run of blocks -/

section
variable {draw : Engine Unit} {n : Nat} {s t : State} {c : Cause}

theorem drawRun_draws (hr : s.scanRow < s.height) (h : draw s = .ok () t) :
    drawRun draw (n + 1) s = drawRun draw n (advanceScan t) := by
  simp only [drawRun, ops_bind, ops_get, hr, if_true, h, ops_modify]

theorem drawRun_faults (hr : s.scanRow < s.height) (h : draw s = .error c t) :
    drawRun draw (n + 1) s = .error c t := by
  simp only [drawRun, ops_bind, ops_get, hr, if_true, h]

theorem blockRun_eq (draw : Engine Unit) (n : Nat) (s : State) :
    blockRun draw n s = match drawRun draw n s with
      | .ok _ t => .next (endGroup t)
      | .error c t => .next (raiseFault c t) := by
  rw [blockRun, perform, ops_bind]
  cases drawRun draw n s <;> rfl

/-- A run of one more block: the block, the advance, the rest (44_video_blocks.md R232). -/
theorem blockRun_draws (hr : s.scanRow < s.height) (h : draw s = .ok () t) :
    blockRun draw (n + 1) s = blockRun draw n (advanceScan t) := by
  rw [blockRun_eq, drawRun_draws hr h, ← blockRun_eq]

/-- A fault in the first block of a run ends the command there (44_video_blocks.md R244). -/
theorem blockRun_faults (hn : 0 < n) (hr : s.scanRow < s.height) (h : draw s = .error c t) :
    blockRun draw n s = .next (raiseFault c t) := by
  obtain ⟨k, rfl⟩ := Nat.exists_eq_add_one_of_ne_zero (Nat.ne_of_gt hn)
  rw [blockRun_eq, drawRun_faults hr h]

theorem blockRun_zero (draw : Engine Unit) (s : State) : blockRun draw 0 s = .next (endGroup s) := rfl

theorem blockRun_one (hr : s.scanRow < s.height) (h : draw s = .ok () t) :
    blockRun draw 1 s = .next (endGroup (advanceScan t)) := by
  rw [blockRun_draws hr h, blockRun_zero]

/-- Past the last row the frame is over (44_video_blocks.md R235, R243). -/
theorem blockRun_over (draw : Engine Unit) (n : Nat) (h : ¬ s.scanRow < s.height) :
    blockRun draw n s = .next (s.setWork .idle) := by
  rw [blockRun_eq, drawRun_over draw n h]
  exact congrArg _ (if_neg h)

end

theorem isCommand_block {i : Instr} {r : BitVec 6} (h : blockRunidx i = some r) : isCommand i = false := by
  cases i <;> cases h <;> rfl

/-- A block type inside a frame is the run of its blocks (44_video_blocks.md R232). -/
theorem exec_block {i : Instr} {r : BitVec 6} {s : State} (hi : blockRunidx i = some r) (h : s.work = .video) :
    exec i s = blockRun (blockDraw i) (runLength r) s := by
  rw [exec_token (isCommand_block hi), tokenMeaning_block hi h]

/-- A block type of run index 0 draws one block. -/
theorem exec_block_one {i : Instr} {s t : State} (hi : blockRunidx i = some 0) (h : s.work = .video)
    (hr : s.scanRow < s.height) (hd : blockDraw i s = .ok () t) : exec i s = .next (endGroup (advanceScan t)) :=
  (exec_block hi h).trans (blockRun_one hr hd)

/-- A fault in the first block, whatever the run (44_video_blocks.md R244). -/
theorem exec_block_faults {i : Instr} {r : BitVec 6} {s t : State} {c : Cause} (hi : blockRunidx i = some r)
    (h : s.work = .video) (hr : s.scanRow < s.height) (hd : blockDraw i s = .error c t) :
    exec i s = .next (raiseFault c t) :=
  (exec_block hi h).trans (blockRun_faults (runLength_pos r) hr hd)

/-- Drawing leaves the cursor alone. -/
theorem DrawFrame.cursor {s t : State} (h : DrawFrame s t) : t.scanRow = s.scanRow ∧ t.scanCol = s.scanCol := by
  rw [h.frame]
  exact ⟨rfl, rfl⟩

/-- Settles O44: the recursion of the run, one block at a time. -/
theorem runGoesBlockByBlock : Obligations.RunGoesBlockByBlock := by
  unfold Obligations.RunGoesBlockByBlock
  refine ⟨fun s p r h i hi => ?meaning, fun i s n =>
    ⟨fun hr => ⟨fun u hu => ?block, fun c u hu => ?fault⟩, blockRun_over _ n, blockRun_zero _ s⟩⟩
  case meaning =>
    have hrun : blockRunidx i = some r := by
      simp only [List.mem_cons, List.not_mem_nil, or_false] at hi
      rcases hi with rfl | rfl | rfl | rfl | rfl | rfl <;> rfl
    exact exec_block hrun h
  case block =>
    have hd := draws_block i s
    rw [hu] at hd
    exact ⟨hd.cursor.1, hd.cursor.2, blockRun_draws hr hu⟩
  case fault =>
    have hd := draws_block i s
    rw [hu] at hd
    exact ⟨hd.1.cursor.1, hd.1.cursor.2, blockRun_faults n.succ_pos hr hu⟩

end Sys2Proof.Machine
end

section
/-! Blocks of one colour, VOID and SOLID (44_video_blocks.md R238, R239): what a run of them leaves in FB, and how two such
runs follow one another. -/

-- The package is compiled as one text: elaborating in order keeps the number of threads small.
set_option Elab.async false

namespace Sys2Proof.Machine

open Sys2Proof Sys2Proof.Config

/-- A block of one colour: SOLID with the colour, VOID with none. -/
def drawFlat (p : Option Byte) : Engine Unit :=
  match p with
  | none => drawVoid
  | some colour => drawSolid colour

/-- `m` is FB of `s` after the `n` blocks from the cursor on are drawn in one colour, or passed over with none; blocks
behind the end of the frame do not count. -/
def Filled (p : Option Byte) (n : Nat) (s : State) (m : List Host.Cell) : Prop :=
  match p with
  | none => m = s.fb
  | some colour => ∀ a, Memory.read outBlank m a =
      if a < s.width.toNat * s.height.toNat ∧ blockNumber s ≤ blockOf s a ∧ blockOf s a < blockNumber s + n
      then some colour else fbAt s a

/-- The picture and the cursor of `t` are those of `s` with the next `n` blocks in one colour. -/
structure FlatFill (p : Option Byte) (n : Nat) (s t : State) : Prop where
  width : t.width = s.width
  height : t.height = s.height
  scan : ScanWf t
  number : blockNumber t = min (blockNumber s + n) (frameBlocks s)
  filled : Filled p n s t.fb

/-! ### No block, one block -/

theorem filled_zero {p : Option Byte} {s : State} {m : List Host.Cell} (h : m = s.fb) : Filled p 0 s m := by
  subst h
  cases p with
  | none => rfl
  | some colour => exact fun a => (if_neg (by omega)).symm

/-- What leaves FB and the cursor alone draws no block. -/
theorem LookFrame.flatFill {s t : State} (p : Option Byte) (h : LookFrame s t) (hs : ScanWf s) : FlatFill p 0 s t := by
  have hle := hs.blockNumber_le
  have hfb := h.fb
  have hframe := h.draw.frame
  refine ⟨by rw [hframe], by rw [hframe], by rw [hframe]; exact hs, ?_, filled_zero hfb⟩
  rw [h.draw.blockNumber_eq]
  omega

theorem LookFrame.refl (s : State) : LookFrame s s := ⟨.refl s, .refl _, rfl⟩

/-- A block of one colour draws the block at the cursor. -/
theorem drawFlat_fills (p : Option Byte) {s : State} (h : InFrame s) :
    ∃ m, drawFlat p s = .ok () (s.setFb m) ∧ Filled p 1 s m := by
  cases p with
  | none => exact ⟨s.fb, rfl, rfl⟩
  | some colour =>
    obtain ⟨hin, hout⟩ := paintMem_block h.1 h.2 (fun _ _ => colour) s.fb
    have hdraw : drawFlat (some colour) s = .ok () (paint (blockPixels fun _ _ => colour) s) := rfl
    refine ⟨_, hdraw.trans (congrArg _ (paint_eq _ s)), fun a => ?_⟩
    have hblock : inBlock s a ↔ a < s.width.toNat * s.height.toNat ∧ blockNumber s ≤ blockOf s a ∧
        blockOf s a < blockNumber s + 1 := by
      rw [inBlock_iff h.1 h.2]
      omega
    split_ifs with ha
    · obtain ⟨r, c, hr, hc, rfl⟩ := hblock.2 ha
      exact hin r c hr hc
    · exact hout a (mt hblock.1 ha)

/-- One block of one colour and the advance (44_video_blocks.md R238, R239, R242). -/
theorem flatFill_one {p : Option Byte} {s : State} {m : List Host.Cell} (h : InFrame s) (hm : Filled p 1 s m) :
    FlatFill p 1 s (advanceScan (s.setFb m)) := by
  have hs : InFrame (s.setFb m) := h.draw (.setFb s m)
  have hlt := h.1.blockNumber_lt h.2
  refine ⟨advanceScan_width _, advanceScan_height _, hs.1.scanWf_advance hs.2, ?_, by rwa [advanceScan_fb]⟩
  rw [hs.1.blockNumber_advance hs.2, (DrawFrame.setFb s m).blockNumber_eq]
  omega

/-! ### One run after another -/

/-- A pixel of the frame lies in one of its blocks. -/
theorem blockOf_lt {s : State} {a : Nat} (h : videoConfigLegal s = true) (ha : a < s.width.toNat * s.height.toNat) :
    blockOf s a < frameBlocks s := by
  obtain ⟨_, hw, hw4, hh, hh4, _⟩ := videoConfigLegal_iff.1 h
  have hrow : a / s.width.toNat < s.height.toNat := Nat.div_lt_of_lt_mul ha
  have hcol : a % s.width.toNat < s.width.toNat := Nat.mod_lt a hw
  have hx : a / s.width.toNat / 4 + 1 ≤ s.height.toNat / 4 := by omega
  have hy : a % s.width.toNat / 4 < s.width.toNat / 4 := by omega
  calc blockOf s a < a / s.width.toNat / 4 * (s.width.toNat / 4) + s.width.toNat / 4 := Nat.add_lt_add_left hy _
    _ = (a / s.width.toNat / 4 + 1) * (s.width.toNat / 4) := (Nat.succ_mul _ _).symm
    _ ≤ s.height.toNat / 4 * (s.width.toNat / 4) := Nat.mul_le_mul_right _ hx
    _ = frameBlocks s := Nat.mul_comm _ _

theorem FlatFill.blockOf_eq {p : Option Byte} {n : Nat} {s t : State} (h : FlatFill p n s t) (a : Nat) :
    blockOf t a = blockOf s a := by rw [blockOf, blockOf, h.width]

theorem FlatFill.frameBlocks_eq {p : Option Byte} {n : Nat} {s t : State} (h : FlatFill p n s t) :
    frameBlocks t = frameBlocks s := by rw [frameBlocks, frameBlocks, h.width, h.height]

theorem FlatFill.trans {p : Option Byte} {m n : Nat} {s t u : State} (hs : ScanWf s) (h : FlatFill p m s t)
    (h' : FlatFill p n t u) : FlatFill p (m + n) s u := by
  have hle := hs.blockNumber_le
  have ht := h.number
  refine ⟨h'.width.trans h.width, h'.height.trans h.height, h'.scan, ?_, ?_⟩
  · rw [h'.number, ht, h.frameBlocks_eq]
    omega
  · have hf := h.filled
    have hf' := h'.filled
    cases p with
    | none => exact Eq.trans hf' hf
    | some colour =>
      intro a
      have hlt : a < s.width.toNat * s.height.toNat → blockOf s a < frameBlocks s := blockOf_lt hs.1.1
      rw [hf' a, fbAt, hf a, h.width, h.height, h.blockOf_eq, ← ite_or]
      exact if_congr (by omega) rfl rfl

/-- Past the last row no block is left to draw (44_video_blocks.md R235). -/
theorem flatFill_end (p : Option Byte) (n : Nat) {s : State} (hs : ScanWf s) (hr : ¬ s.scanRow < s.height) :
    FlatFill p n s s := by
  have hend := hs.blockNumber_end hr
  refine ⟨rfl, rfl, hs, by omega, ?_⟩
  cases p with
  | none => rfl
  | some colour =>
    intro a
    have hlt : a < s.width.toNat * s.height.toNat → blockOf s a < frameBlocks s := blockOf_lt hs.1.1
    exact (if_neg (by omega)).symm

/-- The engine's locals are no part of the picture. -/
theorem FlatFill.setWork {p : Option Byte} {n : Nat} {s t : State} (h : FlatFill p n s t) (w : Work) :
    FlatFill p n s (t.setWork w) := ⟨h.width, h.height, h.scan, h.number, h.filled⟩

/-! ### A run -/

/-- A run of blocks of one colour reads no bit and raises no fault (44_video_blocks.md R235, R238, R239). -/
theorem drawRun_flat (p : Option Byte) (n : Nat) : ∀ {s : State}, ScanWf s →
    ∃ t, drawRun (drawFlat p) n s = .ok () t ∧
      t = { s with fb := t.fb, scanRow := t.scanRow, scanCol := t.scanCol } ∧ FlatFill p n s t := by
  induction n with
  | zero => exact fun hs => ⟨_, rfl, rfl, (LookFrame.refl _).flatFill p hs⟩
  | succ n ih =>
    intro s hs
    by_cases hr : s.scanRow < s.height
    · have hin : InFrame s := ⟨hs.1, hr⟩
      obtain ⟨m, hm, hfill⟩ := drawFlat_fills p hin
      have hone := flatFill_one hin hfill
      obtain ⟨t, ht, hframe, hrest⟩ := ih hone.scan
      refine ⟨t, (drawRun_draws hr hm).trans ht, ?_, Nat.add_comm 1 n ▸ hone.trans hs hrest⟩
      rw [advanceScan_frame] at hframe
      exact hframe
    · exact ⟨s, drawRun_over _ _ hr, rfl, flatFill_end p _ hs hr⟩

/-- The engine's locals after a run: the frame goes on, or is over (44_video_blocks.md R232, R243). -/
theorem endGroup_eq {p : Option Byte} {n : Nat} {s t : State} (h : FlatFill p n s t) (hw : t.work = .video) :
    endGroup t = t.setWork (if blockNumber s + n < frameBlocks s then .video else .idle) := by
  have hiff : t.scanRow < t.height ↔ blockNumber s + n < frameBlocks s := by
    rw [h.scan.row_lt_iff, h.number, h.frameBlocks_eq]
    omega
  rw [endGroup]
  by_cases hlt : blockNumber s + n < frameBlocks s
  · rw [if_pos (hiff.2 hlt), if_pos hlt, ← hw]
    rfl
  · rw [if_neg (mt hiff.1 hlt), if_neg hlt]

/-- The whole group of a VOID or SOLID word. -/
theorem blockRun_flat (p : Option Byte) (n : Nat) {s : State} (hw : s.work = .video) (hs : ScanWf s) :
    ∃ t, blockRun (drawFlat p) n s = .next t ∧
      t = { s with fb := t.fb, scanRow := t.scanRow, scanCol := t.scanCol, work := t.work } ∧ FlatFill p n s t ∧
      t.work = if blockNumber s + n < frameBlocks s then .video else .idle := by
  obtain ⟨t, ht, hframe, hfill⟩ := drawRun_flat p n hs
  have hwt : t.work = .video := by
    rw [hframe]
    exact hw
  have hrun : blockRun (drawFlat p) n s = .next (endGroup t) := by rw [blockRun_eq, ht]
  rw [endGroup_eq hfill hwt] at hrun
  refine ⟨_, hrun, ?_, hfill.setWork _, rfl⟩
  rw [hframe]
  rfl

/-- Settles O48: the group of VOID, and that of SOLID. -/
theorem voidAndSolidRuns : Obligations.VoidAndSolidRuns := by
  unfold Obligations.VoidAndSolidRuns
  intro s p r hw hf hr
  have hs := InFrame.scanWf ⟨hf, hr⟩
  obtain ⟨t, ht, hframe, hfill, hwork⟩ := blockRun_flat none (runLength r) hw hs
  obtain ⟨t', ht', hframe', hfill', hwork'⟩ := blockRun_flat (some p) (runLength r) hw hs
  have hvoid : t.fb = s.fb := hfill.filled
  rw [hvoid] at hframe
  exact ⟨⟨t, (exec_block rfl hw).trans ht, hframe, hfill.scan.1, hfill.number, hwork⟩,
    t', (exec_block rfl hw).trans ht', hframe', hfill'.scan.1, hfill'.number, hwork', hfill'.filled⟩

end Sys2Proof.Machine
end

section
/-! The word of a group (44_video_blocks.md R233, R234): lookups one after the other, the step that fetches a TYPEWORD and
its faults, and where VID_DECODE starts (R230, R231). -/

-- The package is compiled as one text: elaborating in order keeps the number of threads small.
set_option Elab.async false

namespace Sys2Proof.Machine

open Sys2Proof Sys2Proof.Config

/-! ### Lookups one after the other -/

section
variable {id : Fin 4} {k : Nat} {s u : State} {ws : List Half}

theorem LookFrame.trans {t : State} (h : LookFrame s t) (h' : LookFrame t u) : LookFrame s u :=
  ⟨h.draw.trans h'.draw, h.later.trans h'.later, h'.fb.trans h.fb⟩

theorem btLookup_ok_lookFrame {w : Half} (h : btLookup id s = .ok w u) : LookFrame s u := by
  have hl := btLookup_lookFrame id s
  rwa [h] at hl

theorem btLookup_error_lookFrame {c : Cause} (h : btLookup id s = .error c u) : LookFrame s u := by
  have hl := btLookup_lookFrame id s
  rw [h] at hl
  exact hl.1

/-- One more lookup is the first one and the rest. -/
theorem btLookups_succ_iff : btLookups id (k + 1) s = .ok ws u ↔
    ∃ w t rest, btLookup id s = .ok w t ∧ btLookups id k t = .ok rest u ∧ ws = w :: rest := by
  rw [btLookups, ops_bind]
  rcases btLookup id s with ⟨w, t⟩ | ⟨c, t⟩
  · simp only [ops_bind]
    rcases hrest : btLookups id k t with ⟨rest, v⟩ | ⟨c, v⟩
    · simp only [ops_pure, EStateM.Result.ok.injEq]
      constructor
      · rintro ⟨rfl, rfl⟩
        exact ⟨w, t, rest, ⟨rfl, rfl⟩, hrest, rfl⟩
      · rintro ⟨w', t', rest', ⟨rfl, rfl⟩, h, rfl⟩
        cases hrest.symm.trans h
        exact ⟨rfl, rfl⟩
    · refine ⟨nofun, ?_⟩
      rintro ⟨w', t', rest', h1, h2, -⟩
      cases h1
      cases hrest.symm.trans h2
  · exact ⟨nofun, fun ⟨_, _, _, h, _⟩ => nomatch h⟩

theorem btLookups_length (h : btLookups id k s = .ok ws u) : ws.length = k := by
  induction k generalizing s ws with
  | zero =>
    cases h
    rfl
  | succ k ih =>
    obtain ⟨w, t, rest, _, hrest, rfl⟩ := btLookups_succ_iff.1 h
    rw [List.length_cons, ih hrest]

theorem btLookups_lookFrame (h : btLookups id k s = .ok ws u) : LookFrame s u := by
  induction k generalizing s ws with
  | zero =>
    cases h
    exact .refl _
  | succ k ih =>
    obtain ⟨w, t, rest, hw, hrest, rfl⟩ := btLookups_succ_iff.1 h
    exact (btLookup_ok_lookFrame hw).trans (ih hrest)

end

/-! ### What lookups neither read nor write -/

/-- The state of an outcome, updated. -/
def mapState {α : Type} (f : State → State) : EStateM.Result Cause State α → EStateM.Result Cause State α
  | .ok a t => .ok a (f t)
  | .error c t => .error c (f t)

/-- The operation neither reads nor writes what `f` updates. -/
def Ignores {α : Type} (f : State → State) (e : Engine α) : Prop := ∀ s, e (f s) = mapState f (e s)

section
variable {α β : Type} {f : State → State} {e : Engine α} {s t : State}

theorem Ignores.ok (h : Ignores f e) {a : α} (he : e s = .ok a t) : e (f s) = .ok a (f t) := by
  rw [h, he]
  rfl

theorem Ignores.error (h : Ignores f e) {c : Cause} (he : e s = .error c t) : e (f s) = .error c (f t) := by
  rw [h, he]
  rfl

theorem ignores_pure (a : α) : Ignores f (pure a : Engine α) := fun _ => rfl

theorem Ignores.bind (h : Ignores f e) {g : α → Engine β} (hg : ∀ a, Ignores f (g a)) : Ignores f (e >>= g) := by
  intro s
  rw [ops_bind, ops_bind, h]
  rcases e s with ⟨a, t⟩ | ⟨c, t⟩
  · exact hg a t
  · rfl

theorem Ignores.btLookups {id : Fin 4} (h : Ignores f (btLookup id)) (k : Nat) : Ignores f (btLookups id k) := by
  induction k with
  | zero => exact ignores_pure _
  | succ k ih => exact h.bind fun _ => ih.bind fun _ => ignores_pure _

end

theorem btLookup_ignores_setFb (id : Fin 4) (m : List Host.Cell) : Ignores (·.setFb m) (btLookup id) := by
  intro s
  rw [btLookup_setFb]
  cases btLookup id s <;> rfl

/-- The frame buffer and the cursor. -/
def State.setPicture (m : List Host.Cell) (row col : Word) (s : State) : State :=
  { s with fb := m, scanRow := row, scanCol := col }

@[simp] theorem State.setPicture_inMem (m : List Host.Cell) (row col : Word) (s : State) :
    (s.setPicture m row col).inMem = s.inMem := rfl

@[simp] theorem State.setPicture_bs (m : List Host.Cell) (row col : Word) (s : State) :
    (s.setPicture m row col).bs = s.bs := rfl

theorem btLookup_ignores_setPicture (id : Fin 4) (m : List Host.Cell) (row col : Word) :
    Ignores (State.setPicture m row col) (btLookup id) := by
  intro s
  cases h : s.vt[id] with
  | absent => rw [btLookup_absent h, btLookup_absent (s := s.setPicture m row col) h, mapState]
  | present low high root cache =>
    rw [btLookup_present h, btLookup_present (s := s.setPicture m row col) h]
    simp only [State.setPicture_inMem, State.setPicture_bs]
    rcases walkBNode s.inMem cache root s.bs with ⟨v, b⟩ | ⟨c, b⟩ <;> rfl

/-! ### The step that fetches a TYPEWORD -/

section
variable {s t : State} {w : Half} {c : Cause}

theorem ne_idle_of_video (h : s.work = .video) : s.work ≠ .idle := by
  rw [h]
  exact nofun

theorem wantedFormat_video (h : s.work = .video) : wantedFormat s = some (.typeWord s.isV4) := by
  simp only [wantedFormat, h]

theorem LookFrame.work (h : LookFrame s t) : t.work = s.work := by rw [h.draw.frame]

theorem fetchToken_type (v4 : Bool) (h : btLookup typeId s = .ok w t) :
    fetchToken (.typeWord v4) s = fetchBits (.typeWord v4) 3 (bitsOf w) t := by
  simp only [fetchToken, ops_bind, h]

/-- A TYPE lookup that faults ends the command (44_video_blocks.md R233, R244). -/
theorem engineStep_typeFault (hw : s.work = .video) (h : btLookup typeId s = .error c t) :
    engineStep tokenMeaning s = .next (raiseFault c t) :=
  engineStep_error (wantedFormat_video hw) (by simp only [fetchToken, ops_bind, h])

/-- A word without TYPEEXT bits runs its group at once (44_video_blocks.md R233). -/
theorem engineStep_word {i : Instr} {r : BitVec 6} (hw : s.work = .video) (h : btLookup typeId s = .ok w t)
    (hd : decode (.typeWord s.isV4) (bitsOf w) = .instr i) (hi : blockRunidx i = some r) :
    engineStep tokenMeaning s = blockRun (blockDraw i) (runLength r) t := by
  rw [engineStep_ok (wantedFormat_video hw) ((fetchToken_type _ h).trans (fetchBits_instr hd))]
  exact tokenMeaning_block hi ((btLookup_ok_lookFrame h).work.trans hw)

/-- A fault of VID_DECODE cleans nothing up (60_exceptions.md R294, R296). -/
theorem raiseFault_video (c : Cause) (h : s.work = .video) : raiseFault c s =
    { s with status := statusWord s.statusCmd c.code, log := logWith s.log c, work := .idle } := by
  unfold raiseFault cleanUp
  rw [h]

end

theorem bitsOf_ne_nil (w : Half) : bitsOf w ≠ [] := fun h => by
  have hlen := bitsOf_length w
  rw [h] at hlen
  cases hlen

/-- At most two TYPEEXT bits follow a TYPEWORD (30_encoding.md R105). -/
theorem encode_typeWord_length_le {v4 : Bool} {i : Instr} (h : WellFormed (.typeWord v4) i = true) :
    (encode (.typeWord v4) i).length ≤ 18 := by
  cases i
  case full p r => cases v4 <;> simp [encode]
  case mono | void | solid | double | half => simp [encode]
  all_goals cases h

/-- The bits that follow a TYPEWORD of type 1 in version '4' are more than one 0 (30_encoding.md R105). -/
theorem decode_typeExt_more {w : Half} (h : typeField w = 1) {ext : List Bool} (he : ext = [] ∨ ext = [false]) :
    decode (.typeWord true) (bitsOf w ++ ext) = .more := by
  rw [decode_typeWord]
  rcases he with rfl | rfl <;> exact if_pos ⟨rfl, h⟩

/-- To the end of the window in two moves. -/
theorem BitStream.skip_rest {b : BitStream} {k : Nat} (h : k ≤ b.left) :
    (b.skip k).skip (b.skip k).left = b.skip b.left := by
  rw [BitStream.skip_skip h, BitStream.left_skip h, Nat.add_sub_cancel' h]

/-- The step of a group's word with its TYPEEXT bits (44_video_blocks.md R233, R234). -/
theorem step_typeWord {s : State} {low high : SmallTree} {root leaf : BNode} {cache : Cache} {bits ext : List Bool}
    {i : Instr} (hw : s.work = .video) (ht : s.vt[typeId] = .present low high root cache)
    (hc : BigCodeWord root bits leaf) (hwf : WellFormed (.typeWord s.isV4) i = true)
    (he : encode (.typeWord s.isV4) i = bitsOf (leafValue cache leaf) ++ ext) (ha : s.Ahead (bits ++ ext)) :
    step s = exec i { s with
      bs := s.bs.skip (bits.length + ext.length)
      vt := s.vt.set typeId (.present low high root (mruUpdate cache (leafValue cache leaf))) } := by
  obtain ⟨rest, hrest⟩ := State.ahead_iff.1 ha
  rw [List.append_assoc] at hrest
  obtain ⟨hle, hext⟩ := remaining_after hrest
  have hlen : ext.length < 3 := by
    have h18 := encode_typeWord_length_le hwf
    rw [he, List.length_append, bitsOf_length] at h18
    omega
  have hdec := decode_encode hwf
  rw [he] at hdec
  rw [step_running (ne_idle_of_video hw), ← engineStep_exec, ← BitStream.skip_skip hle]
  refine engineStep_ok (wantedFormat_video hw) ((fetchToken_type _ (btLookup_code ht hc ha.left)).trans ?_)
  exact fetchBits_ahead hdec hext (.inl (bitsOf_ne_nil _)) hlen

/-- A window that ends within the TYPEEXT bits (44_video_blocks.md R244): the lookup stands. -/
theorem step_typeExt_exhausted {s : State} {low high : SmallTree} {root leaf : BNode} {cache : Cache} {bits ext : List Bool}
    (hw : s.work = .video) (ht : s.vt[typeId] = .present low high root cache) (hc : BigCodeWord root bits leaf)
    (h4 : s.isV4 = true) (h1 : typeField (leafValue cache leaf) = 1) (he : ext = [] ∨ ext = [false])
    (hrem : remaining s.inMem s.bs = bits ++ ext) :
    step s = .next (raiseFault .exhausted { s with
      bs := s.bs.skip s.bs.left
      vt := s.vt.set typeId (.present low high root (mruUpdate cache (leafValue cache leaf))) }) := by
  obtain ⟨hle, hext⟩ := remaining_after hrem
  have hleft : (s.bs.skip bits.length).left = ext.length := by rw [← hext, remaining_length]
  have hlen : ext.length < 3 := by rcases he with rfl | rfl <;> decide
  rw [step_running (ne_idle_of_video hw), ← BitStream.skip_rest hle]
  refine engineStep_error (wantedFormat_video hw)
    ((fetchToken_type _ (btLookup_code ht hc ⟨ext, hrem.symm⟩)).trans ?_)
  rw [h4]
  refine fetchBits_exhausted (hleft.trans_lt hlen) (fun k _ => decode_typeExt_more h1 ?_)
    (.inl (bitsOf_ne_nil _))
  change (remaining s.inMem (s.bs.skip bits.length)).take k = [] ∨
    (remaining s.inMem (s.bs.skip bits.length)).take k = [false]
  rw [hext]
  rcases he with rfl | rfl
  · exact .inl List.take_nil
  · cases k with
    | zero => exact .inl rfl
    | succ k => exact .inr (by rw [List.take_succ_cons, List.take_nil])

/-! ### The step that reads a record's length -/

/-- Four bytes of memory as a little-endian number (20_memory.md R64 (b)). -/
theorem recordLength_eq (s : State) : recordLength s =
    inRead s.inMem (s.arg0.toNat + 3) ++ inRead s.inMem (s.arg0.toNat + 2) ++ inRead s.inMem (s.arg0.toNat + 1) ++
      inRead s.inMem s.arg0.toNat := by
  apply BitVec.eq_of_toNat_eq
  have h0 := (inRead s.inMem s.arg0.toNat).isLt
  have h1 := (inRead s.inMem (s.arg0.toNat + 1)).isLt
  have h2 := (inRead s.inMem (s.arg0.toNat + 2)).isLt
  have h3 := (inRead s.inMem (s.arg0.toNat + 3)).isLt
  simp only [recordLength, lengthBits, ofBits_append, ofBits_bitsOf, List.length_append, bitsOf_length,
    BitVec.toNat_ofNat, BitVec.toNat_append]
  rw [← Nat.shiftLeft_add_eq_or_of_lt h2, ← Nat.shiftLeft_add_eq_or_of_lt h1, ← Nat.shiftLeft_add_eq_or_of_lt h0]
  simp only [Nat.shiftLeft_eq]
  omega

/-- A record that holds its length runs DPCM.N with it (43_audio_dpcm.md R202). -/
theorem step_length {s : State} {k : Fin 7} (h : s.work = .audio k .length) (h4 : 4 ≤ s.arg1.toNat) :
    step s = exec (.dpcmN (recordLength s)) s := by
  have hw : wantedFormat s = some .dpcmN := by simp only [wantedFormat, h]
  have hfetch : fetchToken .dpcmN s = .ok (.dpcmN (recordLength s)) s := by
    simp only [fetchToken, ops_bind, ops_get, Nat.not_lt.2 h4, if_false]
    refine fetchBits_instr ?_
    simp only [decode, whole, lengthBits_length, Nat.lt_irrefl, if_false, if_true, recordLength]
  rw [step_running (wantedFormat_running hw), ← engineStep_exec]
  exact engineStep_ok hw hfetch

/-- Settles O10: the lookup, then the TYPEEXT bits; a record's length, or no room for it. -/
theorem stepRunsFetchedWord : Obligations.StepRunsFetchedWord := by
  unfold Obligations.StepRunsFetchedWord
  refine ⟨fun s low high root leaf cache bits ext i hw ht hc hwf he ha => step_typeWord hw ht hc hwf he ha,
    fun s hw => ⟨fun ht => ?absent, fun low high root cache ht =>
      ⟨fun hn => ?lookup, fun bits leaf hc h4 h1 hrem => ?ext⟩⟩,
    fun s k h => ⟨fun h4 => ?length, fun h4 => ?short⟩⟩
  case absent =>
    rw [step_running (ne_idle_of_video hw), engineStep_typeFault hw (btLookup_absent ht)]
    exact congrArg _ (raiseFault_video _ hw)
  case lookup =>
    rw [step_running (ne_idle_of_video hw), engineStep_typeFault hw (btLookup_exhausted ht hn)]
    exact congrArg _ (raiseFault_video (s := s.setBs (s.bs.skip s.bs.left)) _ hw)
  case ext =>
    have hext : ∃ ext, (ext = [] ∨ ext = [false]) ∧ remaining s.inMem s.bs = bits ++ ext := by
      rcases hrem with hrem | hrem
      · exact ⟨[], .inl rfl, hrem.trans (List.append_nil _).symm⟩
      · exact ⟨[false], .inr rfl, hrem⟩
    obtain ⟨ext, he, hrem⟩ := hext
    exact (step_typeExt_exhausted hw ht hc h4 h1 he hrem).trans (congrArg _ (raiseFault_video _ hw))
  case length => rw [step_length h h4, recordLength_eq]
  case short =>
    rw [step_running (by rw [h]; nofun), engineStep_length h, if_pos h4, raiseFault_audio _ h]
    rfl

/-! ### The start of a frame -/

section
variable {s : State}

/-- The first check (44_video_blocks.md R230): the window. -/
theorem vidDecode_window (hw : windowLegal s s.arg0 s.arg1 = false) :
    exec .vidDecode s = .next (s.faulted 0x50 .window) := by
  have hw' : windowLegal (startCommand 0x50 s) s.arg0 s.arg1 = false := hw
  refine streamCommand_faulted (e := vidDecodeStart) ?_
  simp only [vidDecodeStart, ops_bind, ops_get, startCommand_arg0, startCommand_arg1, hw', Bool.false_eq_true, if_false,
    ops_throw]

/-- The next check (44_video_blocks.md R230): the configuration. -/
theorem vidDecode_badConfig (hw : windowLegal s s.arg0 s.arg1 = true) (hc : videoConfigLegal s = false) :
    exec .vidDecode s = .next (s.faulted 0x50 .badConfig) := by
  have hw' : windowLegal (startCommand 0x50 s) s.arg0 s.arg1 = true := hw
  have hc' : videoConfigLegal (startCommand 0x50 s) = false := hc
  refine streamCommand_faulted (e := vidDecodeStart) ?_
  simp only [vidDecodeStart, ops_bind, ops_get, startCommand_arg0, startCommand_arg1, hw', hc', Bool.false_eq_true,
    if_true, if_false, ops_throw]

/-- Settles O42: each clause of the second check is one of the configuration's. -/
theorem vidDecodeChecks : Obligations.VidDecodeChecks := by
  unfold Obligations.VidDecodeChecks
  intro s
  refine ⟨fun hw => vidDecode_window (decide_eq_false (Nat.not_le.2 hw)),
    fun hw hbad => vidDecode_badConfig (windowLegal_iff.2 hw) ?_⟩
  rw [Bool.eq_false_iff]
  intro hc
  obtain ⟨hv, hw0, hw4, hh0, hh4, hmax⟩ := videoConfigLegal_iff.1 hc
  rcases hbad with ⟨h2, h4⟩ | h | h | h | h | ⟨m, hm, hlt⟩
  · exact hv.elim h2 h4
  · rw [h] at hw0
    exact Nat.lt_irrefl 0 hw0
  · exact h hw4
  · rw [h] at hh0
    exact Nat.lt_irrefl 0 hh0
  · exact h hh4
  · rw [hm] at hmax
    exact Nat.not_le_of_gt hlt (of_decide_eq_true hmax)

/-- A frame starts at its first block (44_video_blocks.md R231). -/
theorem frameStarted_inFrame (hc : videoConfigLegal s = true) : InFrame (frameStarted s) :=
  startFrame_cursorInFrame (s := startCommand 0x50 s) hc rfl

theorem frameStarted_statusCmd (s : State) : (frameStarted s).statusCmd = 0x50 := statusWord_cmd 0x50 0

/-- Past its checks VID_DECODE ends where the run from the start of the frame ends (46_system.md R280). -/
theorem vidDecode_of_leads {t : State} (hw : windowLegal s s.arg0 s.arg1 = true) (hc : videoConfigLegal s = true)
    (hl : Leads (frameStarted s) t) (ht : t.work = .idle) : exec .vidDecode s = .next t :=
  streamCommand_of_leads (vidDecodeStart_ok (s := startCommand 0x50 s) hw hc)
    (startFrame_cursorInFrame (s := startCommand 0x50 s) hc) hl ht

theorem frameStarted_vt (s : State) (id : Fin 4) : (frameStarted s).vt[id] = btResetTree s.vt[id] := by
  simp [frameStarted]

/-- Settles O43: the first lookup of the frame faults. -/
theorem vidDecodeWithoutTypeTree : Obligations.VidDecodeWithoutTypeTree := by
  unfold Obligations.VidDecodeWithoutTypeTree
  intro s hw hc ht
  have habsent : (frameStarted s).vt[typeId] = .absent := by rw [frameStarted_vt, ht, btResetTree]
  have hstep := engineStep_typeFault (s := frameStarted s) rfl (btLookup_absent habsent)
  refine ⟨_, vidDecode_of_leads hw hc (.step nofun hstep) rfl, ?_, fun id => ?_⟩
  · rw [raiseFault_video _ rfl, frameStarted_statusCmd]
    rfl
  · rw [raiseFault_video _ rfl]
    refine (frameStarted_vt s id).trans ?_
    cases s.vt[id] <;> rfl

end

end Sys2Proof.Machine
end

section
/-! Frames whose groups are VOID, or SOLID of one colour (44_video_blocks.md R246): the TYPE lookups of the frame are
followed word by word, and a TYPE tree of such words only gives nothing else. -/

-- The package is compiled as one text: elaborating in order keeps the number of threads small.
set_option Elab.async false

namespace Sys2Proof.Machine

open Sys2Proof Sys2Proof.Config

/-! ### Words of one colour -/

/-- A SOLID word with the colour, or a VOID word with none (30_encoding.md R103, R106). -/
def FlatWord (p : Option Byte) (w : Half) : Prop :=
  match p with
  | none => typeField w = 2
  | some colour => typeField w = 3 ∧ payloadField w = colour

/-- The block type of such a word. -/
def flatInstr (p : Option Byte) (w : Half) : Instr :=
  match p with
  | none => .void (payloadField w) (runidxField w)
  | some colour => .solid colour (runidxField w)

/-- No TYPEEXT bit belongs to a word of type 2 or 3 (30_encoding.md R105). -/
theorem FlatWord.decode {p : Option Byte} {w : Half} (h : FlatWord p w) (v4 : Bool) :
    decode (.typeWord v4) (bitsOf w) = .instr (flatInstr p w) := by
  have hd := decode_typeWord v4 w []
  rw [List.append_nil] at hd
  rw [hd]
  cases p with
  | none =>
    have h2 : typeField w = 2 := h
    simp [decodeType, h2, flatInstr]
  | some colour =>
    obtain ⟨h3, rfl⟩ := h
    simp [decodeType, h3, flatInstr]

/-- The step of such a word is its group (44_video_blocks.md R238, R239). -/
theorem FlatWord.engineStep {p : Option Byte} {w : Half} (h : FlatWord p w) {s t : State} (hw : s.work = .video)
    (hl : btLookup typeId s = .ok w t) :
    engineStep tokenMeaning s = blockRun (drawFlat p) (runLength (runidxField w)) t := by
  have hi : blockRunidx (flatInstr p w) = some (runidxField w) := by cases p <;> rfl
  have hd : blockDraw (flatInstr p w) = drawFlat p := by cases p <;> rfl
  rw [engineStep_word hw hl (h.decode s.isV4) hi, hd]

/-! ### The runs of several words -/

theorem runBlocks_cons (w : Half) (ws : List Half) :
    runBlocks (w :: ws) = runLength (runidxField w) + runBlocks ws := by
  rw [runBlocks, List.map_cons, List.sum_cons, runBlocks]

theorem runBlocks_dropLast_cons (w : Half) {ws : List Half} (h : ws ≠ []) :
    runBlocks (w :: ws).dropLast = runLength (runidxField w) + runBlocks ws.dropLast := by
  rw [List.dropLast_cons_of_ne_nil h, runBlocks_cons]

theorem runBlocks_dropLast_le (ws : List Half) : runBlocks ws.dropLast ≤ runBlocks ws :=
  ((List.dropLast_sublist ws).map _).sum_le_sum fun _ _ => Nat.zero_le _

/-! ### A frame followed word by word -/

/-- From `s` the run of a frame goes through the words that lookups from `s` to `u` give and draws `n` blocks in one
colour: in `t` the frame goes on, or is over. -/
structure FlatFrame (p : Option Byte) (n : Nat) (s u t : State) : Prop where
  leads : Leads s t
  frame : t = { u with fb := t.fb, scanRow := t.scanRow, scanCol := t.scanCol, work := t.work }
  fill : FlatFill p n s t
  work : t.work = if blockNumber s + n < frameBlocks s then .video else .idle

theorem FlatFrame.refl (p : Option Byte) {s : State} (hw : s.work = .video) (h : InFrame s) : FlatFrame p 0 s s s :=
  ⟨⟨0, .refl s⟩, rfl, (LookFrame.refl s).flatFill p h.scanWf, hw.trans (if_pos (h.1.blockNumber_lt h.2)).symm⟩

/-- A group of one colour (44_video_blocks.md R232). -/
theorem FlatWord.frame {p : Option Byte} {w : Half} (h : FlatWord p w) {s u : State} (hw : s.work = .video)
    (hs : InFrame s) (hl : btLookup typeId s = .ok w u) :
    ∃ t, FlatFrame p (runLength (runidxField w)) s u t := by
  have hlook := btLookup_ok_lookFrame hl
  have hu : InFrame u := hs.draw hlook.draw
  obtain ⟨t, ht, hframe, hfill, hwork⟩ :=
    blockRun_flat p (runLength (runidxField w)) (hlook.work.trans hw) hu.scanWf
  rw [hlook.draw.blockNumber_eq, hlook.draw.frameBlocks_eq] at hwork
  have hall := (hlook.flatFill p hs.scanWf).trans hs.scanWf hfill
  rw [Nat.zero_add] at hall
  exact ⟨t, .step (ne_idle_of_video hw) ((h.engineStep hw hl).trans ht), hframe, hall, hwork⟩

/-- What follows a group that does not reach the end of the frame. -/
theorem FlatFrame.trans {p : Option Byte} {m n : Nat} {s u v t x : State} (hs : InFrame s) (h : FlatFrame p m s u t)
    (h' : FlatFrame p n t (v.setPicture t.fb t.scanRow t.scanCol) x) (hlt : blockNumber s + m < frameBlocks s) :
    FlatFrame p (m + n) s v x := by
  refine ⟨h.leads.trans h'.leads, h'.frame, h.fill.trans hs.scanWf h'.fill, ?_⟩
  rw [h'.work, h.fill.number, h.fill.frameBlocks_eq, Nat.min_eq_left (Nat.le_of_lt hlt), Nat.add_assoc]

/-- In the middle of the frame the state behind a group is the one behind its lookup but for FB and the cursor. -/
theorem FlatFrame.setPicture_eq {p : Option Byte} {n : Nat} {s u t : State} (h : FlatFrame p n s u t)
    (hu : u.work = .video) (hlt : blockNumber s + n < frameBlocks s) :
    t.work = .video ∧ InFrame t ∧ t = u.setPicture t.fb t.scanRow t.scanCol := by
  have hwork : t.work = .video := h.work.trans (if_pos hlt)
  refine ⟨hwork, ⟨h.fill.scan.1, h.fill.scan.row_lt_iff.2 ?_⟩, ?_⟩
  · rw [h.fill.number, h.fill.frameBlocks_eq]
    omega
  · have hframe := h.frame
    rw [hwork, ← hu] at hframe
    exact hframe

/-- Words of one colour, none but the last reaching the end of the frame (44_video_blocks.md R232, R235). -/
theorem frame_of_flatWords {p : Option Byte} (k : Nat) : ∀ {s u : State} {ws : List Half},
    s.work = .video → InFrame s → btLookups typeId k s = .ok ws u → (∀ w ∈ ws, FlatWord p w) →
    blockNumber s + runBlocks ws.dropLast < frameBlocks s → ∃ t, FlatFrame p (runBlocks ws) s u t := by
  induction k with
  | zero =>
    intro s u ws hw hs hl _ _
    cases hl
    exact ⟨s, .refl p hw hs⟩
  | succ k ih =>
    intro s u ws hw hs hl hflat hlt
    obtain ⟨w, v, rest, hone, hrest, rfl⟩ := btLookups_succ_iff.1 hl
    obtain ⟨hw1, hflat⟩ := List.forall_mem_cons.1 hflat
    obtain ⟨t, ht⟩ := hw1.frame hw hs hone
    by_cases hnil : rest = []
    · subst hnil
      have hk := btLookups_length hrest
      subst hk
      cases hrest
      exact ⟨t, ht⟩
    · rw [runBlocks_dropLast_cons w hnil] at hlt
      have hmid : blockNumber s + runLength (runidxField w) < frameBlocks s := by omega
      obtain ⟨hwt, hst, heq⟩ := ht.setPicture_eq ((btLookup_ok_lookFrame hone).work.trans hw) hmid
      have hrest' := ((btLookup_ignores_setPicture typeId t.fb t.scanRow t.scanCol).btLookups k).ok hrest
      rw [← heq] at hrest'
      obtain ⟨x, hx⟩ := ih hwt hst hrest' hflat (by rw [ht.fill.number, ht.fill.frameBlocks_eq]; omega)
      exact ⟨x, runBlocks_cons w rest ▸ ht.trans hs hx hmid⟩

/-! ### The whole command -/

section
variable {p : Option Byte} {s u : State} {k : Nat} {ws : List Half}

/-- Behind lookups from the start of a frame the position and the caches alone have changed. -/
theorem LookFrame.of_frameStarted (h : LookFrame (frameStarted s) u) :
    u = { frameStarted s with bs := u.bs, vt := u.vt } := by
  have hframe := h.draw.frame
  rw [h.fb] at hframe
  exact hframe

/-- A fault in the middle of the frame (60_exceptions.md R294). -/
theorem raiseFault_frameStarted (c : Cause) (s : State) (b : BitStream) (vt : Vector BigTree 4) (m : List Host.Cell)
    (row col : Word) :
    raiseFault c { frameStarted s with bs := b, vt := vt, fb := m, scanRow := row, scanCol := col } = { s with
      cmd := 0x50, status := statusWord 0x50 c.code, log := logWith s.log c, bs := b, fb := m, vt := vt
      scanRow := row, scanCol := col, work := .idle } := by
  refine (raiseFault_video c rfl).trans ?_
  have hcmd : State.statusCmd { frameStarted s with bs := b, vt := vt, fb := m, scanRow := row, scanCol := col } = 0x50 :=
    frameStarted_statusCmd s
  rw [hcmd]
  rfl

theorem frameBlocks_frameStarted (s : State) : frameBlocks (frameStarted s) = frameBlocks s := rfl

theorem blockNumber_frameStarted (s : State) : blockNumber (frameStarted s) = 0 := by
  simp [blockNumber, frameStarted]

/-- A frame of words of one colour, the last of which reaches its end, completes (44_video_blocks.md R246). -/
theorem vidDecode_flat_completes (hw : windowLegal s s.arg0 s.arg1 = true) (hc : videoConfigLegal s = true)
    (hl : btLookups typeId k (frameStarted s) = .ok ws u) (hflat : ∀ w ∈ ws, FlatWord p w)
    (hlt : runBlocks ws.dropLast < frameBlocks s) (hge : frameBlocks s ≤ runBlocks ws) :
    ∃ m, exec .vidDecode s = .next { s with
        cmd := 0x50, status := 0x5000, bs := u.bs, fb := m, vt := u.vt
        scanRow := s.height, scanCol := 0, work := .idle } ∧ Filled p (runBlocks ws) (frameStarted s) m := by
  have hstart := blockNumber_frameStarted s
  obtain ⟨t, ht⟩ := frame_of_flatWords k rfl (frameStarted_inFrame hc) hl hflat
    (by rw [hstart, frameBlocks_frameStarted]; omega)
  have hend : ¬ blockNumber (frameStarted s) + runBlocks ws < frameBlocks (frameStarted s) := by
    rw [hstart, frameBlocks_frameStarted]
    omega
  have hwork : t.work = .idle := ht.work.trans (if_neg hend)
  obtain ⟨hrow, hcol⟩ := ht.fill.scan.2 fun hr => by
    have hlast := ht.fill.scan.row_lt_iff.1 hr
    rw [ht.fill.number, ht.fill.frameBlocks_eq] at hlast
    omega
  have hframe := ht.frame
  rw [(btLookups_lookFrame hl).of_frameStarted, hwork, hrow, hcol, ht.fill.height] at hframe
  exact ⟨t.fb, (vidDecode_of_leads hw hc ht.leads hwork).trans (congrArg _ hframe), ht.fill.filled⟩

/-- A frame of words of one colour, none of which reaches its end, up to a TYPE lookup that faults (44_video_blocks.md
R244). -/
theorem vidDecode_flat_faults {c : Cause} {v : State} (hw : windowLegal s s.arg0 s.arg1 = true)
    (hc : videoConfigLegal s = true) (hl : btLookups typeId k (frameStarted s) = .ok ws u)
    (hflat : ∀ w ∈ ws, FlatWord p w) (hlt : runBlocks ws < frameBlocks s) (hv : btLookup typeId u = .error c v) :
    ∃ t, exec .vidDecode s = .next t ∧
      t = { s with
        cmd := 0x50, status := statusWord 0x50 c.code, log := logWith s.log c, bs := v.bs, fb := t.fb, vt := v.vt
        scanRow := t.scanRow, scanCol := t.scanCol, work := .idle } ∧
      FrameWf t ∧ blockNumber t = runBlocks ws ∧ Filled p (runBlocks ws) (frameStarted s) t.fb := by
  have hstart := blockNumber_frameStarted s
  have hmid : blockNumber (frameStarted s) + runBlocks ws < frameBlocks (frameStarted s) := by
    rw [hstart, frameBlocks_frameStarted]
    omega
  obtain ⟨t, ht⟩ := frame_of_flatWords k rfl (frameStarted_inFrame hc) hl hflat
    (Nat.lt_of_le_of_lt (Nat.add_le_add_left (runBlocks_dropLast_le ws) _) hmid)
  have hlook := btLookups_lookFrame hl
  obtain ⟨hwork, hin, heq⟩ := ht.setPicture_eq hlook.work hmid
  have hfault := (btLookup_ignores_setPicture typeId t.fb t.scanRow t.scanCol).error hv
  rw [← heq] at hfault
  have hdraw := (btLookup_error_lookFrame hfault).draw
  have hleads := ht.leads.trans (.step (ne_idle_of_video hwork) (engineStep_typeFault hwork hfault))
  refine ⟨_, vidDecode_of_leads hw hc hleads rfl, ?frame, ?config, ?number, ?filled⟩
  case frame =>
    have hframe := (hlook.trans (btLookup_error_lookFrame hv)).of_frameStarted
    rw [raiseFault_fb, raiseFault_scanRow, raiseFault_scanCol]
    exact (congrArg (raiseFault c ∘ State.setPicture t.fb t.scanRow t.scanCol) hframe).trans
      (raiseFault_frameStarted c s v.bs v.vt t.fb t.scanRow t.scanCol)
  case config =>
    rw [raiseFault_video _ (hdraw.frame ▸ hwork)]
    exact hdraw.frameWf hin.1
  case number =>
    have hnum := ht.fill.number
    rw [hstart, Nat.zero_add, frameBlocks_frameStarted, Nat.min_eq_left (Nat.le_of_lt hlt),
      ← hdraw.blockNumber_eq] at hnum
    rw [raiseFault_video _ (hdraw.frame ▸ hwork)]
    exact hnum
  case filled =>
    rw [raiseFault_fb]
    exact ht.fill.filled

end

/-! ### A TYPE tree of such words only -/

/-- The leaf of a code word of a tree of literals (30_encoding.md R102). -/
theorem BNode.allLits_codeWord {P : Half → Bool} {root leaf : BNode} {bits : List Bool} (hc : BigCodeWord root bits leaf)
    (h : root.allLits P = true) : ∃ w, leaf = .lit w ∧ P w = true := by
  induction hc with
  | lit w => exact ⟨w, rfl, h⟩
  | esc i => cases h
  | left _ ih => exact ih (Bool.and_eq_true_iff.1 h).1
  | right _ ih => exact ih (Bool.and_eq_true_iff.1 h).2

/-- A lookup of a tree of literals gives one of them and keeps the tree, or the window ends; within a tree of one leaf it
does not end (44_video_blocks.md R233). -/
theorem btLookup_allLits {P : Half → Bool} {id : Fin 4} {s : State} {low high : SmallTree} {root : BNode} {cache : Cache}
    (ht : s.vt[id] = .present low high root cache) (h : root.allLits P = true) :
    (∃ w t cache', btLookup id s = .ok w t ∧ P w = true ∧ t.vt[id] = .present low high root cache') ∨
    (∃ t, btLookup id s = .error .exhausted t ∧ ∀ w, root ≠ .lit w) := by
  rcases btLookup_cases id s with ⟨habsent, _⟩ | ⟨low', high', root', cache', ht', hcase⟩
  · rw [ht] at habsent
    cases habsent
  · rw [ht] at ht'
    cases ht'
    rcases hcase with ⟨bits, leaf, hc, _, _, he⟩ | he
    · obtain ⟨w, rfl, hw⟩ := BNode.allLits_codeWord hc h
      exact .inl ⟨w, _, _, he, hw, Vector.getElem_set_self _⟩
    · refine .inr ⟨_, he, fun w hroot => ?_⟩
      subst hroot
      rw [btLookup_code ht (.lit w) List.nil_prefix] at he
      cases he

/-- Lookups of a TYPE tree of literals give words whose runs reach `n` blocks, or the window ends before
(44_video_blocks.md R232, R233). -/
theorem typeWords_cases {P : Half → Bool} {low high : SmallTree} {root : BNode} (h : root.allLits P = true) (n : Nat) :
    0 < n → ∀ {s : State} {cache : Cache}, s.vt[typeId] = .present low high root cache →
    ∃ k ws u, btLookups typeId k s = .ok ws u ∧ (∀ w ∈ ws, P w = true) ∧
      ((runBlocks ws.dropLast < n ∧ n ≤ runBlocks ws) ∨
        (runBlocks ws < n ∧ (∃ v, btLookup typeId u = .error .exhausted v) ∧ ∀ w, root ≠ .lit w)) := by
  induction n using Nat.strong_induction_on with
  | _ n ih =>
    intro hn s cache ht
    rcases btLookup_allLits ht h with ⟨w, t, cache', he, hw, ht'⟩ | ⟨t, he, hroot⟩
    · have hpos := runLength_pos (runidxField w)
      by_cases hle : n ≤ runLength (runidxField w)
      · exact ⟨1, [w], t, btLookups_succ_iff.2 ⟨w, t, [], he, rfl, rfl⟩, by simpa using hw, .inl ⟨hn, hle⟩⟩
      · obtain ⟨k, ws, u, hl, hws, hend⟩ := ih (n - runLength (runidxField w)) (by omega) (by omega) ht'
        refine ⟨k + 1, w :: ws, u, btLookups_succ_iff.2 ⟨w, t, ws, he, hl, rfl⟩,
          List.forall_mem_cons.2 ⟨hw, hws⟩, ?_⟩
        rw [runBlocks_cons]
        refine hend.imp (fun ⟨hlt, hge⟩ => ?_) fun ⟨hlt, hfault⟩ => ⟨by omega, hfault⟩
        have hne : ws ≠ [] := by
          rintro rfl
          exact absurd hge (by rw [runBlocks, List.map_nil, List.sum_nil]; omega)
        rw [runBlocks_dropLast_cons w hne]
        omega
    · exact ⟨0, [], s, rfl, by simp, .inr ⟨hn, ⟨t, he⟩, hroot⟩⟩

/-- VID_DECODE with a TYPE tree of words of one colour completes, or the window ends; with one leaf it completes. -/
theorem vidDecode_flat_cases {p : Option Byte} {P : Half → Bool} (hP : ∀ w, P w = true → FlatWord p w) {s : State}
    {low high : SmallTree} {root : BNode} {cache : Cache} (hw : windowLegal s s.arg0 s.arg1 = true)
    (hc : videoConfigLegal s = true) (ht : s.vt[typeId] = .present low high root cache) (h : root.allLits P = true) :
    ∃ t, exec .vidDecode s = .next t ∧ t.fbDraw = s.fbDraw ∧ t.fbZeroed = s.fbZeroed ∧ ∃ n,
      Filled p n (frameStarted s) t.fb ∧
      ((t.status = 0x5000 ∧ frameBlocks s ≤ n) ∨ (t.status = 0x5001 ∧ ∀ w, root ≠ .lit w)) := by
  have ht' : (frameStarted s).vt[typeId] = .present low high root Cache.zero := by rw [frameStarted_vt, ht, btResetTree]
  have hin := frameStarted_inFrame hc
  have hpos : 0 < frameBlocks s := Nat.zero_lt_of_lt (hin.1.blockNumber_lt hin.2)
  obtain ⟨k, ws, u, hl, hws, hend⟩ := typeWords_cases h (frameBlocks s) hpos ht'
  have hflat : ∀ w ∈ ws, FlatWord p w := fun w hmem => hP w (hws w hmem)
  rcases hend with ⟨hlt, hge⟩ | ⟨hlt, ⟨v, hv⟩, hroot⟩
  · obtain ⟨m, he, hfill⟩ := vidDecode_flat_completes hw hc hl hflat hlt hge
    exact ⟨_, he, rfl, rfl, _, hfill, .inl ⟨rfl, hge⟩⟩
  · obtain ⟨t, he, hframe, _, _, hfill⟩ := vidDecode_flat_faults hw hc hl hflat hlt hv
    exact ⟨t, he, by rw [hframe], by rw [hframe], _, hfill, .inr ⟨by rw [hframe]; rfl, hroot⟩⟩

/-! ### The statements -/

/-- What is filled from the first block on. -/
theorem Filled.from_start {colour : Byte} {n : Nat} {s : State} {m : List Host.Cell}
    (h : Filled (some colour) n (frameStarted s) m) (a : Nat) : Memory.read outBlank m a =
      if a < s.width.toNat * s.height.toNat ∧ blockOf s a < n then some colour else fbAt s a := by
  have hstart := blockNumber_frameStarted s
  rw [h a, hstart]
  exact if_congr (by simp [frameStarted, blockOf]) rfl rfl

/-- Every pixel is filled once the runs reach the end of the frame. -/
theorem Filled.whole {colour : Byte} {n : Nat} {s : State} {m : List Host.Cell} (hc : videoConfigLegal s = true)
    (h : Filled (some colour) n (frameStarted s) m) (hn : frameBlocks s ≤ n) (a : Nat) : Memory.read outBlank m a =
      if a < s.width.toNat * s.height.toNat then some colour else fbAt s a := by
  rw [h.from_start]
  exact if_congr (and_iff_left_of_imp fun ha => Nat.lt_of_lt_of_le (blockOf_lt hc ha) hn) rfl rfl

/-- Settles O49: a frame of words of no colour. -/
theorem voidFrame : Obligations.VoidFrame := by
  unfold Obligations.VoidFrame
  refine ⟨fun s low high root cache hw hc ht h => ?tree, fun s u k ws hw hc hl hws =>
    ⟨fun hlt hge => ?completes, fun c v hlt hv => ?faults⟩⟩
  case tree =>
    obtain ⟨t, he, hdraw, hzero, n, hfill, hstatus⟩ :=
      vidDecode_flat_cases (p := none) (fun w hP => beq_iff_eq.1 hP) hw hc ht h
    refine ⟨t, he, hfill, hdraw, hzero, hstatus.imp (fun hs => ?_) fun hs => ?_⟩
    · rw [State.statusCause, hs.1]
      rfl
    · rw [State.statusCause, hs.1]
      rfl
  case completes =>
    obtain ⟨m, he, hfill⟩ := vidDecode_flat_completes (p := none) hw hc hl hws hlt hge
    have hm : m = s.fb := hfill
    rw [he, hm]
  case faults =>
    obtain ⟨t, he, hframe, hwf, hnum, hfill⟩ := vidDecode_flat_faults (p := none) hw hc hl hws hlt hv
    have hfb : t.fb = s.fb := hfill
    rw [hfb] at hframe
    exact ⟨t, he, hframe, hwf, hnum⟩

/-- Settles O50: a frame of words of one colour. -/
theorem solidFrame : Obligations.SolidFrame := by
  unfold Obligations.SolidFrame
  refine ⟨fun s low high root cache colour hw hc ht h => ?tree, fun s u k ws colour hw hc hl hws =>
    ⟨fun hlt hge => ?completes, fun c v hlt hv => ?faults⟩⟩
  case tree =>
    have hP : ∀ w : Half, (w.extractLsb' 0 2 == 3#2 && w.extractLsb' 8 8 == colour) = true → FlatWord (some colour) w :=
      fun w hP => (Bool.and_eq_true_iff.1 hP).imp beq_iff_eq.1 beq_iff_eq.1
    obtain ⟨t, he, _, _, n, hfill, ⟨hs, hn⟩ | ⟨hs, hroot⟩⟩ := vidDecode_flat_cases hP hw hc ht h
    · exact ⟨t, he, fun _ a ha => (hfill.whole hc hn a).trans (if_pos ha), fun _ => hs⟩
    · refine ⟨t, he, fun hs' => ?_, fun ⟨w, hw⟩ => absurd hw (hroot w)⟩
      rw [hs] at hs'
      exact absurd hs' (by decide)
  case completes =>
    obtain ⟨m, he, hfill⟩ := vidDecode_flat_completes (p := some colour) hw hc hl hws hlt hge
    exact ⟨_, he, rfl, hfill.whole hc hge⟩
  case faults =>
    obtain ⟨t, he, hframe, hwf, hnum, hfill⟩ := vidDecode_flat_faults (p := some colour) hw hc hl hws hlt hv
    exact ⟨t, he, hframe, hwf, hnum, hfill.from_start⟩

end Sys2Proof.Machine
end

section
/-! The block types that look pixels up (44_video_blocks.md R236, R237, R240, R241): a block as a layout that says at which
lookup each pixel is painted, what the lookups done leave in FB, and MONO. -/

-- The package is compiled as one text: elaborating in order keeps the number of threads small.
set_option Elab.async false

namespace Sys2Proof.Machine

open Sys2Proof Sys2Proof.Config

/-! ### Layouts -/

/-- A block drawn by lookups of the FULL tree: how many there are, at which of them pixel (r, c) is painted, and which byte
of the value it gets. -/
structure Layout where
  count : Nat
  lookup : Nat → Nat → Nat
  byte : Nat → Nat → Half → Byte

/-- The pixels painted at the `j`-th lookup, row by row. -/
def Layout.pixels (L : Layout) (j : Nat) (w : Half) : List (Nat × Nat × Byte) :=
  ((List.range 16).filter fun k => L.lookup (k / 4) (k % 4) = j).map fun k => (k / 4, k % 4, L.byte (k / 4) (k % 4) w)

/-- `n` lookups from the `j`-th on, each painted before the next. -/
def Layout.drawFrom (L : Layout) (j : Nat) : Nat → Engine Unit
  | 0 => pure ()
  | n + 1 => do
    let w ← btLookup fullId
    modify (paint (L.pixels j w))
    L.drawFrom (j + 1) n

def Layout.draw (L : Layout) : Engine Unit := L.drawFrom 0 L.count

/-- FULL (44_video_blocks.md R237): two lookups a row, the right pair first. -/
def fullLayout : Layout where
  count := 8
  lookup r c := 2 * r + (if c < 2 then 1 else 0)
  byte _ c w := w.extractLsb' (8 * (c % 2)) 8

/-- DOUBLE (44_video_blocks.md R240): a lookup for two rows. -/
def doubleLayout : Layout where
  count := 2
  lookup r _ := r / 2
  byte _ c w := if c < 2 then w.extractLsb' 0 8 else w.extractLsb' 8 8

/-- HALF in the variant `four_lookup` (44_video_blocks.md R241): two lookups for two rows, the right pair first. -/
def halfLayout : Layout where
  count := 4
  lookup r c := 2 * (r / 2) + (if c < 2 then 1 else 0)
  byte _ c w := w.extractLsb' (8 * (c % 2)) 8

theorem drawFull_layout : drawFull = fullLayout.draw := by
  simp only [drawFull, drawFullRow, bind_assoc]
  rfl

theorem drawDouble_layout : drawDouble = doubleLayout.draw := by
  simp only [drawDouble, drawDoubleBand, bind_assoc]
  rfl

theorem drawHalf_layout {s : State} (h : s.params.halfVariant = .fourLookup) : drawHalf s = halfLayout.draw s := by
  have hbands : (drawHalfBand 0 >>= fun _ => drawHalfBand 1) = halfLayout.draw := by
    simp only [drawHalfBand, bind_assoc]
    rfl
  rw [← hbands, drawHalf, ops_bind, ops_get]
  simp only [h]

theorem drawHalf_two {s : State} (h : s.params.halfVariant = .twoLookup) : drawHalf s = drawDouble s := by
  rw [drawHalf, ops_bind, ops_get]
  simp only [h]

/-! ### What the lookups done leave in FB -/

/-- A pixel painted with one colour, once or more often, has it. -/
theorem paintMem_colour {s : State} (h : InFrame s) {pxs : List (Nat × Nat × Byte)} {m : List Host.Cell} {r c : Nat}
    {v : Byte} (hcol : ∀ px ∈ pxs, px.2.1 < 4) (hv : ∀ x, (r, c, x) ∈ pxs → x = v) (hp : (r, c, v) ∈ pxs) :
    Memory.read outBlank (paintMem s pxs m) (pixelAddr s r c) = some v := by
  induction pxs generalizing m with
  | nil => cases hp
  | cons px pxs ih =>
    by_cases hrest : (r, c, v) ∈ pxs
    · exact ih (fun q hq => hcol q (List.mem_cons_of_mem _ hq)) (fun x hx => hv x (List.mem_cons_of_mem _ hx)) hrest
    · obtain rfl := (List.mem_cons.1 hp).resolve_right hrest
      have hlast : ∀ q ∈ pxs, pixelAddr s q.1 q.2.1 ≠ pixelAddr s r c := by
        rintro ⟨r', c', x⟩ hq he
        obtain ⟨rfl, rfl⟩ := pixelAddr_inj h.1 h.2 (hcol _ (List.mem_cons_of_mem _ hq)) (hcol _ List.mem_cons_self) he
        obtain rfl := hv x (List.mem_cons_of_mem _ hq)
        exact hrest hq
      exact (paintMem_other hlast).trans (Memory.read_write_out _ _ _)

/-- The pixels painted at the lookups from the `j`-th on that gave these values. -/
def Layout.painted (L : Layout) (j : Nat) : List Half → List (Nat × Nat × Byte)
  | [] => []
  | w :: ws => L.pixels j w ++ L.painted (j + 1) ws

theorem Layout.mem_pixels {L : Layout} {j r c : Nat} {w : Half} {v : Byte} :
    (r, c, v) ∈ L.pixels j w ↔ r < 4 ∧ c < 4 ∧ L.lookup r c = j ∧ v = L.byte r c w := by
  simp only [Layout.pixels, List.mem_map, List.mem_filter, List.mem_range, decide_eq_true_eq, Prod.mk.injEq]
  constructor
  · rintro ⟨k, ⟨hk, hj⟩, rfl, rfl, rfl⟩
    exact ⟨by omega, by omega, hj, rfl⟩
  · rintro ⟨hr, hc, hj, rfl⟩
    have hrow : (4 * r + c) / 4 = r := by omega
    have hcol : (4 * r + c) % 4 = c := by omega
    exact ⟨4 * r + c, by rw [hrow, hcol]; exact ⟨⟨by omega, hj⟩, rfl, rfl, rfl⟩⟩

theorem Layout.mem_painted {L : Layout} {r c : Nat} {v : Byte} (ws : List Half) : ∀ {j : Nat},
    (r, c, v) ∈ L.painted j ws ↔
      r < 4 ∧ c < 4 ∧ j ≤ L.lookup r c ∧ ∃ w, ws[L.lookup r c - j]? = some w ∧ v = L.byte r c w := by
  induction ws with
  | nil => simp [Layout.painted]
  | cons w ws ih =>
    intro j
    rw [Layout.painted, List.mem_append, Layout.mem_pixels, ih]
    rcases Nat.lt_trichotomy (L.lookup r c) j with hj | rfl | hj
    · simp [Nat.ne_of_lt hj, Nat.not_le.2 hj, Nat.not_le.2 (Nat.lt_succ_of_lt hj)]
    · simp
    · have hidx : L.lookup r c - j = L.lookup r c - (j + 1) + 1 := by omega
      rw [hidx, List.getElem?_cons_succ]
      simp [Nat.ne_of_gt hj, Nat.le_of_lt hj, Nat.succ_le_of_lt hj]

/-- `m` is FB after the lookups of a block at the cursor of `s` that gave these values: the pixels of those lookups
have their bytes, every other byte is as it was (44_video_blocks.md R244; 60_exceptions.md R297). -/
structure Layout.Leaves (L : Layout) (s : State) (ws : List Half) (m : List Host.Cell) : Prop where
  inside : ∀ r c : Nat, r < 4 → c < 4 → Memory.read outBlank m (pixelAddr s r c) =
    if L.lookup r c < ws.length then (ws[L.lookup r c]?).map (L.byte r c) else fbAt s (pixelAddr s r c)
  outside : ∀ a, ¬ inBlock s a → Memory.read outBlank m a = fbAt s a

theorem Layout.leaves_painted (L : Layout) {s : State} (h : InFrame s) (ws : List Half) :
    L.Leaves s ws (paintMem s (L.painted 0 ws) s.fb) := by
  have hmem : ∀ {r c : Nat} {v : Byte}, (r, c, v) ∈ L.painted 0 ws ↔
      r < 4 ∧ c < 4 ∧ ∃ w, ws[L.lookup r c]? = some w ∧ v = L.byte r c w := by
    intro r c v
    rw [Layout.mem_painted ws, Nat.sub_zero]
    simp only [Nat.zero_le, true_and]
  refine ⟨fun r c hr hc => ?_, fun a ha => paintMem_other fun ⟨r, c, v⟩ hp he => ha ?_⟩
  · split_ifs with hlt
    · have hw := List.getElem?_eq_getElem hlt
      rw [hw, Option.map_some]
      refine paintMem_colour h (fun ⟨r', c', x⟩ hp => (hmem.1 hp).2.1) (fun x hx => ?_) (hmem.2 ⟨hr, hc, _, hw, rfl⟩)
      obtain ⟨_, _, w, hw', rfl⟩ := hmem.1 hx
      rw [Option.some.inj (hw.symm.trans hw')]
    · refine paintMem_other fun ⟨r', c', x⟩ hp he => hlt ?_
      obtain ⟨_, hc', w, hw, _⟩ := hmem.1 hp
      obtain ⟨rfl, rfl⟩ := pixelAddr_inj h.1 h.2 hc' hc he
      exact (List.getElem?_eq_some_iff.1 hw).1
  · obtain ⟨hr, hc, _⟩ := hmem.1 hp
    exact ⟨r, c, hr, hc, he.symm⟩

/-! ### Drawing by a layout -/

section
variable {L : Layout} {s u : State} {ws : List Half}

/-- The lookups neither read FB nor move the cursor, so those done first can be taken together. -/
theorem Layout.drawFrom_lookups (n : Nat) (k : Nat) : ∀ {j : Nat} {s u : State} {ws : List Half},
    btLookups fullId k s = .ok ws u →
    L.drawFrom j (k + n) s = L.drawFrom (j + k) n (u.setFb (paintMem s (L.painted j ws) s.fb)) := by
  induction k with
  | zero =>
    intro j s u ws h
    cases h
    rw [Nat.zero_add]
    rfl
  | succ k ih =>
    intro j s u ws h
    obtain ⟨w, t, rest, hw, hrest, rfl⟩ := btLookups_succ_iff.1 h
    have hlook := btLookup_ok_lookFrame hw
    have hcursor : ∀ pxs m, paintMem t pxs m = paintMem s pxs m :=
      paintMem_cursor hlook.draw.cursor.1 hlook.draw.cursor.2 (by rw [hlook.draw.frame])
    have hrest' := ((btLookup_ignores_setFb fullId (paintMem t (L.pixels j w) t.fb)).btLookups k).ok hrest
    rw [Nat.add_right_comm, Layout.drawFrom, ops_bind, hw]
    simp only [ops_bind, ops_modify, paint_eq]
    rw [ih hrest', Layout.painted, paintMem_append, Nat.add_right_comm j 1 k, ← hlook.fb, ← hcursor, ← hcursor]
    rfl

/-- A block whose lookups all succeed. -/
theorem Layout.draw_completes (h : InFrame s) (hl : btLookups fullId L.count s = .ok ws u) :
    ∃ m, L.draw s = .ok () (u.setFb m) ∧ L.Leaves s ws m :=
  ⟨_, Layout.drawFrom_lookups 0 L.count hl, L.leaves_painted h ws⟩

/-- A block with a lookup that faults (44_video_blocks.md R244). -/
theorem Layout.draw_faults {k : Nat} {c : Cause} {v : State} (h : InFrame s) (hl : btLookups fullId k s = .ok ws u)
    (hk : k < L.count) (hv : btLookup fullId u = .error c v) :
    ∃ m, L.draw s = .error c (v.setFb m) ∧ L.Leaves s ws m := by
  obtain ⟨n, hn⟩ := Nat.exists_eq_add_of_lt hk
  refine ⟨_, ?_, L.leaves_painted h ws⟩
  rw [Layout.draw, hn, Nat.add_assoc, Layout.drawFrom_lookups (n + 1) k hl, Layout.drawFrom, ops_bind,
    (btLookup_ignores_setFb fullId _).error hv]

/-- A block type drawn by a layout, with run index 0 (44_video_blocks.md R232). -/
theorem Layout.exec_completes {i : Instr} (hi : blockRunidx i = some 0) (hd : blockDraw i s = L.draw s)
    (hw : s.work = .video) (h : InFrame s) (hl : btLookups fullId L.count s = .ok ws u) :
    ∃ m, exec i s = .next (endGroup (advanceScan { u with fb := m })) ∧ L.Leaves s ws m := by
  obtain ⟨m, hm, hleaves⟩ := Layout.draw_completes h hl
  exact ⟨m, exec_block_one hi hw h.2 (hd.trans hm), hleaves⟩

/-- A block type drawn by a layout, whatever its run, with a lookup that faults in its first block. -/
theorem Layout.exec_faults {i : Instr} {run : BitVec 6} {k : Nat} {c : Cause} {v : State} (hi : blockRunidx i = some run)
    (hd : blockDraw i s = L.draw s) (hw : s.work = .video) (h : InFrame s) (hl : btLookups fullId k s = .ok ws u)
    (hk : k < L.count) (hv : btLookup fullId u = .error c v) :
    ∃ m, exec i s = .next (raiseFault c { v with fb := m }) ∧ L.Leaves s ws m := by
  obtain ⟨m, hm, hleaves⟩ := Layout.draw_faults h hl hk hv
  exact ⟨m, exec_block_faults hi hw h.2 (hd.trans hm), hleaves⟩

/-- The pixels of a whole block. -/
theorem Layout.Leaves.all {m : List Host.Cell} (h : L.Leaves s ws m)
    (hcount : ∀ r c : Nat, r < 4 → c < 4 → L.lookup r c < L.count) (hlen : ws.length = L.count)
    (r c : Nat) (hr : r < 4) (hc : c < 4) :
    Memory.read outBlank m (pixelAddr s r c) = (ws[L.lookup r c]?).map (L.byte r c) := by
  rw [h.inside r c hr hc, if_pos (hlen ▸ hcount r c hr hc)]

end

theorem fullLayout_lookup_lt (r c : Nat) (hr : r < 4) (_hc : c < 4) : fullLayout.lookup r c < fullLayout.count := by
  simp only [fullLayout]
  split <;> omega

theorem doubleLayout_lookup_lt (r c : Nat) (hr : r < 4) (_hc : c < 4) : doubleLayout.lookup r c < doubleLayout.count := by
  simp only [doubleLayout]
  omega

theorem halfLayout_lookup_lt (r c : Nat) (hr : r < 4) (_hc : c < 4) : halfLayout.lookup r c < halfLayout.count := by
  simp only [halfLayout]
  split <;> omega

/-- In the variant `two_lookup` a run of HALF is a run of DOUBLE (44_video_blocks.md R241). -/
theorem drawRun_half_two (n : Nat) : ∀ {s : State}, s.params.halfVariant = .twoLookup →
    drawRun drawHalf n s = drawRun drawDouble n s := by
  induction n with
  | zero => exact fun _ => rfl
  | succ n ih =>
    intro s h
    by_cases hr : s.scanRow < s.height
    · have hd := draws_drawDouble s
      rcases hs : drawDouble s with ⟨⟨⟩, u⟩ | ⟨c, u⟩ <;> simp only [hs] at hd
      · have hu : (advanceScan u).params.halfVariant = .twoLookup := by
          rw [advanceScan_frame, hd.frame]
          exact h
        rw [drawRun_draws hr ((drawHalf_two h).trans hs), drawRun_draws hr hs, ih hu]
      · rw [drawRun_faults hr ((drawHalf_two h).trans hs), drawRun_faults hr hs]
    · rw [drawRun_over _ _ hr, drawRun_over _ _ hr]

theorem blockRun_half_two (n : Nat) {s : State} (h : s.params.halfVariant = .twoLookup) :
    blockRun drawHalf n s = blockRun drawDouble n s := by
  rw [blockRun_eq, drawRun_half_two n h, ← blockRun_eq]

/-! ### The statements of FULL, DOUBLE and HALF -/

/-- Settles O46: the layout of FULL. -/
theorem fullBlock : Obligations.FullBlock := by
  unfold Obligations.FullBlock
  intro s u p k ws hw hf hr hl
  have hlen := btLookups_length hl
  refine ⟨fun hk => ?completes, fun run c v hk hv => ?faults⟩
  case completes =>
    subst hk
    obtain ⟨m, he, hleaves⟩ := Layout.exec_completes (L := fullLayout) (i := .full p 0) rfl
      (congrFun drawFull_layout s) hw ⟨hf, hr⟩ hl
    exact ⟨m, he, hleaves.all fullLayout_lookup_lt hlen, hleaves.outside⟩
  case faults =>
    subst hlen
    obtain ⟨m, he, hleaves⟩ := Layout.exec_faults (L := fullLayout) (i := .full p run) rfl
      (congrFun drawFull_layout s) hw ⟨hf, hr⟩ hl hk hv
    exact ⟨m, he, hleaves.inside, hleaves.outside⟩

/-- Settles O47: the layouts of DOUBLE and of HALF; under `two_lookup` HALF is drawn as DOUBLE. -/
theorem doubleAndHalfBlocks : Obligations.DoubleAndHalfBlocks := by
  unfold Obligations.DoubleAndHalfBlocks
  intro s p hw hf hr
  have hdouble : ∀ run, blockDraw (.double p run) s = doubleLayout.draw s := fun _ => congrFun drawDouble_layout s
  have hhalf : s.params.halfVariant = .fourLookup → ∀ run, blockDraw (.half p run) s = halfLayout.draw s :=
    fun h4 _ => drawHalf_layout h4
  refine ⟨fun u ws hl => ?double, fun h4 u ws hl => ?half, fun h2 run => ?two, fun u v run k ws cause hl hv =>
    ⟨fun hk => ?doubleFaults, fun h4 hk => ?halfFaults⟩⟩
  case double =>
    obtain ⟨m, he, hleaves⟩ := Layout.exec_completes rfl (hdouble 0) hw ⟨hf, hr⟩ hl
    exact ⟨m, he, hleaves.all doubleLayout_lookup_lt (btLookups_length hl), hleaves.outside⟩
  case half =>
    obtain ⟨m, he, hleaves⟩ := Layout.exec_completes rfl (hhalf h4 0) hw ⟨hf, hr⟩ hl
    exact ⟨m, he, hleaves.all halfLayout_lookup_lt (btLookups_length hl), hleaves.outside⟩
  case two =>
    exact (exec_block rfl hw).trans ((blockRun_half_two _ h2).trans (exec_block (i := .double p run) rfl hw).symm)
  case doubleFaults =>
    obtain ⟨m, he, hleaves⟩ := Layout.exec_faults rfl (hdouble run) hw ⟨hf, hr⟩ hl hk hv
    have hlen := btLookups_length hl
    subst hlen
    exact ⟨m, he, hleaves.inside, hleaves.outside⟩
  case halfFaults =>
    obtain ⟨m, he, hleaves⟩ := Layout.exec_faults rfl (hhalf h4 run) hw ⟨hf, hr⟩ hl hk hv
    have hlen := btLookups_length hl
    subst hlen
    exact ⟨m, he, hleaves.inside, hleaves.outside⟩

/-! ### MONO -/

section
variable {s t u : State} {clr map : Half} {c : Cause}

theorem drawMono_colours_fault (h : btLookup mclrId s = .error c t) : drawMono s = .error c t := by
  rw [drawMono, ops_bind, h]

theorem drawMono_bitmap_fault (h1 : btLookup mclrId s = .ok clr t) (h2 : btLookup mmapId t = .error c u) :
    drawMono s = .error c u := by
  rw [drawMono, ops_bind, h1]
  simp only [ops_bind, h2]

/-- Both lookups succeed: the 16 pixels (44_video_blocks.md R236). -/
theorem drawMono_ok (h1 : btLookup mclrId s = .ok clr t) (h2 : btLookup mmapId t = .ok map u) :
    drawMono s = .ok () (u.setFb (paintMem s
      (blockPixels fun r c => if map.getLsbD (4 * r + c) then highByte clr else lowByte clr) s.fb)) := by
  have hlook := (btLookup_ok_lookFrame h1).trans (btLookup_ok_lookFrame h2)
  rw [drawMono, ops_bind, h1]
  simp only [ops_bind, h2, ops_modify, paint_eq]
  rw [paintMem_cursor hlook.draw.cursor.1 hlook.draw.cursor.2 (by rw [hlook.draw.frame]), hlook.fb]

end

/-- A bigtree put into one slot leaves the others. -/
theorem State.setVt_other (s : State) {id other : Fin 4} (t : BigTree) (h : (id : Nat) ≠ other) :
    (s.setVt id t).vt[other] = s.vt[other] := Vector.getElem_set_ne id.isLt other.isLt h

/-- The bits ahead behind others that are ahead. -/
theorem State.ahead_behind_iff {s t : State} {xs ys : List Bool} (hx : s.Ahead xs) (hm : t.inMem = s.inMem)
    (hb : t.bs = s.bs.skip xs.length) : t.Ahead ys ↔ s.Ahead (xs ++ ys) := by
  obtain ⟨rest, hr⟩ := State.ahead_iff.1 hx
  rw [State.Ahead, State.Ahead, hm, hb, (remaining_after hr).2, hr, List.prefix_append_right_inj]

/-- A lookup that reads a code word leaves the other bigtrees and the bits behind the code word. -/
theorem btLookup_code_then {id other : Fin 4} (hne : (id : Nat) ≠ other) {s : State} {low high : SmallTree}
    {root leaf : BNode} {cache : Cache} {bits : List Bool} (h : s.vt[id] = .present low high root cache)
    (hc : BigCodeWord root bits leaf) (ha : s.Ahead bits) :
    ∃ t, t = (s.setBs (s.bs.skip bits.length)).setVt id
        (.present low high root (mruUpdate cache (leafValue cache leaf))) ∧
      btLookup id s = .ok (leafValue cache leaf) t ∧ t.vt[other] = s.vt[other] ∧
      ∀ ys, t.Ahead ys ↔ s.Ahead (bits ++ ys) :=
  ⟨_, rfl, btLookup_code h hc ha, State.setVt_other (s.setBs _) _ hne, fun _ => State.ahead_behind_iff ha rfl rfl⟩

/-- Settles O45: the colours' lookup, then the bitmap's behind it. -/
theorem monoBlock : Obligations.MonoBlock := by
  unfold Obligations.MonoBlock
  intro s p run hw hf hr
  have hfault : ∀ {c t}, drawMono s = .error c t → exec (.mono p run) s = .next (raiseFault c t) :=
    fun h => exec_block_faults rfl hw hr h
  refine ⟨fun ht => hfault (drawMono_colours_fault (btLookup_absent ht)),
    fun low high root cache ht hn => hfault (drawMono_colours_fault (btLookup_exhausted ht hn)),
    fun low1 high1 root1 leaf1 c1 bits1 ht1 hc1 ha1 => ?_⟩
  obtain ⟨rest, hrest⟩ := State.ahead_iff.1 ha1
  have hle := (remaining_after hrest).1
  obtain ⟨t, heq, h1, hmap, hahead⟩ := btLookup_code_then (show (mclrId : Nat) ≠ mmapId by decide) ht1 hc1 ha1
  refine ⟨fun ht => ?absent, fun low high root cache ht hn => ?exhausted,
    fun low0 high0 root0 leaf0 c0 bits0 ht0 hc0 ha0 => ?drawn⟩
  case absent =>
    have h2 := hfault (drawMono_bitmap_fault h1 (btLookup_absent (hmap.trans ht)))
    rw [heq] at h2
    exact h2
  case exhausted =>
    have h2 := hfault (drawMono_bitmap_fault h1 (btLookup_exhausted (hmap.trans ht)
      fun bits leaf hc ha => hn bits leaf hc ((hahead bits).1 ha)))
    rw [heq] at h2
    rw [← BitStream.skip_rest hle]
    exact h2
  case drawn =>
    have h2 := exec_block_one (i := .mono p 0) rfl hw hr
      (drawMono_ok h1 (btLookup_code (hmap.trans ht0) hc0 ((hahead bits0).2 ha0)))
    obtain ⟨hin, hout⟩ := paintMem_block hf hr (fun r c =>
      if (leafValue c0 leaf0).getLsbD (4 * r + c) then highByte (leafValue c1 leaf1) else lowByte (leafValue c1 leaf1)) s.fb
    rw [heq] at h2
    rw [List.length_append, ← BitStream.skip_skip hle]
    exact ⟨_, h2, hin, hout⟩

end Sys2Proof.Machine
end

section
/-! The system commands NOP, LOG_CLEAR and SOFT_RESET, and what a step that takes an access of the host does: a command code, a
register, a byte of `IN` (46_system.md R280 to R284). -/

-- The package is compiled as one text: elaborating in order keeps the number of threads small.
set_option Elab.async false

namespace Sys2Proof.Machine

open Sys2Proof Sys2Proof.Config

/-! ### The system commands -/

/-- A command whose rule is one assignment (46_system.md R280). -/
theorem command_modify (code : Byte) (f : State → State) (s : State) :
    command code (modify f) s = .next (f (startCommand code s)) := command_ok rfl

theorem exec_nop (s : State) : exec .nop s = .next (startCommand 0x00 s) := command_ok rfl

theorem exec_logClear (s : State) : exec .logClear s = .next { startCommand 0x02 s with log := 0 } :=
  command_modify 0x02 (fun s => { s with log := 0 }) s

theorem exec_softReset (s : State) : exec .softReset s = .next (softResetState (startCommand 0x01 s)) :=
  command_modify 0x01 softResetState s

/-- Settles O1: NOP's rule is empty, and LOG_CLEAR's is one assignment behind the start of a command. -/
theorem nopAndLogClear : Obligations.NopAndLogClear := by
  unfold Obligations.NopAndLogClear
  intro s
  have h0 : statusWord 0x00 0 = 0x0000 := rfl
  have h2 : statusWord 0x02 0 = 0x0200 := rfl
  exact ⟨by rw [exec_nop, startCommand, h0], by rw [exec_logClear, startCommand, h2]⟩

/-- After SOFT_RESET every tree is Absent and every track has the length 0 (46_system.md R282). -/
theorem softResetState_cleared (s : State) :
    (∀ i : Fin 4, (softResetState s).atree[i] = .absent) ∧ (∀ i : Fin 4, (softResetState s).vt[i] = .absent) ∧
      ∀ k : Fin 7, (softResetState s).aoutLen[k] = 0 := by
  simp [softResetState]

/-- Settles O2: SOFT_RESET is its start and then the assignments of 46_system.md R282; a track of length 0 has no byte to
read. -/
theorem softResetResult : Obligations.SoftResetResult := by
  unfold Obligations.SoftResetResult
  intro s
  obtain ⟨hatree, hvt, haoutLen⟩ := softResetState_cleared (startCommand 0x01 s)
  exact ⟨_, exec_softReset s,
    ⟨rfl, rfl, rfl, hatree, hvt, haoutLen, fun k => hostReadAout_of_empty (haoutLen k), rfl, rfl, rfl, rfl, rfl⟩,
    rfl, rfl, rfl, rfl, rfl, rfl, rfl, rfl, rfl, rfl, rfl, rfl, rfl⟩

/-! ### A write to CMD -/

/-- Settles O8: the code decodes to the command whose code it is. -/
theorem stepRunsCommand : Obligations.StepRunsCommand := by
  unfold Obligations.StepRunsCommand
  intro s code rest i hw hh hi
  rw [step_host hw hh, hostStep, decode_of_commandCode hi]

/-! ### A write to another register -/

/-- Where nothing is written since a fresh draw, the host reads the free value of that draw (10_state.md R24, R38). -/
theorem hostReadFb_of_fresh {s : State} (hfb : s.fb = []) (hz : s.fbZeroed = false) (addr : Nat) :
    hostReadFb s addr = if addr < s.width.toNat * s.height.toNat then some (fbByte s.fbDraw addr) else none := by
  simp [hostReadFb, hfb, hz, Memory.read, outBlank]

/-- Settles O4: the registers but WIDTH and HEIGHT are one assignment or none; those two make FB a fresh draw besides. -/
theorem hostRegisterWrite : Obligations.HostRegisterWrite := by
  unfold Obligations.HostRegisterWrite
  intro s r v rest hw hh
  have h : step s = .next (hostWriteReg r v { s with host := rest }) := step_host hw hh
  cases r
  case width => exact ⟨_, h, rfl, hostReadFb_of_fresh rfl rfl⟩
  case height => exact ⟨_, h, rfl, hostReadFb_of_fresh rfl rfl⟩
  all_goals exact h

/-! ### A write to `IN` -/

/-- A write to `IN` changes the byte at its address alone (20_memory.md R60). -/
theorem inRead_write {m : List Host.Cell} (h : Memory.wf inBlank m) (addr : Nat) (v : Byte) (a : Nat) :
    inRead (Memory.write inBlank m addr v) a = if a = addr then v else inRead m a := by
  unfold inRead
  split_ifs with ha
  · rw [ha, Memory.read_write_same addr v h]; rfl
  · rw [Memory.read_write_ne m v ha]

theorem hostWriteIn_below {s : State} {addr : Nat} (v : Byte) (h : addr < s.params.inSize.toNat) :
    hostWriteIn addr v s = .next { s with inMem := Memory.write inBlank s.inMem addr v } := if_pos h

theorem hostWriteIn_beyond {s : State} {addr : Nat} (v : Byte) (h : s.params.inSize.toNat ≤ addr) :
    hostWriteIn addr v s = .fault (.inAddress addr) := if_neg (Nat.not_lt.2 h)

/-- Settles O5: below IN_SIZE the step is a write of one byte, which keeps the canonical form; there is no byte at or above
it. -/
theorem hostInputWrite : Obligations.HostInputWrite := by
  unfold Obligations.HostInputWrite
  intro s addr v rest hw hh hm
  have hstep : step s = hostWriteIn addr v { s with host := rest } := step_host hw hh
  exact ⟨fun hlt => ⟨_, hstep.trans (hostWriteIn_below v hlt), Memory.wf_write addr v hm, inRead_write hm addr v⟩,
    fun hge => hstep.trans (hostWriteIn_beyond v hge)⟩

end Sys2Proof.Machine
end

section
/-! What raising a fault does (60_exceptions.md R294), the causes each command may end with (R293), and what VID_DECODE
leaves alone (R299; 44_video_blocks.md R243, R244). -/

-- The package is compiled as one text: elaborating in order keeps the number of threads small.
set_option Elab.async false

namespace Sys2Proof.Machine

open Sys2Proof Sys2Proof.Config

/-! ### Raising a fault -/

/-- A fault writes STATUS and LOG, ends the command, and cleans up bigtrees and tracks at most (60_exceptions.md R294). -/
theorem raiseFault_frame (c : Cause) (s : State) :
    raiseFault c s = { s with
      vt := (raiseFault c s).vt, aout := (raiseFault c s).aout, status := (raiseFault c s).status
      log := (raiseFault c s).log, work := .idle } := by
  unfold raiseFault cleanUp
  split <;> rfl

/-- A fault of BT_BUILD_ALL leaves four Absent bigtrees (42_big_tree.md R177). -/
theorem raiseFault_bigAll {id : Fin 4} {w : BigWork} {s : State} (c : Cause) (h : s.work = .bigAll id w) :
    (raiseFault c s).vt = Vector.replicate 4 .absent ∧ (raiseFault c s).aout = s.aout := by
  unfold raiseFault cleanUp
  rw [h]
  exact ⟨rfl, rfl⟩

/-- Outside BT_BUILD_ALL and AUD_DECODE a fault cleans nothing up (60_exceptions.md R294). -/
theorem raiseFault_outputs {s : State} (c : Cause) (h : cleanUp s = s) :
    (raiseFault c s).vt = s.vt ∧ (raiseFault c s).aout = s.aout := by
  unfold raiseFault
  rw [h]
  exact ⟨rfl, rfl⟩

/-- Settles O12: the fields of STATUS and the bits of LOG for any cause, their numbers cause by cause, and the clean-up
by the command that was running. (`raiseFault` itself is the model's function.) -/
theorem raiseFault_effect : Obligations.RaiseFault := by
  unfold Obligations.RaiseFault
  intro c s
  refine ⟨_, rfl, raiseFault_frame c s, raiseFault_statusCause c s, raiseFault_statusCmd c s, fun k _ => ?bits, ?numbers,
    ?outputs⟩
  case bits =>
    rw [Bool.eq_iff_iff, raiseFault_log, logWith_bit, Bool.or_eq_true, beq_iff_eq, eq_comm (a := k)]
  case numbers =>
    have hcause := raiseFault_statusCause c s
    have hlog := raiseFault_log s c
    cases c <;> exact ⟨hcause, hlog⟩
  case outputs =>
    cases hw : s.work with
    | bigAll id w =>
      obtain ⟨hvt, haout⟩ := raiseFault_bigAll c hw
      exact ⟨fun id => by rw [hvt]; simp, haout⟩
    | audio k w =>
      rw [raiseFault_audio c hw]
      exact ⟨rfl, rfl⟩
    | idle => exact raiseFault_outputs c (by simp only [cleanUp, hw])
    | small slot w => exact raiseFault_outputs c (by simp only [cleanUp, hw])
    | big id w => exact raiseFault_outputs c (by simp only [cleanUp, hw])
    | video => exact raiseFault_outputs c (by simp only [cleanUp, hw])

/-! ### The run of a frame -/

/-- From `s`, at a block of a frame, to `t`: the frame goes on at a block, is over with the cursor at its end, or has ended
at a block with a fault (44_video_blocks.md R232, R243, R244). -/
inductive FrameReaches (s : State) : State → Prop where
  | running {t : State} : VideoFrame s t → t.work = .video → InFrame t → FrameReaches s t
  | complete {t : State} : VideoFrame s t → t.work = .idle → t.scanRow = t.height ∧ t.scanCol = 0 → FrameReaches s t
  | fault {t : State} (c : Cause) : mayRaise .vidDecode c = true → VideoFrame s t → t.work = .video → InFrame t →
      FrameReaches s (raiseFault c t)

theorem FrameReaches.after {s t u : State} (h : VideoFrame s t) (h' : FrameReaches t u) : FrameReaches s u := by
  cases h' with
  | running hv hw hin => exact .running (h.trans hv) hw hin
  | complete hv hw hend => exact .complete (h.trans hv) hw hend
  | fault c hc hv hw hin => exact .fault c hc (h.trans hv) hw hin

/-- What drawing may raise, VID_DECODE may raise (60_exceptions.md R293). -/
theorem mayRaise_vidDecode {c : Cause} (h : c = .absentTree ∨ c = .exhausted) : mayRaise .vidDecode c = true := by
  rcases h with rfl | rfl <;> rfl

/-- A group of blocks (44_video_blocks.md R232). -/
theorem blockRun_frameReaches {draw : Engine Unit} (hd : Draws draw) {n : Nat} {s t : State} (hw : s.work = .video)
    (h : InFrame s) (ht : blockRun draw n s = .next t) : FrameReaches s t := by
  rcases drawRun_cases hd n h.1 (absurd h.2) with ⟨u, e, hv, hwu, hf, hend⟩ | ⟨c, u, e, hv, hwu, hf, hr, hc⟩
  · have hb : blockRun draw n s = .next (endGroup u) := perform_ok (by rw [ops_bind, e]; rfl)
    rw [hb] at ht
    cases ht
    unfold endGroup
    by_cases hr : u.scanRow < u.height
    · rw [if_pos hr]
      exact .running hv (hwu.trans hw) ⟨hf, hr⟩
    · rw [if_neg hr]
      exact .complete (hv.trans (videoFrame_setWork u .idle)) rfl (hend hr)
  · have hb : blockRun draw n s = .next (raiseFault c u) := perform_error (by rw [ops_bind, e])
    rw [hb] at ht
    cases ht
    exact .fault c (mayRaise_vidDecode hc) hv (hwu.trans hw) ⟨hf, hr⟩

/-- A step of VID_DECODE's run: the lookup of a TYPEWORD, and its group. -/
theorem engineStep_frameReaches {s t : State} (hw : s.work = .video) (h : InFrame s)
    (ht : engineStep tokenMeaning s = .next t) : FrameReaches s t := by
  rcases engineStep_video_cases hw with ⟨i, r, u, _, hd, hwu, e⟩ | ⟨c, u, hc, hd, e⟩ <;> rw [e] at ht
  · exact .after hd.video (blockRun_frameReaches (draws_block i) hwu (h.draw hd) ht)
  · cases ht
    exact .fault c (mayRaise_vidDecode hc) hd.video (by rw [hd.frame]; exact hw) (h.draw hd)

theorem FrameReaches.step {s t u : State} (hw : t.work ≠ .idle) (h : FrameReaches s t)
    (hu : engineStep tokenMeaning t = .next u) : FrameReaches s u := by
  cases h with
  | running hv hwt hin => exact .after hv (engineStep_frameReaches hwt hin hu)
  | complete _ hi _ => exact absurd hi hw
  | fault c _ _ _ _ => exact absurd rfl hw

/-- Everything VID_DECODE can do: a check refuses the command, or the frame runs to its end from its first block
(44_video_blocks.md R230 to R232). -/
theorem vidDecode_cases {s t : State} (h : exec .vidDecode s = .next t) :
    (∃ c, t = s.faulted 0x50 c ∧ ¬ (windowLegal s s.arg0 s.arg1 = true ∧ videoConfigLegal s = true)) ∨
      (FrameReaches (frameStarted s) t ∧ t.work = .idle) := by
  cases hl : windowLegal s s.arg0 s.arg1 with
  | false =>
    rw [vidDecode_window hl] at h
    cases h
    exact .inl ⟨_, rfl, nofun⟩
  | true =>
    cases hc : videoConfigLegal s with
    | false =>
      rw [vidDecode_badConfig hl hc] at h
      cases h
      exact .inl ⟨_, rfl, nofun⟩
    | true =>
      have hrun : runCommand (frameStarted s) = .next t :=
        (streamCommand_ok (vidDecodeStart_ok (s := startCommand 0x50 s) hl hc)).symm.trans h
      obtain ⟨_, e, hidle, _⟩ := exec_commandEnds (i := .vidDecode) rfl s
      rw [h] at e
      cases e
      exact .inr ⟨runSteps_invariant (fun _ _ => .step) (.running (.refl _) rfl (frameStarted_inFrame hc)) hrun, hidle⟩

/-! ### What VID_DECODE leaves alone -/

/-- The start of a frame resets the caches and nothing else of the trees (44_video_blocks.md R231). -/
theorem frameStarted_sameTrees (s : State) : SameTrees s (frameStarted s) := by
  intro id
  have hreset := frameStarted_vt s id
  cases h : s.vt[id] with
  | absent => rw [hreset, h]; rfl
  | present low high root cache => exact ⟨Cache.zero, by rw [hreset, h]; rfl⟩

/-- `t` is `s` but for what VID_DECODE may change (60_exceptions.md R299; 10_state.md R29). -/
structure VideoOutputs (s t : State) : Prop where
  frame : t = { s with
    cmd := 0x50, status := t.status, log := t.log, bs := t.bs, fb := t.fb, vt := t.vt
    scanRow := t.scanRow, scanCol := t.scanCol, work := .idle }
  trees : SameTrees s t

theorem VideoOutputs.faulted (s : State) (c : Cause) : VideoOutputs s (s.faulted 0x50 c) := ⟨rfl, .refl s⟩

theorem VideoFrame.outputs {s t : State} (h : VideoFrame (frameStarted s) t) (hw : t.work = .idle) : VideoOutputs s t := by
  refine ⟨?_, (frameStarted_sameTrees s).trans h.trees⟩
  rw [← hw, h.frame]
  rfl

theorem VideoFrame.outputs_raiseFault {s t : State} (h : VideoFrame (frameStarted s) t) (hw : t.work = .video)
    (c : Cause) : VideoOutputs s (raiseFault c t) := by
  rw [raiseFault_video c hw]
  refine ⟨?_, (frameStarted_sameTrees s).trans h.trees⟩
  rw [h.frame]
  rfl

/-- Up to its end a frame's decoding raises nothing (46_system.md R280). -/
theorem VideoFrame.statusCause {s t : State} (h : VideoFrame (frameStarted s) t) : t.statusCause = 0 := by
  rw [h.frame]
  exact startCommand_statusCause 0x50 s

theorem faulted_statusCause (s : State) (code : Byte) (c : Cause) : (s.faulted code c).statusCause = c.code := by
  rw [← raiseFault_start, raiseFault_statusCause]

/-- Settles O51: a check that refuses touches STATUS and LOG alone; a frame's run changes its own outputs, and ends at the
frame's end or, with a fault, at one of its blocks. -/
theorem vidDecodeIsolation : Obligations.VidDecodeIsolation := by
  unfold Obligations.VidDecodeIsolation
  intro s t ht
  rcases vidDecode_cases ht with ⟨c, rfl, hbad⟩ | ⟨hr, hidle⟩
  · obtain ⟨hframe, htrees⟩ := VideoOutputs.faulted s c
    exact ⟨hframe, htrees, fun h0 => absurd ((faulted_statusCause s 0x50 c).symm.trans h0) c.code_ne_zero,
      fun hl hc _ => absurd ⟨hl, hc⟩ hbad⟩
  · cases hr with
    | running _ hw _ => exact absurd (hw.symm.trans hidle) nofun
    | complete hv hw hend =>
      obtain ⟨hframe, htrees⟩ := hv.outputs hw
      have hheight : t.height = s.height := by rw [hframe]
      exact ⟨hframe, htrees, fun _ => hheight ▸ hend, fun _ _ hne => absurd hv.statusCause hne⟩
    | @fault u c _ hv hw hin =>
      obtain ⟨hframe, htrees⟩ := hv.outputs_raiseFault hw c
      refine ⟨hframe, htrees, fun h0 => absurd ((raiseFault_statusCause c u).symm.trans h0) c.code_ne_zero,
        fun _ _ _ => ?_⟩
      have hheight : u.height = s.height := by rw [hv.frame]; rfl
      rw [raiseFault_video c hw, ← hheight]
      exact hin

/-! ### The causes of a command -/

/-- From `s` to `t` the command `i` raises nothing, or a cause that its row of the table allows (60_exceptions.md R293). -/
def CauseFrom (i : Instr) (s t : State) : Prop :=
  t.statusCause = s.statusCause ∨ ∃ c : Cause, mayRaise i c = true ∧ t.statusCause = c.code

theorem CauseFrom.of_status {i : Instr} {s t : State} (h : t.status = s.status) : CauseFrom i s t :=
  .inl (by rw [State.statusCause, h]; rfl)

theorem CauseFrom.refl (i : Instr) (s : State) : CauseFrom i s s := .inl rfl

theorem CauseFrom.trans {i : Instr} {s t u : State} (h : CauseFrom i s t) (h' : CauseFrom i t u) : CauseFrom i s u := by
  rcases h' with e | hc
  · unfold CauseFrom
    rw [e]
    exact h
  · exact .inr hc

theorem causeFrom_raiseFault {i : Instr} {c : Cause} (h : mayRaise i c = true) (s t : State) :
    CauseFrom i s (raiseFault c t) := .inr ⟨c, h, raiseFault_statusCause c t⟩

/-- A command whose row allows every cause (60_exceptions.md R293: AUD_DECODE). -/
theorem Reaches.causeFrom {i : Instr} {s t : State} (h : Reaches i s t) (hi : ∀ c, mayRaise i c = true) :
    CauseFrom i s t := by
  rcases h with hw | ⟨c, u, rfl, _⟩
  · exact .of_status hw.status
  · exact causeFrom_raiseFault (hi c) s u

theorem FrameReaches.causeFrom {s t : State} (h : FrameReaches s t) : CauseFrom .vidDecode s t := by
  cases h with
  | running hv _ _ => exact .of_status (by rw [hv.frame])
  | complete hv _ _ => exact .of_status (by rw [hv.frame])
  | fault c hc _ _ _ => exact causeFrom_raiseFault hc s _

/-- The causes of a small tree's build are in the row of ST_BUILD. -/
theorem SmallCause.mayRaise_stBuild {c : Cause} (h : SmallCause c) : mayRaise .stBuild c = true := by
  rcases h with rfl | rfl | rfl <;> rfl

/-- The causes of a bigtree's build are in the rows of BT_BUILD and BT_BUILD_ALL. -/
theorem BigCause.mayRaise_btBuild {c : Cause} (h : BigCause c) :
    mayRaise .btBuild c = true ∧ mayRaise .btBuildAll c = true := by
  rcases h with (rfl | rfl | rfl) | rfl <;> exact ⟨rfl, rfl⟩

/-! #### The run of a command -/

theorem engineStep_small_causeFrom {s t : State} {slot : Fin 4} {w : SmallWork} (h : s.work = .small slot w)
    (ht : engineStep tokenMeaning s = .next t) : CauseFrom .stBuild s t := by
  rcases engineStep_small_cases h with ⟨j, w', _, _, e⟩ | ⟨j, tree, _, _, e⟩ | ⟨j, c, _, hc, e⟩ <;> rw [e] at ht <;>
    cases ht
  · exact .of_status rfl
  · exact .of_status rfl
  · exact causeFrom_raiseFault hc.mayRaise_stBuild s _

theorem putBig_status (p : BigProgress) (s : State) : (putBig p s).status = s.status := by
  unfold putBig
  repeat' split
  all_goals rfl

theorem engineStep_big_causeFrom {i : Instr} (hi : ∀ c, BigCause c → mayRaise i c = true) {f : BigWork → Work}
    (hf : IsBig f) {s t : State} {w : BigWork} (h : s.work = f w) (ht : engineStep tokenMeaning s = .next t) :
    CauseFrom i s t := by
  rcases engineStep_big_cases hf h with ⟨j, w', _, _, e⟩ | ⟨j, tree, _, _, e⟩ | ⟨j, c, _, hc, e⟩ <;> rw [e] at ht <;>
    cases ht
  · exact .of_status rfl
  · exact .of_status (putBig_status _ _)
  · exact causeFrom_raiseFault (hi c hc) s _

theorem engineStep_audio_causeFrom {s t : State} {k : Fin 7} {w : AudioWork} (h : s.work = .audio k w)
    (ht : engineStep tokenMeaning s = .next t) : CauseFrom .audDecode s t := by
  obtain ⟨u, e, hk⟩ := keeps_audio h
  rw [ht] at e
  cases e
  exact hk.reaches.causeFrom fun _ => rfl

/-- Every step of a command's run keeps to the command's row (60_exceptions.md R293). -/
theorem engineStep_causeFrom {i : Instr} {s t : State} (hw : s.work ≠ .idle) (hb : Belongs i s.work)
    (hc : CursorInFrame s) (ht : engineStep tokenMeaning s = .next t) : CauseFrom i s t := by
  cases h : s.work with
  | idle => exact absurd h hw
  | small slot w => rw [h] at hb; cases hb; exact engineStep_small_causeFrom h ht
  | big id w =>
    rw [h] at hb
    cases hb
    exact engineStep_big_causeFrom (fun _ hc => hc.mayRaise_btBuild.1) (.inl ⟨id, rfl⟩) h ht
  | bigAll id w =>
    rw [h] at hb
    cases hb
    exact engineStep_big_causeFrom (fun _ hc => hc.mayRaise_btBuild.2) (.inr ⟨id, rfl⟩) h ht
  | audio k w => rw [h] at hb; cases hb; exact engineStep_audio_causeFrom h ht
  | video => rw [h] at hb; cases hb; exact (engineStep_frameReaches h (hc h) ht).causeFrom

theorem runCommand_causeFrom {i : Instr} {s t : State} (hb : Belongs i s.work) (hc : CursorInFrame s)
    (h : runCommand s = .next t) : CauseFrom i s t := by
  have hstep : ∀ u v : State, u.work ≠ .idle → (CauseFrom i s u ∧ Belongs i u.work ∧ CursorInFrame u) →
      engineStep tokenMeaning u = .next v → (CauseFrom i s v ∧ Belongs i v.work ∧ CursorInFrame v) := by
    rintro u v hw ⟨hu, hbu, hcu⟩ e
    obtain ⟨_, e', hkeeps⟩ := engineStep_keeps hw hbu hcu
    obtain ⟨_, e'', _, hcv, _⟩ := engineStep_progress hw hcu
    rw [e] at e' e''
    cases e'
    cases e''
    exact ⟨hu.trans (engineStep_causeFrom hw hbu hcu e), hkeeps.belongs, hcv⟩
  exact (runSteps_invariant hstep ⟨.refl i s, hb, hc⟩ h).1

/-! #### The rules of the commands -/

/-- The causes in the row of the command `i`. -/
def RowCause (i : Instr) (c : Cause) : Prop := mayRaise i c = true

/-- The outcome of the rule of the command `i`, or of a part of it, begun in `s`: the causes are those of the command's row
(60_exceptions.md R293). -/
def OutcomeInRow {α : Type} (i : Instr) (s : State) (r : EStateM.Result Cause State α) : Prop :=
  match r with
  | .ok _ t => CauseFrom i s t
  | .error c _ => RowCause i c

/-- An operation that, from any state, keeps to the row of the command `i`. -/
def InRow {α : Type} (i : Instr) (e : Engine α) : Prop := ∀ s, OutcomeInRow i s (e s)

theorem inRow_pure {α : Type} (i : Instr) (a : α) : InRow i (pure a : Engine α) := fun s => .refl i s

theorem inRow_bind {α β : Type} {i : Instr} {e : Engine α} {f : α → Engine β} (h : InRow i e) (hf : ∀ a, InRow i (f a)) :
    InRow i (e >>= f) := by
  intro s
  have h1 := h s
  rw [ops_bind]
  rcases he : e s with ⟨a, t⟩ | ⟨c, t⟩ <;> rw [he] at h1
  · have h2 := hf a t
    dsimp only
    rcases hfa : f a t with ⟨b, u⟩ | ⟨c, u⟩ <;> rw [hfa] at h2
    · exact CauseFrom.trans h1 h2
    · exact h2
  · exact h1

theorem inRow_modify {i : Instr} {f : State → State} (h : ∀ s, (f s).status = s.status) : InRow i (modify f) :=
  fun s => .of_status (h s)

theorem inRow_putResult (i : Instr) (v : Half) : InRow i (putResult v) := inRow_modify fun _ => rfl

theorem inRow_reading {α : Type} {i : Instr} {r : List Host.Cell → Reader α} (h : ∀ m, Moves (RowCause i) (r m)) :
    InRow i (reading r) := by
  intro s
  have hm := h s.inMem s.bs
  rcases hr : r s.inMem s.bs with ⟨a, b⟩ | ⟨c, b⟩ <;> rw [hr] at hm
  · rw [reading_ok hr]
    exact CauseFrom.of_status rfl
  · rw [reading_error hr]
    exact hm.1

theorem inRow_btLookup (id : Fin 4) : InRow .btLookup (btLookup id) := by
  intro s
  have hd := draws_btLookup id s
  rcases he : btLookup id s with ⟨v, t⟩ | ⟨c, t⟩ <;> simp only [he] at hd
  · exact CauseFrom.of_status (by rw [hd.frame])
  · rcases hd.2 with rfl | rfl <;> rfl

theorem inRow_bsOpen : InRow .bsOpen bsOpenRule := by
  intro s
  simp only [bsOpenRule, ops_bind, ops_get]
  by_cases hl : windowLegal s s.arg0 s.arg1 = true
  · rw [if_pos hl]
    exact CauseFrom.of_status rfl
  · rw [if_neg hl]
    rfl

theorem inRow_bsReadBit : InRow .bsReadBit bsReadBitRule :=
  inRow_bind (inRow_reading fun m => (consumes_readBit (C := RowCause .bsReadBit) rfl m).moves) fun _ => inRow_putResult _ _

theorem inRow_bsReadByte : InRow .bsReadByte bsReadByteRule :=
  inRow_bind (inRow_reading (moves_readByte rfl)) fun _ => inRow_putResult _ _

theorem inRow_stLookup : InRow .stLookup stLookupRule := by
  intro s
  simp only [stLookupRule, ops_bind, ops_get]
  cases slotOperand s.arg0 with
  | none => rfl
  | some slot =>
    have hread : InRow .stLookup (reading fun m => stLookup m s.atree[slot]) :=
      inRow_reading fun m => moves_stLookup (C := RowCause .stLookup) rfl rfl m _
    exact inRow_bind hread (fun _ => inRow_putResult _ _) s

theorem inRow_btReset : InRow .btReset btResetRule := by
  intro s
  simp only [btResetRule, ops_bind, ops_get]
  cases slotOperand s.arg0 with
  | none => rfl
  | some id => exact CauseFrom.of_status rfl

theorem inRow_btLookupRule : InRow .btLookup btLookupRule := by
  intro s
  simp only [btLookupRule, ops_bind, ops_get]
  cases slotOperand s.arg0 with
  | none => rfl
  | some id => exact inRow_bind (inRow_btLookup id) (fun _ => inRow_putResult _ _) s

theorem inRow_stBuild : InRow .stBuild stBuildStart := by
  intro s
  simp only [stBuildStart, ops_bind, ops_get]
  cases slotOperand s.arg0 with
  | none => rfl
  | some slot => exact CauseFrom.of_status rfl

theorem inRow_btBuild : InRow .btBuild btBuildStart := by
  intro s
  simp only [btBuildStart, ops_bind, ops_get]
  cases slotOperand s.arg0 with
  | none => rfl
  | some id => exact CauseFrom.of_status rfl

theorem inRow_btBuildAll : InRow .btBuildAll btBuildAllStart := by
  intro s
  simp only [btBuildAllStart, ops_bind, ops_get]
  by_cases hl : windowLegal s s.arg0 s.arg1 = true
  · rw [if_pos hl]
    by_cases h0 : s.arg1 = 0
    · rw [if_pos h0]
      exact CauseFrom.of_status rfl
    · rw [if_neg h0]
      exact CauseFrom.of_status rfl
  · rw [if_neg hl]
    rfl

theorem inRow_vidDecode : InRow .vidDecode vidDecodeStart := by
  intro s
  simp only [vidDecodeStart, ops_bind, ops_get]
  by_cases hl : windowLegal s s.arg0 s.arg1 = true
  · rw [if_pos hl]
    by_cases hc : videoConfigLegal s = true
    · rw [if_pos hc]
      exact CauseFrom.of_status rfl
    · rw [if_neg hc]
      rfl
  · rw [if_neg hl]
    rfl

/-! #### Every command -/

theorem command_causeFrom {i : Instr} {code : Byte} {e : Engine Unit} {s t : State} (h : InRow i e)
    (ht : command code e s = .next t) : CauseFrom i (startCommand code s) t := by
  have h1 := h (startCommand code s)
  rcases he : e (startCommand code s) with ⟨⟨⟩, u⟩ | ⟨c, u⟩ <;> rw [he] at h1
  · rw [command_ok he] at ht
    cases ht
    exact h1
  · rw [command_error he] at ht
    cases ht
    exact causeFrom_raiseFault h1 _ u

theorem streamCommand_causeFrom {i : Instr} {code : Byte} {e : Engine Unit} {s t : State} (h : InRow i e)
    (hk : RuleKeeps i e) (hc : StartsRun e (startCommand code s)) (ht : streamCommand code e s = .next t) :
    CauseFrom i (startCommand code s) t := by
  have h1 := h (startCommand code s)
  have h2 := hk (startCommand code s) rfl
  unfold StartsRun at hc
  rcases he : e (startCommand code s) with ⟨⟨⟩, u⟩ | ⟨c, u⟩ <;> rw [he] at h1 h2
  · rw [he] at hc
    rw [streamCommand_ok he] at ht
    exact CauseFrom.trans h1 (runCommand_causeFrom h2.belongs hc.2 ht)
  · rw [streamCommand_error he] at ht
    cases ht
    exact causeFrom_raiseFault h1 _ u

/-- Every command keeps to its row of the table (60_exceptions.md R293). -/
theorem exec_causeFrom {i : Instr} {code : Byte} (hi : commandCode i = some code) {s t : State}
    (h : exec i s = .next t) : CauseFrom i (startCommand code s) t := by
  cases i <;> cases hi
  case nop => exact command_causeFrom (inRow_pure _ ()) h
  case softReset => exact command_causeFrom (inRow_modify (f := softResetState) fun _ => rfl) h
  case logClear => exact command_causeFrom (inRow_modify (f := fun s => { s with log := 0 }) fun _ => rfl) h
  case bsOpen => exact command_causeFrom inRow_bsOpen h
  case bsReadBit => exact command_causeFrom inRow_bsReadBit h
  case bsReadByte => exact command_causeFrom inRow_bsReadByte h
  case stBuild => exact streamCommand_causeFrom inRow_stBuild ruleKeeps_stBuild (startsRun_stBuildStart _) h
  case stLookup => exact command_causeFrom inRow_stLookup h
  case btBuild => exact streamCommand_causeFrom inRow_btBuild ruleKeeps_btBuild (startsRun_btBuildStart _) h
  case btBuildAll =>
    exact streamCommand_causeFrom inRow_btBuildAll ruleKeeps_btBuildAll (startsRun_btBuildAllStart rfl) h
  case btReset => exact command_causeFrom inRow_btReset h
  case btLookup => exact command_causeFrom inRow_btLookupRule h
  case audDecode => exact (exec_keeps rfl h).reaches.causeFrom fun _ => rfl
  case vidDecode => exact streamCommand_causeFrom inRow_vidDecode ruleKeeps_vidDecode (startsRun_vidDecodeStart _) h

/-- Settles O53: a command starts with cause 0, and its checks and every step of its run keep to its row. -/
theorem causesByCommand : Obligations.CausesByCommand := by
  unfold Obligations.CausesByCommand
  intro i s t hi ht
  obtain ⟨code, hcode⟩ := exists_commandCode hi
  have h := exec_causeFrom hcode ht
  rwa [CauseFrom, startCommand_statusCause] at h

end Sys2Proof.Machine
end

section
/-! What cannot happen by itself after power-on reset: no step without a host access, and every command that reads, looks up
or decodes faults with no other effect (60_exceptions.md R302; 70_reset_and_hazards.md R331). -/

-- The package is compiled as one text: elaborating in order keeps the number of threads small.
set_option Elab.async false

namespace Sys2Proof.Machine

open Sys2Proof Sys2Proof.Config

/-! ### The idle step -/

/-- Between commands and with no host access pending, a step changes nothing (60_exceptions.md R302). -/
theorem step_of_noHost {s : State} (hw : s.work = .idle) (hh : s.host = []) : step s = .next s := by
  simp only [step, hw, hh]

/-! ### The end of a window -/

/-- At the end of the window BS_READ_BIT faults with no other effect (40_bitstream.md R130, R133). -/
theorem bsReadBit_atEnd {s : State} (h : s.bs.size ≤ s.bs.bytePos) :
    exec .bsReadBit s = .next (s.faulted 0x11 .exhausted) :=
  (bsReadBitResult s).2 h

/-- With every bit of the window consumed, BS_READ_BYTE faults and the position stays (40_bitstream.md R131, R134). -/
theorem bsReadByte_noBits {s : State} (h : s.bs.left = 0) :
    exec .bsReadByte s = .next (s.faulted 0x12 .exhausted) := by
  refine command_read_error 0x12 (fun v : Byte => v.setWidth 16) (b := s.bs) ?_
  rw [readByte_eq, h, if_neg (by decide), BitStream.skip_zero]

/-! ### The state after power-on reset -/

section
variable (params : Params) (inMem : List Host.Cell) (host : List HostOp) (draw : Nat)

theorem powerOn_atree (i : Fin 4) : (State.powerOn params inMem host draw).atree[i] = .absent := by
  simp [State.powerOn]

theorem powerOn_vt (i : Fin 4) : (State.powerOn params inMem host draw).vt[i] = .absent := by
  simp [State.powerOn]

theorem powerOn_trk (k : Fin 7) : (State.powerOn params inMem host draw).trk[k] = 0 := by
  simp [State.powerOn]

/-- ARG0 and ARG1 name the empty window at 0, which every machine has (20_memory.md R61). -/
theorem powerOn_windowLegal : windowLegal (State.powerOn params inMem host draw) 0 0 = true :=
  windowLegal_iff.2 (Nat.zero_le _)

/-- CFG.VERSION is 0, which no frame may have (44_video_blocks.md R230). -/
theorem powerOn_videoConfig : videoConfigLegal (State.powerOn params inMem host draw) = false := rfl

/-- Descriptor 0 says that the track does not exist (10_state.md R25). -/
theorem powerOn_trkExists (k : Fin 7) : trkExists (State.powerOn params inMem host draw).trk[k] = false := by
  rw [powerOn_trk]
  rfl

end

/-- Settles O7: after reset the window is empty, the trees are Absent, and neither the frame nor the track is configured;
each command meets the fault of the first of these it asks for. -/
theorem safeAfterReset : Obligations.SafeAfterReset := by
  unfold Obligations.SafeAfterReset
  refine ⟨fun s hw hh => step_of_noHost hw hh, fun params inMem draw => ⟨?readBit, ?readByte, ?small, ?big, ?video, ?audio⟩⟩
  case readBit => exact bsReadBit_atEnd (BitVec.le_refl _)
  case readByte => exact bsReadByte_noBits rfl
  case small => exact (stLookupResult _ 0 rfl).2.1 (powerOn_atree params inMem [] draw 0)
  case big => exact (btLookupResult _ 0 rfl).2.1 (powerOn_vt params inMem [] draw 0)
  case video =>
    exact vidDecode_badConfig (powerOn_windowLegal params inMem [] draw) (powerOn_videoConfig params inMem [] draw)
  case audio =>
    exact audDecode_badConfig (k := 0) rfl (powerOn_windowLegal params inMem [] draw)
      (.inl (powerOn_trkExists params inMem [] draw 0))

end Sys2Proof.Machine
end
